-- ==== Sys2Proof/Word.lean ====
section
/-! DEFINITION. Sys2Proof/Word.lean: the widths the manual uses, a fixed group of four like things, and the type of a
sparse store. -/

namespace Sys2Proof

abbrev Byte := BitVec 8
abbrev Word := BitVec 32

/-- The levels of CH0 to CH15, or a set of channels (a glitch set, an enable mask); channel c is bit c. -/
abbrev Levels := BitVec 16

/-- A station number: a source or a strap value. -/
abbrev Station := BitVec 3

/-- One level or drive for each of FL0 to FL3; line i is bit i. -/
abbrev FlagLines := BitVec 4

/-- A sparse store: (position, content) pairs, positions strictly rising, unwritten positions unlisted. -/
abbrev Mem (α : Type) := List (Nat × α)

/-- Four like things, numbered 0 to 3: DU0 to DU3, FC0 to FC3, P0 to P3, FL0 to FL3. -/
structure Quad (α : Type) where
  e0 : α
  e1 : α
  e2 : α
  e3 : α
deriving DecidableEq, Repr

namespace Quad
variable {α β : Type}

def replicate (a : α) : Quad α := ⟨a, a, a, a⟩

def get (q : Quad α) (i : Fin 4) : α :=
  match i with
  | 0 => q.e0
  | 1 => q.e1
  | 2 => q.e2
  | 3 => q.e3

def set (q : Quad α) (i : Fin 4) (a : α) : Quad α :=
  match i with
  | 0 => { q with e0 := a }
  | 1 => { q with e1 := a }
  | 2 => { q with e2 := a }
  | 3 => { q with e3 := a }

def map (f : α → β) (q : Quad α) : Quad β := ⟨f q.e0, f q.e1, f q.e2, f q.e3⟩

def toList (q : Quad α) : List α := [q.e0, q.e1, q.e2, q.e3]

end Quad

end Sys2Proof
end

