-- ==== Sys2Proof/Config.lean ====
section
/-! DEFINITION. Sys2Proof/Config.lean: the fixed figures of 00_scope.md section 5, the settings a start-up image supplies
(as it spells them and as the part runs them), the frames of the message line as read, and the free values. -/

namespace Sys2Proof

namespace Config

/-! ### Fixed figures -/

/-- 00_scope.md 5: mark interval, 2^20 local ticks. -/
def markInterval : Nat := 1048576
/-- R11: the extra ticks of the listen-only timeout. -/
def listenMargin : Nat := 65536
/-- R13, R14: K while UNLOCKED. -/
def unlockedK : Nat := 65536
/-- R12: the lowest accepted interval. -/
def acceptedLow : Nat := 1006633
/-- R58: entry positions of the capture store. -/
def storeEntries : Nat := 262144
/-- R59: the largest sample count of an entry. -/
def maxEntryCount : Nat := 16777216
/-- R70: positions per checkpoint slot. -/
def checkpointSpacing : Nat := 1024
/-- R121: records the decode log may hold. -/
def logCapacity : Nat := 4096
/-- R122: the counter value that stands for exhausted. -/
def sequenceLimit : Nat := 4294967296
/-- R125: the value at which a lost count holds. -/
def lostLimit : Nat := 65535
/-- R170: entries of the transmit queue. -/
def queueCapacity : Nat := 8
/-- R174: DATA is formed only with fewer entries occupied than this. -/
def dataRoom : Nat := 4
/-- R18: the mark count at which a run reaches TIME_LIMIT, 2^28 - 1. -/
def timeLimitMarks : Nat := 268435455
/-- R139: local ticks to the millisecond. -/
def ticksPerMs : Nat := 500000
/-- Chapter 8: columns and rows of the band. -/
def columns : Nat := 320
def rows : Nat := 120

/-! ### Free values: values the manual leaves open. None has a body, so no proof can rest on one. -/

/-- R66, R127 (log 10): of the retention advances a sample causes that LOG has not taken yet, how many it takes before the
next record of that sample. -/
opaque advancesBeforeRecord : Nat → Nat

/-- R25 with R27 (log 11): the level an undriven channel with its keeper on settles to when it holds no level. -/
opaque keeperLevel : Nat → Bool

/-- R151 (log 12): what a pixel of the frame store holds before any render has written it. -/
opaque unwrittenPixel : Nat → BitVec 2

/-- Section 12.2 with R18, R101 (log 43): what the six bytes of an end time carry that does not fit them. -/
opaque unstatedEndTime : Nat → BitVec 48

/-- R163 (log 15): the level the other stations put on the message line at a tick, true recessive, where no command gives it:
within a frame, and on a line that has not been seen recessive since it was dominant. -/
opaque messageLevel : Nat → Bool

end Config

/-! ### Probe settings (chapter 2) -/

inductive Hysteresis where
  | mV0 | mV25 | mV50 | mV100
deriving DecidableEq, Repr

/-- A probe input: driven to a voltage, or undriven, with the voltage an unterminated input then follows. Microvolts. -/
inductive ProbeInput where
  | driven (microvolts : Int)
  | undriven (microvolts : Int)
deriving DecidableEq, Repr

/-- A threshold group's probe settings as the image spells them; `none` is a hysteresis code that names no value. -/
structure RawGroup where
  trim : Int
  hysteresis : Option Hysteresis
  glitchDetection : Bool
deriving DecidableEq, Repr

structure RawProbe where
  groupA : RawGroup
  groupB : RawGroup
  enabled : Levels
  inverted : Levels
  pullUp : Levels
  pullDown : Levels
  keeper : Levels
deriving DecidableEq, Repr

/-! ### Station options, panel settings, run setup -/

structure StationOptions where
  listenOnly : Bool
  referenceClock : Bool
deriving DecidableEq, Repr

/-- R152: the panel modes. -/
inductive PanelMode where
  | normal | partialRows | reduced | sleep
deriving DecidableEq, Repr

/-- The image's panel settings as spelt; `none` is a mode code that names no mode. -/
structure RawPanel where
  mode : Option PanelMode
  firstRow : Nat
  lastRow : Nat
  inversion : Bool
  palette : Quad (BitVec 16)
  horizontalReversal : Bool
  verticalReversal : Bool
  framePeriodMs : Nat
  scaleStep : Nat
deriving DecidableEq, Repr

/-- R35: the run setup. -/
structure RunSetup where
  divider : Nat
  segments : Nat
  fraction : Nat
  prefillWait : Bool
  followNotice : Bool
  codeA : Byte
  codeB : Byte
deriving DecidableEq, Repr

/-! ### Decoder settings (chapter 6) -/

inductive Parity where
  | none | even | odd
deriving DecidableEq, Repr

inductive IdleLevel where
  | high | low
deriving DecidableEq, Repr

inductive SelectPolarity where
  | activeLow | activeHigh
deriving DecidableEq, Repr

inductive CaptureEdge where
  | leading | trailing
deriving DecidableEq, Repr

inductive BitOrder where
  | msbFirst | lsbFirst
deriving DecidableEq, Repr

inductive ClockEdge where
  | rise | fall | both
deriving DecidableEq, Repr

/-- A decoder unit's settings as the image spells them. A channel field is a number (above 15 it names none, R96); an
`Option` choice is `none` when its code names no listed value (R181). -/
inductive RawDecoder where
  | off
  | unlistedKind
  | uart (channel bitPeriod dataBits : Nat) (parity : Option Parity) (stopBits : Nat) (idle : Option IdleLevel)
  | spi (clock select : Nat) (polarity : Option SelectPolarity) (dataOut dataIn : Nat) (clockIdle : Option Bool)
      (capture : Option CaptureEdge) (width : Nat) (order : Option BitOrder)
  | i2c (scl sda : Nat)
  | parallel (clock : Nat) (edge : Option ClockEdge) (data : List Nat) (qualifier : Nat) (qualifyingLevel : Option Bool)
deriving DecidableEq, Repr

structure UartSettings where
  channel : Fin 16
  bitPeriod : Nat
  dataBits : Nat
  parity : Parity
  stopBits : Nat
  idle : IdleLevel
deriving DecidableEq, Repr

structure SpiSettings where
  clock : Fin 16
  select : Option (Fin 16)
  polarity : SelectPolarity
  dataOut : Option (Fin 16)
  dataIn : Option (Fin 16)
  clockIdle : Bool
  capture : CaptureEdge
  width : Nat
  order : BitOrder
deriving DecidableEq, Repr

structure I2cSettings where
  scl : Fin 16
  sda : Fin 16
deriving DecidableEq, Repr

structure ParallelSettings where
  clock : Fin 16
  edge : ClockEdge
  data : List (Fin 16)
  qualifier : Option (Fin 16)
  qualifyingLevel : Bool
deriving DecidableEq, Repr

/-- A unit's kind and settings after clamping and the assignment check (R96 to R98). -/
inductive DecoderSettings where
  | off
  | uart (c : UartSettings)
  | spi (c : SpiSettings)
  | i2c (c : I2cSettings)
  | parallel (c : ParallelSettings)
deriving DecidableEq, Repr

/-- R100: the nine record kinds; the layout code of each is its place in this list (12_message_and_record_layouts.md 12.2). -/
inductive RecordKind where
  | uartChar | uartBreak | spiWord | i2cStart | i2cRestart | i2cAddress | i2cByte | i2cStop | parWord
deriving DecidableEq, Repr

/-! ### Field comparators (R130) -/

inductive FieldSelect where
  | value | value2
deriving DecidableEq, Repr

/-- R133: the orderings a comparison can give. -/
inductive FieldOrdering where
  | lower | equal | higher
deriving DecidableEq, Repr

structure AcceptSet where
  lower : Bool
  equal : Bool
  higher : Bool
deriving DecidableEq, Repr

/-- A comparator's settings as the image spells them. -/
structure RawComparator where
  source : Option (Fin 4)
  kinds : BitVec 9
  field : Option FieldSelect
  width : Nat
  mask : Word
  constant : Word
  isSigned : Bool
  accept : AcceptSet
deriving DecidableEq, Repr

structure Comparator where
  source : Fin 4
  kinds : BitVec 9
  field : FieldSelect
  width : Nat
  mask : Word
  constant : Word
  isSigned : Bool
  accept : AcceptSet
deriving DecidableEq, Repr

/-! ### The sequencer program (R76) -/

/-- R78: the channels tested and the level each must have; a channel outside `care` is X. -/
structure PatternTerm where
  care : Levels
  value : Levels
deriving DecidableEq, Repr

/-- R79: the channels whose rise, and whose fall, is an edge; in both sets: either; in neither: none. -/
structure EdgeTerm where
  rise : Levels
  fall : Levels
deriving DecidableEq, Repr

/-- R81: the lines tested and the level each must have (1 asserted); a line outside `care` is X. -/
structure FlagTerm where
  care : FlagLines
  value : FlagLines
deriving DecidableEq, Repr

inductive Combine where
  | all | any
deriving DecidableEq, Repr

/-- The condition of one branch: at most one pattern, edge and flag term, and a hit term for each comparator in `hits`. -/
structure Condition where
  pattern : Option PatternTerm
  edge : Option EdgeTerm
  flag : Option FlagTerm
  hits : BitVec 4
  combine : Combine
deriving DecidableEq, Repr

inductive FlagPart where
  | keep | assert | release
deriving DecidableEq, Repr

inductive QualifierPart where
  | keep | on | off
deriving DecidableEq, Repr

structure Action where
  next : Fin 8
  fire : Bool
  flags : Quad FlagPart
  qualifier : QualifierPart
deriving DecidableEq, Repr

structure LevelRecord where
  proceed : Condition
  count : BitVec 16
  consecutive : Bool
  proceedAction : Action
  escape : Condition
  dwellLimit : Nat
  escapeAction : Action
deriving DecidableEq, Repr

abbrev Program := Vector LevelRecord 8

/-! ### Lanes (R142) -/

inductive LaneSource where
  | channel (c : Fin 16)
  | decoder (d : Fin 4)
deriving DecidableEq, Repr

/-- A lane as the image spells it; `none` is a source code that names no channel and no unit. -/
structure RawLane where
  source : Option LaneSource
  height : Nat
  colour : BitVec 2
deriving DecidableEq, Repr

structure Lane where
  source : LaneSource
  height : Nat
  colour : BitVec 2
deriving DecidableEq, Repr

/-- The lanes part of a profile: the lane count the image gives and the lanes it spells. -/
structure RawLanes where
  count : Nat
  lanes : List RawLane
deriving DecidableEq, Repr

/-! ### Profiles and the image (R180) -/

/-- A present profile; each part is present or absent. -/
structure RawProfile where
  decoders : Option (Quad RawDecoder)
  comparators : Option (Quad RawComparator)
  sequencer : Option Program
  lanes : Option RawLanes
deriving DecidableEq, Repr

/-- What the five sections of an image spell. The manual gives no byte layout for them (00_scope.md 2), so the command
that ends an image attempt carries them beside the bytes the header checks are made on (log 7). -/
structure RawImage where
  options : StationOptions
  probe : RawProbe
  panel : RawPanel
  setup : RunSetup
  profiles : Quad (Option RawProfile)
deriving DecidableEq, Repr

/-- The image contents the loader holds: each section present or absent. -/
structure ImageContents where
  options : Option StationOptions
  probe : Option RawProbe
  panel : Option RawPanel
  setup : Option RunSetup
  profiles : Option (Quad (Option RawProfile))
deriving DecidableEq, Repr

/-! ### Frames of the message line (R162) -/

/-- A frame by its content; the length and the check byte follow from it (R184). -/
structure Frame where
  kind : BitVec 4
  source : Station
  payload : List Byte
deriving DecidableEq, Repr

/-- A frame as a receiver reads it off the line, faults and all. `payload` holds the bytes read after the length field; an
end bit is true when it read recessive. -/
structure RawFrame where
  kind : BitVec 4
  source : Station
  length : BitVec 5
  payload : List Byte
  check : Byte
  end1 : Bool
  end2 : Bool
deriving DecidableEq, Repr

/-- R22, R163: the levels a joining station finds on the mark line and on the message line. -/
structure JoinLevels where
  markAsserted : Bool
  messageRecessive : Bool
deriving DecidableEq, Repr

/-- R167, R165: the kinds of bus error STATUS reports. -/
inductive BusError where
  | check | length | kind | endBit | bit
deriving DecidableEq, Repr

/-- R168: the kinds a D316 checks and does not take. -/
inductive ReplyKind where
  | status | data | done
deriving DecidableEq, Repr

/-- R168: the kinds that carry a target. -/
inductive TargetedKind where
  | restart | panel | query | read
deriving DecidableEq, Repr

end Sys2Proof
end

