-- ==== Sys2Proof/Machine/Operands.lean ====
section
/-! DEFINITION. Sys2Proof/Machine/Operands.lean: bit and byte order (R183), collected bits, channel sets and the fields
of the operand bytes a message carries (R185). -/

namespace Sys2Proof.Machine

/-- The bits of a field, most significant first, the order the line carries them in (R162, R183). -/
def bitsMsbFirst {w : Nat} (x : BitVec w) : List Bool := (List.range w).map (fun i => x.getMsbD i)

/-- The number whose bits are listed least significant first. -/
def natLsbFirst : List Bool → Nat
  | [] => 0
  | b :: rest => b.toNat + 2 * natLsbFirst rest

/-- The number whose bits are listed most significant first. -/
def natMsbFirst (bits : List Bool) : Nat := natLsbFirst bits.reverse

/-- The `n` low bytes of a number, most significant byte first (R183). -/
def bytesBE : Nat → Nat → List Byte
  | 0, _ => []
  | n + 1, v => BitVec.ofNat 8 (v / 256 ^ n) :: bytesBE n v

/-- The number a list of bytes spells, most significant byte first (R183). -/
def natBE (bytes : List Byte) : Nat := bytes.foldl (fun v b => v * 256 + b.toNat) 0

/-- The set of the channels below `n` that satisfy `f`. -/
def channelsBelow (f : Nat → Bool) : Nat → Levels
  | 0 => 0
  | n + 1 => channelsBelow f n ||| (if f n then (1#16 <<< n) else 0)

/-- The set of the channels that satisfy `f`. -/
def channelSet (f : Nat → Bool) : Levels := channelsBelow f 16

/-- The set holding one channel. -/
def oneChannel (c : Nat) : Levels := 1#16 <<< c

/-- The set holding the channels of a list. -/
def channelsOf (cs : List (Fin 16)) : Levels := cs.foldl (fun m c => m ||| oneChannel c.val) 0

/-- The level of a channel in a word of levels. -/
def levelOf (w : Levels) (c : Fin 16) : Bool := w.getLsbD c.val

/-- Group A is CH0 to CH7, group B CH8 to CH15 (00_scope.md 1.1). -/
def groupAChannels : Levels := 0x00FF
def groupBChannels : Levels := 0xFF00

/-- R96: a channel field above 15 names none. -/
def channelField (n : Nat) : Option (Fin 16) := if h : n < 16 then some ⟨n, h⟩ else none

/-- R185: a target byte is read from its bits 2 to 0. -/
def targetOf (b : Byte) : Station := b.extractLsb' 0 3

/-- R168: a target addresses this station when it equals its strap value or is 7. -/
def addressed (strap target : Station) : Bool := target == strap || target == 7

end Sys2Proof.Machine
end

