-- ==== Sys2Proof/Machine/Blocks.lean ====
section
/-! DEFINITION. Sys2Proof/Machine/Blocks.lean: what each block of the part holds (00_scope.md 1.2), as plain data. -/

namespace Sys2Proof.Machine

/-! ### TAU: the timebase and alignment unit (chapter 1) -/

/-- R1. -/
inductive ClockState where
  | internal | refActive | refAbsent | refLost
deriving DecidableEq, Repr

/-- R12: what becomes of the interval in progress at the next observed leading edge. Its length is the emission timer's
count. -/
inductive IntervalInProgress where
  /-- No mark edge since the start: neither tested nor counted. -/
  | unmeasured
  /-- A synthesized mark, a clock source switch or MARK_STUCK since the previous mark edge. -/
  | discarded
  | measured
deriving DecidableEq, Repr

/-- R15 to R19: stack time, held only within a run. -/
structure RunTime where
  /-- Nm, the mark edges since the run's start mark. -/
  marks : Nat
  /-- d, local ticks since the last mark edge or rebase. -/
  ticks : Nat
  /-- b, the base offset. -/
  base : Nat
  /-- The offset o held at the previous local tick, which the mark correction is taken from (R17). -/
  previousOffset : Nat
  /-- s, the next sample index. -/
  nextSample : Nat
deriving DecidableEq, Repr

structure Tau where
  clockState : ClockState
  monitorRunning : Bool
  windowCount : Nat
  inRangeRun : Nat
  /-- The level of the mark line this station observes. -/
  markLine : Bool
  /-- Ticks left of this station's own drive of the mark line. -/
  markDrive : Option Nat
  emissionTimer : Nat
  synthesisCount : Nat
  interval : IntervalInProgress
  pulseWidth : Nat
  startPending : Bool
  candidate : Bool
  markStuck : Bool
  history : List Nat
  locked : Bool
  rateFactor : Nat
  runTime : Option RunTime
deriving DecidableEq, Repr

/-! ### PFE: the probe front end (chapter 2) -/

structure GroupState where
  code : Option Byte
  trim : Int
  hysteresis : Hysteresis
  glitchDetection : Bool
deriving DecidableEq, Repr

structure Pfe where
  /-- What the environment puts on each pin. -/
  inputs : Vector ProbeInput 16
  groupA : GroupState
  groupB : GroupState
  enabled : Levels
  inverted : Levels
  /-- The terminations in effect (R27). -/
  pullUp : Levels
  pullDown : Levels
  keeper : Levels
  /-- The raw levels; a disabled channel holds none, and its bit is 0. -/
  raw : Levels
  /-- The channels whose change count is 1 or 2 (R28). -/
  changedOnce : Levels
  /-- The channels whose change count is 2, which are those whose glitch-seen mark is set (R28). -/
  glitchSeen : Levels
  lastLevels : Option Levels
deriving DecidableEq, Repr

/-! ### RUN: the run controller (chapter 3) -/

inductive RunState where
  | idle | waitStart | prefill | pretrig | posttrig
deriving DecidableEq, Repr

/-- R37: the figures an ARM fixes; `segments` is n. -/
structure RunFigures where
  divider : Nat
  segments : Nat
  regionSize : Nat
  depth : Nat
deriving DecidableEq, Repr

inductive SegmentState where
  | openPre | openPost | closed
deriving DecidableEq, Repr

inductive TriggerSource where
  | none | local | remote
deriving DecidableEq, Repr

inductive CloseReason where
  | filled | stopped | timeLimit | reset
deriving DecidableEq, Repr

/-- R40, R42, R55: a record of the segment table. -/
structure SegmentRecord where
  index : Nat
  state : SegmentState
  regionFirst : Nat
  regionSize : Nat
  firstPosition : Nat
  firstSample : Nat
  nextSample : Nat
  retained : Nat
  triggerPosition : Option Nat
  ownTrigger : Option Nat
  source : TriggerSource
  reference : Option Nat
  closeReason : Option CloseReason
  shortPre : Bool
  unaligned : Bool
  refSwitch : Bool
  noticeDropped : Bool
  logLost : Bool
  recovered : Bool
  maxCorrection : Nat
deriving DecidableEq, Repr

structure Run where
  state : RunState
  setup : RunSetup
  figures : Option RunFigures
  table : List SegmentRecord
  activeProfile : Fin 4
  pendingRemote : Bool
deriving DecidableEq, Repr

/-! ### CST: the capture store (chapter 4) -/

/-- R58: what an entry keeps of its samples. An empty glitch set is an absent one. -/
inductive EntryData where
  | levels (levels : Levels) (glitch : Levels)
  | gap
deriving DecidableEq, Repr

structure Entry where
  data : EntryData
  count : Nat
deriving DecidableEq, Repr

/-- R59: the open entry; it is empty (count 0) when `holding` is none. -/
structure OpenEntry where
  start : Nat
  holding : Option Entry
deriving DecidableEq, Repr

/-- R70: a valid checkpoint slot. -/
structure Checkpoint where
  segment : Nat
  start : Nat
deriving DecidableEq, Repr

structure Cst where
  store : Mem Entry
  openEntry : Option OpenEntry
  /-- The valid slots; a slot that is not listed is invalid. -/
  checkpoints : Mem Checkpoint
deriving DecidableEq, Repr

/-! ### TSQ: the trigger sequencer (chapter 5) -/

structure Tsq where
  program : Program
  level : Fin 8
  counter : BitVec 16
  dwell : Nat
  drives : FlagLines
  qualifier : Bool
  fired : Bool
  running : Bool
deriving DecidableEq, Repr

/-! ### DEC: the decode engine (chapter 6) -/

inductive UartPhase where
  | hunt | idleLine | startCheck | data | parity | stop | breakWait
deriving DecidableEq, Repr

/-- R103 to R108; the bits are listed in the order received. -/
structure UartFraming where
  phase : UartPhase
  first : Nat
  bits : List Bool
  parityBit : Bool
  parityError : Bool
  stopsRead : Nat
deriving DecidableEq, Repr

/-- R109; the (data-out, data-in) bits in the order taken, an unassigned line's as 0. -/
structure SpiFraming where
  first : Nat
  bits : List (Bool × Bool)
deriving DecidableEq, Repr

inductive I2cPhase where
  | busFree | addrByte | dataByte
deriving DecidableEq, Repr

/-- R112; the bits of the current byte in the order read. -/
structure I2cFraming where
  phase : I2cPhase
  first : Nat
  bits : List Bool
deriving DecidableEq, Repr

/-- A unit's framing state; OFF and PARALLEL units hold none. -/
inductive Framing where
  | none
  | uart (f : UartFraming)
  | spi (f : SpiFraming)
  | i2c (f : I2cFraming)
deriving DecidableEq, Repr

structure DecodeUnit where
  settings : DecoderSettings
  running : Bool
  framing : Framing
  glitchSeen : Bool
deriving DecidableEq, Repr

structure Dec where
  units : Quad DecodeUnit
  errorMask : BitVec 4
deriving DecidableEq, Repr

/-! ### LOG and FC: the decode log and the field comparators (chapter 7) -/

structure RecordFlags where
  parity : Bool
  framing : Bool
  nack : Bool
  read : Bool
  truncated : Bool
  glitch : Bool
  clipped : Bool
deriving DecidableEq, Repr

/-- R100. -/
structure DecodeRecord where
  segment : Nat
  decoder : Fin 4
  kind : RecordKind
  value : Word
  value2 : Option Word
  bitCount : Nat
  startTime : Nat
  endTime : Nat
  flags : RecordFlags
deriving DecidableEq, Repr

/-- R121. -/
structure LogRecord where
  sequence : Nat
  content : DecodeRecord
deriving DecidableEq, Repr

structure Log where
  /-- Oldest first. -/
  records : List LogRecord
  /-- The number the next record takes; at 2^32 the counter is exhausted (R122). -/
  counter : Nat
  lost : Quad Nat
deriving DecidableEq, Repr

structure Fc where
  settings : Quad Comparator
  sticky : BitVec 4
deriving DecidableEq, Repr

/-! ### REN: the render engine (chapter 8), and the panel port (chapter 9) -/

/-- R135. -/
structure ViewRecord where
  segment : Nat
  offset : Int
  scale : Nat
  follow : Bool
deriving DecidableEq, Repr

inductive FrameState where
  | waiting | rendering | transferring
deriving DecidableEq, Repr

/-- R142: a drawn lane and its top row. -/
structure PlacedLane where
  top : Nat
  lane : Lane
deriving DecidableEq, Repr

/-- R152: the live panel settings. -/
structure LivePanel where
  mode : PanelMode
  firstRow : Nat
  lastRow : Nat
  inversion : Bool
deriving DecidableEq, Repr

/-- R140: what a frame is rendered with; `wake` marks a wake frame (R159). -/
structure FrameCapture where
  view : ViewRecord
  lanes : List PlacedLane
  origin : Nat
  reference : Option Nat
  leftEdge : Int
  panel : LivePanel
  wake : Bool
deriving DecidableEq, Repr

/-- R147: a box run under way: the record every column of it shows, and its first column. -/
structure BoxRun where
  record : LogRecord
  firstColumn : Nat
deriving DecidableEq, Repr

structure Ren where
  view : ViewRecord
  lanes : List Lane
  lanesClipped : Bool
  frameState : FrameState
  frameTimer : Nat
  framePeriodMs : Nat
  capture : Option FrameCapture
  /-- The next column to render. -/
  column : Nat
  /-- For each drawn lane of the capture, the box run under way. -/
  boxRuns : List (Option BoxRun)
  /-- The frame store: pixel row * 320 + column. -/
  frameStore : Mem (BitVec 2)
deriving DecidableEq, Repr

inductive PortState where
  | ready | frame | sleeping | asleep
deriving DecidableEq, Repr

/-- R156: the commands the port sends. -/
inductive PanelCommand where
  | setWindow (x0 x1 y0 y1 : Nat)
  | writePixels (colours : List (BitVec 16))
  | panelSleep
  | panelWake
deriving DecidableEq, Repr

structure Port where
  live : LivePanel
  palette : Quad (BitVec 16)
  horizontalReversal : Bool
  verticalReversal : Bool
  state : PortState
  wakePending : Bool
  /-- The commands of the transmission under way, in order. -/
  sending : List PanelCommand
deriving DecidableEq, Repr

/-! ### LNK: the link controller (chapter 10) -/

inductive Transmitter where
  | idle | sending | silent
deriving DecidableEq, Repr

inductive Receiver where
  | waiting | receiving | skipping
deriving DecidableEq, Repr

inductive RefusedKind where
  | arm | setup
deriving DecidableEq, Repr

inductive RefusalReason where
  | busy | noProfile
deriving DecidableEq, Repr

inductive ResetCause where
  | power | pin | link
deriving DecidableEq, Repr

/-- R172: the summary a STATUS carries. -/
structure StatusContents where
  runState : RunState
  openSegment : Option Nat
  closedCount : Nat
  locked : Bool
  clockState : ClockState
  rateFactor : Nat
  markStuck : Bool
  duplicateId : Bool
  imageBad : Bool
  lanesClipped : Bool
  errorMask : BitVec 4
  sticky : BitVec 4
  lost : Quad Nat
  observed : FlagLines
  resetCause : ResetCause
  lastRefusal : Option (RefusedKind × RefusalReason)
  lastBusError : Option BusError
deriving DecidableEq, Repr

/-- R174: the record a DATA message carries; for SEGMENTS with its trigger entry number (12.2). -/
inductive DataRecord where
  | segment (record : SegmentRecord) (triggerEntry : Option Nat)
  | decode (record : LogRecord)
  | entry (segment : Nat) (start : Nat) (entry : Entry)
deriving DecidableEq, Repr

inductive DoneReason where
  | complete | ended | cut | badRequest
deriving DecidableEq, Repr

/-- R175. -/
structure Done where
  collection : Byte
  sent : Nat
  reason : DoneReason
deriving DecidableEq, Repr

inductive Message where
  | notice (segment : Nat) (time : Nat)
  | status (contents : StatusContents)
  | data (record : DataRecord)
  | done (done : Done)
deriving DecidableEq, Repr

/-- R170: an entry of the transmit queue; its place in the list is its posting order. -/
structure QueueEntry where
  message : Message
  underTransmission : Bool
  /-- R171: a STATUS whose contents were replaced while its frame was on the line. -/
  resend : Bool
  /-- R170: a STATUS that was owed, or a DONE that was held, and that took a freed entry at this tick (log 19). -/
  tookFreedEntry : Bool
deriving DecidableEq, Repr

inductive Collection where
  | segments | decode | entries
deriving DecidableEq, Repr

/-- R173: a stream; `nextKey` is none when the start key of an ENTRIES stream named no retained entry. -/
structure Stream where
  collection : Collection
  segment : Nat
  nextKey : Option Nat
  remaining : Nat
  sent : Nat
  waiting : Bool
  /-- R174: a DATA message of this stream has been formed at this tick. -/
  formed : Bool
deriving DecidableEq, Repr

structure Lnk where
  transmitter : Transmitter
  frameOnLine : Option Frame
  receiver : Receiver
  idleCount : Nat
  /-- R163: the level the message line was last seen at, true recessive. -/
  lineRecessive : Bool
  bitClock : Nat
  /-- R163, R167: the bit of the frame under way that the bit period belongs to, 0 the start bit; none between frames and while
  the rest of one is skipped. -/
  framePosition : Option Nat
  queue : List QueueEntry
  statusOwed : Bool
  stream : Option Stream
  /-- Oldest first. -/
  heldDones : List Done
  lastRefusal : Option (RefusedKind × RefusalReason)
  lastBusError : Option BusError
  duplicateId : Bool
  /-- The observed levels of the flag lines. -/
  observed : FlagLines
  /-- TSQ's drives as they stood at the end of the last tick. -/
  settledDrives : FlagLines
  /-- The drives the drivers present. -/
  presented : FlagLines
  driversEnabled : Bool
deriving DecidableEq, Repr

/-! ### SUL: the start-up loader (chapter 11) -/

inductive ImageState where
  | reading | good | bad
deriving DecidableEq, Repr

structure Sul where
  strap : Station
  imageState : ImageState
  attempt : Nat
  resetCause : ResetCause
  contents : ImageContents
  imageBad : Bool
  /-- The start-up sequence is complete (R178). -/
  joined : Bool
  /-- The reset pin is held asserted (R178). -/
  resetHeld : Bool
deriving DecidableEq, Repr

end Sys2Proof.Machine
end

