-- ==== Sys2Proof/Machine/Defaults.lean ====
section
/-! DEFINITION. Sys2Proof/Machine/Defaults.lean: the built-in defaults (R35, R95, R142, R152, R180). -/

namespace Sys2Proof.Machine

/-- R180: marks emitted, reference clock off. -/
def defaultOptions : StationOptions := { listenOnly := false, referenceClock := false }

def defaultGroup : RawGroup := { trim := 0, hysteresis := some .mV50, glitchDetection := false }

/-- R180: every channel enabled, not inverted, with no pulls and no keeper. -/
def defaultProbe : RawProbe :=
  { groupA := defaultGroup, groupB := defaultGroup, enabled := 0xFFFF, inverted := 0, pullUp := 0, pullDown := 0,
    keeper := 0 }

/-- R152: black, green, yellow, red. -/
def defaultPalette : Quad (BitVec 16) := ⟨0x0000, 0x07E0, 0xFFE0, 0xF800⟩

def defaultPanel : RawPanel :=
  { mode := some .normal, firstRow := 0, lastRow := 119, inversion := false, palette := defaultPalette,
    horizontalReversal := false, verticalReversal := false, framePeriodMs := 50, scaleStep := 9 }

def defaultSetup : RunSetup :=
  { divider := 10, segments := 1, fraction := 8, prefillWait := false, followNotice := true, codeA := 160,
    codeB := 160 }

/-- R82: ANY of no terms, a condition that never holds. -/
def neverHolds : Condition := { pattern := none, edge := none, flag := none, hits := 0, combine := .any }

/-- R82: ALL of no terms, a condition that holds at every evaluated sample. -/
def alwaysHolds : Condition := { pattern := none, edge := none, flag := none, hits := 0, combine := .all }

/-- An action that names a level and keeps the flags and the qualifier. -/
def plainAction (next : Fin 8) (fire : Bool) : Action :=
  { next := next, fire := fire, flags := Quad.replicate .keep, qualifier := .keep }

/-- R95: a level that is never left. Its escape action, never taken, is the model's (DESIGN CHOICE, log 38). -/
def restingLevel (l : Fin 8) : LevelRecord :=
  { proceed := neverHolds, count := 1, consecutive := false, proceedAction := plainAction l false,
    escape := neverHolds, dwellLimit := 0, escapeAction := plainAction l false }

/-- R95: the sequencer program of the built-in default profile. L0's escape action, never taken, is the model's (DESIGN
CHOICE, log 38). -/
def defaultProgram : Program :=
  #v[{ proceed := alwaysHolds, count := 1, consecutive := false, proceedAction := plainAction 0 true,
       escape := neverHolds, dwellLimit := 0, escapeAction := plainAction 0 false },
     restingLevel 1, restingLevel 2, restingLevel 3, restingLevel 4, restingLevel 5, restingLevel 6, restingLevel 7]

/-- R130: an empty kinds mask and an empty accept set. The other settings, which then decide nothing, are the model's
(DESIGN CHOICE, log 42). -/
def defaultComparator : Comparator :=
  { source := 0, kinds := 0, field := .value, width := 1, mask := 0, constant := 0, isSigned := false,
    accept := { lower := false, equal := false, higher := false } }

/-- R142: 16 channel lanes, each 7 rows high with colour index 1. -/
def defaultLanes : List Lane :=
  [0, 1, 2, 3, 4, 5, 6, 7, 8, 9, 10, 11, 12, 13, 14, 15].map
    (fun c => { source := .channel c, height := 7, colour := 1 })

end Sys2Proof.Machine
end

