-- ==== Sys2Proof/Machine/StartValues.lean ====
section
/-! DEFINITION. Sys2Proof/Machine/StartValues.lean: the value of each block after a start (R22, R33, R56, R75, R94, R119,
R129, R137, R151, R160, R176, R178). -/

namespace Sys2Proof.Machine

/-- R22. -/
def Tau.start : Tau :=
  { clockState := .internal, monitorRunning := false, windowCount := 0, inRangeRun := 0, markLine := false,
    markDrive := none, emissionTimer := 0, synthesisCount := 0, interval := .unmeasured, pulseWidth := 0,
    startPending := false, candidate := false, markStuck := false, history := [], locked := false,
    rateFactor := Config.unlockedK, runTime := none }

/-- Group settings before the loader applies the probe settings: no code held (R33), the rest built-in (log 6). -/
def GroupState.start : GroupState := { code := none, trim := 0, hysteresis := .mV50, glitchDetection := false }

/-- R33: every channel treated as disabled. -/
def Pfe.start (inputs : Vector ProbeInput 16) : Pfe :=
  { inputs := inputs, groupA := GroupState.start, groupB := GroupState.start, enabled := 0, inverted := 0, pullUp := 0,
    pullDown := 0, keeper := 0, raw := 0, changedOnce := 0, glitchSeen := 0, lastLevels := none }

/-- R56. -/
def Run.powerStart : Run :=
  { state := .idle, setup := defaultSetup, figures := none, table := [], activeProfile := 0, pendingRemote := false }

/-- R75. -/
def Cst.powerStart : Cst := { store := [], openEntry := none, checkpoints := [] }

/-- R94. -/
def Tsq.start (p : Program) : Tsq :=
  { program := p, level := 0, counter := p[(0 : Fin 8)].count, dwell := 0, drives := 0, qualifier := true,
    fired := false, running := false }

/-- A unit with nothing to decode. -/
def DecodeUnit.off : DecodeUnit := { settings := .off, running := false, framing := .none, glitchSeen := false }

def Dec.start : Dec := { units := Quad.replicate DecodeUnit.off, errorMask := 0 }

/-- R129. -/
def Log.powerStart : Log := { records := [], counter := 0, lost := Quad.replicate 0 }

def Fc.powerStart : Fc := { settings := Quad.replicate defaultComparator, sticky := 0 }

/-- R137, with the scale step the image gives. -/
def ViewRecord.start (scale : Nat) : ViewRecord := { segment := 0, offset := 0, scale := scale, follow := true }

/-- R151; the frame store is passed in, since a PIN or LINK start keeps it. -/
def Ren.start (frameStore : Mem (BitVec 2)) : Ren :=
  { view := ViewRecord.start 9, lanes := defaultLanes, lanesClipped := false, frameState := .waiting, frameTimer := 0,
    framePeriodMs := 50, capture := none, column := 0, boxRuns := [], frameStore := frameStore }

/-- R160, with the built-in settings until the load (log 6). -/
def Port.start : Port :=
  { live := { mode := .normal, firstRow := 0, lastRow := 119, inversion := false }, palette := defaultPalette,
    horizontalReversal := false, verticalReversal := false, state := .asleep, wakePending := true, sending := [] }

/-- R176; the levels of the flag lines are the lines' own (log 26). -/
def Lnk.start (strap : Station) (observed : FlagLines) : Lnk :=
  { transmitter := if strap = 7 then .silent else .idle, frameOnLine := none, receiver := .waiting, idleCount := 0,
    lineRecessive := true, bitClock := 0, framePosition := none, queue := [], statusOwed := false, stream := none,
    heldDones := [], lastRefusal := none, lastBusError := none, duplicateId := false, observed := observed, settledDrives := 0, presented := 0,
    driversEnabled := false }

def ImageContents.empty : ImageContents :=
  { options := none, probe := none, panel := none, setup := none, profiles := none }

/-- R178, R179: step 1 done, the image about to be read. -/
def Sul.start (strap : Station) (cause : ResetCause) (resetHeld : Bool) : Sul :=
  { strap := strap, imageState := .reading, attempt := 1, resetCause := cause, contents := ImageContents.empty,
    imageBad := false, joined := false, resetHeld := resetHeld }

end Sys2Proof.Machine
end

