-- ==== Sys2Proof/Syntax.lean ====
section
/-! DEFINITION. Sys2Proof/Syntax.lean: the commands of the block, one constructor for each row of
spec/opcode_table.json. The rows give no fields; the operands are what the rule of the row takes from outside the part
(log 32). Message commands carry the sender and the payload bytes, to be read as R185 reads them. -/

namespace Sys2Proof

inductive Instr where
  | windowEnd (edges : Nat)
  | emissionTimerExpiry
  | markPulseEnd
  | leadingEdge
  | trailingEdge
  | markStuck
  | synthesizedMark
  | levelChange (channel : Fin 16) (input : ProbeInput)
  | sample
  | driverPresent
  | flagLineChange (line : Fin 4) (asserted : Bool)
  | restart (source : Station) (target : Byte) (straps : Station)
  | stop (source : Station)
  | arm (source : Station) (profile : Byte)
  | notice (source : Station) (segment : Byte) (time : BitVec 48)
  | setup (source : Station) (divider : Word) (segments options codeA codeB : Byte)
  | view (source : Station) (segment : Byte) (offset : BitVec 48) (scale follow : Byte)
  | panel (source : Station) (target mode firstRow lastRow inversion : Byte)
  | query (source : Station) (target : Byte)
  | read (source : Station) (target collection : Byte) (key : Word) (count : Byte)
  | replyFrameReceived (kind : ReplyKind) (source : Station) (payload : List Byte)
  | receiveFault (frame : RawFrame)
  | lineIdle
  | frameBegin
  | arbitrationLost (bit : Nat)
  | bitError (bit : Nat)
  | duplicateId (bit : Nat)
  | transmissionComplete
  | statusOwedJoin
  | heldDoneJoin
  | dataFormation
  | frameStart
  | columnRender
  | renderComplete
  | transferComplete
  | sleepStart
  | sleepComplete
  | powerUp (straps : Station)
  | resetPinAssert
  | resetPinRelease (straps : Station)
  | imageAttempt (bytes : List Byte) (image : RawImage)
  | join (levels : JoinLevels)
  | unaddressedFrameReceived (kind : TargetedKind) (source : Station) (payload : List Byte)
deriving DecidableEq, Repr

end Sys2Proof
end

