-- ==== Sys2Proof/Machine/State.lean ====
section
/-! DEFINITION. Sys2Proof/Machine/State.lean: the part as a whole with its queue of commands, the reasons a step can stop,
and the part right after a POWER start has begun. The blocks are in Blocks.lean. -/

namespace Sys2Proof.Machine

/-! ### Why a step can stop -/

/-- No rule of the manual stops the part, so no command ends in a fault. The type is here for the interface. -/
inductive Fault where
  /-- Raised by nobody; safe. -/
  | neverRaised
deriving DecidableEq, Repr

inductive Refusal where
  /-- Raised by an arm of `exec` that has no meaning yet (none is left); safe. -/
  | notModelled (mnemonic : String)
deriving DecidableEq, Repr

/-! ### The part, and its queue of commands -/

structure State where
  tau : Tau
  pfe : Pfe
  run : Run
  cst : Cst
  tsq : Tsq
  dec : Dec
  log : Log
  fc : Fc
  ren : Ren
  port : Port
  lnk : Lnk
  sul : Sul
  /-- The commands waiting, first in, first out. -/
  pending : List Instr
  /-- The model's own: the counter that free values are applied to (log 29). -/
  freeCount : Nat
deriving DecidableEq, Repr

/-- The part right after a POWER start has begun (R178), its strap pins showing 0 and its probe pins driven at 0 V
(DESIGN CHOICE, log 4, log 5). -/
def State.reset : State :=
  { tau := Tau.start
    pfe := Pfe.start (Vector.replicate 16 (.driven 0))
    run := Run.powerStart
    cst := Cst.powerStart
    tsq := Tsq.start defaultProgram
    dec := Dec.start
    log := Log.powerStart
    fc := Fc.powerStart
    ren := Ren.start []
    port := Port.start
    lnk := Lnk.start 0 0
    sul := Sul.start 0 .power false
    pending := []
    freeCount := 0 }

end Sys2Proof.Machine
end

