-- ==== Sys2Proof/Machine/Ops.lean ====
section
/-! DEFINITION. Sys2Proof/Machine/Ops.lean: the named operations over the sparse stores, the segment table and the
station's standing that the blocks share. -/

namespace Sys2Proof.Machine

/-! ### Sparse stores -/

/-- What stands at a position; none where nothing was written. -/
def Memory.read {α : Type} : Mem α → Nat → Option α
  | [], _ => none
  | (k, v) :: rest, p => if k = p then some v else Memory.read rest p

/-- Write a position, keeping the positions strictly rising. -/
def Memory.write {α : Type} : Mem α → Nat → α → Mem α
  | [], p, v => [(p, v)]
  | (k, w) :: rest, p, v =>
    if p < k then (p, v) :: (k, w) :: rest
    else if p = k then (p, v) :: rest
    else (k, w) :: Memory.write rest p v

/-- Unlist several positions. -/
def Memory.eraseAll {α : Type} (m : Mem α) (ps : List Nat) : Mem α := m.filter (fun e => !ps.contains e.1)

/-- The canonical form: positions strictly rising. -/
def Memory.wf {α : Type} : Mem α → Bool
  | [] => true
  | (k, _) :: rest => rest.all (fun e => k < e.1) && Memory.wf rest

/-! ### Lists -/

/-- Take out the last element that satisfies `p`. -/
def removeLast {α : Type} (p : α → Bool) : List α → Option (α × List α)
  | [] => none
  | x :: rest =>
    match removeLast p rest with
    | some (y, others) => some (y, x :: others)
    | none => if p x then some (x, rest) else none

/-! ### The station's standing -/

/-- Neither held in reset nor in the start-up sequence (R178). -/
def State.active (s : State) : Bool := s.sul.joined && !s.sul.resetHeld

/-- The station options in force: the image's, or the built-in ones (R180). -/
def State.options (s : State) : StationOptions := s.sul.contents.options.getD defaultOptions

/-- R6: a station emits marks unless it is listen-only, strapped 7 or sees a stuck line. -/
def State.emitsMarks (s : State) : Bool :=
  !s.options.listenOnly && s.sul.strap != 7 && !s.tau.markStuck

/-- R1: the local tick's source is the reference exactly in REF_ACTIVE. -/
def Tau.tickFromReference (t : Tau) : Bool := t.clockState == .refActive

/-! ### The segment table -/

/-- Section 3.1: the states in which a segment is open. -/
def RunState.hasSegment : RunState → Bool
  | .idle => false
  | .waitStart => false
  | .prefill => true
  | .pretrig => true
  | .posttrig => true

/-- The record of the open segment, the newest of the table, when a segment is open. -/
def State.openRecord? (s : State) : Option SegmentRecord :=
  if s.run.state.hasSegment then s.run.table.getLast? else none

def State.openIndex? (s : State) : Option Nat := s.openRecord?.map SegmentRecord.index

/-- The record with an index. -/
def State.record? (s : State) (i : Nat) : Option SegmentRecord := s.run.table.find? (fun r => r.index == i)

/-- Change the record with an index. -/
def State.updateRecord (s : State) (i : Nat) (f : SegmentRecord → SegmentRecord) : State :=
  { s with run := { s.run with table := s.run.table.map (fun r => if r.index == i then f r else r) } }

/-- Change the record of the open segment; nothing when no segment is open (R42). -/
def State.updateOpen (s : State) (f : SegmentRecord → SegmentRecord) : State :=
  match s.openIndex? with
  | some i => s.updateRecord i f
  | none => s

/-- The number of closed segment records (R57). -/
def State.closedCount (s : State) : Nat := (s.run.table.filter (fun r => r.state == .closed)).length

/-- R37: the run divider D; 0 before the first ARM, when no record needs it. -/
def State.divider (s : State) : Nat := (s.run.figures.map RunFigures.divider).getD 0

/-- A position of a region, counted forward from its first position with wrap (R65). -/
def SegmentRecord.positionAfter (r : SegmentRecord) (n : Nat) : Nat :=
  r.regionFirst + (r.firstPosition - r.regionFirst + n) % r.regionSize

/-- R65: the write position, after the newest retained entry. -/
def SegmentRecord.writePosition (r : SegmentRecord) : Nat := r.positionAfter r.retained

/-- The positions of the `n` oldest retained entries. -/
def SegmentRecord.oldestPositions (r : SegmentRecord) (n : Nat) : List Nat := (List.range n).map r.positionAfter

/-- The sample count of the entry at a position. -/
def entryCountAt (m : Mem Entry) (p : Nat) : Nat := ((Memory.read m p).map Entry.count).getD 0

/-- The sum of the sample counts of the entries at some positions. -/
def countSum (m : Mem Entry) (ps : List Nat) : Nat := (ps.map (entryCountAt m)).sum

/-- R138: the first sample index of segment `i`: 0, or the next sample index of the segment before it. -/
def State.segmentFirstSample (s : State) (i : Nat) : Nat :=
  match i with
  | 0 => 0
  | j + 1 => ((s.record? j).map SegmentRecord.nextSample).getD 0

/-- The next fresh argument of a free value. -/
def State.fresh (s : State) : State := { s with freeCount := s.freeCount + 1 }

end Sys2Proof.Machine
end

