-- ==== Sys2Proof/Machine/Flags.lean ====
section
/-! DEFINITION. Sys2Proof/Machine/Flags.lean: the comparators' arithmetic: operands, flags, ordering and hit (R131 to
R134). -/

namespace Sys2Proof.Machine

/-- R132: an operand at width `w` through a mask. -/
def maskedOperand (w : Nat) (mask x : Word) : Nat := (x.toNat % 2 ^ w) &&& mask.toNat

/-- R132. -/
structure CompareFlags where
  z : Bool
  n : Bool
  c : Bool
  v : Bool
deriving DecidableEq, Repr

/-- R132: the flags of the subtraction a - b at width `w`. -/
def subtractFlags (w a b : Nat) : CompareFlags :=
  let r := (a + 2 ^ w - b) % 2 ^ w
  { z := r == 0
    n := r.testBit (w - 1)
    c := a < b
    v := a.testBit (w - 1) != b.testBit (w - 1) && r.testBit (w - 1) != a.testBit (w - 1) }

/-- R133. -/
def CompareFlags.ordering (f : CompareFlags) (isSigned : Bool) : FieldOrdering :=
  if isSigned then
    if f.n != f.v then .lower else if f.z then .equal else .higher
  else
    if f.c then .lower else if f.z then .equal else .higher

/-- R133: whether an ordering is in an accept set. -/
def AcceptSet.admits (a : AcceptSet) : FieldOrdering → Bool
  | .lower => a.lower
  | .equal => a.equal
  | .higher => a.higher

/-- The layout code of a record kind, which is its bit in a kinds mask (section 12.2). -/
def recordKindCode : RecordKind → Nat
  | .uartChar => 0
  | .uartBreak => 1
  | .spiWord => 2
  | .i2cStart => 3
  | .i2cRestart => 4
  | .i2cAddress => 5
  | .i2cByte => 6
  | .i2cStop => 7
  | .parWord => 8

/-- R131: the field a comparator selects, when the record carries it. -/
def selectedField (f : FieldSelect) (r : DecodeRecord) : Option Word :=
  match f with
  | .value => some r.value
  | .value2 => r.value2

/-- R131: the field to compare, when the comparator tests the record. -/
def testedField (c : Comparator) (r : DecodeRecord) : Option Word :=
  if r.decoder = c.source ∧ c.kinds.getLsbD (recordKindCode r.kind) = true then selectedField c.field r else none

/-- R132, R133: the ordering of a field against the comparator's constant. -/
def fieldOrdering (c : Comparator) (x : Word) : FieldOrdering :=
  (subtractFlags c.width (maskedOperand c.width c.mask x) (maskedOperand c.width c.mask c.constant)).ordering c.isSigned

/-- R133: whether the comparator produces a hit for the record. -/
def comparatorHit (c : Comparator) (r : DecodeRecord) : Bool :=
  match testedField c r with
  | some x => AcceptSet.admits c.accept (fieldOrdering c x)
  | none => false

/-- The comparators that hit for a record; FC i at bit i. -/
def recordHits (q : Quad Comparator) (r : DecodeRecord) : BitVec 4 :=
  (if comparatorHit q.e0 r then 1 else 0) ||| (if comparatorHit q.e1 r then 2 else 0) |||
    (if comparatorHit q.e2 r then 4 else 0) ||| (if comparatorHit q.e3 r then 8 else 0)

/-- R80: the comparators that hit for at least one of some records. -/
def hitsOf (q : Quad Comparator) (rs : List DecodeRecord) : BitVec 4 :=
  rs.foldl (fun h r => h ||| recordHits q r) 0

/-- R134: the comparators take some records: every hit sets its sticky mark. -/
def State.compareRecords (s : State) (rs : List DecodeRecord) : State :=
  { s with fc := { s.fc with sticky := s.fc.sticky ||| hitsOf s.fc.settings rs } }

end Sys2Proof.Machine
end

