-- ==== Sys2Proof/Machine/Log.lean ====
section
/-! DEFINITION. Sys2Proof/Machine/Log.lean: the decode log: numbering, clipping, placing, dropping and trimming (R121 to
R127), and its reads (R128). -/

namespace Sys2Proof.Machine

def State.setLog (s : State) (l : Log) : State := { s with log := l }

/-- R66: a retention advance as reported to LOG: the segment, its new first retained sample index, and the run state from
that moment on. -/
structure Advance where
  segment : Nat
  firstSample : Nat
  runState : RunState
deriving DecidableEq, Repr

/-- R126: whether a record outlives the advance of a segment to a first retained sample time. -/
def LogRecord.outlives (segment firstTime : Nat) (r : LogRecord) : Bool :=
  !(r.content.segment == segment && r.content.startTime < firstTime)

/-- R126: remove the segment's records that start earlier than the new first retained sample time. -/
def State.trimLog (s : State) (a : Advance) : State :=
  let kept := s.log.records.filter (LogRecord.outlives a.segment (a.firstSample * s.divider))
  s.setLog { s.log with records := kept }

/-- R125: a record is dropped. -/
def State.dropRecord (s : State) (r : DecodeRecord) : State :=
  let t := s.setLog { s.log with lost := s.log.lost.set r.decoder (min Config.lostLimit (s.log.lost.get r.decoder + 1)) }
  if s.openIndex? = some r.segment then t.updateOpen (fun g => { g with logLost := true }) else t

/-- R123: clip a record against the first retained sample time of its segment. -/
def clipRecord (firstTime : Nat) (r : DecodeRecord) : DecodeRecord :=
  if r.startTime < firstTime then { r with startTime := firstTime, flags := { r.flags with clipped := true } } else r

/-- R124: place a numbered and clipped record, the run state at its arrival being `rs`. -/
def State.placeRecord (s : State) (rs : RunState) (r : LogRecord) : State :=
  let join (records : List LogRecord) : State := s.setLog { s.log with records := records ++ [r] }
  let ofOpen (l : LogRecord) : Bool := s.openIndex? == some l.content.segment
  if s.log.records.length < Config.logCapacity then join s.log.records
  else if (rs == .prefill || rs == .pretrig) && s.log.records.any ofOpen then join (s.log.records.eraseP ofOpen)
  else s.dropRecord r.content

/-- R122 to R125: a completed record arrives; `first` is the first retained sample index of its segment and `rs` the run
state at that moment. -/
def State.logRecord (s : State) (rs : RunState) (first : Nat) (r : DecodeRecord) : State :=
  if Config.sequenceLimit ≤ s.log.counter then s.dropRecord r
  else
    let t := s.setLog { s.log with counter := s.log.counter + 1 }
    t.placeRecord rs { sequence := s.log.counter, content := clipRecord (first * s.divider) r }

/-- R66, R127: LOG takes the records of one sample and the retention advances of the same sample, each in its own order;
how many advances it takes before the next record is free (log 10). A record placed before the report of the pre-trigger
cut meets the run state before the trigger, one placed after it POSTTRIG (DESIGN CHOICE, log 40). -/
def State.logSample (s : State) (rs : RunState) (first : Nat) : List DecodeRecord → List Advance → State
  | [], advances => advances.foldl State.trimLog s
  | r :: rest, [] => (s.logRecord rs first r).logSample rs first rest []
  | r :: rest, a :: more =>
    let advances := a :: more
    let n := Config.advancesBeforeRecord s.freeCount
    let taken := advances.take n
    let now := (taken.getLast?).getD { segment := a.segment, firstSample := first, runState := rs }
    ((taken.foldl State.trimLog s.fresh).logRecord now.runState now.firstSample r).logSample now.runState
      now.firstSample rest (advances.drop n)

/-- R118: the records of the flush at a run's end; no segment is open. -/
def State.logFlushed (s : State) (first : Nat) (rs : List DecodeRecord) : State :=
  s.logSample s.run.state first rs []

/-- R128: the record with the lowest sequence number not below a key. -/
def Log.fromKey (l : Log) (key : Nat) : Option LogRecord := l.records.find? (fun r => key ≤ r.sequence)

/-- R128, R146: the records of a decoder and segment whose interval meets a span of stack time. -/
def Log.meeting (l : Log) (d : Fin 4) (segment : Nat) (a b : Int) : List LogRecord :=
  l.records.filter (fun r => r.content.decoder == d && r.content.segment == segment &&
    decide ((r.content.startTime : Int) < b) && decide (a < (r.content.endTime : Int)))

end Sys2Proof.Machine
end

