-- ==== Sys2Proof/Machine/Capture.lean ====
section
/-! DEFINITION. Sys2Proof/Machine/Capture.lean: the capture store: joining, committing, the pre-trigger cut and the walk of
the retained entries (R58 to R73). -/

namespace Sys2Proof.Machine

def State.setCst (s : State) (c : Cst) : State := { s with cst := c }

/-- R60: what sample keeps when it begins an entry: its levels and glitch set under the store qualifier, else a gap. -/
def sampleData (qualifier : Bool) (word glitch : Levels) : EntryData := if qualifier then .levels word glitch else .gap

/-- R60, conditions 2 to 4: a sample joins an entry of the same kind below the count limit; for LEVELS with the same
levels and no glitch set on either side (R62). -/
def sampleJoins (e : Entry) (d : EntryData) : Bool :=
  decide (e.count < Config.maxEntryCount) &&
    match e.data, d with
    | .levels a g, .levels b h => a == b && g == 0 && h == 0
    | .gap, .gap => true
    | .levels _ _, .gap => false
    | .gap, .levels _ _ => false

/-- R70: the checkpoint table after a commit at a position. -/
def checkpointCommit (m : Mem Checkpoint) (position segment start : Nat) : Mem Checkpoint :=
  if position % Config.checkpointSpacing = 0 then
    Memory.write m (position / Config.checkpointSpacing) { segment := segment, start := start }
  else m

/-- R41, R65, R66: commit an entry of the open segment at its write position. -/
def State.commitEntry (s : State) (r : SegmentRecord) (start : Nat) (e : Entry) : State × List Advance :=
  let p := r.writePosition
  let written := s.setCst
    { store := Memory.write s.cst.store p e
      openEntry := some { start := start + e.count, holding := none }
      checkpoints := checkpointCommit s.cst.checkpoints p r.index start }
  if r.retained < r.regionSize then
    (written.updateRecord r.index (fun x => { x with retained := x.retained + 1 }), [])
  else
    let first := r.firstSample + entryCountAt s.cst.store r.firstPosition
    (written.updateRecord r.index (fun x => { x with firstPosition := r.positionAfter 1, firstSample := first }),
      [{ segment := r.index, firstSample := first, runState := s.run.state }])

/-- R61 step 1: commit the open entry if it is holding. -/
def State.commitOpen (s : State) : State × List Advance :=
  match s.openRecord?, s.cst.openEntry with
  | some r, some o =>
    match o.holding with
    | some e => s.commitEntry r o.start e
    | none => (s, [])
  | some _, none => (s, [])
  | none, _ => (s, [])

/-- R70: the checkpoint slots of some positions. -/
def slotsOf (ps : List Nat) : List Nat :=
  (ps.filter (fun p => p % Config.checkpointSpacing == 0)).map (fun p => p / Config.checkpointSpacing)

/-- R45: the pre-trigger cut. A record of the trigger sample that LOG takes after the cut's report meets POSTTRIG (DESIGN
CHOICE, log 40). -/
def State.preTriggerCut (s : State) : State × List Advance :=
  match s.openRecord?, s.run.figures with
  | some r, some f =>
    if f.depth < r.retained then
      let gone := r.oldestPositions (r.retained - f.depth)
      let first := r.firstSample + countSum s.cst.store gone
      let t := s.setCst { s.cst with checkpoints := Memory.eraseAll s.cst.checkpoints (slotsOf gone) }
      (t.updateRecord r.index (fun x => { x with
        retained := f.depth, firstPosition := r.positionAfter (r.retained - f.depth), firstSample := first }),
        [{ segment := r.index, firstSample := first, runState := .posttrig }])
    else if r.retained < f.depth then (s.updateRecord r.index (fun x => { x with shortPre := true }), [])
    else (s, [])
  | some _, none => (s, [])
  | none, _ => (s, [])

/-- R61 steps 2 and 3, and joining (R60): sample `m` enters the open entry, which takes it when it is still holding (the
commit of step 1 has not been made) and begins with it otherwise. -/
def State.enterSample (s : State) (m : Nat) (d : EntryData) : State :=
  match s.cst.openEntry with
  | some o =>
    let held : Entry :=
      match o.holding with
      | some e => { e with count := e.count + 1 }
      | none => { data := d, count := 1 }
    let start := if o.holding.isSome then o.start else m
    (s.setCst { s.cst with openEntry := some { start := start, holding := some held } }).updateOpen
      (fun r => { r with nextSample := m + 1 })
  | none => s

/-! ### Reading the store -/

/-- The entries that stand from the `offset`-th retained one, `n` of them, with the index of the first sample of each. -/
def entriesFrom (m : Mem Entry) (r : SegmentRecord) : Nat → Nat → Nat → List (Nat × Entry)
  | 0, _, _ => []
  | n + 1, offset, start =>
    match Memory.read m (r.positionAfter offset) with
    | some e => (start, e) :: entriesFrom m r n (offset + 1) (start + e.count)
    | none => []

/-- How many retained entries stand before a position of the region, counted forward with wrap. -/
def SegmentRecord.offsetOf (r : SegmentRecord) (position : Nat) : Nat :=
  (position + r.regionSize - r.firstPosition) % r.regionSize

/-- R72: an entry is retained when its position is in the retained span and its start is not below the first retained
sample index. -/
def SegmentRecord.retains (r : SegmentRecord) (position start : Nat) : Bool :=
  r.regionFirst ≤ position && position < r.regionFirst + r.regionSize && r.offsetOf position < r.retained &&
    r.firstSample ≤ start

/-- R70: where a walk towards a wanted sample starts: the valid slot of the segment with the greatest start not above it,
or the first retained entry. The pair is (retained entries before it, start sample index). -/
def walkStart (s : State) (r : SegmentRecord) (wanted : Nat) : Nat × Nat :=
  s.cst.checkpoints.foldl
    (fun best e =>
      let p := e.1 * Config.checkpointSpacing
      if e.2.segment == r.index && e.2.start ≤ wanted && best.2 ≤ e.2.start && r.retains p e.2.start then
        (r.offsetOf p, e.2.start)
      else best)
    (0, r.firstSample)

/-- R72: the retained entries of a segment from the walk's start towards a wanted sample. -/
def retainedFrom (s : State) (r : SegmentRecord) (wanted : Nat) : List (Nat × Entry) :=
  let w := walkStart s r wanted
  entriesFrom s.cst.store r (r.retained - w.1) w.1 w.2

/-- R173: the start sample index of the j-th retained entry. -/
def startOfEntry (s : State) (r : SegmentRecord) (j : Nat) : Option Nat :=
  ((entriesFrom s.cst.store r r.retained 0 r.firstSample)[j]?).map Prod.fst

/-- R73: the open entry of a segment, as a reader finds it: its samples and their kind and levels. -/
def State.openEntryOf (s : State) (i : Nat) : Option (Nat × Entry) :=
  if s.openIndex? = some i then
    match s.cst.openEntry with
    | some o => o.holding.map (fun e => (o.start, e))
    | none => none
  else none

end Sys2Proof.Machine
end

