-- ==== Sys2Proof/Machine/Decoders.lean ====
section
/-! DEFINITION. Sys2Proof/Machine/Decoders.lean: the decoder units: loading and checking (R96 to R98), what each kind does
at a sample (R99 to R117) and the flush (R118). -/

namespace Sys2Proof.Machine

/-! ### Loading -/

def clampNat (lo hi n : Nat) : Nat := max lo (min hi n)

/-- R97: an assignment is good when every channel it names is enabled and none is named twice. -/
def goodChannels (enabled : Levels) (cs : List (Fin 16)) : Bool := cs.all (levelOf enabled) && decide cs.Nodup

/-- R96 to R98, R181: the settings a unit loads, and whether its mark in the decoder-error mask is set. -/
def loadDecoder (enabled : Levels) : RawDecoder → DecoderSettings × Bool
  | .off => (.off, false)
  | .unlistedKind => (.off, false)
  | .uart channel bitPeriod dataBits parity stopBits idle =>
    match channelField channel with
    | some c =>
      if goodChannels enabled [c] then
        (.uart { channel := c, bitPeriod := clampNat 4 65535 bitPeriod, dataBits := clampNat 5 9 dataBits,
                 parity := parity.getD .none, stopBits := clampNat 1 2 stopBits, idle := idle.getD .high }, false)
      else (.off, true)
    | none => (.off, true)
  | .spi clock select polarity dataOut dataIn clockIdle capture width order =>
    let named := [channelField clock, channelField select, channelField dataOut, channelField dataIn].filterMap id
    match channelField clock with
    | some c =>
      if ((channelField dataOut).isSome || (channelField dataIn).isSome) && goodChannels enabled named then
        (.spi { clock := c, select := channelField select, polarity := polarity.getD .activeLow,
                dataOut := channelField dataOut, dataIn := channelField dataIn, clockIdle := clockIdle.getD false,
                capture := capture.getD .leading, width := clampNat 4 32 width, order := order.getD .msbFirst }, false)
      else (.off, true)
    | none => (.off, true)
  | .i2c scl sda =>
    match channelField scl, channelField sda with
    | some a, some b => if goodChannels enabled [a, b] then (.i2c { scl := a, sda := b }, false) else (.off, true)
    | some _, none => (.off, true)
    | none, some _ => (.off, true)
    | none, none => (.off, true)
  | .parallel clock edge data qualifier level =>
    let listed := (data.filterMap channelField).take 8
    match channelField clock with
    | some c =>
      if !listed.isEmpty && goodChannels enabled (c :: (listed ++ (channelField qualifier).toList)) then
        (.parallel { clock := c, edge := edge.getD .rise, data := listed, qualifier := channelField qualifier,
                     qualifyingLevel := level.getD false }, false)
      else (.off, true)
    | none => (.off, true)

/-- R103, R109, R112, R118: the initial framing state of a kind. -/
def initialFraming : DecoderSettings → Framing
  | .off => .none
  | .uart _ => .uart { phase := .hunt, first := 0, bits := [], parityBit := false, parityError := false, stopsRead := 0 }
  | .spi _ => .spi { first := 0, bits := [] }
  | .i2c _ => .i2c { phase := .busFree, first := 0, bits := [] }
  | .parallel _ => .none

/-- R96: a unit right after a load: stopped, in the initial state of its kind. -/
def DecodeUnit.loaded (d : DecoderSettings) : DecodeUnit :=
  { settings := d, running := false, framing := initialFraming d, glitchSeen := false }

/-- R97: the decoder-error mask, recomputed in full at every load. -/
def errorMaskOf (q : Quad Bool) : BitVec 4 :=
  (if q.e0 then 1 else 0) ||| (if q.e1 then 2 else 0) ||| (if q.e2 then 4 else 0) ||| (if q.e3 then 8 else 0)

/-- R96 to R98: the units load a profile's decoder settings. -/
def loadDecoders (enabled : Levels) (q : Quad RawDecoder) : Dec :=
  { units := q.map (fun r => DecodeUnit.loaded (loadDecoder enabled r).1)
    errorMask := errorMaskOf (q.map (fun r => (loadDecoder enabled r).2)) }

/-! ### Samples -/

/-- What the units read at a sample (R99), with what their records need (R100, R101). -/
structure SampleContext where
  index : Nat
  divider : Nat
  segment : Nat
  word : Levels
  last : Levels
  glitch : Levels
deriving DecidableEq, Repr

def RecordFlags.none : RecordFlags :=
  { parity := false, framing := false, nack := false, read := false, truncated := false, glitch := false,
    clipped := false }

/-- R100, R101: a record whose first sample is `first` and whose completing sample is the context's. -/
def makeRecord (c : SampleContext) (d : Fin 4) (kind : RecordKind) (first : Nat) (value : Nat) (value2 : Option Nat)
    (bitCount : Nat) (flags : RecordFlags) : DecodeRecord :=
  { segment := c.segment, decoder := d, kind := kind, value := BitVec.ofNat 32 value,
    value2 := value2.map (BitVec.ofNat 32), bitCount := bitCount, startTime := first * c.divider,
    endTime := (c.index + 1) * c.divider, flags := flags }

/-- R101: the channels of a unit's assignment. -/
def assignedChannels : DecoderSettings → Levels
  | .off => 0
  | .uart u => oneChannel u.channel
  | .spi u => channelsOf (u.clock :: (u.select.toList ++ u.dataOut.toList ++ u.dataIn.toList))
  | .i2c u => channelsOf [u.scl, u.sda]
  | .parallel u => channelsOf (u.clock :: (u.data ++ u.qualifier.toList))

/-- R101: the word's glitch set contains a channel of the assignment. -/
def sawGlitch (d : DecoderSettings) (c : SampleContext) : Bool := (c.glitch &&& assignedChannels d) != 0

/-- R103: the bit value of a level. -/
def uartBit (u : UartSettings) (w : Levels) : Bool := levelOf w u.channel == (u.idle == .high)

/-- R103: the sample at which bit j of a character is read. -/
def uartReadingSample (u : UartSettings) (first j : Nat) : Nat := first + (2 * j + 1) * u.bitPeriod / 2

/-- R103: 1 with a parity bit, 0 without. -/
def parityBits : Parity → Nat
  | .none => 0
  | .even => 1
  | .odd => 1

/-- R106: whether the parity of the bits read is in error. -/
def parityInError (p : Parity) (bits : List Bool) (parityBit : Bool) : Bool :=
  let ones := (bits.filter id).length + parityBit.toNat
  match p with
  | .none => false
  | .even => ones % 2 == 1
  | .odd => ones % 2 == 0

/-- R107: the record of a character. -/
def uartCharRecord (c : SampleContext) (d : Fin 4) (f : UartFraming) (framing truncated glitch : Bool) : DecodeRecord :=
  makeRecord c d .uartChar f.first (natLsbFirst f.bits) none f.bits.length
    { RecordFlags.none with parity := f.parityError, framing := framing, truncated := truncated, glitch := glitch }

/-- R108: the record of a break `length` samples long, saturating at 2^32 - 1. That the flush of R118, which states no
saturation, saturates too is the model's choice (DESIGN CHOICE, log 45). -/
def uartBreakRecord (c : SampleContext) (d : Fin 4) (f : UartFraming) (length : Nat) (truncated glitch : Bool) :
    DecodeRecord :=
  makeRecord c d .uartBreak f.first (min 4294967295 length) none 32
    { RecordFlags.none with truncated := truncated, glitch := glitch }

/-- R104 to R108: a UART unit at a sample. In HUNT and IDLE_LINE, with no record in progress, what was seen of glitches stays
as it was (DESIGN CHOICE, log 39). -/
def uartSample (u : UartSettings) (d : Fin 4) (c : SampleContext) (f : UartFraming) (seen : Bool) :
    UartFraming × Bool × List DecodeRecord :=
  let bit := uartBit u c.word
  let now := sawGlitch (.uart u) c
  let glitch := seen || now
  match f.phase with
  | .hunt => ({ f with phase := if bit then .idleLine else .hunt }, seen, [])
  | .idleLine =>
    if bit then (f, seen, [])
    else ({ phase := .startCheck, first := c.index, bits := [], parityBit := false, parityError := false,
            stopsRead := 0 }, now, [])
  | .startCheck =>
    if c.index = uartReadingSample u f.first 0 then
      ({ f with phase := if bit then .idleLine else .data }, glitch, [])
    else (f, glitch, [])
  | .data =>
    if c.index = uartReadingSample u f.first (f.bits.length + 1) then
      let bits := f.bits ++ [bit]
      let next : UartPhase :=
        if bits.length < u.dataBits then .data else if u.parity = .none then .stop else .parity
      ({ f with phase := next, bits := bits }, glitch, [])
    else (f, glitch, [])
  | .parity =>
    if c.index = uartReadingSample u f.first (u.dataBits + 1) then
      ({ f with phase := .stop, parityBit := bit, parityError := parityInError u.parity f.bits bit }, glitch, [])
    else (f, glitch, [])
  | .stop =>
    if c.index = uartReadingSample u f.first (u.dataBits + parityBits u.parity + 1 + f.stopsRead) then
      if bit then
        if f.stopsRead + 1 < u.stopBits then ({ f with stopsRead := f.stopsRead + 1 }, glitch, [])
        else ({ f with phase := .idleLine }, glitch, [uartCharRecord c d f false false glitch])
      else if f.stopsRead = 0 ∧ f.bits.all (fun b => !b) = true ∧ f.parityBit = false then
        ({ f with phase := .breakWait }, glitch, [])
      else ({ f with phase := .hunt }, glitch, [uartCharRecord c d f true false glitch])
    else (f, glitch, [])
  | .breakWait =>
    if bit then ({ f with phase := .idleLine }, glitch, [uartBreakRecord c d f (c.index - f.first) false glitch])
    else (f, glitch, [])

/-- R109: the select is active in a word. -/
def spiActive (u : SpiSettings) (w : Levels) : Bool :=
  match u.select with
  | none => true
  | some c => levelOf w c == (u.polarity == .activeHigh)

/-- R109: a capture edge of the clock. -/
def spiCaptureEdge (u : SpiSettings) (last word : Levels) : Bool :=
  let before := levelOf last u.clock
  let now := levelOf word u.clock
  match u.capture with
  | .leading => before == u.clockIdle && now != u.clockIdle
  | .trailing => before != u.clockIdle && now == u.clockIdle

/-- R110, R111: the value of collected bits by the bit order. -/
def spiValue (u : SpiSettings) (bits : List Bool) : Nat :=
  match u.order with
  | .msbFirst => natMsbFirst bits
  | .lsbFirst => natLsbFirst bits

/-- R110, R111: the record of the bits collected. -/
def spiRecord (u : SpiSettings) (c : SampleContext) (d : Fin 4) (f : SpiFraming) (truncated glitch : Bool) :
    DecodeRecord :=
  let out := spiValue u (f.bits.map Prod.fst)
  let inn := spiValue u (f.bits.map Prod.snd)
  makeRecord c d .spiWord f.first (if u.dataOut.isSome then out else inn)
    (if u.dataOut.isSome && u.dataIn.isSome then some inn else none) f.bits.length
    { RecordFlags.none with truncated := truncated, glitch := glitch }

/-- The level of an assigned data line; an unassigned line's bit is 0 and is carried nowhere. -/
def dataLine (ch : Option (Fin 16)) (w : Levels) : Bool :=
  match ch with
  | some c => levelOf w c
  | none => false

/-- R110, R111: an SPI unit at a sample. With no bit collected a glitch is noted too, and nothing reads the note (DESIGN
CHOICE, log 39). -/
def spiSample (u : SpiSettings) (d : Fin 4) (c : SampleContext) (f : SpiFraming) (seen : Bool) :
    SpiFraming × Bool × List DecodeRecord :=
  let now := sawGlitch (.spi u) c
  if !spiActive u c.word then
    ({ f with bits := [] }, seen || now,
      if f.bits.isEmpty then [] else [spiRecord u c d f true (seen || now)])
  else
    let g : SpiFraming := if !spiActive u c.last then { f with bits := [] } else f
    if spiCaptureEdge u c.last c.word then
      let taken : SpiFraming :=
        { first := if g.bits.isEmpty then c.index else g.first
          bits := g.bits ++ [(dataLine u.dataOut c.word, dataLine u.dataIn c.word)] }
      let glitch := if g.bits.isEmpty then now else seen || now
      if taken.bits.length < u.width then (taken, glitch, [])
      else ({ taken with bits := [] }, glitch, [spiRecord u c d taken false glitch])
    else (g, seen || now, [])

/-- R112: what the two lines did between the last sample and this one. -/
inductive I2cEvent where
  | startCondition | stopCondition | bitRead (bit : Bool) | none
deriving DecidableEq, Repr

def i2cEvent (u : I2cSettings) (last word : Levels) : I2cEvent :=
  match levelOf last u.scl, levelOf word u.scl, levelOf last u.sda, levelOf word u.sda with
  | true, true, true, false => .startCondition
  | true, true, false, true => .stopCondition
  | false, true, _, b => .bitRead b
  | _, _, _, _ => .none

/-- R114: the record of a byte cut short, in ADDR_BYTE or DATA_BYTE. -/
def i2cCutRecord (c : SampleContext) (d : Fin 4) (f : I2cFraming) (glitch : Bool) : List DecodeRecord :=
  let kind : RecordKind := if f.phase = .addrByte then .i2cAddress else .i2cByte
  if f.bits.isEmpty then []
  else [makeRecord c d kind f.first (natMsbFirst f.bits) none f.bits.length
    { RecordFlags.none with truncated := true, glitch := glitch }]

/-- R113: the one-sample record of a condition. -/
def i2cConditionRecord (c : SampleContext) (d : Fin 4) (kind : RecordKind) (glitch : Bool) : DecodeRecord :=
  makeRecord c d kind c.index 0 none 1 { RecordFlags.none with glitch := glitch }

/-- R115, R116: the record of a byte with its acknowledge bit. -/
def i2cByteRecord (c : SampleContext) (d : Fin 4) (f : I2cFraming) (acknowledge glitch : Bool) : DecodeRecord :=
  if f.phase = .addrByte then
    makeRecord c d .i2cAddress f.first (natMsbFirst (f.bits.take 7)) none 7
      { RecordFlags.none with read := f.bits.getD 7 false, nack := acknowledge, glitch := glitch }
  else
    makeRecord c d .i2cByte f.first (natMsbFirst f.bits) none 8
      { RecordFlags.none with nack := acknowledge, glitch := glitch }

/-- R112 to R116: an I2C unit at a sample. With no bit collected a glitch is noted too, and nothing reads the note (DESIGN
CHOICE, log 39). -/
def i2cSample (u : I2cSettings) (d : Fin 4) (c : SampleContext) (f : I2cFraming) (seen : Bool) :
    I2cFraming × Bool × List DecodeRecord :=
  let now := sawGlitch (.i2c u) c
  let glitch := seen || now
  match i2cEvent u c.last c.word with
  | .none => (f, glitch, [])
  | .startCondition =>
    let kind : RecordKind := if f.phase = .busFree then .i2cStart else .i2cRestart
    ({ f with phase := .addrByte, bits := [] }, glitch, i2cCutRecord c d f glitch ++ [i2cConditionRecord c d kind now])
  | .stopCondition =>
    ({ f with phase := .busFree, bits := [] }, glitch,
      i2cCutRecord c d f glitch ++ [i2cConditionRecord c d .i2cStop now])
  | .bitRead b =>
    if f.phase = .busFree then (f, glitch, [])
    else if f.bits.isEmpty then ({ f with first := c.index, bits := [b] }, now, [])
    else if f.bits.length < 8 then ({ f with bits := f.bits ++ [b] }, glitch, [])
    else ({ f with phase := .dataByte, bits := [] }, glitch, [i2cByteRecord c d f b glitch])

/-- R117: the clock has an edge of the chosen kind. -/
def parallelClockEdge (u : ParallelSettings) (last word : Levels) : Bool :=
  let before := levelOf last u.clock
  let now := levelOf word u.clock
  match u.edge with
  | .rise => !before && now
  | .fall => before && !now
  | .both => before != now

/-- R117: the qualifier, when assigned, has its qualifying level. -/
def parallelQualified (u : ParallelSettings) (word : Levels) : Bool :=
  match u.qualifier with
  | some q => levelOf word q == u.qualifyingLevel
  | none => true

/-- R117: a PARALLEL unit at a sample. -/
def parallelSample (u : ParallelSettings) (d : Fin 4) (c : SampleContext) : List DecodeRecord :=
  if parallelClockEdge u c.last c.word && parallelQualified u c.word then
    [makeRecord c d .parWord c.index (natLsbFirst (u.data.map (levelOf c.word))) none u.data.length
      { RecordFlags.none with glitch := sawGlitch (.parallel u) c }]
  else []

/-- R99, R102: a unit takes a sample. A unit that is OFF or stopped takes none. -/
def DecodeUnit.sample (u : DecodeUnit) (d : Fin 4) (c : SampleContext) : DecodeUnit × List DecodeRecord :=
  if !u.running then (u, [])
  else match u.settings, u.framing with
    | .uart k, .uart f =>
      let r := uartSample k d c f u.glitchSeen
      ({ u with framing := .uart r.1, glitchSeen := r.2.1 }, r.2.2)
    | .spi k, .spi f =>
      let r := spiSample k d c f u.glitchSeen
      ({ u with framing := .spi r.1, glitchSeen := r.2.1 }, r.2.2)
    | .i2c k, .i2c f =>
      let r := i2cSample k d c f u.glitchSeen
      ({ u with framing := .i2c r.1, glitchSeen := r.2.1 }, r.2.2)
    | .parallel k, _ => (u, parallelSample k d c)
    | _, _ => (u, [])

/-- R102: the records the units complete at a sample, in unit order. -/
def Dec.sampleRecords (x : Dec) (c : SampleContext) : List DecodeRecord :=
  (x.units.e0.sample 0 c).2 ++ (x.units.e1.sample 1 c).2 ++ (x.units.e2.sample 2 c).2 ++ (x.units.e3.sample 3 c).2

/-- The units after a sample. -/
def Dec.afterSample (x : Dec) (c : SampleContext) : Dec :=
  { x with units := ⟨(x.units.e0.sample 0 c).1, (x.units.e1.sample 1 c).1, (x.units.e2.sample 2 c).1,
      (x.units.e3.sample 3 c).1⟩ }

/-! ### Running, flush -/

/-- R99: every unit that is not OFF starts running, in the initial state of its kind. -/
def DecodeUnit.start (u : DecodeUnit) : DecodeUnit :=
  { u with running := u.settings != .off, framing := initialFraming u.settings, glitchSeen := false }

/-- R118: the record a unit completes at the flush; the context's sample is L, the last the units took. -/
def DecodeUnit.flushRecords (u : DecodeUnit) (d : Fin 4) (c : SampleContext) : List DecodeRecord :=
  if !u.running then []
  else match u.settings, u.framing with
    | .uart _, .uart f =>
      match f.phase with
      | .hunt => []
      | .idleLine => []
      | .startCheck => []
      | .data => if f.bits.isEmpty then [] else [uartCharRecord c d f false true u.glitchSeen]
      | .parity => [uartCharRecord c d f false true u.glitchSeen]
      | .stop => [uartCharRecord c d f false true u.glitchSeen]
      | .breakWait => [uartBreakRecord c d f (c.index + 1 - f.first) true u.glitchSeen]
    | .spi k, .spi f => if f.bits.isEmpty then [] else [spiRecord k c d f true u.glitchSeen]
    | .i2c _, .i2c f => if f.phase = .busFree then [] else i2cCutRecord c d f u.glitchSeen
    | _, _ => []

/-- R118, R119: a unit after a run's end: stopped, in the initial state of its kind. -/
def DecodeUnit.stop (u : DecodeUnit) : DecodeUnit :=
  { u with running := false, framing := initialFraming u.settings, glitchSeen := false }

/-- R118: the flushed records, in unit order. -/
def Dec.flushRecords (x : Dec) (c : SampleContext) : List DecodeRecord :=
  x.units.e0.flushRecords 0 c ++ x.units.e1.flushRecords 1 c ++ x.units.e2.flushRecords 2 c ++
    x.units.e3.flushRecords 3 c

end Sys2Proof.Machine
end

