-- ==== Sys2Proof/Decode.lean ====
section
/-! DEFINITION. Sys2Proof/Decode.lean: the words of the opcode table (it gives none), and the frames of the message line:
their bytes and bits (R162, R184), the faults a receiver finds (R167), and the command a received frame is (R168). -/

namespace Sys2Proof

open Sys2Proof.Machine

/-- spec/opcode_table.json gives no row any bits, so no word spells a command (log 30). -/
def decodeTableWord (_nbits _w : Nat) : Option Instr := none

/-! ### Frames: bytes and bits -/

/-- R184: header byte 0, the kind in bits 6 to 3 and the source in bits 2 to 0. -/
def headerByte0 (kind : BitVec 4) (source : Station) : Byte := BitVec.ofNat 8 (kind.toNat * 8 + source.toNat)

/-- R184: header byte 1, the length in bits 4 to 0. -/
def headerByte1 (length : Nat) : Byte := BitVec.ofNat 8 (length % 32)

/-- The sum of bytes modulo 256. -/
def byteSum (bytes : List Byte) : Byte := bytes.foldl (fun a b => a + b) 0

/-- R184: 0xFF minus the sum of the two header bytes and the payload bytes. -/
def checkByte (kind : BitVec 4) (source : Station) (payload : List Byte) : Byte :=
  0xFF - byteSum (headerByte0 kind source :: headerByte1 payload.length :: payload)

/-- The frame as a receiver reads it when the line carries it unharmed. -/
def Frame.toRaw (f : Frame) : RawFrame :=
  { kind := f.kind, source := f.source, length := BitVec.ofNat 5 f.payload.length, payload := f.payload,
    check := checkByte f.kind f.source f.payload, end1 := true, end2 := true }

/-- R162: the bits from the start bit to the end of the length field; true is recessive. -/
def RawFrame.headerBits (f : RawFrame) : List Bool :=
  false :: (bitsMsbFirst f.kind ++ bitsMsbFirst f.source ++ bitsMsbFirst f.length)

/-- R162: all the bits of a frame in the order of the line; true is recessive. -/
def RawFrame.bits (f : RawFrame) : List Bool :=
  f.headerBits ++ f.payload.flatMap bitsMsbFirst ++ bitsMsbFirst f.check ++ [f.end1, f.end2]

def Frame.bits (f : Frame) : List Bool := f.toRaw.bits

/-- R163: the idle count after bit periods read in turn: each recessive bit raises it by one, up to 9, and each dominant
bit sets it to 0. -/
def idleCountAfter (count : Nat) (bits : List Bool) : Nat :=
  bits.foldl (fun c recessive => if recessive then min 9 (c + 1) else 0) count

/-! ### Reception -/

/-- R184: the payload lengths a kind allows. -/
def allowedLengths (kind : Nat) : List Nat :=
  match kind with
  | 0 => [1]
  | 1 => [0]
  | 2 => [1]
  | 3 => [7]
  | 4 => [8]
  | 5 => [9]
  | 6 => [5]
  | 7 => [1]
  | 8 => [7]
  | 9 => [21]
  | 10 => [14, 27, 28]
  | 11 => [3]
  | _ => []

/-- R167: the sum a receiver forms over a frame it has read. -/
def RawFrame.sum (f : RawFrame) : Byte :=
  byteSum (headerByte0 f.kind f.source :: headerByte1 f.length.toNat :: f.payload) + f.check

/-- R167: the fault a received frame shows. A length above 28 is found at the length field and a dominant first end bit at
that bit; of the faults found at the end of the frame, the first in the order of the table counts (log 16). -/
def RawFrame.fault (f : RawFrame) : Option BusError :=
  if 28 < f.length.toNat then some .length
  else if !f.end1 then some .endBit
  else if 12 ≤ f.kind.toNat then some .kind
  else if !(allowedLengths f.kind.toNat).contains f.length.toNat then some .length
  else if f.sum ≠ 0xFF then some .check
  else if !f.end2 then some .endBit
  else none

def ReplyKind.code : ReplyKind → BitVec 4
  | .status => 9
  | .data => 10
  | .done => 11

def TargetedKind.code : TargetedKind → BitVec 4
  | .restart => 0
  | .panel => 6
  | .query => 7
  | .read => 8

/-- A byte of a payload. -/
def payloadByte (p : List Byte) (i : Nat) : Byte := p.getD i 0

/-- The number in `n` bytes of a payload from offset `i`, most significant byte first (R183). -/
def payloadNat (p : List Byte) (i n : Nat) : Nat := natBE ((p.drop i).take n)

/-- R168, R185: the command that a received frame is, at a station with strap value `strap`. `straps` is what the strap
pins show should the frame restart the part. -/
def decodeFrame (strap straps : Station) (f : RawFrame) : Instr :=
  let p := f.payload
  let mine := addressed strap (targetOf (payloadByte p 0))
  if f.fault.isSome then .receiveFault f
  else match f.kind.toNat with
    | 0 => if mine then .restart f.source (payloadByte p 0) straps else .unaddressedFrameReceived .restart f.source p
    | 1 => .stop f.source
    | 2 => .arm f.source (payloadByte p 0)
    | 3 => .notice f.source (payloadByte p 0) (BitVec.ofNat 48 (payloadNat p 1 6))
    | 4 => .setup f.source (BitVec.ofNat 32 (payloadNat p 0 4)) (payloadByte p 4) (payloadByte p 5) (payloadByte p 6)
        (payloadByte p 7)
    | 5 => .view f.source (payloadByte p 0) (BitVec.ofNat 48 (payloadNat p 1 6)) (payloadByte p 7) (payloadByte p 8)
    | 6 => if mine then .panel f.source (payloadByte p 0) (payloadByte p 1) (payloadByte p 2) (payloadByte p 3)
        (payloadByte p 4) else .unaddressedFrameReceived .panel f.source p
    | 7 => if mine then .query f.source (payloadByte p 0) else .unaddressedFrameReceived .query f.source p
    | 8 => if mine then .read f.source (payloadByte p 0) (payloadByte p 1) (BitVec.ofNat 32 (payloadNat p 2 4))
        (payloadByte p 6) else .unaddressedFrameReceived .read f.source p
    | 9 => .replyFrameReceived .status f.source p
    | 10 => .replyFrameReceived .data f.source p
    | 11 => .replyFrameReceived .done f.source p
    | _ => .receiveFault f

/-- The frame a message command stands for (12_message_and_record_layouts.md 12.1); none for a command that is no whole
frame. -/
def Instr.frame? : Instr → Option Frame
  | .restart src target _ => some { kind := 0, source := src, payload := [target] }
  | .stop src => some { kind := 1, source := src, payload := [] }
  | .arm src profile => some { kind := 2, source := src, payload := [profile] }
  | .notice src segment time => some { kind := 3, source := src, payload := segment :: bytesBE 6 time.toNat }
  | .setup src divider segments options codeA codeB =>
      some { kind := 4, source := src, payload := bytesBE 4 divider.toNat ++ [segments, options, codeA, codeB] }
  | .view src segment offset scale follow =>
      some { kind := 5, source := src, payload := segment :: (bytesBE 6 offset.toNat ++ [scale, follow]) }
  | .panel src target mode first last inversion =>
      some { kind := 6, source := src, payload := [target, mode, first, last, inversion] }
  | .query src target => some { kind := 7, source := src, payload := [target] }
  | .read src target collection key count =>
      some { kind := 8, source := src, payload := [target, collection] ++ bytesBE 4 key.toNat ++ [count] }
  | .replyFrameReceived kind src payload => some { kind := kind.code, source := src, payload := payload }
  | .unaddressedFrameReceived kind src payload => some { kind := kind.code, source := src, payload := payload }
  | .windowEnd _ => none
  | .emissionTimerExpiry => none
  | .markPulseEnd => none
  | .leadingEdge => none
  | .trailingEdge => none
  | .markStuck => none
  | .synthesizedMark => none
  | .levelChange _ _ => none
  | .sample => none
  | .driverPresent => none
  | .flagLineChange _ _ => none
  | .receiveFault _ => none
  | .lineIdle => none
  | .frameBegin => none
  | .arbitrationLost _ => none
  | .bitError _ => none
  | .duplicateId _ => none
  | .transmissionComplete => none
  | .statusOwedJoin => none
  | .heldDoneJoin => none
  | .dataFormation => none
  | .frameStart => none
  | .columnRender => none
  | .renderComplete => none
  | .transferComplete => none
  | .sleepStart => none
  | .sleepComplete => none
  | .powerUp _ => none
  | .resetPinAssert => none
  | .resetPinRelease _ => none
  | .imageAttempt _ _ => none
  | .join _ => none

end Sys2Proof
end

