-- ==== Sys2Proof/Machine/Messages.lean ====
section
/-! DEFINITION. Sys2Proof/Machine/Messages.lean: the byte layouts of the messages a station sends (R183, R184 and section
12.2). -/

namespace Sys2Proof.Machine

/-- R168: the kind of a posted message. -/
def Message.kind : Message → Nat
  | .notice _ _ => 3
  | .status _ => 9
  | .data _ => 10
  | .done _ => 11

def byteOfNat (n : Nat) : Byte := BitVec.ofNat 8 n

def bitNat (b : Bool) (i : Nat) : Nat := if b then 2 ^ i else 0

def RunState.code : RunState → Nat
  | .idle => 0
  | .waitStart => 1
  | .prefill => 2
  | .pretrig => 3
  | .posttrig => 4

def ClockState.code : ClockState → Nat
  | .internal => 0
  | .refActive => 1
  | .refAbsent => 2
  | .refLost => 3

def ResetCause.code : ResetCause → Nat
  | .power => 0
  | .pin => 1
  | .link => 2

/-- STATUS byte 19: kind in bits 1-0, reason in bits 3-2. -/
def refusalCode : Option (RefusedKind × RefusalReason) → Nat
  | none => 0
  | some (k, r) =>
    (match k with | .arm => 1 | .setup => 2) + 4 * (match r with | .busy => 1 | .noProfile => 2)

def busErrorCode : Option BusError → Nat
  | none => 0
  | some .check => 1
  | some .length => 2
  | some .kind => 3
  | some .endBit => 4
  | some .bit => 5

/-- Section 12.2: the STATUS payload, 21 bytes. -/
def StatusContents.payload (c : StatusContents) : List Byte :=
  [byteOfNat c.runState.code, byteOfNat (c.openSegment.getD 0xFF), byteOfNat c.closedCount,
   byteOfNat (bitNat c.locked 0 + 2 * c.clockState.code)]
  ++ bytesBE 3 c.rateFactor
  ++ [byteOfNat (bitNat c.markStuck 0 + bitNat c.duplicateId 1 + bitNat c.imageBad 2 + bitNat c.lanesClipped 3),
      byteOfNat (c.errorMask.toNat + 16 * c.sticky.toNat)]
  ++ bytesBE 2 c.lost.e0 ++ bytesBE 2 c.lost.e1 ++ bytesBE 2 c.lost.e2 ++ bytesBE 2 c.lost.e3
  ++ [byteOfNat c.observed.toNat, byteOfNat c.resetCause.code, byteOfNat (refusalCode c.lastRefusal),
      byteOfNat (busErrorCode c.lastBusError)]

def DoneReason.code : DoneReason → Nat
  | .complete => 0
  | .ended => 1
  | .cut => 2
  | .badRequest => 3

/-- Section 12.2: the DONE payload, the collection code as the READ carried it. -/
def Done.payload (d : Done) : List Byte := [d.collection, byteOfNat d.sent, byteOfNat d.reason.code]

def SegmentState.code : SegmentState → Nat
  | .openPre => 0
  | .openPost => 1
  | .closed => 2

def TriggerSource.code : TriggerSource → Nat
  | .none => 0
  | .local => 1
  | .remote => 2

def closeReasonCode : Option CloseReason → Nat
  | none => 0
  | some .filled => 1
  | some .stopped => 2
  | some .reset => 3
  | some .timeLimit => 4

/-- Section 12.2: the SEGMENTS record, 27 bytes with the collection in bits 7-6 of byte 0. -/
def segmentPayload (r : SegmentRecord) (triggerEntry : Option Nat) : List Byte :=
  [byteOfNat (r.index % 32 + bitNat r.reference.isSome 5),
   byteOfNat (r.state.code + 4 * r.source.code + 16 * closeReasonCode r.closeReason),
   byteOfNat (bitNat r.shortPre 0 + bitNat r.unaligned 1 + bitNat r.refSwitch 2 + bitNat r.noticeDropped 3
     + bitNat r.logLost 4 + bitNat r.recovered 5)]
  ++ bytesBE 6 r.firstSample ++ bytesBE 6 r.nextSample ++ bytesBE 3 (triggerEntry.getD 0xFFFFFF)
  ++ bytesBE 3 r.maxCorrection ++ bytesBE 6 (r.reference.getD 0)

/-- Section 12.2: an end time in six bytes. One of 2^48, which R18 and R101 allow at a divider of 2^20, does not fit them, and
what is sent for it is not stated: a free value (log 43). -/
def endTimeBytes (t : Nat) : List Byte :=
  if t < 2 ^ 48 then bytesBE 6 t else bytesBE 6 (Config.unstatedEndTime t).toNat

/-- Section 12.2: the DECODE record, 28 bytes. -/
def decodePayload (r : LogRecord) : List Byte :=
  let d := r.content
  let f := d.flags
  [byteOfNat (64 + 16 * d.decoder.val + recordKindCode d.kind),
   byteOfNat (d.segment % 32 + bitNat d.value2.isSome 5),
   byteOfNat d.bitCount,
   byteOfNat (bitNat f.parity 0 + bitNat f.framing 1 + bitNat f.nack 2 + bitNat f.read 3 + bitNat f.truncated 4
     + bitNat f.glitch 5 + bitNat f.clipped 6)]
  ++ bytesBE 4 r.sequence ++ bytesBE 4 d.value.toNat ++ bytesBE 4 ((d.value2.map BitVec.toNat).getD 0)
  ++ bytesBE 6 d.startTime ++ endTimeBytes d.endTime

/-- Section 12.2: the ENTRIES record, 14 bytes. -/
def entryPayload (segment start : Nat) (e : Entry) : List Byte :=
  match e.data with
  | .levels lv gl =>
    byteOfNat (128 + segment % 32) :: (bytesBE 6 start ++ bytesBE 3 (e.count - 1) ++ bytesBE 2 lv.toNat
      ++ bytesBE 2 gl.toNat)
  | .gap =>
    byteOfNat (128 + segment % 32 + 32) :: (bytesBE 6 start ++ bytesBE 3 (e.count - 1) ++ [0, 0, 0, 0])

def DataRecord.payload : DataRecord → List Byte
  | .segment r t => segmentPayload r t
  | .decode r => decodePayload r
  | .entry i start e => entryPayload i start e

def Message.payload : Message → List Byte
  | .notice segment time => byteOfNat segment :: bytesBE 6 time
  | .status c => c.payload
  | .data r => r.payload
  | .done d => d.payload

/-- R184: the frame LNK forms for a message. -/
def Message.frame (m : Message) (strap : Station) : Frame :=
  { kind := BitVec.ofNat 4 m.kind, source := strap, payload := m.payload }

end Sys2Proof.Machine
end

