-- ==== Sys2Proof/Machine/Queue.lean ====
section
/-! DEFINITION. Sys2Proof/Machine/Queue.lean: posting to the transmit queue (R170, R171, R175, R166, R176) and the STATUS
summary (R172). -/

namespace Sys2Proof.Machine

/-- R172: the summary as it stands. -/
def State.statusContents (s : State) : StatusContents :=
  { runState := s.run.state, openSegment := s.openIndex?, closedCount := s.closedCount, locked := s.tau.locked,
    clockState := s.tau.clockState, rateFactor := s.tau.rateFactor, markStuck := s.tau.markStuck,
    duplicateId := s.lnk.duplicateId, imageBad := s.sul.imageBad, lanesClipped := s.ren.lanesClipped,
    errorMask := s.dec.errorMask, sticky := s.fc.sticky, lost := s.log.lost, observed := s.lnk.observed,
    resetCause := s.sul.resetCause, lastRefusal := s.lnk.lastRefusal, lastBusError := s.lnk.lastBusError }

def QueueEntry.kind (e : QueueEntry) : Nat := e.message.kind

def QueueEntry.isStatus (e : QueueEntry) : Bool := e.kind == 9

/-- A message as it joins the queue. -/
def QueueEntry.new (m : Message) : QueueEntry :=
  { message := m, underTransmission := false, resend := false, tookFreedEntry := false }

def State.setLnk (s : State) (l : Lnk) : State := { s with lnk := l }

/-- Join the queue as the newest entry. -/
def State.enqueue (s : State) (e : QueueEntry) : State := s.setLnk { s.lnk with queue := s.lnk.queue ++ [e] }

/-- R170: fewer than 8 entries are occupied. -/
def State.hasRoom (s : State) : Bool := s.lnk.queue.length < Config.queueCapacity

/-- R42: NOTICE_DROPPED in the record the NOTICE names, open or closed. -/
def State.markNoticeDropped (s : State) (segment : Nat) : State :=
  s.updateRecord segment (fun r => { r with noticeDropped := true })

/-- A DONE that took a freed entry at this tick and is not on the line. -/
def QueueEntry.yieldingDone (e : QueueEntry) : Bool := e.tookFreedEntry && !e.underTransmission && e.kind == 11

/-- A STATUS that took a freed entry at this tick and is not on the line. -/
def QueueEntry.yieldingStatus (e : QueueEntry) : Bool := e.tookFreedEntry && !e.underTransmission && e.kind == 9

/-- R170: the entries freed at a tick go to the claimants in order of kind. A claimant of `kind` that comes after a
claimant of a higher kind has taken a freed entry at the same tick takes it back: the DONE is held again, the STATUS owed
again (log 19). -/
def State.reclaimEntry (s : State) (kind : Nat) : Option State :=
  match (if kind < 11 then removeLast QueueEntry.yieldingDone s.lnk.queue else none) with
  | some (e, rest) =>
    match e.message with
    | .done d => some (s.setLnk { s.lnk with queue := rest, heldDones := d :: s.lnk.heldDones })
    | .notice _ _ => none
    | .status _ => none
    | .data _ => none
  | none =>
    match (if kind < 9 then removeLast QueueEntry.yieldingStatus s.lnk.queue else none) with
    | some (_, rest) => some (s.setLnk { s.lnk with queue := rest, statusOwed := true })
    | none => none

/-- R171: replace the contents of the STATUS in the queue; one under transmission is marked for resending. -/
def QueueEntry.replaceStatus (c : StatusContents) (e : QueueEntry) : QueueEntry :=
  if e.isStatus then { e with message := .status c, resend := e.resend || e.underTransmission } else e

/-- R171, R170: post a STATUS. One that was owed, or that takes back a freed entry, is marked as having taken an entry freed
at this tick, so that a NOTICE of the same tick goes before it (log 19). -/
def State.postStatus (s : State) : State :=
  let c := s.statusContents
  if s.lnk.transmitter == .silent then s
  else if s.lnk.queue.any QueueEntry.isStatus then
    s.setLnk { s.lnk with queue := s.lnk.queue.map (QueueEntry.replaceStatus c) }
  else if s.hasRoom then
    let t := s.enqueue { QueueEntry.new (.status c) with tookFreedEntry := s.lnk.statusOwed }
    t.setLnk { t.lnk with statusOwed := false }
  else match s.reclaimEntry 9 with
    | some t =>
      let u := t.enqueue { QueueEntry.new (.status c) with tookFreedEntry := true }
      u.setLnk { u.lnk with statusOwed := false }
    | none => s.setLnk { s.lnk with statusOwed := true }

/-- R46, R166, R170, R176: post a NOTICE; at a full queue, or SILENT after a DUPLICATE_ID, it is dropped and the drop
reported; a station strapped 7 discards it unreported. At a full queue it is dropped at once, also where a transmission that
completes later in the same tick frees an entry (DESIGN CHOICE, log 46). -/
def State.postNotice (s : State) (segment time : Nat) : State :=
  if s.lnk.transmitter == .silent then
    if s.sul.strap == 7 then s else s.markNoticeDropped segment
  else if s.hasRoom then s.enqueue (QueueEntry.new (.notice segment time))
  else match s.reclaimEntry 3 with
    | some t => t.enqueue (QueueEntry.new (.notice segment time))
    | none => s.markNoticeDropped segment

/-- R175, R170: post a DONE; it is held when no entry is left for it once an owed STATUS and the DONEs held before it have
theirs. -/
def State.postDone (s : State) (d : Done) : State :=
  if s.lnk.transmitter == .silent then s
  else if s.lnk.queue.length + s.lnk.statusOwed.toNat + s.lnk.heldDones.length < Config.queueCapacity then
    s.enqueue (QueueEntry.new (.done d))
  else s.setLnk { s.lnk with heldDones := s.lnk.heldDones ++ [d] }

/-- R174: a DATA message joins the queue; in SILENT it is discarded. -/
def State.postData (s : State) (r : DataRecord) : State :=
  if s.lnk.transmitter == .silent then s else s.enqueue (QueueEntry.new (.data r))

/-- R57, R36, R38: a refusal of RUN, recorded and reported. -/
def State.refuse (s : State) (k : RefusedKind) (r : RefusalReason) : State :=
  (s.setLnk { s.lnk with lastRefusal := some (k, r) }).postStatus

end Sys2Proof.Machine
end

