-- ==== Sys2Proof/Machine/Sequencer.lean ====
section
/-! DEFINITION. Sys2Proof/Machine/Sequencer.lean: the trigger sequencer's terms, conditions, evaluation and actions (R77 to
R93). -/

namespace Sys2Proof.Machine

/-- What TSQ evaluates a sample against (R86). -/
structure SequencerInputs where
  word : Levels
  last : Levels
  hits : BitVec 4
  observed : FlagLines
deriving DecidableEq, Repr

/-- R78. -/
def patternHolds (p : PatternTerm) (w : Levels) : Bool := ((w ^^^ p.value) &&& p.care) == 0

/-- R79. -/
def edgeHolds (e : EdgeTerm) (last w : Levels) : Bool :=
  ((~~~last &&& w &&& e.rise) ||| (last &&& ~~~w &&& e.fall)) != 0

/-- R81. -/
def flagHolds (f : FlagTerm) (observed : FlagLines) : Bool := ((observed ^^^ f.value) &&& f.care) == 0

/-- R80: a hit term for each comparator selected. -/
def hitTerms (selected hits : BitVec 4) : List Bool :=
  ([0, 1, 2, 3].filter (fun i => selected.getLsbD i)).map (fun i => hits.getLsbD i)

/-- The truth of each term a condition selects. -/
def conditionTerms (c : Condition) (i : SequencerInputs) : List Bool :=
  (c.pattern.map (fun p => patternHolds p i.word)).toList ++ (c.edge.map (fun e => edgeHolds e i.last i.word)).toList ++
    (c.flag.map (fun f => flagHolds f i.observed)).toList ++ hitTerms c.hits i.hits

/-- R82. -/
def conditionHolds (c : Condition) (i : SequencerInputs) : Bool :=
  match c.combine with
  | .all => (conditionTerms c i).all id
  | .any => (conditionTerms c i).any id

/-- R77: a level entry. -/
def Tsq.enter (t : Tsq) (l : Fin 8) : Tsq := { t with level := l, counter := t.program[l].count, dwell := 0 }

/-- R92: release all four drives. -/
def Tsq.release (t : Tsq) : Tsq := { t with drives := 0 }

/-- R91: start at L0. -/
def Tsq.startRunning (t : Tsq) : Tsq := { t.enter 0 with running := true }

def Tsq.stopRunning (t : Tsq) : Tsq := { t with running := false }

/-- R89: what a flag part does to one line's drive. -/
def applyFlagPart (d : FlagLines) (i : Fin 4) : FlagPart → FlagLines
  | .keep => d
  | .assert => d ||| (1#4 <<< i.val)
  | .release => d &&& ~~~(1#4 <<< i.val)

/-- R89. -/
def applyFlagParts (d : FlagLines) (f : Quad FlagPart) : FlagLines :=
  applyFlagPart (applyFlagPart (applyFlagPart (applyFlagPart d 0 f.e0) 1 f.e1) 2 f.e2) 3 f.e3

/-- R90. -/
def applyQualifierPart (q : Bool) : QualifierPart → Bool
  | .keep => q
  | .on => true
  | .off => false

/-- R87 to R90: take an action; the fire itself is handed on by `evaluate`. -/
def Tsq.act (t : Tsq) (a : Action) : Tsq :=
  { t with drives := applyFlagParts t.drives a.flags, qualifier := applyQualifierPart t.qualifier a.qualifier }.enter
    a.next

/-- R83, R84: the occurrence counter after a sample, the proceed condition there being `proceed`. -/
def nextCounter (r : LevelRecord) (counter : BitVec 16) (proceed : Bool) : BitVec 16 :=
  if proceed then counter - 1 else if r.consecutive then r.count else counter

/-- R85: the dwell count after a sample. -/
def nextDwell (r : LevelRecord) (dwell : Nat) : Nat := if 0 < r.dwellLimit then dwell + 1 else dwell

/-- R86: the action taken at a sample, if any. -/
def Tsq.chosenAction (t : Tsq) (i : SequencerInputs) : Option Action :=
  let r := t.program[t.level]
  let proceed := conditionHolds r.proceed i
  if proceed && nextCounter r t.counter proceed == 0 then some r.proceedAction
  else if conditionHolds r.escape i || (0 < r.dwellLimit && nextDwell r t.dwell == r.dwellLimit) then
    some r.escapeAction
  else none

/-- R86: the sequencer after it has evaluated a sample. A stopped sequencer evaluates none (R91). -/
def Tsq.evaluate (t : Tsq) (i : SequencerInputs) : Tsq :=
  if !t.running then t
  else
    let r := t.program[t.level]
    match t.chosenAction i with
    | some a => t.act a
    | none => { t with counter := nextCounter r t.counter (conditionHolds r.proceed i), dwell := nextDwell r t.dwell }

/-- R88: whether a sample hands RUN a fire: an action with fire set is taken and the fired mark is clear. -/
def Tsq.fires (t : Tsq) (i : SequencerInputs) : Bool :=
  t.running && !t.fired &&
    match t.chosenAction i with
    | some a => a.fire
    | none => false

end Sys2Proof.Machine
end

