-- ==== Sys2Proof/Machine/Run.lean ====
section
/-! DEFINITION. Sys2Proof/Machine/Run.lean: the run controller: segments opening and closing, the trigger, the run's end
(R40 to R57). -/

namespace Sys2Proof.Machine

def State.setRun (s : State) (r : Run) : State := { s with run := r }
def State.setTsq (s : State) (t : Tsq) : State := { s with tsq := t }
def State.setPfe (s : State) (p : Pfe) : State := { s with pfe := p }
def State.setTau (s : State) (t : Tau) : State := { s with tau := t }
def State.setDec (s : State) (d : Dec) : State := { s with dec := d }

/-- R37: region size R and depth P for a setup. -/
def runFigures (u : RunSetup) : RunFigures :=
  let size := Config.storeEntries / u.segments
  { divider := u.divider, segments := u.segments, regionSize := size, depth := size * u.fraction / 16 }

/-- R40: the record of segment `i` opening at sample `m`. -/
def newRecord (f : RunFigures) (i m : Nat) (unaligned : Bool) : SegmentRecord :=
  { index := i, state := .openPre, regionFirst := i * f.regionSize, regionSize := f.regionSize,
    firstPosition := i * f.regionSize, firstSample := m, nextSample := m, retained := 0, triggerPosition := none,
    ownTrigger := none, source := .none, reference := none, closeReason := none, shortPre := false,
    unaligned := unaligned, refSwitch := false, noticeDropped := false, logLost := false, recovered := false,
    maxCorrection := 0 }

/-- R40: the run state a segment opens in. -/
def openingState (prefillWait : Bool) (depth : Nat) : RunState :=
  if prefillWait && 0 < depth then .prefill else .pretrig

/-- R40, R91, R93: TSQ at a segment's opening. -/
def Tsq.openSegment (t : Tsq) (rs : RunState) : Tsq :=
  let u : Tsq := { t.release with qualifier := true, fired := false }
  if rs = .pretrig then u.startRunning else u.stopRunning

/-- R40: segment `i` opens at sample `m`; RUN reports the change of run state (R57), the STATUS posted before the records of
that sample reach the comparators and LOG (DESIGN CHOICE, log 18). -/
def State.openSegment (s : State) (i m : Nat) : State :=
  match s.run.figures with
  | some f =>
    let rs := openingState s.run.setup.prefillWait f.depth
    let r := newRecord f i m (!s.tau.locked)
    let t := s.setRun { s.run with state := rs, table := s.run.table ++ [r], pendingRemote := false }
    let u := t.setTsq (t.tsq.openSegment rs)
    (u.setCst { u.cst with openEntry := some { start := m, holding := none } }).postStatus
  | none => s

/-- R51, R67: the open segment closes. -/
def State.closeSegment (s : State) (reason : CloseReason) : State :=
  let c := s.commitOpen
  let t := (c.2.foldl State.trimLog c.1).updateOpen (fun r => { r with state := .closed, closeReason := some reason })
  let u := t.setCst { t.cst with openEntry := none }
  let v := u.setTsq u.tsq.release
  v.setRun { v.run with pendingRemote := false }

/-- R28, R30, R34: PFE when run time ends. -/
def Pfe.endRunTime (p : Pfe) : Pfe := { p with changedOnce := 0, glitchSeen := 0, lastLevels := none }

/-- R52: the run state becomes IDLE and run time ends; the sequencer stops and drives no line (R92). -/
def State.endRunTime (s : State) : State :=
  let t := s.setRun { s.run with state := .idle, pendingRemote := false }
  let u := t.setTau { t.tau with runTime := none }
  let v := u.setPfe u.pfe.endRunTime
  v.setTsq v.tsq.release.stopRunning

/-- R118: the context of the flush: L, the last sample of the last segment. -/
def flushContext (s : State) (r : SegmentRecord) : SampleContext :=
  { index := r.nextSample - 1, divider := s.divider, segment := r.index, word := 0, last := 0, glitch := 0 }

/-- R118: the units complete their partial records, which reach the comparators and LOG, and stop. -/
def State.flushDecoders (s : State) : State :=
  let t :=
    match s.run.table.getLast? with
    | some r =>
      let records := s.dec.flushRecords (flushContext s r)
      (s.compareRecords records).logFlushed r.firstSample records
    | none => s
  t.setDec { t.dec with units := t.dec.units.map DecodeUnit.stop }

/-- R52: the run ends, its open segment closed; RUN reports IDLE, the STATUS showing the part after the flush (log 18). -/
def State.endRun (s : State) : State := s.endRunTime.flushDecoders.postStatus

/-- R51, R52: the open segment closes and the run ends. -/
def State.closeAndEnd (s : State) (reason : CloseReason) : State := (s.closeSegment reason).endRun

/-- R40, R47: the smaller of a reference time, when there is one, and a time. -/
def earliest (reference : Option Nat) (time : Nat) : Option Nat :=
  match reference with
  | some r => some (min r time)
  | none => some time

/-- R43 steps 3 to 5: the trigger fields of the open segment's record. -/
def SegmentRecord.triggered (r : SegmentRecord) (t divider : Nat) (source : TriggerSource) : SegmentRecord :=
  { r with
    triggerPosition := some r.writePosition, ownTrigger := some t, source := source,
    reference := earliest r.reference (t * divider), state := .openPost, nextSample := t + 1 }

/-- R43, R48, R64: RUN takes a trigger at sample `t`. The advances of the cut are LOG's to take. The change of run state is
reported before the NOTICE is handed over, in the order of R43's steps 5 and 6. -/
def State.takeTrigger (s : State) (t : Nat) (word glitch : Levels) (source : TriggerSource) : State × List Advance :=
  let c := s.commitOpen
  let k := c.1.preTriggerCut
  let a := k.1.updateOpen (fun r => r.triggered t s.divider source)
  let b := a.setCst
    { a.cst with openEntry := some { start := t, holding := some { data := .levels word glitch, count := 1 } } }
  let d := b.setTsq { b.tsq with fired := true }
  let e := (d.setRun { d.run with state := .posttrig, pendingRemote := false }).postStatus
  let f :=
    match source, s.openIndex? with
    | .local, some i => e.postNotice i (t * s.divider)
    | .local, none => e
    | .remote, _ => e
    | .none, _ => e
  (f, c.2 ++ k.2)

end Sys2Proof.Machine
end

