-- ==== Sys2Proof/Machine/Probe.lean ====
section
/-! DEFINITION. Sys2Proof/Machine/Probe.lean: thresholds, comparators, settling, terminations and the glitch detector (R23
to R28, R32, R33), with the command LEVEL_CHANGE. Voltages are integer microvolts (log 28). -/

namespace Sys2Proof.Machine

/-! ### Thresholds -/

/-- clamp(x, lo, hi) of R23. -/
def clampInt (lo hi x : Int) : Int := if x < lo then lo else if hi < x then hi else x

/-- R23: a group's threshold in millivolts. -/
def thresholdMillivolts (code : Byte) (trim : Int) : Int :=
  clampInt (-5000) 5200 (-5000 + 40 * (code.toNat : Int) + 2 * trim)

/-- Half the width of the hysteresis band, h/2, in microvolts. -/
def Hysteresis.halfBand : Hysteresis → Int
  | .mV0 => 0
  | .mV25 => 12500
  | .mV50 => 25000
  | .mV100 => 50000

/-- A group's threshold in microvolts; before the load no code is held (R33) and no channel is enabled to read it. -/
def GroupState.threshold (g : GroupState) : Int := 1000 * thresholdMillivolts (g.code.getD 0) g.trim

/-- R24: the raw level after an input voltage. -/
def GroupState.compare (g : GroupState) (present : Bool) (microvolts : Int) : Bool :=
  if g.threshold + Hysteresis.halfBand g.hysteresis < microvolts then true
  else if microvolts < g.threshold - Hysteresis.halfBand g.hysteresis then false
  else present

/-- R25: the raw level an input voltage settles to. -/
def GroupState.settle (g : GroupState) (microvolts : Int) : Bool := g.threshold < microvolts

/-- 00_scope.md 1.1: the group of a channel. -/
def Pfe.groupOf (p : Pfe) (c : Fin 16) : GroupState := if c.val < 8 then p.groupA else p.groupB

/-! ### One channel -/

/-- R24, R27: an enabled channel's raw level after its input changes. An undriven input is where its termination takes
it; the keeper holds the present level. -/
def Pfe.rawAfter (p : Pfe) (c : Fin 16) (input : ProbeInput) : Bool :=
  let present := levelOf p.raw c
  match input with
  | .driven v => GroupState.compare (p.groupOf c) present v
  | .undriven v =>
    if levelOf p.pullUp c then true
    else if levelOf p.pullDown c then false
    else if levelOf p.keeper c then present
    else GroupState.compare (p.groupOf c) present v

/-- R25, R27: the raw level an enabled channel settles to; `kept` is what the keeper of an undriven input holds. -/
def Pfe.settledLevel (p : Pfe) (kept : Bool) (c : Fin 16) : Bool :=
  match p.inputs[c] with
  | .driven v => (p.groupOf c).settle v
  | .undriven v =>
    if levelOf p.pullUp c then true
    else if levelOf p.pullDown c then false
    else if levelOf p.keeper c then kept
    else (p.groupOf c).settle v

/-- R25: the channels of a set that are enabled settle. -/
def Pfe.settle (p : Pfe) (kept : Fin 16 → Bool) (channels : Levels) : Pfe :=
  let set := channels &&& p.enabled
  let level (i : Nat) : Bool := if h : i < 16 then p.settledLevel (kept ⟨i, h⟩) ⟨i, h⟩ else false
  { p with raw := (p.raw &&& ~~~set) ||| (channelSet level &&& set) }

/-- R28: a level change of a channel within run time, for a channel that keeps a count. -/
def Pfe.countChange (p : Pfe) (c : Fin 16) : Pfe :=
  if (p.groupOf c).glitchDetection then
    { p with
      glitchSeen := p.glitchSeen ||| (p.changedOnce &&& oneChannel c), changedOnce := p.changedOnce ||| oneChannel c }
  else p

/-- R24, R26, R28: the comparator of an enabled channel follows its input. -/
def Pfe.followInput (p : Pfe) (inRun : Bool) (c : Fin 16) (input : ProbeInput) : Pfe :=
  let level := p.rawAfter c input
  if levelOf p.enabled c && level != levelOf p.raw c then
    let q : Pfe := { p with raw := p.raw ^^^ oneChannel c }
    if inRun then q.countChange c else q
  else p

/-! ### Settings -/

/-- R181: a group's settings, with its threshold code. -/
def loadGroup (g : RawGroup) (code : Byte) : GroupState :=
  { code := some code, trim := clampInt (-32) 31 g.trim, hysteresis := g.hysteresis.getD .mV50,
    glitchDetection := g.glitchDetection }

/-- R27: the terminations in effect: a disabled channel has none, a pull beats the keeper, the pull-up the pull-down. -/
def Pfe.withSettings (p : Pfe) (r : RawProbe) (codeA codeB : Byte) : Pfe :=
  { p with
    groupA := loadGroup r.groupA codeA, groupB := loadGroup r.groupB codeB, enabled := r.enabled, inverted := r.inverted,
    pullUp := r.pullUp &&& r.enabled, pullDown := r.pullDown &&& ~~~r.pullUp &&& r.enabled,
    keeper := r.keeper &&& ~~~(r.pullUp ||| r.pullDown) &&& r.enabled }

/-- R33, R25: the loader applies the probe settings, and every enabled channel settles. A keeper has no level to hold, so
what it settles to is free (log 11). -/
def State.applyProbeSettings (s : State) (r : RawProbe) (codeA codeB : Byte) : State :=
  let kept (c : Fin 16) : Bool := Config.keeperLevel (16 * s.freeCount + c.val)
  (s.setPfe ((s.pfe.withSettings r codeA codeB).settle kept 0xFFFF)).fresh

/-- R32: a group's code from a SETUP. -/
def GroupState.withCode (g : GroupState) (code : Byte) : GroupState := { g with code := some code }

/-- R32: the channels of the groups whose code a SETUP changes. -/
def Pfe.changedGroups (p : Pfe) (codeA codeB : Byte) : Levels :=
  (if p.groupA.code = some codeA then 0 else groupAChannels) |||
    (if p.groupB.code = some codeB then 0 else groupBChannels)

/-- R32: the threshold codes of a SETUP become PFE's; a group whose code changes settles. A keeper holds its level. -/
def Pfe.setCodes (p : Pfe) (codeA codeB : Byte) : Pfe :=
  let q : Pfe := { p with groupA := p.groupA.withCode codeA, groupB := p.groupB.withCode codeB }
  q.settle (levelOf p.raw) (p.changedGroups codeA codeB)

/-! ### The command -/

/-- R24: the input of a pin changes. While the reset pin is held, the pin moves and the comparator does not (R178, log
26). -/
def State.levelChange (s : State) (c : Fin 16) (input : ProbeInput) : State :=
  let p : Pfe := { s.pfe with inputs := s.pfe.inputs.set c input }
  if s.sul.resetHeld then s.setPfe p else s.setPfe (p.followInput s.tau.runTime.isSome c input)

def execLevelChange (c : Fin 16) (input : ProbeInput) (s : State) : Host.Outcome State Fault Refusal :=
  .next (s.levelChange c input)

end Sys2Proof.Machine
end

