-- ==== Sys2Proof/Machine/Sampling.lean ====
section
/-! DEFINITION. Sys2Proof/Machine/Sampling.lean: stack time, due instants and the taking of one sample by every block (R15
to R20, R29 to R31, R41, R43, R50, R60 to R64, R86, R102). -/

namespace Sys2Proof.Machine

/-- R16: the offset o of a tick. -/
def RunTime.offset (t : RunTime) (rateFactor : Nat) : Nat :=
  min (Config.markInterval - 1) (t.base + t.ticks * rateFactor / 65536)

/-- Section 1.4: the stack time of a tick, Nm x 2^20 + o. -/
def RunTime.stackTime (t : RunTime) (rateFactor : Nat) : Nat := t.marks * Config.markInterval + t.offset rateFactor

/-- Stack time, within a run. -/
def State.stackTime? (s : State) : Option Nat := s.tau.runTime.map (fun t => t.stackTime s.tau.rateFactor)

/-- R19: the next sample is due: stack time has reached or passed its instant. -/
def State.sampleDue (s : State) : Bool :=
  match s.tau.runTime with
  | some t => t.nextSample * s.divider ≤ t.stackTime s.tau.rateFactor
  | none => false

/-- R26: the current levels: an enabled channel's raw level, inverted where set; 0 for a disabled one. -/
def Pfe.currentLevels (p : Pfe) : Levels := (p.raw ^^^ p.inverted) &&& p.enabled

/-- R19, R28, R29: TAU counts the sample and forming its word clears the counts and marks. -/
def State.formWord (s : State) : State :=
  let t := s.setTau { s.tau with runTime := s.tau.runTime.map (fun r => { r with nextSample := r.nextSample + 1 }) }
  t.setPfe { t.pfe with changedOnce := 0, glitchSeen := 0 }

/-- R41: the commit that brings the retained count to P in PREFILL moves the run state to PRETRIG and starts the
sequencer. The STATUS of that change is posted before the records of the sample reach the comparators and LOG (DESIGN CHOICE,
log 18). -/
def State.enterPretrigIfFilled (s : State) : State :=
  match s.openRecord?, s.run.figures with
  | some r, some f =>
    if s.run.state = .prefill ∧ r.retained = f.depth then
      let t := s.setRun { s.run with state := .pretrig }
      (t.setTsq t.tsq.startRunning).postStatus
    else s
  | some _, none => s
  | none, _ => s

/-- R50: in POSTTRIG the segment whose region is full closes with FILLED at sample `m`, and the next opens or the run
ends. -/
def State.closeIfFilled (s : State) (m : Nat) : State :=
  match s.openRecord?, s.run.figures with
  | some r, some f =>
    if s.run.state = .posttrig ∧ r.retained = r.regionSize then
      let t := s.closeSegment .filled
      if r.index + 1 < f.segments then t.openSegment (r.index + 1) m else t.endRun
    else s
  | some _, none => s
  | none, _ => s

/-- The open entry is holding and would not take this sample (R60). -/
def State.sampleBreaks (s : State) (d : EntryData) : Bool :=
  match s.cst.openEntry with
  | some o => (o.holding.map (fun e => !sampleJoins e d)).getD false
  | none => false

/-- R61 step 1, with R41 and R50: what the arrival of sample `m` commits, and what that commit causes. -/
def State.arrive (s : State) (m : Nat) (word glitch : Levels) : State × List Advance :=
  if s.sampleBreaks (sampleData s.tsq.qualifier word glitch) then
    let c := s.commitOpen
    (c.1.enterPretrigIfFilled.closeIfFilled m, c.2)
  else (s, [])

/-- R99, R101: what the decoder units take at sample `m`. -/
def sampleContext (s : State) (m : Nat) (word glitch last : Levels) : SampleContext :=
  { index := m, divider := s.divider, segment := s.openIndex?.getD 0, word := word, last := last, glitch := glitch }

/-- R86, R89, R90: TSQ evaluates the sample. -/
def State.sequence (s : State) (i : SequencerInputs) : State := s.setTsq (s.tsq.evaluate i)

/-- R43, R48, R49: the source of the trigger taken at a sample in PRETRIG, if one is taken. -/
def triggerAt (rs : RunState) (fires pendingRemote : Bool) : Option TriggerSource :=
  if rs = .pretrig then
    if fires then some .local else if pendingRemote then some .remote else none
  else none

/-- The compressor's part of a sample once TSQ has evaluated it: the trigger entry (R64), or the sample under the
qualifier that applied to it (R90). -/
def State.compress (s : State) (m : Nat) (word glitch : Levels) (qualifier : Bool) (trigger : Option TriggerSource) :
    State × List Advance :=
  match trigger with
  | some source => s.takeTrigger m word glitch source
  | none => (s.enterSample m (sampleData qualifier word glitch), [])

/-- The first retained sample index of the segment that holds this sample, before the sample's advances. -/
def firstBefore (before after : State) : Nat :=
  let r := if before.openIndex? = after.openIndex? then before.openRecord? else after.openRecord?
  (r.map SegmentRecord.firstSample).getD 0

/-- Sample `m`, once its arrival has left the run going: DEC and the comparators, TSQ, the compressor, and LOG. -/
def State.takeArrived (s before : State) (m : Nat) (word glitch last : Levels) (arrival : List Advance) : State :=
  let c := sampleContext s m word glitch last
  let records := s.dec.sampleRecords c
  let i : SequencerInputs :=
    { word := word, last := last, hits := hitsOf s.fc.settings records, observed := s.lnk.observed }
  let d := (s.setDec (s.dec.afterSample c)).compareRecords records
  let t := d.sequence i
  let k := t.compress m word glitch s.tsq.qualifier (triggerAt s.run.state (s.tsq.fires i) s.run.pendingRemote)
  let l := k.1.logSample s.run.state (firstBefore before s) records (arrival ++ k.2)
  l.setPfe { l.pfe with lastLevels := some word }

/-- R19, R20: take one sample. -/
def State.takeSample (s : State) : State :=
  match s.tau.runTime with
  | some t =>
    let word := s.pfe.currentLevels
    let glitch := s.pfe.glitchSeen
    let last := s.pfe.lastLevels.getD word
    let f := s.formWord
    let a := f.arrive t.nextSample word glitch
    if a.1.run.state.hasSegment then a.1.takeArrived f t.nextSample word glitch last a.2 else a.1
  | none => s

/-- R19: take every due sample, at most `n`. -/
def State.takeDue : Nat → State → State
  | 0, s => s
  | n + 1, s => if s.sampleDue then State.takeDue n s.takeSample else s

/-- R19: how many instants the stack time has reached or passed and not sampled. -/
def State.dueCount (s : State) : Nat :=
  match s.tau.runTime with
  | some t => t.stackTime s.tau.rateFactor / s.divider + 1 - t.nextSample
  | none => 0

/-- R19: take the samples of every instant reached or passed. -/
def State.takeAllDue (s : State) : State := State.takeDue s.dueCount s

end Sys2Proof.Machine
end

