-- ==== Sys2Proof/Machine/Timebase.lean ====
section
/-! DEFINITION. Sys2Proof/Machine/Timebase.lean: the reference monitor, the mark line, the intervals with lock and rate
factor, the mark-edge step and the run's start (R1 to R18), with the commands of the reference clock and the mark line and
the command SAMPLE. -/

namespace Sys2Proof.Machine

/-! ### Lock and rate factor -/

/-- R13, R14: the history is emptied, the lock state becomes UNLOCKED and K becomes 65,536. -/
def Tau.unlock (t : Tau) : Tau := { t with history := [], locked := false, rateFactor := Config.unlockedK }

/-- R14: K from the intervals of a full history. -/
def rateFactorOf (history : List Nat) : Nat :=
  let a := (history.sum + 2) / 4
  (2 ^ 36 + a / 2) / a

/-- R13: an accepted interval joins the history; a full one loses its oldest. -/
def pushInterval (history : List Nat) (m : Nat) : List Nat :=
  if history.length < 4 then history ++ [m] else history.drop 1 ++ [m]

/-- R13, R14: an accepted interval. -/
def Tau.acceptInterval (t : Tau) (m : Nat) : Tau :=
  let h := pushInterval t.history m
  if h.length = 4 then { t with history := h, locked := true, rateFactor := rateFactorOf h }
  else { t with history := h, locked := false, rateFactor := Config.unlockedK }

/-- R12: the interval that ends at an observed leading edge; its length M is the emission timer's count. -/
def Tau.measureInterval (t : Tau) : Tau :=
  match t.interval with
  | .unmeasured => t
  | .discarded => t
  | .measured =>
    if Config.acceptedLow ≤ t.emissionTimer ∧ t.emissionTimer ≤ Config.markInterval then
      t.acceptInterval t.emissionTimer
    else t.unlock

/-- R12: the interval in progress will not be measured. -/
def IntervalInProgress.discard : IntervalInProgress → IntervalInProgress
  | .unmeasured => .unmeasured
  | .discarded => .discarded
  | .measured => .discarded

/-- R16: a rebase, so that stack time goes on from its value when K changes. -/
def Tau.rebase (t : Tau) : Tau :=
  { t with runTime := t.runTime.map (fun r => { r with base := r.offset t.rateFactor, ticks := 0 }) }

/-! ### The mark-edge step -/

/-- R17 step 2: Nm rises and the offset restarts. A second mark edge at the same local tick finds 0 as the offset of the tick
before (DESIGN CHOICE, log 51). -/
def RunTime.atMarkEdge (r : RunTime) : RunTime :=
  { r with marks := r.marks + 1, ticks := 0, base := 0, previousOffset := 0 }

/-- R17: 2^20 minus the offset held at the previous local tick. -/
def RunTime.correction (r : RunTime) : Nat := Config.markInterval - r.previousOffset

/-- R42: a mark correction reported for the open segment. -/
def State.reportCorrection (s : State) (c : Nat) : State :=
  s.updateOpen (fun r => { r with maxCorrection := max r.maxCorrection c })

/-- R17, R18, R54: the mark-edge step of a run; nothing outside a run. -/
def State.markEdgeStep (s : State) : State :=
  match s.tau.runTime with
  | none => s
  | some r =>
    let jumped := s.setTau { s.tau with runTime := some r.atMarkEdge }
    let t := jumped.takeAllDue.reportCorrection r.correction
    if r.marks + 1 = Config.timeLimitMarks ∧ t.run.state.hasSegment then t.closeAndEnd .timeLimit else t

/-! ### Leading edges -/

/-- R8, R12: what TAU sets at an observed leading edge, the run's state being `rs`. -/
def Tau.leadingEdge (t : Tau) (rs : RunState) : Tau :=
  { t.measureInterval with
    markLine := true, pulseWidth := 0, candidate := rs == .waitStart, emissionTimer := 0, synthesisCount := 0,
    interval := .measured }

/-- R8: an observed leading edge: TAU measures the interval before the run takes its mark-edge step (DESIGN CHOICE, log
37). -/
def State.observeLeadingEdge (s : State) : State := (s.setTau (s.tau.leadingEdge s.run.state)).markEdgeStep

/-- R7: the station drives a start mark, which clears start-pending. -/
def State.driveStartMark (s : State) : State := s.setTau { s.tau with markDrive := some 32, startPending := false }

/-- R8, R7: a leading edge this station did not drive, with the stretch when a start is pending. -/
def State.leadingEdge (s : State) : State :=
  if s.active && !s.tau.markLine then
    let t := s.observeLeadingEdge
    if s.emitsMarks && s.tau.startPending then t.driveStartMark else t
  else s

/-- R6, R7, R8: the emission timer has reached 2^20 at an emitting station, which drives the line and observes the leading
edge of its own drive at that tick. -/
def State.emissionTimerExpiry (s : State) : State :=
  if s.active && s.emitsMarks && Config.markInterval ≤ s.tau.emissionTimer then
    let driven := if s.tau.startPending then s.driveStartMark else s.setTau { s.tau with markDrive := some 8 }
    if s.tau.markLine then driven else driven.observeLeadingEdge
  else s

/-- R6: the station's own drive has run out. -/
def State.markPulseEnd (s : State) : State :=
  if s.active && s.tau.markDrive == some 0 then s.setTau { s.tau with markDrive := none } else s

/-! ### Trailing edges and the run's start -/

/-- R28, R30, R34: PFE at the run's start. -/
def Pfe.startRunTime (p : Pfe) : Pfe :=
  { p with changedOnce := 0, glitchSeen := 0, lastLevels := some p.currentLevels }

/-- R15 steps 1 to 3: run time as it begins, the start pulse being `width` ticks wide. -/
def RunTime.start (width rateFactor : Nat) : RunTime :=
  let r : RunTime := { marks := 0, ticks := width, base := 0, previousOffset := 0, nextSample := 0 }
  { r with previousOffset := r.offset rateFactor }

/-- R99: the units start with the run. -/
def Dec.startRun (d : Dec) : Dec := { d with units := d.units.map DecodeUnit.start }

/-- R15: the run starts at the trailing edge of the start mark. -/
def State.startRun (s : State) : State :=
  let t := s.setTau
    { s.tau with
      runTime := some (RunTime.start s.tau.pulseWidth s.tau.rateFactor), startPending := false, candidate := false }
  let u := (t.setPfe t.pfe.startRunTime).setDec t.dec.startRun
  (u.openSegment 0 0).takeAllDue

/-- R9: the width of a start mark. -/
def isStartWidth (w : Nat) : Bool := 24 ≤ w && w ≤ 63

/-- R9, R10, R15: an observed trailing edge. -/
def State.trailingEdge (s : State) : State :=
  if s.active && s.tau.markLine && s.tau.markDrive.isNone then
    let released := s.setTau { s.tau with markLine := false }
    if s.tau.markStuck then (released.setTau { released.tau with markStuck := false }).postStatus
    else if isStartWidth s.tau.pulseWidth && s.tau.candidate && s.run.state == .waitStart then released.startRun
    else released.setTau { released.tau with candidate := false }
  else s

/-! ### Stuck line and synthesized marks -/

/-- R10: the pulse-width count has reached 64. -/
def State.markStuck (s : State) : State :=
  if s.active && s.tau.markLine && !s.tau.markStuck && 64 ≤ s.tau.pulseWidth then
    let t := s.tau.rebase.unlock
    (s.setTau { t with markStuck := true, candidate := false, interval := t.interval.discard }).postStatus
  else s

/-- R11: a station that does not emit by its image or its strap. -/
def State.neverEmits (s : State) : Bool := s.options.listenOnly || s.sul.strap == 7

/-- R11: the local ticks without a mark edge after which a mark is synthesized; none where none ever is. -/
def State.synthesisLimit (s : State) : Option Nat :=
  if s.tau.markStuck then some Config.markInterval
  else if s.neverEmits then some (Config.markInterval + Config.listenMargin)
  else none

/-- R11: the count of ticks without a mark edge has reached its limit. -/
def State.synthesisDue (s : State) : Bool :=
  match s.synthesisLimit with
  | some n => n ≤ s.tau.synthesisCount
  | none => false

/-- R11: a synthesized mark: the station unlocks after the mark-edge step, which decides UNALIGNED of a segment its samples
open, and the lock state and K of a STATUS posted within it (DESIGN CHOICE, log 37). -/
def State.synthesizedMark (s : State) : State :=
  if s.active && s.synthesisDue then
    let t := (s.setTau { s.tau with emissionTimer := 0, synthesisCount := 0, interval := .discarded }).markEdgeStep
    t.setTau t.tau.unlock
  else s

/-! ### The reference monitor -/

/-- R2. -/
def windowInRange (edges : Nat) : Bool := 1280 ≤ edges && edges ≤ 1342

/-- R5: the local tick changes source, and the clock state becomes `c`. -/
def State.switchClock (s : State) (c : ClockState) : State :=
  let t := s.tau.rebase.unlock
  (s.setTau { t with clockState := c, interval := t.interval.discard }).updateOpen (fun r => { r with refSwitch := true })

/-- R3: a window of the trial. -/
def State.trialWindow (s : State) (inRange : Bool) : State :=
  let run := if inRange then s.tau.inRangeRun + 1 else 0
  let count := s.tau.windowCount + 1
  let t : Tau := { s.tau with windowCount := count, inRangeRun := run }
  if run = 4 then (s.setTau t).switchClock .refActive
  else if count = 16 then s.setTau { t with clockState := .refAbsent, monitorRunning := false }
  else s.setTau t

/-- R4: a window of the fail-safe watch. The in-range run is held at 4 and the window count at its value at the end of the
trial, since their ranges end there (DESIGN CHOICE, log 50). -/
def State.watchWindow (s : State) (inRange : Bool) : State :=
  if inRange then s.setTau { s.tau with inRangeRun := min 4 (s.tau.inRangeRun + 1) }
  else (s.setTau { s.tau with inRangeRun := 0, monitorRunning := false }).switchClock .refLost

/-- R2: a window of the reference monitor ends having counted `edges`. -/
def State.windowEnd (s : State) (edges : Nat) : State :=
  if s.active && s.tau.monitorRunning then
    if s.tau.clockState = .refActive then s.watchWindow (windowInRange edges) else s.trialWindow (windowInRange edges)
  else s

/-! ### Samples and ticks -/

/-- R19: the next sample is due and is taken. -/
def State.sample (s : State) : State := if s.active && s.sampleDue then s.takeSample else s

/-- R16, R17: a local tick of run time. -/
def RunTime.tick (r : RunTime) (rateFactor : Nat) : RunTime :=
  { r with previousOffset := r.offset rateFactor, ticks := r.ticks + 1 }

/-- R6, R8, R11, R16: a local tick. The pulse-width count is held at 64, where R8 gives it no end (DESIGN CHOICE, log 36). -/
def Tau.tick (t : Tau) : Tau :=
  { t with
    emissionTimer := t.emissionTimer + 1, synthesisCount := t.synthesisCount + 1,
    pulseWidth := if t.markLine then min 64 (t.pulseWidth + 1) else t.pulseWidth,
    markDrive := t.markDrive.map (fun n => n - 1),
    runTime := t.runTime.map (fun r => r.tick t.rateFactor) }

/-- The bit this station sends at a position of its frame; true is recessive. -/
def Lnk.sentBit (l : Lnk) (bit : Nat) : Option Bool := l.frameOnLine.bind (fun f => (Frame.bits f)[bit]?)

/-- R163: the place in the frame when the next bit period begins. -/
def Lnk.nextPosition (l : Lnk) : Option Nat := l.framePosition.map (fun n => n + 1)

/-- R163: the bit clock runs on by a tick; where it comes round, the next bit of the frame begins. -/
def Lnk.runBitClock (l : Lnk) : Lnk :=
  { l with
    bitClock := (l.bitClock + 1) % 250
    framePosition := if (l.bitClock + 1) % 250 = 0 then l.nextPosition else l.framePosition }

/-- R162, R163, R165: the level of the message line at a tick, true recessive. A WAITING receiver that has seen the line
recessive sees it so until FRAME_BEGIN brings the transition of a start bit; the start bit is dominant, and so is a bit this
station sends dominant. `level` is what the other stations put on the line, which no command and no rule gives tick by tick
(log 15). -/
def Lnk.levelSeen (l : Lnk) (level : Bool) : Bool :=
  if l.receiver == .waiting && l.lineRecessive then true
  else match l.framePosition with
    | none => level
    | some 0 => false
    | some (n + 1) => level && (l.sentBit (n + 1)).getD true

/-- R163: the line is observed at a tick. A transition from recessive to dominant makes the tick the first of a bit period,
the next of the frame where this one's bit has been read. -/
def Lnk.observeLine (l : Lnk) (recessive : Bool) : Lnk :=
  let t : Lnk := { l with lineRecessive := recessive }
  if l.lineRecessive && !recessive then
    { t with bitClock := 0, framePosition := if 125 < l.bitClock then l.nextPosition else l.framePosition }
  else t

/-- R163: at the reading tick a recessive bit raises the idle count by one, up to 9, and a dominant one sets it to 0. The
first tick of a period is count 0 and the reading tick count 125: 125 ticks later, as R163 has the next reading, where it
also calls it the period's 125th (DESIGN CHOICE, log 49). -/
def Lnk.readBit (l : Lnk) : Lnk :=
  if l.bitClock = 125 then { l with idleCount := idleCountAfter l.idleCount [l.lineRecessive] } else l

/-- R161, R163, R170, R174: a local tick at the link controller. -/
def Lnk.tick (l : Lnk) (drives : FlagLines) (level : Bool) : Lnk :=
  let t : Lnk := { l with
    settledDrives := drives
    queue := l.queue.map (fun e => { e with tookFreedEntry := false })
    stream := l.stream.map (fun x => { x with formed := false }) }
  let u := t.runBitClock
  (u.observeLine (u.levelSeen level)).readBit

/-- A local tick passes (log 1). Neither a part held in reset nor one in the start-up sequence counts ticks (R22, R139,
R178). -/
def State.tick (s : State) : State :=
  if s.active then
    { s.fresh with
      tau := s.tau.tick, ren := { s.ren with frameTimer := s.ren.frameTimer + 1 }
      lnk := s.lnk.tick s.tsq.drives (Config.messageLevel s.freeCount) }
  else s

/-! ### The commands -/

def execWindowEnd (edges : Nat) (s : State) : Host.Outcome State Fault Refusal := .next (s.windowEnd edges)
def execEmissionTimerExpiry (s : State) : Host.Outcome State Fault Refusal := .next s.emissionTimerExpiry
def execMarkPulseEnd (s : State) : Host.Outcome State Fault Refusal := .next s.markPulseEnd
def execLeadingEdge (s : State) : Host.Outcome State Fault Refusal := .next s.leadingEdge
def execTrailingEdge (s : State) : Host.Outcome State Fault Refusal := .next s.trailingEdge
def execMarkStuck (s : State) : Host.Outcome State Fault Refusal := .next s.markStuck
def execSynthesizedMark (s : State) : Host.Outcome State Fault Refusal := .next s.synthesizedMark
def execSample (s : State) : Host.Outcome State Fault Refusal := .next s.sample

end Sys2Proof.Machine
end

