-- ==== Sys2Proof/Machine/Load.lean ====
section
/-! DEFINITION. Sys2Proof/Machine/Load.lean: what the blocks load from the image or the built-in defaults: a profile (R76,
R96, R130, R142), the run setup (R36), the panel settings (R152), and the clamping of each field (R181). -/

namespace Sys2Proof.Machine

/-! ### Clamped settings -/

/-- R36: the clamps of a setup's numbers. -/
def clampSetup (u : RunSetup) : RunSetup :=
  { u with divider := clampNat 2 1048576 u.divider, segments := clampNat 1 32 u.segments, fraction := min 15 u.fraction }

/-- R153, R181: rows above 119 become 119, and a first row above the last is exchanged with it. -/
def panelRows (first last : Nat) : Nat × Nat :=
  let f := min 119 first
  let l := min 119 last
  if l < f then (l, f) else (f, l)

/-- R181: a comparator's settings as loaded. -/
def loadComparator (c : RawComparator) : Comparator :=
  { source := c.source.getD 0, kinds := c.kinds, field := c.field.getD .value, width := clampNat 1 32 c.width,
    mask := c.mask, constant := c.constant, isSigned := c.isSigned, accept := c.accept }

/-- R181: a level with its dwell limit in range. -/
def loadLevel (l : LevelRecord) : LevelRecord := { l with dwellLimit := min 16777215 l.dwellLimit }

/-- R181: a lane as loaded. -/
def loadLane (l : RawLane) : Lane :=
  { source := l.source.getD (.channel 0), height := clampNat 4 24 l.height, colour := l.colour }

/-- R181, R142: a lane table as loaded. -/
def loadLanes (l : RawLanes) : List Lane := (l.lanes.take (clampNat 1 20 l.count)).map loadLane

/-! ### Lane placement -/

/-- R142: the drawn lanes of a table from top row `y` on, each with its top row; placement stops at the first that does
not fit. -/
def placeLanesFrom (y : Nat) : List Lane → List PlacedLane
  | [] => []
  | l :: rest => if y + l.height ≤ Config.rows then { top := y, lane := l } :: placeLanesFrom (y + l.height) rest else []

def placeLanes (lanes : List Lane) : List PlacedLane := placeLanesFrom 0 lanes

/-- R142: LANES_CLIPPED, at least one lane of the table is not drawn. -/
def lanesClipped (lanes : List Lane) : Bool := (placeLanes lanes).length < lanes.length

def Ren.loadLanes (r : Ren) (lanes : List Lane) : Ren :=
  { r with lanes := lanes, lanesClipped := Sys2Proof.Machine.lanesClipped lanes }

/-! ### Profiles -/

/-- R180: a profile with no part present, each part of which loads from the built-in default profile. -/
def bareProfile : RawProfile := { decoders := none, comparators := none, sequencer := none, lanes := none }

/-- R38, R180: a profile of the image contents, if present. Without a profiles section only P0 is, as the built-in default
profile (log 9). -/
def profileOf (c : ImageContents) (p : Fin 4) : Option RawProfile :=
  match c.profiles with
  | some q => q.get p
  | none => if p = 0 then some bareProfile else none

def profileProgram (r : RawProfile) : Program := (r.sequencer.map (fun p => p.map loadLevel)).getD defaultProgram

def profileComparators (r : RawProfile) : Quad Comparator :=
  (r.comparators.map (fun q => q.map loadComparator)).getD (Quad.replicate defaultComparator)

def profileDecoders (r : RawProfile) : Quad RawDecoder := r.decoders.getD (Quad.replicate .off)

def profileLanes (r : RawProfile) : List Lane := (r.lanes.map loadLanes).getD defaultLanes

/-- R76, R94, R96, R130, R142: TSQ, DEC, the comparators and REN load a profile. The decoder assignments are checked
against the channels that are enabled. -/
def State.loadProfile (s : State) (r : RawProfile) : State :=
  { s with
    tsq := Tsq.start (profileProgram r), dec := loadDecoders s.pfe.enabled (profileDecoders r),
    fc := { s.fc with settings := profileComparators r }, ren := s.ren.loadLanes (profileLanes r) }

end Sys2Proof.Machine
end

