-- ==== Sys2Proof/Machine/Requests.lean ====
section
/-! DEFINITION. Sys2Proof/Machine/Requests.lean: whole frames received (R167, R168) and the requests of the message line
that RUN, REN's view and LNK's QUERY take (R36, R38, R47, R48, R53, R136, R169). -/

namespace Sys2Proof.Machine

/-! ### Reception -/

/-- R163, R167: the receiver after it has read the bits of a frame to their end, at the reading tick of the last. -/
def Lnk.readFrame (l : Lnk) (bits : List Bool) : Lnk :=
  { l with
    receiver := .waiting, idleCount := idleCountAfter l.idleCount bits, lineRecessive := bits.getLast? != some false,
    bitClock := 125, framePosition := none }

/-- R167: the station is receiving a frame: it has observed its start bit, and has not skipped its rest. -/
def State.receives (s : State) : Bool := s.active && s.lnk.receiver == .receiving

/-- R167, R168: a whole frame, the one a message command stands for, ends, and the block that takes it acts at that tick. -/
def State.onFrame (s : State) (i : Instr) (taken : State → State) : State :=
  match i.frame? with
  | some f => if s.receives then taken (s.setLnk (s.lnk.readFrame f.bits)) else s
  | none => s

/-- R168: whether a target byte addresses this station. -/
def State.isAddressed (s : State) (target : Byte) : Bool := addressed s.sul.strap (targetOf target)

/-! ### STOP -/

/-- R39, R53: STOP in WAIT_START. -/
def State.abandonStart (s : State) : State :=
  let t := s.setTau { s.tau with startPending := false, candidate := false }
  let u := t.setTsq t.tsq.release
  (u.setRun { u.run with state := .idle }).postStatus

/-- R53. -/
def State.stop (s : State) : State :=
  match s.run.state with
  | .idle => s
  | .waitStart => s.abandonStart
  | .prefill => s.closeAndEnd .stopped
  | .pretrig => s.closeAndEnd .stopped
  | .posttrig => s.closeAndEnd .stopped

/-! ### ARM -/

/-- R38: the profile number an ARM names. -/
def profileNumber (b : Byte) : Option (Fin 4) := if h : b.toNat < 4 then some ⟨b.toNat, h⟩ else none

/-- R38, R180: the profile an ARM names, with its number, when it is present. -/
def State.armedProfile (s : State) (b : Byte) : Option (Fin 4 × RawProfile) :=
  (profileNumber b).bind (fun p => (profileOf s.sul.contents p).map (fun r => (p, r)))

/-- R137: the view at a taken ARM. -/
def ViewRecord.atArm (v : ViewRecord) : ViewRecord := { v with segment := 0, follow := true }

/-- R38: a taken ARM. Start-pending is set in every station (log 33), and in one that sees a stuck line it stays set over the
release, so that its first emission then is a start mark (DESIGN CHOICE, log 44). -/
def State.takeArm (s : State) (p : Fin 4) (r : RawProfile) : State :=
  let cleared : State :=
    { s with
      log := Log.powerStart, fc := { s.fc with sticky := 0 }, cst := { s.cst with openEntry := none, checkpoints := [] } }
  let loaded := cleared.loadProfile r
  let armed : State :=
    { loaded with
      ren := { loaded.ren with view := loaded.ren.view.atArm }
      run := { loaded.run with
        state := .waitStart, figures := some (runFigures loaded.run.setup), table := [], activeProfile := p,
        pendingRemote := false }
      tau := { loaded.tau with startPending := true } }
  armed.postStatus

/-- R38: an ARM that names profile `b`. -/
def State.arm (s : State) (b : Byte) : State :=
  if s.run.state = .idle then
    match s.armedProfile b with
    | some (p, r) => s.takeArm p r
    | none => s.refuse .arm .noProfile
  else s.refuse .arm .busy

/-! ### SETUP -/

/-- R185, section 12.1: the run setup a SETUP carries. -/
def setupOf (divider : Word) (segments options codeA codeB : Byte) : RunSetup :=
  { divider := divider.toNat, segments := segments.toNat, fraction := (options.extractLsb' 0 4).toNat,
    prefillWait := options.getLsbD 4, followNotice := options.getLsbD 5, codeA := codeA, codeB := codeB }

/-- R36, R32. -/
def State.setup (s : State) (u : RunSetup) : State :=
  if s.run.state = .idle then
    (s.setRun { s.run with setup := clampSetup u }).setPfe (s.pfe.setCodes u.codeA u.codeB)
  else s.refuse .setup .busy

/-! ### NOTICE -/

/-- R47: a reference time from a NOTICE. -/
def SegmentRecord.notice (r : SegmentRecord) (time : Nat) : SegmentRecord :=
  { r with reference := earliest r.reference time }

/-- R48: a NOTICE that triggers this station at the next sample. -/
def State.noticeFires (s : State) (source : Station) (segment : Nat) : Bool :=
  s.run.setup.followNotice && source != s.sul.strap && s.openIndex? == some segment && s.run.state == .pretrig

/-- R47, R48. -/
def State.notice (s : State) (source : Station) (segment time : Nat) : State :=
  let t := s.updateRecord segment (fun r => r.notice time)
  if s.noticeFires source segment then t.setRun { t.run with pendingRemote := true } else t

/-! ### VIEW -/

/-- R136, section 12.1. -/
def viewOf (segment : Byte) (offset : BitVec 48) (scale follow : Byte) : ViewRecord :=
  { segment := (segment.extractLsb' 0 5).toNat, offset := offset.toInt, scale := min 36 scale.toNat,
    follow := follow.getLsbD 0 }

def State.view (s : State) (v : ViewRecord) : State := { s with ren := { s.ren with view := v } }

/-! ### The commands -/

def execStop (source : Station) (s : State) : Host.Outcome State Fault Refusal :=
  .next (s.onFrame (.stop source) State.stop)

def execArm (source : Station) (profile : Byte) (s : State) : Host.Outcome State Fault Refusal :=
  .next (s.onFrame (.arm source profile) (fun t => t.arm profile))

def execNotice (source : Station) (segment : Byte) (time : BitVec 48) (s : State) : Host.Outcome State Fault Refusal :=
  .next (s.onFrame (.notice source segment time) (fun t => t.notice source segment.toNat time.toNat))

def execSetup (source : Station) (divider : Word) (segments options codeA codeB : Byte) (s : State) :
    Host.Outcome State Fault Refusal :=
  .next (s.onFrame (.setup source divider segments options codeA codeB)
    (fun t => t.setup (setupOf divider segments options codeA codeB)))

def execView (source : Station) (segment : Byte) (offset : BitVec 48) (scale follow : Byte) (s : State) :
    Host.Outcome State Fault Refusal :=
  .next (s.onFrame (.view source segment offset scale follow) (fun t => t.view (viewOf segment offset scale follow)))

/-- R169: a QUERY addressed to this station. -/
def execQuery (source : Station) (target : Byte) (s : State) : Host.Outcome State Fault Refusal :=
  .next (s.onFrame (.query source target) (fun t => if t.isAddressed target then t.postStatus else t))

/-- R168: STATUS, DATA and DONE are received and not taken. -/
def execReplyFrameReceived (kind : ReplyKind) (source : Station) (payload : List Byte) (s : State) :
    Host.Outcome State Fault Refusal :=
  .next (s.onFrame (.replyFrameReceived kind source payload) (fun t => t))

/-- R168: a frame with a target that does not address this station is received and not taken. A payload that does address
it is not this command's event (log 2). -/
def execUnaddressedFrameReceived (kind : TargetedKind) (source : Station) (payload : List Byte) (s : State) :
    Host.Outcome State Fault Refusal :=
  .next (if s.isAddressed (payloadByte payload 0) then s
    else s.onFrame (.unaddressedFrameReceived kind source payload) (fun t => t))

/-! ### Bad frames -/

/-- R167: the bits of a bad frame the receiver reads: no further than a length above 28, or than the end bit that is
dominant. -/
def RawFrame.bitsRead (f : RawFrame) : List Bool :=
  if 28 < f.length.toNat then f.headerBits else if !f.end1 then f.bits.dropLast else f.bits

/-- R167: where a bad frame leaves the receiver: SKIPPING after a length above 28; receiving again where the second end bit
alone is dominant and taken as a start bit. A dominant first end bit drops the frame there and leaves the receiver WAITING,
also where the second would read dominant (DESIGN CHOICE, log 53). -/
def RawFrame.receiverAfter (f : RawFrame) : Receiver :=
  if 28 < f.length.toNat then .skipping else if f.end1 && !f.end2 then .receiving else .waiting

/-- R167: a received frame shows a fault; a frame without one is not this command's event. -/
def State.receiveFault (s : State) (f : RawFrame) : State :=
  match RawFrame.fault f with
  | some e =>
    if s.receives then
      s.setLnk { s.lnk.readFrame (RawFrame.bitsRead f) with
        receiver := RawFrame.receiverAfter f, lastBusError := some e
        framePosition := if RawFrame.receiverAfter f = .receiving then some 0 else none }
    else s
  | none => s

def execReceiveFault (f : RawFrame) (s : State) : Host.Outcome State Fault Refusal := .next (s.receiveFault f)

end Sys2Proof.Machine
end

