-- ==== Sys2Proof/Machine/Link.lean ====
section
/-! DEFINITION. Sys2Proof/Machine/Link.lean: the message line as this station sends on it (R163 to R166), its transmit queue
as claimants join it (R170, R171, R175), READ streams (R173 to R175) and the flag lines (R161, R81). -/

namespace Sys2Proof.Machine

/-! ### Idle line and frame begin -/

/-- R163, R167: the idle count has reached 9, and a SKIPPING receiver returns to WAITING. -/
def State.lineIdle (s : State) : State :=
  if s.active && s.lnk.idleCount == 9 && s.lnk.receiver == .skipping then s.setLnk { s.lnk with receiver := .waiting }
  else s

/-- R163, R167: a transition from recessive to dominant is observed: the bit clock restarts and a WAITING receiver takes it
as a start bit. The idle count goes to 0 at the reading tick of that bit (`Lnk.readBit`). -/
def Lnk.observeTransition (l : Lnk) : Lnk :=
  { l with
    bitClock := 0, lineRecessive := false
    framePosition := if l.receiver = .waiting then some 0 else l.framePosition
    receiver := if l.receiver = .waiting then .receiving else l.receiver }

/-- R170: of two entries, the one selected first; the earlier of two of the same kind. -/
def selectBetween (a b : QueueEntry) : QueueEntry := if b.kind < a.kind then b else a

/-- R170: the entry a beginning frame selects: the lowest kind, and among those the one posted earliest. -/
def selectEntry : List QueueEntry → Option QueueEntry
  | [] => none
  | e :: rest =>
    match selectEntry rest with
    | some f => some (selectBetween e f)
    | none => some e

/-- R164: the selected entry, the first of its kind, is marked as under transmission. -/
def markSelected (kind : Nat) : List QueueEntry → List QueueEntry
  | [] => []
  | e :: rest =>
    if e.kind = kind then { e with underTransmission := true } :: rest else e :: markSelected kind rest

/-- R164: an IDLE transmitter at an idle line is ready to begin a frame. Once another station's start bit is under way it is
not, though the idle count stands at 9 until that bit is read. -/
def Lnk.ready (l : Lnk) : Bool := l.transmitter == .idle && l.idleCount == 9 && l.framePosition != some 0

/-- R164: a frame begins on the line. A station that is ready and has a message sends it: at the first tick of its bit
period, or in step with another station's start bit where that comes first. Any other station becomes a receiver of the
frame whose start bit it observes. A sender whose idle count reached 9 within another station's frame abandons the reception of
that frame (DESIGN CHOICE, log 52). -/
def State.frameBegin (s : State) : State :=
  if s.active then
    match (if s.lnk.ready then selectEntry s.lnk.queue else none) with
    | some e =>
      s.setLnk { s.lnk with
        transmitter := .sending, frameOnLine := some (e.message.frame s.sul.strap), receiver := .receiving,
        lineRecessive := false, bitClock := 0, framePosition := some 0, queue := markSelected e.kind s.lnk.queue }
    | none => s.setLnk s.lnk.observeTransition
  else s

/-! ### The bits of the frame on the line -/

/-- R165: an attempt ends without completing: the message stays, no longer under transmission (log 17). -/
def QueueEntry.keep (e : QueueEntry) : QueueEntry := { e with underTransmission := false, resend := false }

/-- R163, R165: a sender reads the bit at a position of its frame, at its reading tick, having read every bit before it as it
sent it. The position comes with the command (log 15). -/
def Lnk.readSent (l : Lnk) (bit : Nat) (recessive : Bool) : Lnk :=
  { l with
    idleCount := idleCountAfter 0 (((l.frameOnLine.map Frame.bits).getD []).take bit ++ [recessive])
    lineRecessive := recessive, bitClock := 125, framePosition := some bit }

/-- R165: the station stops sending and keeps the message. -/
def Lnk.stopSending (l : Lnk) : Lnk :=
  { l with transmitter := .idle, frameOnLine := none, queue := l.queue.map QueueEntry.keep }

/-- R165: recessive sent and dominant read in the kind or source field (bits 1 to 7). -/
def State.arbitrationLost (s : State) (bit : Nat) : State :=
  if s.active && s.lnk.transmitter == .sending && 1 ≤ bit && bit ≤ 7 && s.lnk.sentBit bit == some true then
    s.setLnk (s.lnk.readSent bit false).stopSending
  else s

/-- R165: dominant sent and recessive read, from the first kind bit on. -/
def State.bitError (s : State) (bit : Nat) : State :=
  if s.active && s.lnk.transmitter == .sending && 1 ≤ bit && s.lnk.sentBit bit == some false then
    s.setLnk { (s.lnk.readSent bit true).stopSending with lastBusError := some .bit }
  else s

/-- R166: the segments that NOTICEs in the queue name. -/
def noticedSegments (q : List QueueEntry) : List Nat :=
  q.filterMap (fun e =>
    match e.message with
    | .notice segment _ => some segment
    | .status _ => none
    | .data _ => none
    | .done _ => none)

/-- R166: the transmitter falls SILENT; queue, owed STATUS and stream context go. -/
def Lnk.fallSilent (l : Lnk) : Lnk :=
  { l with
    transmitter := .silent, frameOnLine := none, queue := [], statusOwed := false, stream := none, heldDones := [],
    duplicateId := true }

/-- R166: recessive sent and dominant read after the source field (bit 8 on). -/
def State.duplicateId (s : State) (bit : Nat) : State :=
  if s.active && s.lnk.transmitter == .sending && 8 ≤ bit && s.lnk.sentBit bit == some true then
    ((noticedSegments s.lnk.queue).foldl State.markNoticeDropped (s.setLnk (s.lnk.readSent bit false).fallSilent)).postStatus
  else s

/-! ### Completion -/

/-- A DONE of a stream that a READ cut (R173). -/
def Done.isCut (d : Done) : Bool := d.reason == .cut

def QueueEntry.isCutDone (e : QueueEntry) : Bool :=
  match e.message with
  | .done d => d.isCut
  | .notice _ _ => false
  | .status _ => false
  | .data _ => false

/-- R173: the DONE of some stream cut by a READ has not completed transmission. -/
def Lnk.cutDonePending (l : Lnk) : Bool := l.queue.any QueueEntry.isCutDone || l.heldDones.any Done.isCut

/-- R175: a waiting stream becomes active once every such DONE has completed transmission. -/
def Lnk.activateStream (l : Lnk) : Lnk :=
  if l.cutDonePending then l else { l with stream := l.stream.map (fun t => { t with waiting := false }) }

/-- R165, R171: the entries after a completion: the message leaves, and a STATUS marked for resending stays as a new
posting. -/
def afterCompletion (q : List QueueEntry) : List QueueEntry :=
  q.filter (fun e => !e.underTransmission) ++ (q.filter (fun e => e.underTransmission && e.resend)).map QueueEntry.keep

/-- R165: the second end bit is sent and read recessive. -/
def State.transmissionComplete (s : State) : State :=
  if s.active && s.lnk.transmitter == .sending then
    let l : Lnk := { s.lnk with transmitter := .idle, frameOnLine := none, queue := afterCompletion s.lnk.queue }
    s.setLnk l.activateStream
  else s

/-! ### Claimants of freed entries -/

/-- R171: an owed STATUS joins the queue at a free entry. -/
def State.statusOwedJoin (s : State) : State :=
  if s.active && s.lnk.statusOwed && s.hasRoom then
    let t := s.setLnk { s.lnk with statusOwed := false }
    t.enqueue { QueueEntry.new (.status t.statusContents) with tookFreedEntry := true }
  else s

/-- R170, R175: the oldest held DONE joins the queue at an entry that no owed STATUS claims. -/
def State.heldDoneJoin (s : State) : State :=
  match s.lnk.heldDones with
  | [] => s
  | d :: rest =>
    if s.active && s.lnk.queue.length + s.lnk.statusOwed.toNat < Config.queueCapacity then
      (s.setLnk { s.lnk with heldDones := rest }).enqueue { QueueEntry.new (.done d) with tookFreedEntry := true }
    else s

/-! ### READ -/

def collectionOf (b : Byte) : Option Collection :=
  match b.toNat with
  | 0 => some .segments
  | 1 => some .decode
  | 2 => some .entries
  | _ => none

def Collection.code : Collection → Byte
  | .segments => 0
  | .decode => 1
  | .entries => 2

/-- R175: a stream that has ended with a reason. -/
def Stream.done (t : Stream) (reason : DoneReason) : Done :=
  { collection := t.collection.code, sent := t.sent, reason := reason }

/-- R173 step 1: a stream active or waiting is cut. -/
def State.cutStream (s : State) : State :=
  match s.lnk.stream with
  | some t => (s.setLnk { s.lnk with stream := none }).postDone (t.done .cut)
  | none => s

/-- R173, R185: the segment and the next key of a stream that begins at a start key. -/
def State.startOfStream (s : State) (c : Collection) (key : Word) : Nat × Option Nat :=
  match c with
  | .segments => (0, some key.toNat)
  | .decode => (0, some key.toNat)
  | .entries =>
    let segment := key.toNat / 2 ^ 24
    (segment, (s.record? segment).bind (fun r => startOfEntry s r (key.toNat % 2 ^ 24)))

/-- R173 steps 2 to 5: a new stream, or its end at once. An unknown collection with a count of 0 ends with BAD_REQUEST (DESIGN
CHOICE, log 47). -/
def State.makeStream (s : State) (collection : Byte) (key : Word) (count : Nat) : State :=
  match collectionOf collection with
  | none => s.postDone { collection := collection, sent := 0, reason := .badRequest }
  | some c =>
    if count = 0 then s.postDone { collection := collection, sent := 0, reason := .complete }
    else
      let k := s.startOfStream c key
      s.setLnk { s.lnk with
        stream := some { collection := c, segment := k.1, nextKey := k.2, remaining := min 64 count, sent := 0,
                         waiting := s.lnk.cutDonePending, formed := false } }

/-- R173, R176: a READ addressed to this station; a station strapped 7 makes no stream. -/
def State.read (s : State) (collection : Byte) (key : Word) (count : Nat) : State :=
  if s.sul.strap = 7 then s else s.cutStream.makeStream collection key count

/-! ### DATA -/

/-- Section 12.2: the trigger entry number, formed with the DATA message. -/
def SegmentRecord.triggerEntry (r : SegmentRecord) : Option Nat := r.triggerPosition.map r.offsetOf

/-- R174: the record a formation finds, with the next key after sending it. -/
def State.nextRecord (s : State) (t : Stream) : Option (DataRecord × Nat) :=
  t.nextKey.bind (fun key =>
    match t.collection with
    | .segments =>
      (s.run.table.find? (fun r => key ≤ r.index)).map (fun r => (.segment r r.triggerEntry, r.index + 1))
    | .decode => (s.log.fromKey key).map (fun r => (.decode r, r.sequence + 1))
    | .entries =>
      (s.record? t.segment).bind (fun r =>
        ((retainedFrom s r key).find? (fun e => key ≤ e.1)).map
          (fun e => (.entry t.segment e.1 e.2, e.1 + e.2.count))))

/-- R174: a stream after it has sent a record. -/
def Stream.advance (t : Stream) (nextKey : Nat) : Stream :=
  { t with nextKey := some nextKey, remaining := t.remaining - 1, sent := t.sent + 1, formed := true }

/-- R175: a stream that has sent a record goes on, or ends with COMPLETE. -/
def State.keepStream (s : State) (t : Stream) : State :=
  if t.remaining = 0 then (s.setLnk { s.lnk with stream := none }).postDone (t.done .complete)
  else s.setLnk { s.lnk with stream := some t }

/-- R174, R175: an active stream forms one DATA message, or ends with END where it finds no record. -/
def State.formData (s : State) (t : Stream) : State :=
  match s.nextRecord t with
  | some (r, nextKey) => (s.postData r).keepStream (t.advance nextKey)
  | none => (s.setLnk { s.lnk with stream := none }).postDone (t.done .ended)

/-- R174: a formation takes place at a tick at which fewer than 4 entries are occupied, one for a stream at each tick. -/
def State.dataFormation (s : State) : State :=
  match s.lnk.stream with
  | some t =>
    if s.active && !t.waiting && !t.formed && s.lnk.queue.length < Config.dataRoom then s.formData t else s
  | none => s

/-! ### Flag lines -/

/-- R161: LNK's drivers present TSQ's drives as they stood after the last tick; held off, they present none. -/
def State.driverPresent (s : State) : State :=
  if s.active && s.lnk.driversEnabled then s.setLnk { s.lnk with presented := s.lnk.settledDrives } else s

/-- R81, R161: the observed level of a line changes. -/
def FlagLines.withLine (f : FlagLines) (line : Fin 4) (asserted : Bool) : FlagLines :=
  if asserted then f ||| (1#4 <<< line.val) else f &&& ~~~(1#4 <<< line.val)

/-- R81: while the reset pin is held the receivers hold (R178, log 26). -/
def State.flagLineChange (s : State) (line : Fin 4) (asserted : Bool) : State :=
  if s.sul.resetHeld then s
  else s.setLnk { s.lnk with observed := FlagLines.withLine s.lnk.observed line asserted }

/-! ### The commands -/

def execLineIdle (s : State) : Host.Outcome State Fault Refusal := .next s.lineIdle

def execFrameBegin (s : State) : Host.Outcome State Fault Refusal := .next s.frameBegin

def execArbitrationLost (bit : Nat) (s : State) : Host.Outcome State Fault Refusal := .next (s.arbitrationLost bit)
def execBitError (bit : Nat) (s : State) : Host.Outcome State Fault Refusal := .next (s.bitError bit)
def execDuplicateId (bit : Nat) (s : State) : Host.Outcome State Fault Refusal := .next (s.duplicateId bit)
def execTransmissionComplete (s : State) : Host.Outcome State Fault Refusal := .next s.transmissionComplete
def execStatusOwedJoin (s : State) : Host.Outcome State Fault Refusal := .next s.statusOwedJoin
def execHeldDoneJoin (s : State) : Host.Outcome State Fault Refusal := .next s.heldDoneJoin
def execDataFormation (s : State) : Host.Outcome State Fault Refusal := .next s.dataFormation
def execDriverPresent (s : State) : Host.Outcome State Fault Refusal := .next s.driverPresent

def execFlagLineChange (line : Fin 4) (asserted : Bool) (s : State) : Host.Outcome State Fault Refusal :=
  .next (s.flagLineChange line asserted)

/-- R168, R173. -/
def execRead (source : Station) (target collection : Byte) (key : Word) (count : Byte) (s : State) :
    Host.Outcome State Fault Refusal :=
  .next (s.onFrame (.read source target collection key count)
    (fun t => if t.isAddressed target then t.read collection key count.toNat else t))

end Sys2Proof.Machine
end

