-- ==== Sys2Proof/Machine/Render.lean ====
section
/-! DEFINITION. Sys2Proof/Machine/Render.lean: the frame start with its capture, the columns of a frame, the text of box
runs and the marker (R135, R138 to R150, R155), with the commands FRAME_START and COLUMN_RENDER. -/

namespace Sys2Proof.Machine

def State.setRen (s : State) (r : Ren) : State := { s with ren := r }
def State.setPort (s : State) (p : Port) : State := { s with port := p }

/-! ### View and frame capture -/

/-- R135: S_k, the stack ticks of a column at scale step k. -/
def columnWidth (k : Nat) : Nat :=
  (match k % 3 with
   | 0 => 1
   | 1 => 2
   | _ => 5) * 10 ^ (k / 3)

/-- R138: the origin of a segment. -/
def State.originOf (s : State) (segment : Nat) : Nat :=
  match s.record? segment with
  | some r => r.reference.getD (s.segmentFirstSample segment * s.divider)
  | none => 0

/-- R141: the offset under follow. -/
def State.followOffset (s : State) (v : ViewRecord) (r : SegmentRecord) : Int :=
  clampInt (-(2 ^ 47)) (2 ^ 47 - 1)
    ((r.nextSample : Int) * (s.divider : Int) - (Config.columns : Int) * (columnWidth v.scale : Int)
      - (s.originOf v.segment : Int))

/-- R140 step 1: the view record at a frame start. -/
def State.viewAtFrameStart (s : State) : ViewRecord :=
  let v := s.ren.view
  match s.openRecord? with
  | some r => if v.follow && r.index == v.segment then { v with offset := s.followOffset v r } else v
  | none => v

/-- R140: the frame capture. -/
def State.captureFrame (s : State) (wake : Bool) : FrameCapture :=
  let v := s.viewAtFrameStart
  let origin := s.originOf v.segment
  { view := v, lanes := placeLanes s.ren.lanes, origin := origin,
    reference := (s.record? v.segment).bind SegmentRecord.reference, leftEdge := (origin : Int) + v.offset, panel := s.port.live,
    wake := wake }

/-- R139, R140: a frame starts. -/
def State.startFrame (s : State) (wake : Bool) : State :=
  let f := s.captureFrame wake
  s.setRen { s.ren with
    view := f.view, frameState := .rendering, frameTimer := 0, capture := some f, column := 0,
    boxRuns := f.lanes.map (fun _ => none) }

/-- R159: the wake frame starts at once when the live mode is not SLEEP and the port is ASLEEP with no frame under way. -/
def State.wakeIfAsleep (s : State) : State :=
  if s.port.live.mode != .sleep && s.port.state == .asleep && s.ren.frameState == .waiting then
    (s.startFrame true).setPort { s.port with wakePending := true }
  else s

/-- R139: the frame period has elapsed with the frame state WAITING and the port READY; none starts in SLEEP. -/
def State.frameDue (s : State) : Bool :=
  s.ren.framePeriodMs * Config.ticksPerMs ≤ s.ren.frameTimer && s.ren.frameState == .waiting && s.port.state == .ready &&
    s.port.live.mode != .sleep

def State.frameStart (s : State) : State := if s.active && s.frameDue then s.startFrame false else s

/-! ### Spans -/

/-- R143: the left edge of column c, which is the right edge of the column before it. -/
def FrameCapture.edge (f : FrameCapture) (c : Nat) : Int := f.leftEdge + (c : Int) * (columnWidth f.view.scale : Int)

/-- R143: the samples of a record that meet a column and are held: from the first to below the second. -/
def heldSamples (divider : Nat) (r : SegmentRecord) (a b : Int) : Nat × Nat :=
  if divider = 0 then (0, 0)
  else
    (max r.firstSample (a / (divider : Int)).toNat, min r.nextSample ((b + (divider : Int) - 1) / (divider : Int)).toNat)

/-! ### Channel lanes -/

/-- R144: what a channel lane's column shows. -/
structure ChannelColumn where
  low : Bool
  high : Bool
  tick : Bool
deriving DecidableEq, Repr

/-- R144: what an entry whose samples meet the column adds. -/
def ChannelColumn.add (x : ChannelColumn) (c : Fin 16) (e : Entry) : ChannelColumn :=
  match e.data with
  | .levels l g => { low := x.low || !levelOf l c, high := x.high || levelOf l c, tick := x.tick || levelOf g c }
  | .gap => x

/-- R71 to R73, R143: the entries, committed or open, that hold samples from `lo` to below `hi`. -/
def State.entriesMeeting (s : State) (r : SegmentRecord) (lo hi : Nat) : List (Nat × Entry) :=
  (retainedFrom s r lo ++ (s.openEntryOf r.index).toList).filter (fun e => max e.1 lo < min (e.1 + e.2.count) hi)

/-- R143, R144: a channel's column over the span from a to b. A disabled channel shows no data. The record is read live: a
segment that opens while the frame renders shows its samples in the columns that follow, against the captured origin
(DESIGN CHOICE, log 41). -/
def State.channelColumn (s : State) (segment : Nat) (c : Fin 16) (a b : Int) : ChannelColumn :=
  let empty : ChannelColumn := { low := false, high := false, tick := false }
  match s.record? segment with
  | some r =>
    if levelOf s.pfe.enabled c then
      let held := heldSamples s.divider r a b
      (s.entriesMeeting r held.1 held.2).foldl (fun x e => x.add c e.2) empty
    else empty
  | none => empty

/-- R145: the pixel of row `j` of a channel lane, counted from its top row. -/
def ChannelColumn.pixel (x : ChannelColumn) (h : Nat) (colour : BitVec 2) (column j : Nat) : BitVec 2 :=
  let lowRow := h - 2
  let highRow := 1
  let middleRow := (h - 1) / 2
  if x.tick && j == 0 then 3
  else if x.low && x.high then (if highRow ≤ j && j ≤ lowRow then colour else 0)
  else if x.low then (if j == lowRow then colour else 0)
  else if x.high then (if j == highRow then colour else 0)
  else if column % 2 == 0 && j == middleRow then 2
  else 0

/-! ### Decode lanes -/

/-- R146: the flags that draw a box in colour 3. -/
def LogRecord.erroneous (r : LogRecord) : Bool :=
  r.content.flags.parity || r.content.flags.framing || r.content.flags.nack || r.content.flags.truncated

/-- R146: the colour of the box rows of a column that these records meet. -/
def boxColour (records : List LogRecord) (colour : BitVec 2) : BitVec 2 :=
  match records with
  | [] => 0
  | [r] => if r.erroneous then 3 else 1
  | _ :: _ :: _ => colour

/-- R146: the pixel of row `j` of a decode lane. -/
def decodePixel (records : List LogRecord) (h : Nat) (colour : BitVec 2) (j : Nat) : BitVec 2 :=
  if 1 ≤ j && j + 2 ≤ h then boxColour records colour else 0

/-! ### Columns -/

/-- What a lane's column shows. -/
inductive LaneColumn where
  | channel (x : ChannelColumn)
  | decoder (records : List LogRecord)
deriving DecidableEq, Repr

/-- R146, R150: the reads of a lane's column, made while it is rendered. A lane whose unit is OFF finds no records. -/
def State.laneColumn (s : State) (f : FrameCapture) (column : Nat) (l : PlacedLane) : LaneColumn :=
  let a := f.edge column
  let b := f.edge (column + 1)
  match l.lane.source with
  | .channel c => .channel (s.channelColumn f.view.segment c a b)
  | .decoder d =>
    .decoder (if (s.dec.units.get d).settings = .off then [] else s.log.meeting d f.view.segment a b)

/-- The pixel of band row `y` that a lane draws, where the row lies in the lane. -/
def LaneColumn.pixel (x : LaneColumn) (l : PlacedLane) (column y : Nat) : Option (BitVec 2) :=
  if l.top ≤ y && y < l.top + l.lane.height then
    some (match x with
      | .channel k => k.pixel l.lane.height l.lane.colour column (y - l.top)
      | .decoder records => decodePixel records l.lane.height l.lane.colour (y - l.top))
  else none

/-- R142: the first band row below the last drawn lane. -/
def FrameCapture.endOfLanes (f : FrameCapture) : Nat := (f.lanes.map (fun l => l.lane.height)).sum

/-- R149: the column that carries the marker. -/
def FrameCapture.markerColumn (f : FrameCapture) : Option Nat :=
  match f.reference with
  | some r =>
    if f.edge 0 ≤ (r : Int) && (r : Int) < f.edge Config.columns then
      some (((r : Int) - f.leftEdge) / (columnWidth f.view.scale : Int)).toNat
    else none
  | none => none

/-- R142, R145, R146, R149: the pixel of band row `y` in a column, text apart. -/
def columnPixel (f : FrameCapture) (shown : List (PlacedLane × LaneColumn)) (column y : Nat) : BitVec 2 :=
  if f.markerColumn = some column ∧ y < f.endOfLanes then 3
  else (shown.findSome? (fun e => e.2.pixel e.1 column y)).getD 0

/-! ### Rows of a frame -/

/-- R155: the panel row of a band row. -/
def panelRow (lanes : List PlacedLane) (vertical : Bool) (y : Nat) : Nat :=
  if !vertical then y
  else
    match lanes.find? (fun l => l.top ≤ y && y < l.top + l.lane.height) with
    | some l => 120 - l.top - l.lane.height + (y - l.top)
    | none => y - (lanes.map (fun l => l.lane.height)).sum

/-- R155: the first and the last panel row a frame sends. -/
def FrameCapture.rows (f : FrameCapture) : Nat × Nat :=
  if !f.wake && f.panel.mode == .partialRows then (f.panel.firstRow, f.panel.lastRow) else (0, 119)

/-- R150, R155: whether a frame renders a band row. -/
def FrameCapture.renders (f : FrameCapture) (vertical : Bool) (y : Nat) : Bool :=
  f.rows.1 ≤ panelRow f.lanes vertical y && panelRow f.lanes vertical y ≤ f.rows.2

/-- The frame store position of a band pixel. -/
def pixelPosition (column y : Nat) : Nat := y * Config.columns + column

/-- Write a band pixel where the frame renders its row. -/
def writePixel (f : FrameCapture) (vertical : Bool) (m : Mem (BitVec 2)) (column y : Nat) (v : BitVec 2) :
    Mem (BitVec 2) :=
  if f.renders vertical y then Memory.write m (pixelPosition column y) v else m

/-- R150: a column is written row by row. -/
def writeColumn (f : FrameCapture) (vertical : Bool) (column : Nat) (pixel : Nat → BitVec 2) (m : Mem (BitVec 2)) :
    Mem (BitVec 2) :=
  (List.range Config.rows).foldl (fun n y => writePixel f vertical n column y (pixel y)) m

/-! ### Text -/

inductive Glyph where
  | digit (d : Fin 16)
  | s | r | p | a | n | mark
deriving DecidableEq, Repr

/-- R148: the seven rows of a hexadecimal digit, top to bottom; bit 4 is the leftmost column. -/
def digitRows (d : Fin 16) : List (BitVec 5) :=
  match d.val with
  | 0 => [0x0E, 0x11, 0x13, 0x15, 0x19, 0x11, 0x0E]
  | 1 => [0x04, 0x0C, 0x04, 0x04, 0x04, 0x04, 0x0E]
  | 2 => [0x0E, 0x11, 0x01, 0x02, 0x04, 0x08, 0x1F]
  | 3 => [0x1F, 0x02, 0x04, 0x02, 0x01, 0x11, 0x0E]
  | 4 => [0x02, 0x06, 0x0A, 0x12, 0x1F, 0x02, 0x02]
  | 5 => [0x1F, 0x10, 0x1E, 0x01, 0x01, 0x11, 0x0E]
  | 6 => [0x06, 0x08, 0x10, 0x1E, 0x11, 0x11, 0x0E]
  | 7 => [0x1F, 0x01, 0x02, 0x04, 0x08, 0x08, 0x08]
  | 8 => [0x0E, 0x11, 0x11, 0x0E, 0x11, 0x11, 0x0E]
  | 9 => [0x0E, 0x11, 0x11, 0x0F, 0x01, 0x02, 0x0C]
  | 10 => [0x0E, 0x11, 0x11, 0x1F, 0x11, 0x11, 0x11]
  | 11 => [0x1E, 0x11, 0x11, 0x1E, 0x11, 0x11, 0x1E]
  | 12 => [0x0E, 0x11, 0x10, 0x10, 0x10, 0x11, 0x0E]
  | 13 => [0x1E, 0x11, 0x11, 0x11, 0x11, 0x11, 0x1E]
  | 14 => [0x1F, 0x10, 0x10, 0x1E, 0x10, 0x10, 0x1F]
  | _ => [0x1F, 0x10, 0x10, 0x1E, 0x10, 0x10, 0x10]

/-- R148. -/
def Glyph.rows : Glyph → List (BitVec 5)
  | .digit d => digitRows d
  | .s => [0x0F, 0x10, 0x10, 0x0E, 0x01, 0x01, 0x1E]
  | .r => [0x1E, 0x11, 0x11, 0x1E, 0x14, 0x12, 0x11]
  | .p => [0x1E, 0x11, 0x11, 0x1E, 0x10, 0x10, 0x10]
  | .a => [0x0E, 0x11, 0x11, 0x1F, 0x11, 0x11, 0x11]
  | .n => [0x11, 0x19, 0x15, 0x13, 0x11, 0x11, 0x11]
  | .mark => [0x04, 0x04, 0x04, 0x04, 0x04, 0x00, 0x04]

/-- The `n` low hexadecimal digits of a value, most significant first. -/
def hexDigits : Nat → Nat → List Glyph
  | 0, _ => []
  | n + 1, v => .digit (Fin.ofNat 16 (v / 16 ^ n)) :: hexDigits n v

/-- R147: the kind prefix. -/
def textPrefix : RecordKind → List Glyph
  | .i2cStart => [.s]
  | .i2cRestart => [.r]
  | .i2cStop => [.p]
  | .i2cAddress => [.a]
  | .uartChar => []
  | .uartBreak => []
  | .spiWord => []
  | .i2cByte => []
  | .parWord => []

/-- R147: the records of bus conditions, whose text has no digits. -/
def isCondition : RecordKind → Bool
  | .i2cStart => true
  | .i2cRestart => true
  | .i2cStop => true
  | .i2cAddress => false
  | .uartChar => false
  | .uartBreak => false
  | .spiWord => false
  | .i2cByte => false
  | .parWord => false

/-- R147: the text of a record. -/
def recordText (r : DecodeRecord) : List Glyph :=
  textPrefix r.kind ++ (if isCondition r.kind then [] else hexDigits ((r.bitCount + 3) / 4) r.value.toNat)
    ++ (if r.flags.nack then [.n] else [])
    ++ (if r.flags.parity || r.flags.framing || r.flags.truncated then [.mark] else [])

/-- R148: the set pixels of a glyph, as column and row within it. -/
def Glyph.pixels (g : Glyph) : List (Nat × Nat) :=
  ((List.range 7).flatMap (fun row => (List.range 5).map (fun column => (column, row)))).filter
    (fun q => (g.rows.getD q.2 0).getMsbD q.1)

/-- R147: the set pixels of a text whose first glyph begins at a column and row of the band. -/
def textPixels (column row : Nat) : List Glyph → List (Nat × Nat)
  | [] => []
  | g :: rest => g.pixels.map (fun q => (column + q.1, row + q.2)) ++ textPixels (column + 6) row rest

/-- R147: the text of a box run of `width` columns is written, in colour 0, when the run and the lane have room for it. -/
def writeText (f : FrameCapture) (vertical : Bool) (l : PlacedLane) (b : BoxRun) (width : Nat) (m : Mem (BitVec 2)) :
    Mem (BitVec 2) :=
  let text := recordText b.record.content
  if 6 * text.length + 2 ≤ width && 9 ≤ l.lane.height then
    (textPixels (b.firstColumn + 1) (l.top + 1 + (l.lane.height - 9) / 2) text).foldl
      (fun n q => writePixel f vertical n q.1 q.2 0) m
  else m

/-- R147: the record that a lane's column shows alone. -/
def LaneColumn.alone : LaneColumn → Option LogRecord
  | .channel _ => none
  | .decoder [r] => some r
  | .decoder [] => none
  | .decoder (_ :: _ :: _) => none

/-- R147: the box run of a lane after a column. -/
def nextBoxRun (run : Option BoxRun) (shown : LaneColumn) (column : Nat) : Option BoxRun :=
  match shown.alone, run with
  | some r, some b =>
    if r.sequence = b.record.sequence then some b else some { record := r, firstColumn := column }
  | some r, none => some { record := r, firstColumn := column }
  | none, _ => none

/-- R147: whether a box run goes on at a column. -/
def boxRunEnds (run : Option BoxRun) (shown : LaneColumn) : Option BoxRun :=
  match shown.alone, run with
  | some r, some b => if r.sequence = b.record.sequence then none else some b
  | none, some b => some b
  | some _, none => none
  | none, none => none

/-- R147: the texts of the runs that end before a column are written. -/
def writeEnded (f : FrameCapture) (vertical : Bool) (column : Nat) (m : Mem (BitVec 2)) :
    List (PlacedLane × Option BoxRun × LaneColumn) → Mem (BitVec 2)
  | [] => m
  | (l, run, shown) :: rest =>
    match boxRunEnds run shown with
    | some b => writeEnded f vertical column (writeText f vertical l b (column - b.firstColumn) m) rest
    | none => writeEnded f vertical column m rest

/-- R150: one column is rendered: the lanes and the rows below them, the marker, then the texts of the runs it ends. -/
def State.renderColumn (s : State) (f : FrameCapture) : State :=
  let column := s.ren.column
  let shown := f.lanes.map (fun l => (l, s.laneColumn f column l))
  let vertical := s.port.verticalReversal
  let runs := (shown.zip s.ren.boxRuns).map (fun e => (e.1.1, e.2, e.1.2))
  let drawn := writeColumn f vertical column (columnPixel f shown column) s.ren.frameStore
  s.setRen { s.ren with
    column := column + 1
    boxRuns := runs.map (fun e => nextBoxRun e.2.1 e.2.2 column)
    frameStore := writeEnded f vertical column drawn runs }

/-- R150: the next column is rendered while the frame renders. -/
def State.columnRender (s : State) : State :=
  match s.ren.capture with
  | some f =>
    if s.active && s.ren.frameState == .rendering && s.ren.column < Config.columns then s.renderColumn f else s
  | none => s

/-! ### The commands -/

def execFrameStart (s : State) : Host.Outcome State Fault Refusal := .next s.frameStart
def execColumnRender (s : State) : Host.Outcome State Fault Refusal := .next s.columnRender

end Sys2Proof.Machine
end

