-- ==== Sys2Proof/Machine/Panel.lean ====
section
/-! DEFINITION. Sys2Proof/Machine/Panel.lean: the panel port (R152 to R160): the transfer of a rendered frame, the sleep
command and PANEL, with the bytes the port sends (R156). -/

namespace Sys2Proof.Machine

/-! ### Colours and the panel's pixels -/

/-- R154 step 1: REDUCED shows two colours. -/
def reduceIndex (i : BitVec 2) : BitVec 2 := if i = 2 ∨ i = 3 then 1 else i

/-- R154 step 2: 0 is exchanged with 1, and 2 with 3. -/
def invertIndex (i : BitVec 2) : BitVec 2 := i ^^^ 1

def paletteEntry (q : Quad (BitVec 16)) (i : BitVec 2) : BitVec 16 := q.get i.toFin

/-- R154: the colour sent for an index of the frame store. -/
def pixelColour (q : Quad (BitVec 16)) (p : LivePanel) (i : BitVec 2) : BitVec 16 :=
  let a := if p.mode = .reduced then reduceIndex i else i
  paletteEntry q (if p.inversion then invertIndex a else a)

/-- R155: the band row that maps to a panel row. -/
def bandRow (lanes : List PlacedLane) (vertical : Bool) (p : Nat) : Nat :=
  ((List.range Config.rows).find? (fun y => panelRow lanes vertical y == p)).getD 0

/-- R155: the band column that maps to a panel column. -/
def bandColumn (horizontal : Bool) (x : Nat) : Nat := if horizontal then 319 - x else x

/-- R151: what a band pixel of the frame store holds; free where no render has written it (log 12). -/
def bandPixel (m : Mem (BitVec 2)) (column y : Nat) : BitVec 2 :=
  (Memory.read m (pixelPosition column y)).getD (Config.unwrittenPixel (pixelPosition column y))

/-- R157: the colour of a panel pixel. -/
def panelPixel (p : Port) (f : FrameCapture) (m : Mem (BitVec 2)) (x row : Nat) : BitVec 16 :=
  pixelColour p.palette f.panel
    (bandPixel m (bandColumn p.horizontalReversal x) (bandRow f.lanes p.verticalReversal row))

/-- R156, R157: the colours of a frame in window order. -/
def frameColours (p : Port) (f : FrameCapture) (m : Mem (BitVec 2)) : List (BitVec 16) :=
  (List.range (f.rows.2 + 1 - f.rows.1)).flatMap
    (fun row => (List.range Config.columns).map (fun x => panelPixel p f m x (f.rows.1 + row)))

/-- R157: the commands that carry a frame. -/
def frameCommands (p : Port) (f : FrameCapture) (m : Mem (BitVec 2)) : List PanelCommand :=
  (if f.wake then [.panelWake] else []) ++
    [.setWindow 0 319 f.rows.1 f.rows.2, .writePixels (frameColours p f m)]

/-- A byte on the port, with the level of the command/data line: true for data. -/
abbrev PortByte := Bool × Byte

/-- A 16-bit parameter, high byte first (R156). -/
def portWord (w : BitVec 16) : List PortByte := (bytesBE 2 w.toNat).map (fun b => (true, b))

/-- R156: the bytes of a command. -/
def PanelCommand.bytes : PanelCommand → List PortByte
  | .setWindow x0 x1 y0 y1 => (false, 0x51) :: [x0, x1, y0, y1].flatMap (fun v => portWord (BitVec.ofNat 16 v))
  | .writePixels colours => (false, 0x52) :: colours.flatMap portWord
  | .panelSleep => [(false, 0x5A)]
  | .panelWake => [(false, 0x5B)]

/-! ### Transfer -/

/-- R147: the texts of the runs that end at column 319. -/
def finishRuns (f : FrameCapture) (vertical : Bool) (m : Mem (BitVec 2)) :
    List (PlacedLane × Option BoxRun) → Mem (BitVec 2)
  | [] => m
  | (l, some b) :: rest =>
    finishRuns f vertical (writeText f vertical l b (Config.columns - b.firstColumn) m) rest
  | (_, none) :: rest => finishRuns f vertical m rest

/-- R151, R157: the render is complete and the port sends the frame. -/
def State.finishRender (s : State) (f : FrameCapture) : State :=
  let store := finishRuns f s.port.verticalReversal s.ren.frameStore (f.lanes.zip s.ren.boxRuns)
  let t := s.setRen { s.ren with
    frameState := .transferring, boxRuns := s.ren.boxRuns.map (fun _ => none), frameStore := store }
  t.setPort { t.port with state := .frame, sending := frameCommands t.port f store }

def State.renderComplete (s : State) : State :=
  match s.ren.capture with
  | some f =>
    if s.active && s.ren.frameState == .rendering && s.ren.column == Config.columns then s.finishRender f else s
  | none => s

/-- R157, R159: the transfer is complete. -/
def State.transferComplete (s : State) : State :=
  match s.ren.capture with
  | some f =>
    if s.active && s.ren.frameState == .transferring then
      let t := s.setRen { s.ren with frameState := .waiting, capture := none }
      t.setPort { t.port with state := .ready, sending := [], wakePending := t.port.wakePending && !f.wake }
    else s
  | none => s

/-! ### Sleep -/

/-- R158, R160: the port sends PANEL_SLEEP. -/
def State.beginSleep (s : State) : State := s.setPort { s.port with state := .sleeping, sending := [.panelSleep] }

/-- R158. -/
def State.sleepStart (s : State) : State :=
  if s.active && s.port.live.mode == .sleep && s.port.state == .ready && s.ren.frameState == .waiting then s.beginSleep
  else s

/-- R158, R159: PANEL_SLEEP completes; a mode that has left SLEEP meanwhile starts the wake frame. -/
def State.sleepComplete (s : State) : State :=
  if s.active && s.port.state == .sleeping then
    (s.setPort { s.port with state := .asleep, sending := [] }).wakeIfAsleep
  else s

/-! ### PANEL -/

/-- Section 12.1: a mode value; none for one that names no mode. -/
def modeOf (b : Byte) : Option PanelMode :=
  match b.toNat with
  | 0 => some .normal
  | 1 => some .partialRows
  | 2 => some .reduced
  | 3 => some .sleep
  | _ => none

/-- R153: the live settings after a PANEL. -/
def LivePanel.apply (p : LivePanel) (mode first last inversion : Byte) : LivePanel :=
  let rows := panelRows first.toNat last.toNat
  { mode := (modeOf mode).getD p.mode, firstRow := rows.1, lastRow := rows.2, inversion := inversion.getLsbD 0 }

/-- R153, R159. -/
def State.panel (s : State) (mode first last inversion : Byte) : State :=
  (s.setPort { s.port with live := s.port.live.apply mode first last inversion }).wakeIfAsleep

/-! ### The commands -/

def execRenderComplete (s : State) : Host.Outcome State Fault Refusal := .next s.renderComplete
def execTransferComplete (s : State) : Host.Outcome State Fault Refusal := .next s.transferComplete
def execSleepStart (s : State) : Host.Outcome State Fault Refusal := .next s.sleepStart
def execSleepComplete (s : State) : Host.Outcome State Fault Refusal := .next s.sleepComplete

def execPanel (source : Station) (target mode firstRow lastRow inversion : Byte) (s : State) :
    Host.Outcome State Fault Refusal :=
  .next (s.onFrame (.panel source target mode firstRow lastRow inversion)
    (fun t => if t.isAddressed target then t.panel mode firstRow lastRow inversion else t))

end Sys2Proof.Machine
end

