-- ==== Sys2Proof/Machine/Start.lean ====
section
/-! DEFINITION. Sys2Proof/Machine/Start.lean: the three kinds of start (R178, R55, R74, R119, R129), the reading and the load
of the image (R179 to R181), the join (R182), RESTART (R169), and what the part drives on its pins. -/

namespace Sys2Proof.Machine

/-! ### Starts -/

/-- R55: the open segment is recovered. -/
def State.recover (s : State) : State :=
  if s.run.state.hasSegment then (s.closeSegment .reset).updateOpen (fun r => { r with recovered := true }) else s

/-- R55: RUN after a PIN or LINK start: the table and the figures of the last ARM are kept. -/
def Run.keptStart (r : Run) : Run :=
  { state := .idle, setup := defaultSetup, figures := r.figures, table := r.table, activeProfile := 0,
    pendingRemote := false }

/-- The parts of the start values that every start shares (R22, R33, R94, R119, R151, R160, R176, R178). The voltages on
the probe pins and the levels of the flag lines are the world's and stay (log 26). -/
def State.startBlocks (s : State) (strap : Station) (cause : ResetCause) (frameStore : Mem (BitVec 2)) (held : Bool) :
    State :=
  { s with
    tau := Tau.start, pfe := Pfe.start s.pfe.inputs, tsq := Tsq.start defaultProgram, dec := Dec.start,
    ren := Ren.start frameStore, port := Port.start, lnk := Lnk.start strap s.lnk.observed,
    sul := Sul.start strap cause held }

/-- R55, R74, R129, R151: a start that keeps the run's records, entries and log. -/
def State.keepingStart (s : State) (strap : Station) (cause : ResetCause) : State :=
  let t : State :=
    { s with
      run := s.run.keptStart, cst := { s.cst with openEntry := none }
      fc := { s.fc with settings := Quad.replicate defaultComparator } }
  t.startBlocks strap cause s.ren.frameStore false

/-- R178, R55: a PIN start; DEC hands nothing (R119). -/
def State.pinStart (s : State) (strap : Station) : State := s.recover.keepingStart strap .pin

/-- R178, R55, R119: a LINK start; the units flush before the blocks take their start values. -/
def State.linkStart (s : State) (strap : Station) : State :=
  s.recover.endRunTime.flushDecoders.keepingStart strap .link

/-- R178, R56, R75, R129, R151: a POWER start. -/
def State.powerStart (s : State) (strap : Station) : State :=
  let t : State := { s with run := Run.powerStart, cst := Cst.powerStart, log := Log.powerStart, fc := Fc.powerStart }
  t.startBlocks strap .power [] s.sul.resetHeld

/-- R178: the reset pin is asserted, and every block holds. -/
def State.resetPinAssert (s : State) : State := { s with sul := { s.sul with resetHeld := true } }

/-- R178: the reset pin is released after being held. -/
def State.resetPinRelease (s : State) (strap : Station) : State := if s.sul.resetHeld then s.pinStart strap else s

/-! ### Checking the image -/

/-- A byte of the flash; beyond the bytes given it reads as erased (log 8). -/
def flashByte (bytes : List Byte) (i : Nat) : Byte := bytes.getD i 0xFF

/-- R183: a 16-bit field of the image. -/
def flashWord (bytes : List Byte) (i : Nat) : Nat := (flashByte bytes i).toNat * 256 + (flashByte bytes (i + 1)).toNat

/-- R186: an entry of the section list. -/
structure SectionEntry where
  identifier : Nat
  offset : Nat
  size : Nat
deriving DecidableEq, Repr

def sectionEntry (bytes : List Byte) (e : Nat) : SectionEntry :=
  { identifier := (flashByte bytes (7 + 5 * e)).toNat, offset := flashWord bytes (8 + 5 * e),
    size := flashWord bytes (10 + 5 * e) }

def sectionCount (bytes : List Byte) : Nat := (flashByte bytes 6).toNat

/-- R186: the entries that name a section. -/
def namedSections (bytes : List Byte) : List SectionEntry :=
  ((List.range (sectionCount bytes)).map (sectionEntry bytes)).filter (fun e => 1 ≤ e.identifier && e.identifier ≤ 5)

def imageLength (bytes : List Byte) : Nat := flashWord bytes 2

/-- R179, R186: the marker. -/
def markerGood (bytes : List Byte) : Bool := flashByte bytes 0 == 0xA5 && flashByte bytes 1 == 0x3D

/-- R179. -/
def lengthGood (bytes : List Byte) : Bool :=
  7 + 5 * sectionCount bytes ≤ imageLength bytes && imageLength bytes ≤ 3072

/-- R179: every section named lies within the length, and none is named twice. -/
def sectionsGood (bytes : List Byte) : Bool :=
  (namedSections bytes).all (fun e => e.offset + e.size ≤ imageLength bytes) &&
    decide ((namedSections bytes).map SectionEntry.identifier).Nodup

/-- R179, R186: the sum over every byte from offset 7 up to the length. -/
def imageSum (bytes : List Byte) : Nat :=
  ((List.range (imageLength bytes - 7)).map (fun i => (flashByte bytes (7 + i)).toNat)).sum % 65536

/-- R179: an attempt passes every check. -/
def imageGood (bytes : List Byte) : Bool :=
  markerGood bytes && lengthGood bytes && sectionsGood bytes && imageSum bytes == flashWord bytes 4

/-- R180: a section is present when the list names it. -/
def sectionPresent (bytes : List Byte) (identifier : Nat) : Bool :=
  (namedSections bytes).any (fun e => e.identifier == identifier)

/-- R180: the contents of a good image. -/
def contentsOf (bytes : List Byte) (im : RawImage) : ImageContents :=
  { options := if sectionPresent bytes 1 then some im.options else none
    probe := if sectionPresent bytes 2 then some im.probe else none
    panel := if sectionPresent bytes 3 then some im.panel else none
    setup := if sectionPresent bytes 4 then some im.setup else none
    profiles := if sectionPresent bytes 5 then some im.profiles else none }

/-! ### The load -/

/-- R152, R181: the port takes the image's panel settings. -/
def Port.withSettings (p : Port) (r : RawPanel) : Port :=
  let rows := panelRows r.firstRow r.lastRow
  { p with
    live := { mode := r.mode.getD .normal, firstRow := rows.1, lastRow := rows.2, inversion := r.inversion }
    palette := r.palette, horizontalReversal := r.horizontalReversal, verticalReversal := r.verticalReversal }

/-- R137, R139, R181: REN takes the frame period and the scale step. -/
def Ren.withSettings (r : Ren) (p : RawPanel) : Ren :=
  { r with view := ViewRecord.start (min 36 p.scaleStep), framePeriodMs := clampNat 20 250 p.framePeriodMs }

/-- R178 step 4, R180: the blocks load the image contents, or the built-in defaults where they are absent. The channels
are enabled before the decoder assignments are checked. -/
def State.load (s : State) (c : ImageContents) : State :=
  let panel := c.panel.getD defaultPanel
  let setup := clampSetup (c.setup.getD defaultSetup)
  let t : State :=
    { s with
      sul := { s.sul with contents := c }, run := { s.run with setup := setup, activeProfile := 0 }
      port := s.port.withSettings panel, ren := s.ren.withSettings panel }
  let u := t.applyProbeSettings (c.probe.getD defaultProbe) setup.codeA setup.codeB
  u.loadProfile ((profileOf c 0).getD bareProfile)

def State.setImageState (s : State) (x : ImageState) : State := { s with sul := { s.sul with imageState := x } }

/-- R179: an attempt to read and check the image completes. -/
def State.imageAttempt (s : State) (bytes : List Byte) (im : RawImage) : State :=
  if s.sul.imageState = .reading ∧ s.sul.resetHeld = false then
    if imageGood bytes then (s.setImageState .good).load (contentsOf bytes im)
    else if s.sul.attempt < 3 then { s with sul := { s.sul with attempt := s.sul.attempt + 1 } }
    else (s.setImageState .bad).load ImageContents.empty
  else s

/-! ### The join -/

/-- R160, R159: the panel when the start-up sequence completes. -/
def State.startPanel (s : State) : State := if s.port.live.mode = .sleep then s.beginSleep else s.wakeIfAsleep

/-- R178 steps 5 and 6, R182, R139: the join tick; `levels` is what the mark line (R22) and the message line are found at. -/
def State.join (s : State) (levels : JoinLevels) : State :=
  if s.sul.imageState ≠ .reading ∧ s.sul.joined = false ∧ s.sul.resetHeld = false then
    let t : State :=
      { s with
        sul := { s.sul with joined := true, imageBad := s.sul.imageState == .bad }
        tau := { s.tau with monitorRunning := s.options.referenceClock, markLine := levels.markAsserted, pulseWidth := 0 }
        lnk := { s.lnk with
          receiver := .waiting, idleCount := 0, framePosition := none, lineRecessive := levels.messageRecessive,
          driversEnabled := s.sul.strap != 7 }
        ren := { s.ren with frameTimer := 0 } }
    t.postStatus.startPanel
  else s

/-! ### The commands -/

def execPowerUp (straps : Station) (s : State) : Host.Outcome State Fault Refusal := .next (s.powerStart straps)
def execResetPinAssert (s : State) : Host.Outcome State Fault Refusal := .next s.resetPinAssert

def execResetPinRelease (straps : Station) (s : State) : Host.Outcome State Fault Refusal :=
  .next (s.resetPinRelease straps)

def execImageAttempt (bytes : List Byte) (im : RawImage) (s : State) : Host.Outcome State Fault Refusal :=
  .next (s.imageAttempt bytes im)

def execJoin (levels : JoinLevels) (s : State) : Host.Outcome State Fault Refusal := .next (s.join levels)

/-- R169: a RESTART addressed to this station is a LINK start; `straps` is what the strap pins show then. -/
def execRestart (source : Station) (target : Byte) (straps : Station) (s : State) : Host.Outcome State Fault Refusal :=
  .next (s.onFrame (.restart source target straps) (fun t => if t.isAddressed target then t.linkStart straps else t))

end Sys2Proof.Machine
end

