-- ==== Sys2Proof/Machine/Dispatch.lean ====
section
/-! DEFINITION. Sys2Proof/Machine/Dispatch.lean: one arm per command, each a direct call of its meaning. -/

namespace Sys2Proof.Machine

def exec (i : Instr) (s : State) : Host.Outcome State Fault Refusal :=
  match i with
  | .windowEnd edges => Sys2Proof.Machine.execWindowEnd edges s
  | .emissionTimerExpiry => Sys2Proof.Machine.execEmissionTimerExpiry s
  | .markPulseEnd => Sys2Proof.Machine.execMarkPulseEnd s
  | .leadingEdge => Sys2Proof.Machine.execLeadingEdge s
  | .trailingEdge => Sys2Proof.Machine.execTrailingEdge s
  | .markStuck => Sys2Proof.Machine.execMarkStuck s
  | .synthesizedMark => Sys2Proof.Machine.execSynthesizedMark s
  | .levelChange channel input => Sys2Proof.Machine.execLevelChange channel input s
  | .sample => Sys2Proof.Machine.execSample s
  | .driverPresent => Sys2Proof.Machine.execDriverPresent s
  | .flagLineChange line asserted => Sys2Proof.Machine.execFlagLineChange line asserted s
  | .restart source target straps => Sys2Proof.Machine.execRestart source target straps s
  | .stop source => Sys2Proof.Machine.execStop source s
  | .arm source profile => Sys2Proof.Machine.execArm source profile s
  | .notice source segment time => Sys2Proof.Machine.execNotice source segment time s
  | .setup source divider segments options codeA codeB => Sys2Proof.Machine.execSetup source divider segments options codeA codeB s
  | .view source segment offset scale follow => Sys2Proof.Machine.execView source segment offset scale follow s
  | .panel source target mode firstRow lastRow inversion => Sys2Proof.Machine.execPanel source target mode firstRow lastRow inversion s
  | .query source target => Sys2Proof.Machine.execQuery source target s
  | .read source target collection key count => Sys2Proof.Machine.execRead source target collection key count s
  | .replyFrameReceived kind source payload => Sys2Proof.Machine.execReplyFrameReceived kind source payload s
  | .receiveFault frame => Sys2Proof.Machine.execReceiveFault frame s
  | .lineIdle => Sys2Proof.Machine.execLineIdle s
  | .frameBegin => Sys2Proof.Machine.execFrameBegin s
  | .arbitrationLost bit => Sys2Proof.Machine.execArbitrationLost bit s
  | .bitError bit => Sys2Proof.Machine.execBitError bit s
  | .duplicateId bit => Sys2Proof.Machine.execDuplicateId bit s
  | .transmissionComplete => Sys2Proof.Machine.execTransmissionComplete s
  | .statusOwedJoin => Sys2Proof.Machine.execStatusOwedJoin s
  | .heldDoneJoin => Sys2Proof.Machine.execHeldDoneJoin s
  | .dataFormation => Sys2Proof.Machine.execDataFormation s
  | .frameStart => Sys2Proof.Machine.execFrameStart s
  | .columnRender => Sys2Proof.Machine.execColumnRender s
  | .renderComplete => Sys2Proof.Machine.execRenderComplete s
  | .transferComplete => Sys2Proof.Machine.execTransferComplete s
  | .sleepStart => Sys2Proof.Machine.execSleepStart s
  | .sleepComplete => Sys2Proof.Machine.execSleepComplete s
  | .powerUp straps => Sys2Proof.Machine.execPowerUp straps s
  | .resetPinAssert => Sys2Proof.Machine.execResetPinAssert s
  | .resetPinRelease straps => Sys2Proof.Machine.execResetPinRelease straps s
  | .imageAttempt bytes image => Sys2Proof.Machine.execImageAttempt bytes image s
  | .join levels => Sys2Proof.Machine.execJoin levels s
  | .unaddressedFrameReceived kind source payload => Sys2Proof.Machine.execUnaddressedFrameReceived kind source payload s

end Sys2Proof.Machine
end

