-- ==== Sys2Proof/Machine/Pins.lean ====
section
/-! DEFINITION. Sys2Proof/Machine/Pins.lean: what the part drives on its pins, as functions of its state. While the reset pin
is held asserted it drives none of them (R178). -/

namespace Sys2Proof.Machine

/-- R6: this station drives the mark line. -/
def State.drivesMark (s : State) : Bool := !s.sul.resetHeld && s.tau.markDrive.isSome

/-- R161: the flag lines this station asserts. -/
def State.drivesFlags (s : State) : FlagLines :=
  if s.lnk.driversEnabled && !s.sul.resetHeld then s.lnk.presented else 0

/-- R162: the bits of the frame this station is sending; true is recessive. -/
def State.sendsBits (s : State) : List Bool :=
  if s.sul.resetHeld then [] else (s.lnk.frameOnLine.map Frame.bits).getD []

/-- R162, R163: the bit this station puts on the message line, true recessive: the one of its frame that the bit period belongs
to, from the period's first tick to the next's. A station that sends none leaves the line recessive. -/
def State.putsBit (s : State) : Bool := s.sul.resetHeld || (s.lnk.framePosition.bind s.lnk.sentBit).getD true

/-- R156: the assertions of select of the transmission under way, one for each command, with the bytes sent within it. -/
def State.panelAssertions (s : State) : List (List PortByte) :=
  if s.sul.resetHeld then [] else s.port.sending.map PanelCommand.bytes

/-- R178, R179: the part drives the flash pins, which it does to read the image and at no other time (DESIGN CHOICE, log
48). -/
def State.drivesFlash (s : State) : Bool := !s.sul.resetHeld && s.sul.imageState == .reading

end Sys2Proof.Machine
end

