-- ==== Sys2Proof/Machine/Step.lean ====
section
/-! DEFINITION. Sys2Proof/Machine/Step.lean: one step: the command at the front of the queue, or, on an empty queue, one
local tick (log 1). -/

namespace Sys2Proof.Machine

def step (s : State) : Host.Outcome State Fault Refusal :=
  match s.pending with
  | [] => .next s.tick
  | c :: rest => exec c { s with pending := rest }

/-- The command that a word of the opcode table spells goes to the front of the queue; the table gives no row a word, so no
word spells one (log 30). -/
def State.withFetchWord (s : State) (nbits w : Nat) : State :=
  match decodeTableWord nbits w with
  | some c => { s with pending := c :: s.pending }
  | none => s

end Sys2Proof.Machine
end

