-- ==== Sys2Proof/Safety.lean ====
section
/-! DEFINITION. Sys2Proof/Safety.lean: the laws a state obeys (R13, R14, R68, R69, R91, R92, R121, R170) and what the taking
of samples leaves alone, in the terms the statements use. -/

namespace Sys2Proof.Machine

/-! ### What sampling leaves alone -/

/-- The parts of a state that no sample, no mark-edge step and no end of a run changes: all of TAU but run time; all of PFE
but the change counts, marks and last-sample levels; setups, programs and settings; REN and the port; all of LNK but the
queue and its claimants; SUL; the commands waiting. -/
structure Still where
  tau : Tau
  pfe : Pfe
  setup : RunSetup
  figures : Option RunFigures
  activeProfile : Fin 4
  program : Program
  decoders : Quad DecoderSettings
  errorMask : BitVec 4
  comparators : Quad Comparator
  ren : Ren
  port : Port
  lnk : Lnk
  sul : Sul
  pending : List Instr
deriving DecidableEq, Repr

def State.still (s : State) : Still :=
  { tau := { s.tau with runTime := none }
    pfe := { s.pfe with changedOnce := 0, glitchSeen := 0, lastLevels := none }
    setup := s.run.setup, figures := s.run.figures, activeProfile := s.run.activeProfile, program := s.tsq.program
    decoders := s.dec.units.map DecodeUnit.settings, errorMask := s.dec.errorMask, comparators := s.fc.settings
    ren := s.ren, port := s.port, lnk := { s.lnk with queue := [], statusOwed := false, heldDones := [] }, sul := s.sul
    pending := s.pending }

/-- R163, R167, R168: a state after the receiver has read a whole frame, before any block has taken it. -/
def State.afterFrame (s : State) (f : Frame) : State :=
  { s with
    lnk := { s.lnk with
      receiver := .waiting, idleCount := idleCountAfter s.lnk.idleCount (Frame.bits f), lineRecessive := true,
      bitClock := 125, framePosition := none } }

/-! ### Stores -/

/-- Every sparse store is in its canonical form: positions strictly rising. -/
structure StoresCanonical (s : State) : Prop where
  store : Memory.wf s.cst.store = true
  checkpoints : Memory.wf s.cst.checkpoints = true
  frameStore : Memory.wf s.ren.frameStore = true

/-! ### The transmit queue -/

/-- How many entries of a queue are STATUS messages. -/
def statusCount (q : List QueueEntry) : Nat := (q.filter QueueEntry.isStatus).length

/-- How many entries of a queue are under transmission. -/
def sendingCount (q : List QueueEntry) : Nat := (q.filter QueueEntry.underTransmission).length

/-- R170, R171, R166, R176: never more than 8 messages, at most one of them a STATUS, none while a STATUS is owed; one
message under transmission exactly while a frame is sent; and nothing at all in SILENT. -/
structure QueueLaw (l : Lnk) : Prop where
  room : l.queue.length ≤ Config.queueCapacity
  oneStatus : statusCount l.queue ≤ 1
  owed : l.statusOwed = true → statusCount l.queue = 0
  sending : l.transmitter = .sending → sendingCount l.queue = 1
  notSending : l.transmitter ≠ .sending → sendingCount l.queue = 0
  silent : l.transmitter = .silent → l.queue = [] ∧ l.statusOwed = false ∧ l.heldDones = []

/-! ### Lock and rate factor -/

/-- R12 to R14: up to four intervals, each an accepted one; LOCKED exactly with four; K from them, or 65,536, and within its
bounds. -/
structure LockLaw (t : Tau) : Prop where
  atMostFour : t.history.length ≤ 4
  accepted : ∀ m ∈ t.history, Config.acceptedLow ≤ m ∧ m ≤ Config.markInterval
  locked : t.locked = true ↔ t.history.length = 4
  rateFactor : t.rateFactor = if t.locked then rateFactorOf t.history else Config.unlockedK
  bounds : Config.unlockedK ≤ t.rateFactor ∧ t.rateFactor ≤ 68267

/-! ### The sequencer and the flag drives -/

/-- R91: the run states in which the sequencer runs. -/
def RunState.sequencing : RunState → Bool
  | .idle => false
  | .waitStart => false
  | .prefill => false
  | .pretrig => true
  | .posttrig => true

/-- R91, R92: the sequencer runs exactly in PRETRIG and POSTTRIG and drives no flag line while it is stopped; a part whose
start-up sequence is not complete is IDLE, and one that has completed it has read its image (R178, R179). -/
structure SequencerLaw (s : State) : Prop where
  running : s.tsq.running = s.run.state.sequencing
  released : s.tsq.running = false → s.tsq.drives = 0
  startingIdle : s.sul.joined = false → s.run.state = .idle
  joinedRead : s.sul.joined = true → s.sul.imageState ≠ .reading

/-! ### The log -/

/-- R121, R122, R125: at most 4,096 records, their numbers strictly rising and below the counter; the counter no higher
than exhausted, and each lost count no higher than 65,535. -/
structure LogLaw (l : Log) : Prop where
  capacity : l.records.length ≤ Config.logCapacity
  rising : l.records.Pairwise (fun a b => a.sequence < b.sequence)
  numbered : ∀ r ∈ l.records, r.sequence < l.counter
  counter : l.counter ≤ Config.sequenceLimit
  lost : ∀ d : Fin 4, l.lost.get d ≤ Config.lostLimit

/-! ### Segments -/

/-- The samples of a segment that the open entry holds. -/
def State.openCount (s : State) (r : SegmentRecord) : Nat :=
  if s.openIndex? = some r.index then
    match s.cst.openEntry with
    | some o => (o.holding.map Entry.count).getD 0
    | none => 0
  else 0

/-- R37, R65, R68: where a record's retained entries lie. -/
structure SegmentRecord.InRegion (r : SegmentRecord) (f : RunFigures) : Prop where
  size : r.regionSize = f.regionSize
  first : r.regionFirst = r.index * f.regionSize
  below : r.regionFirst ≤ r.firstPosition
  above : r.firstPosition < r.regionFirst + r.regionSize
  retained : r.retained ≤ r.regionSize
  inStore : r.regionFirst + r.regionSize ≤ Config.storeEntries

/-- R69: the accounting of a record. -/
def State.accounts (s : State) (r : SegmentRecord) : Prop :=
  r.firstSample + countSum s.cst.store (r.oldestPositions r.retained) + s.openCount r = r.nextSample

/-- R68: a trigger entry is retained, or still the open entry of its segment, at the write position. -/
def State.keepsTrigger (s : State) (r : SegmentRecord) : Prop :=
  ∀ p : Nat, r.triggerPosition = some p →
    r.regionFirst ≤ p ∧ p < r.regionFirst + r.regionSize ∧
      (r.offsetOf p < r.retained ∨ (r.offsetOf p = r.retained ∧ 0 < s.openCount r))

/-- R37, R40: the figures a setup gives. -/
structure RunFigures.Fit (f : RunFigures) : Prop where
  some : 0 < f.regionSize
  depth : f.depth < f.regionSize
  store : f.segments * f.regionSize ≤ Config.storeEntries

/-- R36, R37, R40, R59, R65: what ties the segment table, the open record, the open entry and run time together. -/
structure TableLaw (s : State) : Prop where
  setup : 1 ≤ s.run.setup.segments ∧ s.run.setup.fraction ≤ 15 ∧ s.run.setup.segments ≤ Config.storeEntries
  figures : ∀ f : RunFigures, s.run.figures = some f → f.Fit
  indices : s.run.table.map SegmentRecord.index = List.range s.run.table.length
  fits : s.run.table ≠ [] → ∃ f : RunFigures, s.run.figures = some f ∧ s.run.table.length ≤ f.segments
  waiting : s.run.state = .waitStart → s.run.table = [] ∧ ∃ f : RunFigures, s.run.figures = some f ∧ 1 ≤ f.segments
  opened : s.run.state.hasSegment = true → s.run.table ≠ [] ∧ s.cst.openEntry.isSome = true
  untriggered : s.run.state = .prefill ∨ s.run.state = .pretrig →
    ∀ r : SegmentRecord, s.openRecord? = some r → r.triggerPosition = none
  room : s.run.state = .posttrig → ∀ r : SegmentRecord, s.openRecord? = some r → r.retained < r.regionSize
  next : ∀ r : SegmentRecord, s.openRecord? = some r → s.tau.runTime.map RunTime.nextSample = some r.nextSample

/-- R68, R69, R121: the laws of the capture store and of the log over the segments: every segment's retained entries lie in
its region, its trigger entry among them, its samples are accounted for, and no record of the log starts before the first
retained sample time of its segment. -/
structure CaptureLaw (s : State) : Prop where
  table : TableLaw s
  regions : ∀ r ∈ s.run.table, ∀ f : RunFigures, s.run.figures = some f → r.InRegion f
  triggers : ∀ r ∈ s.run.table, s.keepsTrigger r
  accounts : ∀ r ∈ s.run.table, s.accounts r
  logged : ∀ x ∈ s.log.records, x.content.segment < s.run.table.length
  starts : ∀ x ∈ s.log.records, ∀ r ∈ s.run.table, r.index = x.content.segment →
    r.firstSample * s.divider ≤ x.content.startTime

/-! ### The trigger -/

/-- R43 step 1, R65, R66: a record after its segment's open entry is committed, if it holds samples. -/
def SegmentRecord.committed (g : SegmentRecord) (m : Mem Entry) (o : OpenEntry) : SegmentRecord :=
  if o.holding = none then g
  else if g.retained < g.regionSize then { g with retained := g.retained + 1 }
  else
    { g with firstPosition := g.positionAfter 1, firstSample := g.firstSample + entryCountAt m g.firstPosition }

/-- R43 step 1, R65: the store after that commit. -/
def committedStore (m : Mem Entry) (g : SegmentRecord) (o : OpenEntry) : Mem Entry :=
  match o.holding with
  | some e => Memory.write m g.writePosition e
  | none => m

/-- R43 step 1, R70: the checkpoints after that commit. -/
def committedSlots (m : Mem Checkpoint) (g : SegmentRecord) (o : OpenEntry) : Mem Checkpoint :=
  if o.holding ≠ none ∧ g.writePosition % 1024 = 0 then
    Memory.write m (g.writePosition / 1024) { segment := g.index, start := o.start }
  else m

/-- R45: a record after the pre-trigger cut to `depth` entries. -/
def SegmentRecord.cut (g : SegmentRecord) (m : Mem Entry) (depth : Nat) : SegmentRecord :=
  if depth < g.retained then
    { g with
      retained := depth, firstPosition := g.positionAfter (g.retained - depth)
      firstSample := g.firstSample + countSum m (g.oldestPositions (g.retained - depth)) }
  else { g with shortPre := g.shortPre || decide (g.retained < depth) }

/-- R43: the record of the open segment after the trigger at sample `t`. -/
def SegmentRecord.afterTrigger (g : SegmentRecord) (m : Mem Entry) (o : OpenEntry) (f : RunFigures) (t : Nat)
    (source : TriggerSource) : SegmentRecord :=
  let k := (g.committed m o).cut (committedStore m g o) f.depth
  { k with
    triggerPosition := some k.writePosition, ownTrigger := some t, source := source, state := .openPost
    reference := some (min (g.reference.getD (t * f.divider)) (t * f.divider)), nextSample := t + 1 }

/-! ### The end of a run -/

/-- R51 steps 1 and 2: the record of the open segment after it closes. -/
def SegmentRecord.closedWith (g : SegmentRecord) (m : Mem Entry) (o : OpenEntry) (reason : CloseReason) : SegmentRecord :=
  { g.committed m o with state := .closed, closeReason := some reason }

/-- R118: the records the units complete at the end of a run whose last segment is `g`. -/
def State.flushedRecords (s : State) (g : SegmentRecord) : List DecodeRecord :=
  s.dec.flushRecords
    { index := g.nextSample - 1, divider := s.divider, segment := g.index, word := 0, last := 0, glitch := 0 }

/-- R66, R126: the log after the open segment `g` closes: trimmed where the commit of the close gives up the oldest entry of a
full ring. -/
def State.logAfterClose (s : State) (g : SegmentRecord) (o : OpenEntry) : Log :=
  if o.holding ≠ none ∧ g.regionSize ≤ g.retained then
    (s.trimLog
      { segment := g.index, firstSample := (g.committed s.cst.store o).firstSample, runState := s.run.state }).log
  else s.log

/-- R118, R122: the log after the open segment `g` closes and the units flush, the flushed records taken in IDLE. -/
def State.logAfterRun (s : State) (g : SegmentRecord) (o : OpenEntry) : Log :=
  (State.logSample { s with log := s.logAfterClose g o, run := { s.run with state := .idle } } .idle
    (g.committed s.cst.store o).firstSample (s.flushedRecords g) []).log

end Sys2Proof.Machine
end

