-- ==== Sys2Proof/WellFormed.lean ====
section
/-! DEFINITION. Sys2Proof/WellFormed.lean: which commands the outside world can send. A command's operands are typed to
their ranges; what is left to check is said here. -/

namespace Sys2Proof

/-- R186, R181: the lanes a profile of the image spells are as many as its clamped lane count. -/
def RawLanes.wellFormed (l : RawLanes) : Bool := l.lanes.length == min 20 (max 1 l.count)

def RawProfile.wellFormed (p : RawProfile) : Bool := (p.lanes.map RawLanes.wellFormed).getD true

def RawImage.wellFormed (im : RawImage) : Bool :=
  im.profiles.toList.all (fun p => (p.map RawProfile.wellFormed).getD true)

/-- R167: a frame read with a fault; its payload bytes are as many as the length field says, or none are read when the
length is above 28. -/
def RawFrame.wellFormedFault (f : RawFrame) : Bool :=
  f.fault.isSome && f.payload.length == (if 28 < f.length.toNat then 0 else f.length.toNat)

/-- A command the outside world can send. -/
def Instr.wellFormed : Instr → Bool
  | .receiveFault f => f.wellFormedFault
  | .replyFrameReceived kind _ payload => (allowedLengths kind.code.toNat).contains payload.length
  | .unaddressedFrameReceived kind _ payload => (allowedLengths kind.code.toNat).contains payload.length
  | .imageAttempt _ image => image.wellFormed
  | .restart _ _ _ => true
  | .stop _ => true
  | .arm _ _ => true
  | .notice _ _ _ => true
  | .setup _ _ _ _ _ _ => true
  | .view _ _ _ _ _ => true
  | .panel _ _ _ _ _ _ => true
  | .query _ _ => true
  | .read _ _ _ _ _ => true
  | .windowEnd _ => true
  | .emissionTimerExpiry => true
  | .markPulseEnd => true
  | .leadingEdge => true
  | .trailingEdge => true
  | .markStuck => true
  | .synthesizedMark => true
  | .levelChange _ _ => true
  | .sample => true
  | .driverPresent => true
  | .flagLineChange _ _ => true
  | .lineIdle => true
  | .frameBegin => true
  | .arbitrationLost _ => true
  | .bitError _ => true
  | .duplicateId _ => true
  | .transmissionComplete => true
  | .statusOwedJoin => true
  | .heldDoneJoin => true
  | .dataFormation => true
  | .frameStart => true
  | .columnRender => true
  | .renderComplete => true
  | .transferComplete => true
  | .sleepStart => true
  | .sleepComplete => true
  | .powerUp _ => true
  | .resetPinAssert => true
  | .resetPinRelease _ => true
  | .join _ => true

end Sys2Proof
end

