-- ==== Sys2Proof/Certificates/Slice0/Obligations.lean ====
section
/-! DEFINITION. Sys2Proof/Certificates/Slice0/Obligations.lean: the statements made about the model. -/

open Sys2Proof Sys2Proof.Machine

/-! ### Steps, reset -/

/-- The command at the front of the queue runs on the queue's rest. The queue is the model's own (log 1). -/
def Obligations.StepRunsFrontCommand : Prop :=
  ∀ (c : Instr) (rest : List Instr) (s : State), s.pending = c :: rest → step s = exec c { s with pending := rest }

/-- A step on an empty queue is one local tick (the model's choice, log 1): the counts that R6, R8, R11, R16, R17, R139 and
R163 give move (the pulse width to 64, log 36), the drives as they stand are latched for the drivers (R161), and a stream
may form its next record (R174). Where the bit clock comes round, the next bit of the frame under way begins. The message line
has some level: recessive where a WAITING receiver has seen it recessive, dominant through a start bit and through each bit
that a sender sends dominant (R162, R163), and free elsewhere, also through a bit a sender sends recessive, where another
station may send dominant (log 15, log 29). A transition from recessive to dominant restarts the bit period, the next one of the frame where this one's bit has been read, and 125 ticks after its first
(log 49) the idle count takes the bit read. A part held in reset or in its start-up sequence counts nothing. -/
def Obligations.EmptyQueueIsOneTick : Prop :=
  ∀ s : State, s.pending = [] →
    (s.active = true → ∃ recessive : Bool,
      let ran := (s.lnk.bitClock + 1) % 250
      let place := if ran = 0 then s.lnk.framePosition.map (fun n => n + 1) else s.lnk.framePosition
      (s.lnk.receiver = .waiting → s.lnk.lineRecessive = true → recessive = true) ∧
      (s.lnk.receiver ≠ .waiting → place = some 0 → recessive = false) ∧
      (∀ n : Nat, s.lnk.receiver ≠ .waiting → 1 ≤ n → place = some n → s.lnk.sentBit n = some false →
        recessive = false) ∧
      let falls : Prop := s.lnk.lineRecessive = true ∧ recessive = false
      let clock := if falls then 0 else ran
      step s = .next { s with
        tau := { s.tau with
          emissionTimer := s.tau.emissionTimer + 1, synthesisCount := s.tau.synthesisCount + 1
          pulseWidth := if s.tau.markLine then min 64 (s.tau.pulseWidth + 1) else s.tau.pulseWidth
          markDrive := s.tau.markDrive.map (fun n => n - 1)
          runTime := s.tau.runTime.map (fun r =>
            { r with
              ticks := r.ticks + 1
              previousOffset := min (2 ^ 20 - 1) (r.base + r.ticks * s.tau.rateFactor / 65536) }) }
        ren := { s.ren with frameTimer := s.ren.frameTimer + 1 }
        lnk := { s.lnk with
          bitClock := clock, lineRecessive := recessive
          framePosition := if falls ∧ 125 < ran then place.map (fun n => n + 1) else place
          settledDrives := s.tsq.drives
          queue := s.lnk.queue.map (fun e => { e with tookFreedEntry := false })
          stream := s.lnk.stream.map (fun x => { x with formed := false })
          idleCount := if clock = 125 then (if recessive then min 9 (s.lnk.idleCount + 1) else 0) else s.lnk.idleCount }
        freeCount := s.freeCount + 1 }) ∧
    (s.active = false → step s = .next s)

/-- What the rules give a POWER start (R22, R33, R56, R75, R94, R119, R129, R137, R139, R160, R176, R178, R179), and that the
laws of the invariants below hold there. The strap value 0 and the levels on the pins in `State.reset` are the model's (log
4, log 5) and are not stated here. -/
def Obligations.ResetIsPowerStart : Prop :=
  let s := State.reset
  ((s.tau.clockState = .internal ∧ s.tau.locked = false ∧ s.tau.history = [] ∧ s.tau.rateFactor = 65536 ∧
    s.tau.emissionTimer = 0 ∧ s.tau.synthesisCount = 0 ∧ s.tau.windowCount = 0 ∧ s.tau.inRangeRun = 0 ∧
    s.tau.pulseWidth = 0 ∧ s.tau.markStuck = false ∧ s.tau.startPending = false ∧ s.tau.candidate = false ∧
    s.tau.runTime = none) ∧
  (s.pfe.enabled = 0 ∧ s.pfe.groupA.code = none ∧ s.pfe.groupB.code = none ∧ s.pfe.changedOnce = 0 ∧
    s.pfe.glitchSeen = 0 ∧ s.pfe.lastLevels = none) ∧
  (s.run.state = .idle ∧ s.run.table = [] ∧ s.run.figures = none ∧ s.run.activeProfile = 0 ∧
    s.run.pendingRemote = false) ∧
  (s.cst.openEntry = none ∧ s.cst.checkpoints = []) ∧
  (s.tsq.running = false ∧ s.tsq.level = 0 ∧ s.tsq.dwell = 0 ∧ s.tsq.drives = 0 ∧ s.tsq.qualifier = true ∧
    s.tsq.fired = false) ∧
  (s.log.records = [] ∧ s.log.counter = 0 ∧ s.log.lost = Quad.replicate 0 ∧ s.fc.sticky = 0) ∧
  (s.ren.frameState = .waiting ∧ s.ren.capture = none ∧ s.ren.view.segment = 0 ∧ s.ren.view.offset = 0 ∧
    s.ren.view.follow = true) ∧
  (s.port.state = .asleep ∧ s.port.wakePending = true) ∧
  (s.lnk.receiver = .waiting ∧ s.lnk.idleCount = 0 ∧ s.lnk.queue = [] ∧ s.lnk.statusOwed = false ∧
    s.lnk.stream = none ∧ s.lnk.heldDones = [] ∧ s.lnk.lastRefusal = none ∧ s.lnk.lastBusError = none ∧
    s.lnk.duplicateId = false ∧ s.lnk.driversEnabled = false) ∧
  (s.sul.imageState = .reading ∧ s.sul.attempt = 1 ∧ s.sul.resetCause = .power ∧ s.sul.joined = false)) ∧
  StoresCanonical s ∧ QueueLaw s.lnk ∧ LockLaw s.tau ∧ SequencerLaw s ∧ LogLaw s.log ∧ CaptureLaw s

/-! ### Invariants: every step keeps them, from any state that meets them -/

/-- The capture store, the checkpoint table and the frame store stay in their canonical form, positions strictly rising. The
form is the model's own way to write a store down (log 13, log 35, log 12): no rule of the manual gives it. -/
def Obligations.StepKeepsStoresCanonical : Prop :=
  ∀ s t : State, StoresCanonical s → step s = .next t → StoresCanonical t

/-- R170, R171, R166, R176: a transmit queue of at most 8 messages, at most one of them a STATUS and none while a STATUS is
owed, one of them under transmission exactly while a frame is sent, and empty with nothing owed or held in SILENT. -/
def Obligations.StepKeepsQueueLaw : Prop := ∀ s t : State, QueueLaw s.lnk → step s = .next t → QueueLaw t.lnk

/-- R12, R13, R14: an interval history of at most four accepted intervals, LOCKED exactly with four, and K computed from them,
65,536 while UNLOCKED, and never outside 65,536 to 68,267. -/
def Obligations.StepKeepsLockLaw : Prop := ∀ s t : State, LockLaw s.tau → step s = .next t → LockLaw t.tau

/-- R91, R92, R178, R179: a sequencer that runs exactly in PRETRIG and POSTTRIG and drives no flag line while stopped, a run
state of IDLE until the start-up sequence is complete, and an image read by then. -/
def Obligations.StepKeepsSequencerLaw : Prop := ∀ s t : State, SequencerLaw s → step s = .next t → SequencerLaw t

/-- R121, R122, R125: a decode log of at most 4,096 records whose sequence numbers rise and lie below the counter, a counter
not above 2^32, and lost counts not above 65,535. -/
def Obligations.StepKeepsLogLaw : Prop := ∀ s t : State, LogLaw s.log → step s = .next t → LogLaw t.log

/-- R68, R69, R121: every segment keeps its retained entries in its region, its trigger entry among them, and accounts for its
samples: its first retained sample index, the counts of its retained entries and that of its open entry add up to its next
sample index; and no record of the log starts before the first retained sample time of its segment. -/
def Obligations.StepKeepsCaptureLaw : Prop := ∀ s t : State, CaptureLaw s → step s = .next t → CaptureLaw t

/-! ### Frames of the message line and their payloads -/

/-- R162, R168, R183 to R185: the frame a message command stands for, put on the line unharmed, is read back as that
command, every operand at every value. A command with a target stands for a frame addressed to this station, the command of
the frames it does not take for one that is not. The bits of a frame on the line, field by field in their order, the most
significant bit of each first, 1 for recessive, with the check byte that makes its sum 0xFF; and a station that sends a frame
sends those bits, each on the line throughout the bit period that belongs to it (R163); one that sends none leaves the line
recessive, and so does one held in reset (R178). -/
def Obligations.FrameReadsBackAsItsCommand : Prop :=
  (∀ (strap straps : Station) (i : Instr) (f : Frame), i.wellFormed = true → i.frame? = some f →
    (match i with
     | .restart _ target pins => addressed strap (targetOf target) = true ∧ pins = straps
     | .panel _ target _ _ _ _ => addressed strap (targetOf target) = true
     | .query _ target => addressed strap (targetOf target) = true
     | .read _ target _ _ _ => addressed strap (targetOf target) = true
     | .unaddressedFrameReceived _ _ payload => addressed strap (targetOf (payloadByte payload 0)) = false
     | _ => True) →
    decodeFrame strap straps f.toRaw = i) ∧
  (∀ f : Frame, f.payload.length ≤ 31 → ∃ check : Byte,
    let n := f.payload.length
    let bits := Frame.bits f
    (8 * f.kind.toNat + f.source.toNat + n + (f.payload.map BitVec.toNat).sum + check.toNat) % 256 = 255 ∧
    bits.length = 23 + 8 * n ∧ bits[0]? = some false ∧
    (∀ i : Nat, i < 4 → bits[1 + i]? = some (f.kind.getLsbD (3 - i))) ∧
    (∀ i : Nat, i < 3 → bits[5 + i]? = some (f.source.getLsbD (2 - i))) ∧
    (∀ i : Nat, i < 5 → bits[8 + i]? = some (n.testBit (4 - i))) ∧
    (∀ j i : Nat, j < n → i < 8 → bits[13 + 8 * j + i]? = some ((payloadByte f.payload j).getLsbD (7 - i))) ∧
    (∀ i : Nat, i < 8 → bits[13 + 8 * n + i]? = some (check.getLsbD (7 - i))) ∧
    bits[21 + 8 * n]? = some true ∧ bits[22 + 8 * n]? = some true) ∧
  (∀ (l : Lnk) (bit : Nat), (l.frameOnLine = none → l.sentBit bit = none) ∧
    (∀ f : Frame, l.frameOnLine = some f → l.sentBit bit = (Frame.bits f)[bit]?)) ∧
  (∀ (s : State) (f : Frame), s.sul.resetHeld = false → s.lnk.frameOnLine = some f →
    s.sendsBits = Frame.bits f ∧
    (∀ (n : Nat) (b : Bool), s.lnk.framePosition = some n → (Frame.bits f)[n]? = some b → s.putsBit = b)) ∧
  (∀ s : State, s.sul.resetHeld = true ∨ s.lnk.frameOnLine = none → s.putsBit = true)

/-- Section 12.2 and 12.1: the payloads of the messages a station sends, field by field and bit by bit, and that their lengths
are those R184 gives their kinds. The premises are the ranges of the fields. -/
def Obligations.PayloadsFollowTheirLayouts : Prop :=
  (∀ m : Message, m.payload.length ∈ (match m with
    | .notice _ _ => [7]
    | .status _ => [21]
    | .data (.entry _ _ _) => [14]
    | .data (.segment _ _) => [27]
    | .data (.decode _) => [28]
    | .done _ => [3])) ∧
  (∀ segment time : Nat, segment < 2 ^ 8 → time < 2 ^ 48 →
    let p := (Message.notice segment time).payload
    payloadNat p 0 1 = segment ∧ payloadNat p 1 6 = time) ∧
  (∀ c : StatusContents, (∀ i : Nat, c.openSegment = some i → i < 32) → c.closedCount ≤ 32 → c.rateFactor < 2 ^ 24 →
    (∀ d : Fin 4, c.lost.get d ≤ 65535) →
    let p := c.payload
    let bit (i j : Nat) := (payloadByte p i).getLsbD j
    payloadNat p 0 1 = (match c.runState with | .idle => 0 | .waitStart => 1 | .prefill => 2 | .pretrig => 3 | .posttrig => 4) ∧
    payloadNat p 1 1 = c.openSegment.getD 0xFF ∧ payloadNat p 2 1 = c.closedCount ∧ bit 3 0 = c.locked ∧
    (payloadByte p 3).extractLsb' 1 2 =
      (match c.clockState with | .internal => 0 | .refActive => 1 | .refAbsent => 2 | .refLost => 3) ∧
    payloadNat p 4 3 = c.rateFactor ∧ bit 7 0 = c.markStuck ∧ bit 7 1 = c.duplicateId ∧ bit 7 2 = c.imageBad ∧
    bit 7 3 = c.lanesClipped ∧ (payloadByte p 8).extractLsb' 0 4 = c.errorMask ∧
    (payloadByte p 8).extractLsb' 4 4 = c.sticky ∧ (∀ d : Fin 4, payloadNat p (9 + 2 * d.val) 2 = c.lost.get d) ∧
    (payloadByte p 17).extractLsb' 0 4 = c.observed ∧
    payloadNat p 18 1 = (match c.resetCause with | .power => 0 | .pin => 1 | .link => 2) ∧
    (payloadByte p 19).extractLsb' 0 2 =
      (match c.lastRefusal with | none => 0 | some (.arm, _) => 1 | some (.setup, _) => 2) ∧
    (payloadByte p 19).extractLsb' 2 2 =
      (match c.lastRefusal with | none => 0 | some (_, .busy) => 1 | some (_, .noProfile) => 2) ∧
    payloadNat p 20 1 = (match c.lastBusError with
      | none => 0
      | some .check => 1
      | some .length => 2
      | some .kind => 3
      | some .endBit => 4
      | some .bit => 5)) ∧
  (∀ d : Done, d.sent ≤ 64 → d.payload = [d.collection, BitVec.ofNat 8 d.sent,
    match d.reason with | .complete => 0 | .ended => 1 | .cut => 2 | .badRequest => 3]) ∧
  (∀ (i start : Nat) (e : Entry), i < 32 → start < 2 ^ 48 → 1 ≤ e.count → e.count ≤ 2 ^ 24 →
    let p := (DataRecord.entry i start e).payload
    (payloadByte p 0).extractLsb' 6 2 = 2 ∧ (payloadByte p 0).extractLsb' 0 5 = BitVec.ofNat 5 i ∧
      ((payloadByte p 0).getLsbD 5 = true ↔ e.data = .gap) ∧ payloadNat p 1 6 = start ∧
      payloadNat p 7 3 + 1 = e.count ∧
      payloadNat p 10 2 = (match e.data with | .levels l _ => l.toNat | .gap => 0) ∧
      payloadNat p 12 2 = (match e.data with | .levels _ g => g.toNat | .gap => 0)) ∧
  (∀ (r : SegmentRecord) (entry : Option Nat), r.index < 32 → r.firstSample < 2 ^ 48 → r.nextSample < 2 ^ 48 →
    (∀ n : Nat, entry = some n → n < 2 ^ 24 - 1) → r.maxCorrection ≤ 2 ^ 20 →
    (∀ n : Nat, r.reference = some n → n < 2 ^ 48) →
    let p := (DataRecord.segment r entry).payload
    let bit (i j : Nat) := (payloadByte p i).getLsbD j
    (payloadByte p 0).extractLsb' 6 2 = 0 ∧ (payloadByte p 0).extractLsb' 0 5 = BitVec.ofNat 5 r.index ∧
      bit 0 5 = r.reference.isSome ∧
      (payloadByte p 1).extractLsb' 0 2 = (match r.state with | .openPre => 0 | .openPost => 1 | .closed => 2) ∧
      (payloadByte p 1).extractLsb' 2 2 = (match r.source with | .none => 0 | .local => 1 | .remote => 2) ∧
      (payloadByte p 1).extractLsb' 4 3 = (match r.closeReason with
        | none => 0
        | some .filled => 1
        | some .stopped => 2
        | some .reset => 3
        | some .timeLimit => 4) ∧
      bit 2 0 = r.shortPre ∧ bit 2 1 = r.unaligned ∧ bit 2 2 = r.refSwitch ∧ bit 2 3 = r.noticeDropped ∧
      bit 2 4 = r.logLost ∧ bit 2 5 = r.recovered ∧ payloadNat p 3 6 = r.firstSample ∧
      payloadNat p 9 6 = r.nextSample ∧ payloadNat p 15 3 = entry.getD 0xFFFFFF ∧
      payloadNat p 18 3 = r.maxCorrection ∧ payloadNat p 21 6 = r.reference.getD 0) ∧
  (∀ r : LogRecord, r.content.segment < 32 → r.content.bitCount ≤ 32 → r.sequence < 2 ^ 32 →
    r.content.startTime < 2 ^ 48 → r.content.endTime < 2 ^ 48 →
    let p := (DataRecord.decode r).payload
    let bit (i j : Nat) := (payloadByte p i).getLsbD j
    let f := r.content.flags
    (payloadByte p 0).extractLsb' 6 2 = 1 ∧ (payloadByte p 0).extractLsb' 4 2 = BitVec.ofNat 2 r.content.decoder.val ∧
      (payloadByte p 0).extractLsb' 0 4 = (match r.content.kind with
        | .uartChar => 0
        | .uartBreak => 1
        | .spiWord => 2
        | .i2cStart => 3
        | .i2cRestart => 4
        | .i2cAddress => 5
        | .i2cByte => 6
        | .i2cStop => 7
        | .parWord => 8) ∧
      (payloadByte p 1).extractLsb' 0 5 = BitVec.ofNat 5 r.content.segment ∧ bit 1 5 = r.content.value2.isSome ∧
      payloadNat p 2 1 = r.content.bitCount ∧ bit 3 0 = f.parity ∧ bit 3 1 = f.framing ∧ bit 3 2 = f.nack ∧
      bit 3 3 = f.read ∧ bit 3 4 = f.truncated ∧ bit 3 5 = f.glitch ∧ bit 3 6 = f.clipped ∧
      payloadNat p 4 4 = r.sequence ∧ payloadNat p 8 4 = r.content.value.toNat ∧
      payloadNat p 12 4 = (r.content.value2.map BitVec.toNat).getD 0 ∧ payloadNat p 16 6 = r.content.startTime ∧
      payloadNat p 22 6 = r.content.endTime)

/-! ### The reference monitor -/

/-- R2 to R5: a window of the trial that decides nothing yet, the sixteenth without a run of four, and a window in range in
REF_ACTIVE move the counts, the sixteenth ending the trial in REF_ABSENT, and nothing else changes. The window that completes
the trial's run of four, or the first out of range in REF_ACTIVE, switches the clock source: the history is emptied, K
restarts, stack time goes on from its value, and an open segment gains REF_SWITCH. That the run is held at 4 in REF_ACTIVE, and
the window count there at the trial's last value, is the model's choice (log 50). -/
def Obligations.ReferenceWindowEnds : Prop :=
  ∀ (s : State) (edges : Nat), s.active = true → s.tau.monitorRunning = true →
    (s.tau.clockState ≠ .refActive → ¬((1280 ≤ edges ∧ edges ≤ 1342) ∧ s.tau.inRangeRun = 3) →
      exec (.windowEnd edges) s = .next { s with tau := { s.tau with
        windowCount := s.tau.windowCount + 1
        inRangeRun := if 1280 ≤ edges ∧ edges ≤ 1342 then s.tau.inRangeRun + 1 else 0
        clockState := if s.tau.windowCount + 1 = 16 then .refAbsent else s.tau.clockState
        monitorRunning := decide (s.tau.windowCount + 1 ≠ 16) } }) ∧
    (s.tau.clockState = .refActive → 1280 ≤ edges → edges ≤ 1342 →
      exec (.windowEnd edges) s = .next { s with tau := { s.tau with inRangeRun := min 4 (s.tau.inRangeRun + 1) } }) ∧
    ((s.tau.clockState ≠ .refActive ∧ (1280 ≤ edges ∧ edges ≤ 1342) ∧ s.tau.inRangeRun = 3) ∨
      (s.tau.clockState = .refActive ∧ ¬(1280 ≤ edges ∧ edges ≤ 1342)) →
      ∃ t : State, exec (.windowEnd edges) s = .next t ∧
        t.tau.clockState = (if s.tau.clockState = .refActive then .refLost else .refActive) ∧
        t.tau.tickFromReference = !s.tau.tickFromReference ∧
        t.tau.monitorRunning = !s.tau.tickFromReference ∧
        t.tau.history = [] ∧ t.tau.locked = false ∧ t.tau.rateFactor = 65536 ∧ t.tau.interval ≠ .measured ∧
        t.tau.emissionTimer = s.tau.emissionTimer ∧ t.tau.synthesisCount = s.tau.synthesisCount ∧
        t.tau.pulseWidth = s.tau.pulseWidth ∧ t.stackTime? = s.stackTime? ∧
        t.run.table = s.run.table.map (fun r => if s.openIndex? = some r.index then { r with refSwitch := true } else r) ∧
        t.tau = { s.tau with
          clockState := t.tau.clockState, monitorRunning := t.tau.monitorRunning, history := [], locked := false
          rateFactor := 65536, interval := if s.tau.interval = .measured then .discarded else s.tau.interval
          windowCount := if s.tau.clockState = .refActive then s.tau.windowCount else s.tau.windowCount + 1
          inRangeRun := if s.tau.clockState = .refActive then 0 else 4
          runTime := s.tau.runTime.map (fun r =>
            { r with base := min (2 ^ 20 - 1) (r.base + r.ticks * s.tau.rateFactor / 65536), ticks := 0 }) } ∧
        t = { s with tau := t.tau, run := { s.run with table := t.run.table } })

/-! ### The mark line -/

/-- R6, R7, R8, R12, R13, R14: at an emitting station whose timer has reached 2^20 and that sees the line released, the drive
begins, and its leading edge is a mark edge, which measures the interval it ends, of exactly 2^20 ticks: what becomes of the
history, the lock state and K. That a command taken late ends a longer interval, which empties the history, is the model's
choice (log 3). Outside a run nothing but TAU changes. A station that is listen-only, strapped 7 or sees a stuck line emits
nothing. A drive that has run out is released, and nothing else changes. -/
def Obligations.MarkPulseIsDrivenAndReleased : Prop :=
  ∀ s : State, s.active = true →
    (s.emitsMarks = true ↔ s.options.listenOnly = false ∧ s.sul.strap ≠ 7 ∧ s.tau.markStuck = false) ∧
    (s.emitsMarks = false → exec .emissionTimerExpiry s = .next s) ∧
    (s.emitsMarks = true → 2 ^ 20 ≤ s.tau.emissionTimer → s.tau.markLine = false →
      let m := s.tau.emissionTimer
      let h := if s.tau.history.length < 4 then s.tau.history ++ [m] else s.tau.history.tail ++ [m]
      let a := (h.sum + 2) / 4
      ∃ t : State, exec .emissionTimerExpiry s = .next t ∧
        t.tau.markDrive = some (if s.tau.startPending then 32 else 8) ∧ t.tau.startPending = false ∧
        t.tau.markLine = true ∧ t.tau.emissionTimer = 0 ∧ t.tau.synthesisCount = 0 ∧ t.tau.pulseWidth = 0 ∧
        t.tau.interval = .measured ∧ (t.tau.candidate = true ↔ s.run.state = .waitStart) ∧
        (s.tau.interval ≠ .measured →
          t.tau.history = s.tau.history ∧ t.tau.locked = s.tau.locked ∧ t.tau.rateFactor = s.tau.rateFactor) ∧
        (s.tau.interval = .measured → m = 2 ^ 20 →
          t.tau.history = h ∧ (t.tau.locked = true ↔ h.length = 4) ∧
            t.tau.rateFactor = if h.length = 4 then (2 ^ 36 + a / 2) / a else 65536) ∧
        (s.tau.interval = .measured → m ≠ 2 ^ 20 →
          t.tau.history = [] ∧ t.tau.locked = false ∧ t.tau.rateFactor = 65536) ∧
        t.still = { s.still with tau := { t.tau with runTime := none } } ∧
        (s.tau.runTime = none → t = { s with tau := t.tau })) ∧
    (s.tau.markDrive = some 0 →
      exec .markPulseEnd s = .next { s with tau := { s.tau with markDrive := none } })

/-- R7, R8, R12, R13, R14: a leading edge of another station: a mark edge that restarts the counts, that an emitting station
with a start pending stretches for 32 ticks, and that measures the interval it ends: what becomes of the history, the lock
state and K. Outside a run nothing but TAU changes. -/
def Obligations.LeadingEdgeIsAMarkEdge : Prop :=
  ∀ s : State, s.active = true → s.tau.markLine = false →
    let m := s.tau.emissionTimer
    let h := if s.tau.history.length < 4 then s.tau.history ++ [m] else s.tau.history.tail ++ [m]
    let a := (h.sum + 2) / 4
    ∃ t : State, exec .leadingEdge s = .next t ∧
      t.tau.markDrive = (if s.emitsMarks && s.tau.startPending then some 32 else s.tau.markDrive) ∧
      (t.tau.startPending = true ↔ s.tau.startPending = true ∧ s.emitsMarks = false) ∧
      (t.tau.markLine = true ∧ t.tau.emissionTimer = 0 ∧ t.tau.synthesisCount = 0 ∧ t.tau.pulseWidth = 0 ∧
        t.tau.interval = .measured ∧ (t.tau.candidate = true ↔ s.run.state = .waitStart)) ∧
      (s.tau.interval ≠ .measured →
        t.tau.history = s.tau.history ∧ t.tau.locked = s.tau.locked ∧ t.tau.rateFactor = s.tau.rateFactor) ∧
      (s.tau.interval = .measured → 1006633 ≤ m ∧ m ≤ 1048576 →
        t.tau.history = h ∧ (t.tau.locked = true ↔ h.length = 4) ∧
          t.tau.rateFactor = if h.length = 4 then (2 ^ 36 + a / 2) / a else 65536) ∧
      (s.tau.interval = .measured → ¬(1006633 ≤ m ∧ m ≤ 1048576) →
        t.tau.history = [] ∧ t.tau.locked = false ∧ t.tau.rateFactor = 65536) ∧
      t.still = { s.still with tau := { t.tau with runTime := none } } ∧
      (s.tau.runTime = none → t = { s with tau := t.tau })

/-- R17, R18, R54, with R8, R6 and R11: the mark-edge step of a run. A mark edge that passes no due instant: Nm rises, the
offset restarts, and the open segment keeps the largest correction. Whatever it passes: the instants of the jump are sampled,
the correction goes to the segment open after them, and the edge that brings Nm to 2^28 - 1 then closes that segment with
TIME_LIMIT and ends the run. Another station's leading edge, an own emission and a synthesized mark each take that step; that
TAU measures the interval before it, and unlocks after it at a synthesized mark, is the model's (log 37), and so is the offset
0 a second mark edge of the same tick finds (log 51). -/
def Obligations.MarkEdgeAdvancesStackTime : Prop :=
  (∀ (s : State) (r : RunTime) (i : Nat), s.active = true → s.tau.markLine = false → s.tau.runTime = some r →
    s.openIndex? = some i → r.marks + 1 < 2 ^ 28 - 1 → (r.marks + 1) * 2 ^ 20 < r.nextSample * s.divider →
    ∃ t : State, exec .leadingEdge s = .next t ∧
      t.tau.runTime = some { r with marks := r.marks + 1, ticks := 0, base := 0, previousOffset := 0 } ∧
      t.stackTime? = some ((r.marks + 1) * 2 ^ 20) ∧
      t.run.table = s.run.table.map (fun g =>
        if g.index = i then { g with maxCorrection := max g.maxCorrection (2 ^ 20 - r.previousOffset) } else g) ∧
      t = { s with tau := t.tau, run := { s.run with table := t.run.table } }) ∧
  (∀ (s : State) (r : RunTime), s.tau.runTime = some r →
    let jumped : State := { s with tau := { s.tau with
      runTime := some { r with marks := r.marks + 1, ticks := 0, base := 0, previousOffset := 0 } } }
    let j := jumped.takeAllDue
    let corrected (g : SegmentRecord) : SegmentRecord :=
      if j.openIndex? = some g.index then { g with maxCorrection := max g.maxCorrection (2 ^ 20 - r.previousOffset) }
      else g
    s.markEdgeStep.still = s.still ∧
    (r.marks + 1 ≠ 2 ^ 28 - 1 ∨ j.run.state.hasSegment = false →
      s.markEdgeStep = { j with run := { j.run with table := j.run.table.map corrected } }) ∧
    (r.marks + 1 = 2 ^ 28 - 1 → ∀ g : SegmentRecord, j.openRecord? = some g →
      let t := s.markEdgeStep
      t.run.state = .idle ∧ t.tau.runTime = none ∧ t.cst.openEntry = none ∧ t.tsq.running = false ∧ t.tsq.drives = 0 ∧
        t.run.table.map SegmentRecord.index = j.run.table.map SegmentRecord.index ∧
        t.run.table.map SegmentRecord.maxCorrection = (j.run.table.map corrected).map SegmentRecord.maxCorrection ∧
        (∀ x ∈ t.run.table, x.index = g.index → x.state = .closed ∧ x.closeReason = some .timeLimit))) ∧
  (∀ s : State, s.active = true →
    let edge (k : Tau) : Tau := { s.tau with
      markLine := true, pulseWidth := 0, candidate := s.run.state == .waitStart, emissionTimer := 0, synthesisCount := 0
      interval := .measured, history := k.history, locked := k.locked, rateFactor := k.rateFactor }
    (s.tau.markLine = false → ∃ k : Tau, k = edge k ∧
      let t := State.markEdgeStep { s with tau := k }
      exec .leadingEdge s = .next { t with tau := { t.tau with
        markDrive := if s.emitsMarks && s.tau.startPending then some 32 else t.tau.markDrive
        startPending := t.tau.startPending && !s.emitsMarks } } ∧
      t.tau.locked = k.locked ∧ t.tau.history = k.history ∧ t.tau.rateFactor = k.rateFactor) ∧
    (s.tau.markLine = false → s.emitsMarks = true → 2 ^ 20 ≤ s.tau.emissionTimer → ∃ k : Tau,
      k = { edge k with markDrive := some (if s.tau.startPending then 32 else 8), startPending := false } ∧
      let t := State.markEdgeStep { s with tau := k }
      exec .emissionTimerExpiry s = .next t ∧
      t.tau.locked = k.locked ∧ t.tau.history = k.history ∧ t.tau.rateFactor = k.rateFactor) ∧
    (s.synthesisDue = true →
      let t := State.markEdgeStep
        { s with tau := { s.tau with emissionTimer := 0, synthesisCount := 0, interval := .discarded } }
      exec .synthesizedMark s =
        .next { t with tau := { t.tau with history := [], locked := false, rateFactor := 65536 } }))

/-- R9, R10: a trailing edge that completes no candidate start: the candidate, if there is one, is dropped; after a stuck
pulse MARK_STUCK clears and a STATUS is posted. A pulse-width count of 64 sets MARK_STUCK: unlocked, rebased, the candidate
dropped, a STATUS posted. A width of 0, and one of 64 whose MARK_STUCK has not been taken, have no class in R9: that the
candidate is dropped there too is the model's choice (log 23). -/
def Obligations.TrailingEdgesAndStuckPulses : Prop :=
  ∀ s : State, s.active = true → s.tau.markLine = true →
    (s.tau.markDrive = none →
      (s.tau.markStuck = false →
        ¬((24 ≤ s.tau.pulseWidth ∧ s.tau.pulseWidth ≤ 63) ∧ s.tau.candidate = true ∧ s.run.state = .waitStart) →
        exec .trailingEdge s = .next { s with tau := { s.tau with markLine := false, candidate := false } }) ∧
      (s.tau.markStuck = true → exec .trailingEdge s =
        .next (State.postStatus { s with tau := { s.tau with markLine := false, markStuck := false } }))) ∧
    (s.tau.markStuck = false → 64 ≤ s.tau.pulseWidth →
      ∃ u : State, exec .markStuck s = .next u.postStatus ∧
        u.tau.markStuck = true ∧ u.emitsMarks = false ∧ u.tau.history = [] ∧ u.tau.locked = false ∧
        u.tau.rateFactor = 65536 ∧ u.tau.candidate = false ∧ u.tau.interval ≠ .measured ∧ u.stackTime? = s.stackTime? ∧
        u.tau.emissionTimer = s.tau.emissionTimer ∧ u.tau.synthesisCount = s.tau.synthesisCount ∧
        u = { s with tau := u.tau })

/-- R15, R34, R40, R77, R91, R93, R99: a start mark that completes a candidate starts the run: segment 0 opens at sample 0, the
sequencer starts, entering level 0, unless the segment waits in PREFILL, and the samples due are taken. -/
def Obligations.StartMarkStartsTheRun : Prop :=
  ∀ (s : State) (f : RunFigures), s.active = true → s.tau.markLine = true → s.tau.markDrive = none →
    s.tau.markStuck = false → 24 ≤ s.tau.pulseWidth → s.tau.pulseWidth ≤ 63 → s.tau.candidate = true →
    s.run.state = .waitStart → s.run.figures = some f →
    ∃ u : State, exec .trailingEdge s = .next u.takeAllDue ∧
      (u.tau.markLine = false ∧ u.tau.startPending = false ∧ u.tau.candidate = false) ∧
      (u.tau.runTime.map RunTime.marks = some 0 ∧ u.tau.runTime.map RunTime.ticks = some s.tau.pulseWidth ∧
        u.tau.runTime.map RunTime.base = some 0 ∧ u.tau.runTime.map RunTime.nextSample = some 0) ∧
      (u.pfe.changedOnce = 0 ∧ u.pfe.glitchSeen = 0 ∧ u.pfe.lastLevels = some s.pfe.currentLevels) ∧
      u.run.state = (if s.run.setup.prefillWait = true ∧ 0 < f.depth then .prefill else .pretrig) ∧
      u.run.table = s.run.table ++
        [{ index := 0, state := .openPre, regionFirst := 0, regionSize := f.regionSize, firstPosition := 0,
           firstSample := 0, nextSample := 0, retained := 0, triggerPosition := none, ownTrigger := none,
           source := .none, reference := none, closeReason := none, shortPre := false, unaligned := !s.tau.locked,
           refSwitch := false, noticeDropped := false, logLost := false, recovered := false, maxCorrection := 0 }] ∧
      (let opened : Tsq := { s.tsq with drives := 0, qualifier := true, fired := false, running := false }
       (u.run.state = .prefill → u.tsq = opened) ∧
       (u.run.state = .pretrig → u.tsq =
         { opened with level := 0, counter := s.tsq.program[(0 : Fin 8)].count, dwell := 0, running := true })) ∧
      u.cst = { s.cst with openEntry := some { start := 0, holding := none } } ∧
      u.dec.units = s.dec.units.map DecodeUnit.start

/-- R11: where no leading edge has come in time, a mark edge is made: the counts restart, the station unlocks and the
interval that begins is not measured. -/
def Obligations.SynthesizedMarkUnlocks : Prop :=
  ∀ s : State, s.active = true →
    (s.tau.markStuck = true ∧ 2 ^ 20 ≤ s.tau.synthesisCount) ∨
      (s.tau.markStuck = false ∧ (s.options.listenOnly = true ∨ s.sul.strap = 7) ∧
        2 ^ 20 + 2 ^ 16 ≤ s.tau.synthesisCount) →
    ∃ t : State, exec .synthesizedMark s = .next t ∧
      t.tau.emissionTimer = 0 ∧ t.tau.synthesisCount = 0 ∧ t.tau.history = [] ∧ t.tau.locked = false ∧
      t.tau.rateFactor = 65536 ∧ t.tau.interval = .discarded ∧ t.tau.markLine = s.tau.markLine ∧
      t.tau.pulseWidth = s.tau.pulseWidth ∧ t.tau.markStuck = s.tau.markStuck ∧ t.tau.candidate = s.tau.candidate ∧
      t.still = { s.still with tau := { t.tau with runTime := none } } ∧
      (s.tau.runTime = none → t = { s with tau := t.tau })

/-! ### Probes -/

/-- R23, R24, R26, R27, R28: an enabled channel's raw level follows a driven input through the hysteresis band of 0, 25, 50 or
100 mV, and a level change within run time counts toward the glitch-seen mark; undriven, the pin is where the termination in
effect takes it. Nothing else changes. The raw level of a disabled channel does not move, and no change of it counts. -/
def Obligations.LevelFollowsTheInput : Prop :=
  (∀ (s : State) (c : Fin 16) (input : ProbeInput), levelOf s.pfe.enabled c = false →
    exec (.levelChange c input) s = .next { s with pfe := { s.pfe with inputs := s.pfe.inputs.set c input } }) ∧
  ∀ (s : State) (c : Fin 16) (input : ProbeInput), s.sul.resetHeld = false → levelOf s.pfe.enabled c = true →
    let g := s.pfe.groupOf c
    let threshold := 1000 * max (-5000) (min 5200 (-5000 + 40 * ((g.code.getD 0).toNat : Int) + 2 * g.trim))
    let band : Int := 1000 * (match g.hysteresis with
      | .mV0 => 0
      | .mV25 => 25
      | .mV50 => 50
      | .mV100 => 100)
    let compared (v : Int) := if threshold + band / 2 < v then true
      else if v < threshold - band / 2 then false
      else levelOf s.pfe.raw c
    let level := match input with
      | .driven v => compared v
      | .undriven v =>
        if levelOf s.pfe.pullUp c then true
        else if levelOf s.pfe.pullDown c then false
        else if levelOf s.pfe.keeper c then levelOf s.pfe.raw c
        else compared v
    let counted := level ≠ levelOf s.pfe.raw c ∧ s.tau.runTime.isSome = true ∧ g.glitchDetection = true
    ∃ t : State, exec (.levelChange c input) s = .next t ∧
      (∀ d : Fin 16, levelOf t.pfe.raw d = if d = c then level else levelOf s.pfe.raw d) ∧
      (∀ d : Fin 16, levelOf t.pfe.changedOnce d = true ↔ levelOf s.pfe.changedOnce d = true ∨ (d = c ∧ counted)) ∧
      (∀ d : Fin 16, levelOf t.pfe.glitchSeen d = true ↔
        levelOf s.pfe.glitchSeen d = true ∨ (d = c ∧ counted ∧ levelOf s.pfe.changedOnce c = true)) ∧
      t = { s with pfe := { s.pfe with
        inputs := s.pfe.inputs.set c input, raw := t.pfe.raw, changedOnce := t.pfe.changedOnce,
        glitchSeen := t.pfe.glitchSeen } }

/-! ### Samples -/

/-- R19, R28, R29, R30: a due sample is taken: the next index rises, the counts and marks clear, the word's levels become
the last-sample levels, unless the sample ended the run; and nothing that sampling leaves alone changes. After the samples
due at a tick are taken none is due, and the next sample index is the first above stack time, unless the run has ended. -/
def Obligations.DueSamplesAreTaken : Prop :=
  (∀ (s : State) (r : RunTime), s.active = true → s.tau.runTime = some r →
    r.nextSample * s.divider ≤ r.stackTime s.tau.rateFactor →
    ∃ t : State, exec .sample s = .next t ∧ t.still = s.still ∧ t.pfe.changedOnce = 0 ∧ t.pfe.glitchSeen = 0 ∧
      (t.run.state.hasSegment = true → s.run.state.hasSegment = true) ∧
      (t.run.state.hasSegment = true →
        t.tau.runTime = some { r with nextSample := r.nextSample + 1 } ∧ t.pfe.lastLevels = some s.pfe.currentLevels)) ∧
  (∀ s : State, 0 < s.divider → s.takeAllDue.sampleDue = false ∧
    (s.takeAllDue.tau.runTime = none ∨
      s.takeAllDue.tau.runTime = s.tau.runTime.map (fun r =>
        { r with nextSample := max r.nextSample (r.stackTime s.tau.rateFactor / s.divider + 1) })))

/-- R60, R61, R62, R65, R66, R70, with R41, R50 and R67: what a sample that takes no trigger does to the store. One that joins
an open entry of its kind below the count limit (for LEVELS with its levels and no glitch on either side) commits nothing, and
the open entry and the record count one more sample. One that does not join commits the open entry at the write position and
begins an entry of its own: into a ring with room the retained count rises; into a full one the oldest entry goes, and the
log keeps no record of the segment that starts before the new first retained sample time. The commit that brings PREFILL to
its depth moves it to PRETRIG, and the sequencer enters level 0; the one that fills the region in POSTTRIG closes the segment
with FILLED, and the sample opens the next, with drives released, qualifier on and fired mark clear, and the sequencer at level
0 unless it waits in PREFILL (R77, R91 to R93), or the run ends; the sequencer evaluates the sample from there. A sample that finds the open entry empty, the first of a segment, begins it and commits nothing. -/
def Obligations.SampleJoinsOrCommits : Prop :=
  (∀ (s : State) (r : RunTime) (g : SegmentRecord) (start : Nat) (e : Entry), s.active = true → s.tau.runTime = some r →
    r.nextSample * s.divider ≤ r.stackTime s.tau.rateFactor → s.openRecord? = some g →
    s.cst.openEntry = some { start := start, holding := some e } →
    let word := s.pfe.currentLevels
    let glitch := s.pfe.glitchSeen
    let joins : Prop := e.count < 16777216 ∧
      (if s.tsq.qualifier then e.data = .levels word 0 ∧ glitch = 0 else e.data = .gap)
    let began : Entry := { data := if s.tsq.qualifier then .levels word glitch else .gap, count := 1 }
    let store := Memory.write s.cst.store g.writePosition e
    let slots := if g.writePosition % 1024 = 0 then
        Memory.write s.cst.checkpoints (g.writePosition / 1024) { segment := g.index, start := start }
      else s.cst.checkpoints
    let unmarked (x : SegmentRecord) : SegmentRecord := { x with logLost := false }
    let changed (f : SegmentRecord → SegmentRecord) : List SegmentRecord :=
      s.run.table.map (fun x => unmarked (if x.index = g.index then f x else x))
    let next := r.nextSample + 1
    let atLevel0 (q : Tsq) : Tsq :=
      { q with level := 0, counter := q.program[(0 : Fin 8)].count, dwell := 0, running := true }
    let arrived := (s.formWord.arrive r.nextSample word glitch).1
    ∃ t : State, exec .sample s = .next t ∧
      (joins → (s.run.state ≠ .pretrig → t.run.state = s.run.state) ∧
        (t.run.state = s.run.state →
          t.cst = { s.cst with openEntry := some { start := start, holding := some { e with count := e.count + 1 } } } ∧
          t.run.table.map unmarked = changed (fun x => { x with nextSample := next }))) ∧
      (¬joins → g.retained < g.regionSize →
        (s.run.state = .prefill → (∀ f : RunFigures, s.run.figures = some f → g.retained + 1 ≠ f.depth) →
          t.run.state = .prefill) ∧
        (∀ f : RunFigures, s.run.state = .prefill → s.run.figures = some f → g.retained + 1 = f.depth →
          (t.run.state = .pretrig ∨ t.run.state = .posttrig) ∧ t.tsq.running = true ∧ arrived.tsq = atLevel0 s.tsq ∧
          ∃ i : SequencerInputs, { t.tsq with fired := s.tsq.fired } = (atLevel0 s.tsq).evaluate i) ∧
        (s.run.state = .posttrig → (∀ f : RunFigures, s.run.figures = some f → g.retained + 1 ≠ g.regionSize) →
          t.run.state = .posttrig) ∧
        ((s.run.state = .posttrig → (∀ f : RunFigures, s.run.figures = some f → g.retained + 1 ≠ g.regionSize)) →
          (s.run.state = .posttrig ∨ t.run.state ≠ .posttrig) →
          t.cst = { store := store, openEntry := some { start := r.nextSample, holding := some began }
                    checkpoints := slots } ∧
          t.run.table.map unmarked = changed (fun x => { x with retained := x.retained + 1, nextSample := next }))) ∧
      (¬joins → g.regionSize ≤ g.retained → s.run.state = .prefill ∨ s.run.state = .pretrig → t.run.state = s.run.state →
        let first := g.firstSample + entryCountAt s.cst.store g.firstPosition
        t.cst = { store := store, openEntry := some { start := r.nextSample, holding := some began }
                  checkpoints := slots } ∧
        t.run.table.map unmarked = changed (fun x =>
          { x with firstPosition := g.positionAfter 1, firstSample := first, nextSample := next }) ∧
        (∀ x ∈ t.log.records, x.content.segment = g.index → first * s.divider ≤ x.content.startTime)) ∧
      (∀ f : RunFigures, ¬joins → s.run.state = .posttrig → s.run.figures = some f → g.retained + 1 = g.regionSize →
        let closed := changed (fun x =>
          { x with retained := x.retained + 1, state := .closed, closeReason := some .filled })
        t.cst.store = store ∧ t.cst.checkpoints = slots ∧
        (g.index + 1 < f.segments → (∀ x ∈ s.run.table, x.index ≠ g.index + 1) →
          let opened : SegmentRecord :=
            { index := g.index + 1, state := .openPre, regionFirst := (g.index + 1) * f.regionSize,
              regionSize := f.regionSize, firstPosition := (g.index + 1) * f.regionSize, firstSample := r.nextSample,
              nextSample := next, retained := 0, triggerPosition := none, ownTrigger := none, source := .none,
              reference := none, closeReason := none, shortPre := false, unaligned := !s.tau.locked, refSwitch := false,
              noticeDropped := false, logLost := false, recovered := false, maxCorrection := 0 }
          let entered : Entry := { data := .levels word glitch, count := 1 }
          t.cst.openEntry = some { start := r.nextSample, holding := some entered } ∧
          t.run.table.length = s.run.table.length + 1 ∧
          (let fresh : Tsq := { s.tsq with drives := 0, qualifier := true, fired := false, running := false }
           (s.run.setup.prefillWait = true → 0 < f.depth →
             t.run.state = .prefill ∧ arrived.tsq = fresh ∧ t.tsq = fresh) ∧
           (s.run.setup.prefillWait = false ∨ f.depth = 0 → arrived.tsq = atLevel0 fresh ∧
             ∃ i : SequencerInputs, { t.tsq with fired := false } = (atLevel0 fresh).evaluate i)) ∧
          (t.run.state ≠ .posttrig →
            t.run.state = (if s.run.setup.prefillWait = true ∧ 0 < f.depth then .prefill else .pretrig) ∧
            t.run.table.map unmarked = closed ++ [opened])) ∧
        (f.segments ≤ g.index + 1 →
          t.run.state = .idle ∧ t.tau.runTime = none ∧ t.cst.openEntry = none ∧ t.run.table.map unmarked = closed))) ∧
  (∀ (s : State) (r : RunTime) (g : SegmentRecord) (start : Nat), s.active = true → s.tau.runTime = some r →
    r.nextSample * s.divider ≤ r.stackTime s.tau.rateFactor → s.openRecord? = some g →
    s.cst.openEntry = some { start := start, holding := none } →
    let began : Entry :=
      { data := if s.tsq.qualifier then .levels s.pfe.currentLevels s.pfe.glitchSeen else .gap, count := 1 }
    let unmarked (x : SegmentRecord) : SegmentRecord := { x with logLost := false }
    ∃ t : State, exec .sample s = .next t ∧ (s.run.state ≠ .pretrig → t.run.state = s.run.state) ∧
      (t.run.state = s.run.state →
        t.cst = { s.cst with openEntry := some { start := r.nextSample, holding := some began } } ∧
        t.run.table.map unmarked =
          s.run.table.map (fun x => unmarked (if x.index = g.index then { x with nextSample := r.nextSample + 1 } else x))))

/-- R43, R45, R46, R64, R170, R66: the trigger RUN takes at sample t. The open entry is committed if it holds samples, the
pre-trigger cut is made, the trigger entry begins at the position after the newest retained entry, the record keeps the
trigger, the checkpoints of discarded entries go, and the advances are LOG's to take. A LOCAL trigger posts its NOTICE: it
joins a queue with room; at a full one it takes an entry freed at this tick from the newest DONE that took one, else from the
STATUS that did, and is dropped, with NOTICE_DROPPED, where there is none (the order of R170's claimants, in the model's form,
log 19); it is dropped so after a DUPLICATE_ID, and a station strapped 7 discards it. At a sample of PRETRIG, TSQ's fire or a pending remote fire takes
that trigger, once the decoder units and the comparators have taken the sample and TSQ has evaluated it (R88, R48, R49); and
at every sample LOG then takes the records it completes and the advances of its commits and its cut (R102, R122, R127). That
the STATUS of a trigger is posted before the NOTICE, and before LOG takes the records, is the model's choice (log 18), and so
is the run state those records meet (log 40). -/
def Obligations.TriggerIsTaken : Prop :=
  (∀ (s : State) (g : SegmentRecord) (f : RunFigures) (o : OpenEntry) (t : Nat) (word glitch : Levels)
    (source : TriggerSource), s.openRecord? = some g → s.run.figures = some f → s.cst.openEntry = some o →
    (∀ x ∈ s.run.table, x.index = g.index → x = g) →
    let u := s.takeTrigger t word glitch source
    let k := g.committed s.cst.store o
    let m := committedStore s.cst.store g o
    let gone := k.oldestPositions (k.retained - f.depth)
    let v : State := { s with
      run := { s.run with
        state := .posttrig, pendingRemote := false
        table := s.run.table.map (fun x => if x.index = g.index then g.afterTrigger s.cst.store o f t source else x) }
      cst := { store := m, checkpoints := u.1.cst.checkpoints
               openEntry := some { start := t, holding := some { data := .levels word glitch, count := 1 } } }
      tsq := { s.tsq with fired := true } }
    (∀ slot : Nat, Memory.read u.1.cst.checkpoints slot =
      if slot * 1024 ∈ gone then none else Memory.read (committedSlots s.cst.checkpoints g o) slot) ∧
    u.1 = (match source with
      | .local => v.postStatus.postNotice g.index (t * f.divider)
      | _ => v.postStatus) ∧
    u.2 = (if o.holding ≠ none ∧ g.regionSize ≤ g.retained then
        [{ segment := g.index, firstSample := k.firstSample, runState := s.run.state }] else []) ++
      (if f.depth < k.retained then
        [{ segment := g.index, firstSample := (k.cut m f.depth).firstSample, runState := .posttrig }] else [])) ∧
  (∀ (s : State) (i time : Nat),
    let dropped : State := { s with run := { s.run with
      table := s.run.table.map (fun x => if x.index = i then { x with noticeDropped := true } else x) } }
    let notice : QueueEntry :=
      { message := .notice i time, underTransmission := false, resend := false, tookFreedEntry := false }
    let yields (kind : Nat) (e : QueueEntry) : Prop :=
      e.tookFreedEntry = true ∧ e.underTransmission = false ∧ e.message.kind = kind
    (s.lnk.transmitter = .silent → s.postNotice i time = if s.sul.strap = 7 then s else dropped) ∧
    (s.lnk.transmitter ≠ .silent →
      (s.lnk.queue.length < 8 →
        s.postNotice i time = { s with lnk := { s.lnk with queue := s.lnk.queue ++ [notice] } }) ∧
      (8 ≤ s.lnk.queue.length →
        (∀ (a b : List QueueEntry) (e : QueueEntry) (x : Done), s.lnk.queue = a ++ e :: b → e.message = .done x →
          yields 11 e → (∀ y ∈ b, ¬yields 11 y) → s.postNotice i time = { s with lnk := { s.lnk with
            queue := a ++ b ++ [notice], heldDones := x :: s.lnk.heldDones } }) ∧
        (∀ (a b : List QueueEntry) (e : QueueEntry), s.lnk.queue = a ++ e :: b → yields 9 e → (∀ y ∈ b, ¬yields 9 y) →
          (∀ y ∈ s.lnk.queue, ¬yields 11 y) → s.postNotice i time = { s with lnk := { s.lnk with
            queue := a ++ b ++ [notice], statusOwed := true } }) ∧
        ((∀ e ∈ s.lnk.queue, ¬yields 11 e ∧ ¬yields 9 e) → s.postNotice i time = dropped)))) ∧
  (∀ (s : State) (r : RunTime), s.active = true → s.tau.runTime = some r →
    r.nextSample * s.divider ≤ r.stackTime s.tau.rateFactor →
    let word := s.pfe.currentLevels
    let glitch := s.pfe.glitchSeen
    let a := (s.formWord.arrive r.nextSample word glitch).1
    let c : SampleContext :=
      { index := r.nextSample, divider := s.divider, segment := a.openIndex?.getD 0, word := word
        last := s.pfe.lastLevels.getD word, glitch := glitch }
    let i : SequencerInputs :=
      { word := word, last := s.pfe.lastLevels.getD word, hits := hitsOf s.fc.settings (s.dec.sampleRecords c)
        observed := s.lnk.observed }
    let triggers : Prop := a.run.state = .pretrig ∧ (a.tsq.fires i = true ∨ a.run.pendingRemote = true)
    let d : State := { a with
      dec := s.dec.afterSample c, fc := { s.fc with sticky := s.fc.sticky ||| i.hits }, tsq := a.tsq.evaluate i }
    let source : TriggerSource := if a.tsq.fires i then .local else .remote
    let unmarked (x : SegmentRecord) : SegmentRecord := { x with logLost := false }
    (s.sampleBreaks (if s.tsq.qualifier then .levels word glitch else .gap) = false → a = s.formWord) ∧
    (a.run.state.hasSegment = true → ∃ t : State, exec .sample s = .next t ∧ t.dec = d.dec ∧ t.fc = d.fc ∧
      (∃ (k : State) (advances : List Advance),
        (¬triggers → advances = [] ∧
          k = d.enterSample r.nextSample (if a.tsq.qualifier then .levels word glitch else .gap)) ∧
        (triggers → (k, advances) = d.takeTrigger r.nextSample word glitch source) ∧
        let first := ((if s.openIndex? = a.openIndex? then s.openRecord? else a.openRecord?).map
          SegmentRecord.firstSample).getD 0
        let l := k.logSample a.run.state first (s.dec.sampleRecords c)
          ((s.formWord.arrive r.nextSample word glitch).2 ++ advances)
        t = { l with pfe := { l.pfe with lastLevels := some word } }) ∧
      (¬triggers → t.run.state = a.run.state ∧ t.tsq = d.tsq ∧ t.lnk = a.lnk) ∧
      (triggers →
        let u := (d.takeTrigger r.nextSample word glitch source).1
        t.run.state = .posttrig ∧ t.tsq = { d.tsq with fired := true } ∧ t.cst = u.cst ∧ t.lnk = u.lnk ∧
          t.run.table.map unmarked = u.run.table.map unmarked)))

/-! ### The sequencer -/

/-- R78, R79, R81, R82: when a pattern term, an edge term and a flag term hold, which terms a condition selects (with R80's,
one for each comparator listed), and how it joins them. -/
def Obligations.ConditionsTestTheirTerms : Prop :=
  (∀ (p : PatternTerm) (w : Levels),
    patternHolds p w = true ↔ ∀ c : Fin 16, levelOf p.care c = true → levelOf w c = levelOf p.value c) ∧
  (∀ (e : EdgeTerm) (last w : Levels),
    edgeHolds e last w = true ↔ ∃ c : Fin 16,
      (levelOf e.rise c = true ∧ levelOf last c = false ∧ levelOf w c = true) ∨
        (levelOf e.fall c = true ∧ levelOf last c = true ∧ levelOf w c = false)) ∧
  (∀ (f : FlagTerm) (observed : FlagLines),
    flagHolds f observed = true ↔
      ∀ l : Fin 4, f.care.getLsbD l.val = true → observed.getLsbD l.val = f.value.getLsbD l.val) ∧
  (∀ (c : Condition) (i : SequencerInputs),
    (∀ b : Bool, b ∈ conditionTerms c i ↔
      (∃ p : PatternTerm, c.pattern = some p ∧ b = patternHolds p i.word) ∨
        (∃ e : EdgeTerm, c.edge = some e ∧ b = edgeHolds e i.last i.word) ∨
        (∃ f : FlagTerm, c.flag = some f ∧ b = flagHolds f i.observed) ∨
        (∃ k : Fin 4, c.hits.getLsbD k.val = true ∧ b = i.hits.getLsbD k.val)) ∧
    (c.combine = .all → (conditionHolds c i = true ↔ ∀ b ∈ conditionTerms c i, b = true)) ∧
      (c.combine = .any → (conditionHolds c i = true ↔ ∃ b ∈ conditionTerms c i, b = true)))

/-- R83 to R88: what a running sequencer does at a sample: the proceed action when the count is reached, else the escape
action at the escape condition or the dwell limit, else the counts alone; and it hands RUN a fire where the action taken has
fire set and the fired mark is clear. R77, R87, R89, R90: an action enters its level, loading N and clearing the dwell count,
and sets drives and qualifier; program, fired mark and running stand. A stopped sequencer evaluates nothing (R91). -/
def Obligations.SequencerEvaluates : Prop :=
  (∀ (t : Tsq) (i : SequencerInputs), t.running = true →
    let r := t.program[t.level]
    let counter := if conditionHolds r.proceed i then t.counter - 1 else if r.consecutive then r.count else t.counter
    let dwell := if r.dwellLimit = 0 then t.dwell else t.dwell + 1
    let reached := conditionHolds r.proceed i = true ∧ counter = 0
    let escapes := conditionHolds r.escape i = true ∨ (0 < r.dwellLimit ∧ dwell = r.dwellLimit)
    (reached → t.evaluate i = t.act r.proceedAction) ∧
      (¬reached → escapes → t.evaluate i = t.act r.escapeAction) ∧
      (¬reached → ¬escapes → t.evaluate i = { t with counter := counter, dwell := dwell }) ∧
      (t.fires i = true ↔ t.fired = false ∧
        ((reached ∧ r.proceedAction.fire = true) ∨ (¬reached ∧ escapes ∧ r.escapeAction.fire = true)))) ∧
  (∀ (t : Tsq) (i : SequencerInputs), t.running = false → t.evaluate i = t ∧ t.fires i = false) ∧
  (∀ (t : Tsq) (a : Action),
    (t.act a).level = a.next ∧ (t.act a).counter = t.program[a.next].count ∧ (t.act a).dwell = 0 ∧
      (∀ l : Fin 4, (t.act a).drives.getLsbD l.val =
        match a.flags.get l with
        | .keep => t.drives.getLsbD l.val
        | .assert => true
        | .release => false) ∧
      (t.act a).qualifier = (match a.qualifier with
        | .keep => t.qualifier
        | .on => true
        | .off => false) ∧
      (t.act a).program = t.program ∧ (t.act a).fired = t.fired ∧ (t.act a).running = t.running)

/-! ### The decoders -/

/-- R101, R103 to R108, R118: a UART unit at a sample, phase by phase, the records it completes, and what the flush completes.
That a glitch in HUNT or IDLE_LINE leaves what the unit has seen as it was is the model's (log 39), and so is the saturation of
a flushed UART_BREAK's value at 4,294,967,295, which R108 states for a completed break and R118 for none (log 45). -/
def Obligations.UartFramesItsCharacters : Prop :=
  (∀ (bits : List Bool) (k : Nat), (natLsbFirst bits).testBit k = (bits[k]?).getD false) ∧
  (∀ (u : UartSettings) (d : Fin 4) (c : SampleContext) (f : UartFraming) (seen : Bool),
    let bit := if u.idle = .high then levelOf c.word u.channel else !levelOf c.word u.channel
    let now := levelOf c.glitch u.channel
    let glitch := seen || now
    let reads (j : Nat) : Bool := c.index == f.first + (2 * j + 1) * u.bitPeriod / 2
    let p := if u.parity = .none then 0 else 1
    let ones := ((f.bits ++ [bit]).filter id).length
    let made (kind : RecordKind) (value bitCount : Nat) (flags : RecordFlags) : DecodeRecord :=
      { segment := c.segment, decoder := d, kind := kind, value := BitVec.ofNat 32 value, value2 := none
        bitCount := bitCount, startTime := f.first * c.divider, endTime := (c.index + 1) * c.divider, flags := flags }
    let character (framing truncated glitch : Bool) : DecodeRecord := made .uartChar (natLsbFirst f.bits) f.bits.length
      { parity := f.parityError, framing := framing, nack := false, read := false, truncated := truncated
        glitch := glitch, clipped := false }
    let broken (length : Nat) (truncated glitch : Bool) : DecodeRecord := made .uartBreak (min 4294967295 length) 32
      { parity := false, framing := false, nack := false, read := false, truncated := truncated, glitch := glitch
        clipped := false }
    let x := uartSample u d c f seen
    (f.phase = .hunt → x = ({ f with phase := if bit then .idleLine else .hunt }, seen, [])) ∧
    (f.phase = .idleLine → x = if bit then (f, seen, []) else
      ({ phase := .startCheck, first := c.index, bits := [], parityBit := false, parityError := false, stopsRead := 0 },
        now, [])) ∧
    (f.phase = .startCheck →
      x = (if reads 0 then { f with phase := if bit then .idleLine else .data } else f, glitch, [])) ∧
    (f.phase = .data → x = (if reads (f.bits.length + 1) then
        { f with
          bits := f.bits ++ [bit]
          phase := if f.bits.length + 1 < u.dataBits then .data else if u.parity = .none then .stop else .parity }
      else f, glitch, [])) ∧
    (f.phase = .parity → x = (if reads (u.dataBits + 1) then
        { f with
          phase := .stop, parityBit := bit
          parityError := match u.parity with
            | .none => false
            | .even => ones % 2 == 1
            | .odd => ones % 2 == 0 }
      else f, glitch, [])) ∧
    (f.phase = .stop →
      let here := reads (u.dataBits + p + 1 + f.stopsRead)
      let isBreak : Prop := f.stopsRead = 0 ∧ (∀ b ∈ f.bits, b = false) ∧ f.parityBit = false
      (here = false → x = (f, glitch, [])) ∧
      (here = true → bit = true → f.stopsRead + 1 < u.stopBits →
        x = ({ f with stopsRead := f.stopsRead + 1 }, glitch, [])) ∧
      (here = true → bit = true → u.stopBits ≤ f.stopsRead + 1 →
        x = ({ f with phase := .idleLine }, glitch, [character false false glitch])) ∧
      (here = true → bit = false → isBreak → x = ({ f with phase := .breakWait }, glitch, [])) ∧
      (here = true → bit = false → ¬isBreak →
        x = ({ f with phase := .hunt }, glitch, [character true false glitch]))) ∧
    (f.phase = .breakWait → x =
      if bit then ({ f with phase := .idleLine }, glitch, [broken (c.index - f.first) false glitch])
      else (f, glitch, [])) ∧
    (∀ running : Bool,
      let unit : DecodeUnit := { settings := .uart u, running := running, framing := .uart f, glitchSeen := seen }
      unit.sample d c =
        (if running then ({ unit with framing := .uart x.1, glitchSeen := x.2.1 }, x.2.2) else (unit, [])) ∧
      unit.flushRecords d c =
        if running then
          match f.phase with
          | .data => if f.bits = [] then [] else [character false true seen]
          | .parity => [character false true seen]
          | .stop => [character false true seen]
          | .breakWait => [broken (c.index + 1 - f.first) true seen]
          | _ => []
        else []))

/-- R101, R109 to R116, R118: an SPI unit and an I2C unit at a sample, the records they complete, and what the flush
completes. That a glitch is noted also where no bit has been collected is the model's (log 39). -/
def Obligations.SpiAndI2cFrameTheirWords : Prop :=
  (∀ (bits : List Bool) (k : Nat), (natMsbFirst bits).testBit k = ((bits.reverse)[k]?).getD false) ∧
  (∀ (u : SpiSettings) (c : SampleContext), sawGlitch (.spi u) c = true ↔
    ∃ k : Fin 16, (k = u.clock ∨ u.select = some k ∨ u.dataOut = some k ∨ u.dataIn = some k) ∧
      levelOf c.glitch k = true) ∧
  (∀ (u : I2cSettings) (c : SampleContext), sawGlitch (.i2c u) c = true ↔
    ∃ k : Fin 16, (k = u.scl ∨ k = u.sda) ∧ levelOf c.glitch k = true) ∧
  (∀ (u : SpiSettings) (d : Fin 4) (c : SampleContext) (f : SpiFraming) (seen : Bool),
    let active (w : Levels) : Bool := match u.select with
      | none => true
      | some k => levelOf w k == (u.polarity == .activeHigh)
    let before := levelOf c.last u.clock
    let now := levelOf c.word u.clock
    let edge : Bool := match u.capture with
      | .leading => before == u.clockIdle && now != u.clockIdle
      | .trailing => before != u.clockIdle && now == u.clockIdle
    let glitched := sawGlitch (.spi u) c
    let line (ch : Option (Fin 16)) : Bool := (ch.map (levelOf c.word)).getD false
    let value (bits : List Bool) : Nat := if u.order = .msbFirst then natMsbFirst bits else natLsbFirst bits
    let word (g : SpiFraming) (truncated glitch : Bool) : DecodeRecord :=
      { segment := c.segment, decoder := d, kind := .spiWord
        value := BitVec.ofNat 32
          (if u.dataOut.isSome then value (g.bits.map Prod.fst) else value (g.bits.map Prod.snd))
        value2 := if u.dataOut.isSome ∧ u.dataIn.isSome then some (BitVec.ofNat 32 (value (g.bits.map Prod.snd))) else none
        bitCount := g.bits.length, startTime := g.first * c.divider, endTime := (c.index + 1) * c.divider
        flags := { parity := false, framing := false, nack := false, read := false, truncated := truncated
                   glitch := glitch, clipped := false } }
    let g : SpiFraming := if active c.last then f else { f with bits := [] }
    let taken : SpiFraming :=
      { first := if g.bits = [] then c.index else g.first, bits := g.bits ++ [(line u.dataOut, line u.dataIn)] }
    let glitch := if g.bits = [] then glitched else seen || glitched
    let x := spiSample u d c f seen
    (glitched = true ↔ ∃ k : Fin 16, levelOf c.glitch k = true ∧
      (k = u.clock ∨ u.select = some k ∨ u.dataOut = some k ∨ u.dataIn = some k)) ∧
    (active c.word = false →
      x = ({ f with bits := [] }, seen || glitched, if f.bits = [] then [] else [word f true (seen || glitched)])) ∧
    (active c.word = true → edge = false → x = (g, seen || glitched, [])) ∧
    (active c.word = true → edge = true → taken.bits.length < u.width → x = (taken, glitch, [])) ∧
    (active c.word = true → edge = true → u.width ≤ taken.bits.length →
      x = ({ taken with bits := [] }, glitch, [word taken false glitch])) ∧
    (∀ running : Bool,
      let unit : DecodeUnit := { settings := .spi u, running := running, framing := .spi f, glitchSeen := seen }
      unit.sample d c =
        (if running then ({ unit with framing := .spi x.1, glitchSeen := x.2.1 }, x.2.2) else (unit, [])) ∧
      unit.flushRecords d c = if running = true ∧ f.bits ≠ [] then [word f true seen] else [])) ∧
  (∀ (u : I2cSettings) (d : Fin 4) (c : SampleContext) (f : I2cFraming) (seen : Bool),
    let sclBefore := levelOf c.last u.scl
    let scl := levelOf c.word u.scl
    let sdaBefore := levelOf c.last u.sda
    let sda := levelOf c.word u.sda
    let glitched := sawGlitch (.i2c u) c
    let glitch := seen || glitched
    let made (kind : RecordKind) (first value bitCount : Nat) (flags : RecordFlags) : DecodeRecord :=
      { segment := c.segment, decoder := d, kind := kind, value := BitVec.ofNat 32 value, value2 := none
        bitCount := bitCount, startTime := first * c.divider, endTime := (c.index + 1) * c.divider, flags := flags }
    let flags (nack read truncated glitch : Bool) : RecordFlags :=
      { parity := false, framing := false, nack := nack, read := read, truncated := truncated, glitch := glitch
        clipped := false }
    let cut (glitch : Bool) : List DecodeRecord := if f.bits = [] then [] else
      [made (if f.phase = .addrByte then .i2cAddress else .i2cByte) f.first (natMsbFirst f.bits) f.bits.length
        (flags false false true glitch)]
    let condition (kind : RecordKind) : DecodeRecord := made kind c.index 0 1 (flags false false false glitched)
    let x := i2cSample u d c f seen
    (glitched = true ↔ levelOf c.glitch u.scl = true ∨ levelOf c.glitch u.sda = true) ∧
    (sclBefore = true → scl = true → sdaBefore = true → sda = false →
      x = ({ f with phase := .addrByte, bits := [] }, glitch,
        cut glitch ++ [condition (if f.phase = .busFree then .i2cStart else .i2cRestart)])) ∧
    (sclBefore = true → scl = true → sdaBefore = false → sda = true →
      x = ({ f with phase := .busFree, bits := [] }, glitch, cut glitch ++ [condition .i2cStop])) ∧
    (scl = false ∨ (sclBefore = true ∧ sda = sdaBefore) → x = (f, glitch, [])) ∧
    (sclBefore = false → scl = true →
      (f.phase = .busFree → x = (f, glitch, [])) ∧
      (f.phase ≠ .busFree →
        (f.bits = [] → x = ({ f with first := c.index, bits := [sda] }, glitched, [])) ∧
        (f.bits ≠ [] → f.bits.length < 8 → x = ({ f with bits := f.bits ++ [sda] }, glitch, [])) ∧
        (8 ≤ f.bits.length → x = ({ f with phase := .dataByte, bits := [] }, glitch,
          [if f.phase = .addrByte then
            made .i2cAddress f.first (natMsbFirst (f.bits.take 7)) 7 (flags sda (f.bits.getD 7 false) false glitch)
          else made .i2cByte f.first (natMsbFirst f.bits) 8 (flags sda false false glitch)])))) ∧
    (∀ running : Bool,
      let unit : DecodeUnit := { settings := .i2c u, running := running, framing := .i2c f, glitchSeen := seen }
      unit.sample d c =
        (if running then ({ unit with framing := .i2c x.1, glitchSeen := x.2.1 }, x.2.2) else (unit, [])) ∧
      unit.flushRecords d c = if running = true ∧ f.phase ≠ .busFree then cut seen else []))

/-- R117, R100, R101, R118: a PARALLEL unit's record at a qualifying edge, and none elsewhere. Its glitch flag is set where a
channel of its assignment glitched, and no other flag is. A running unit hands that record over; its state does not move, and
it flushes nothing. -/
def Obligations.ParallelWordAtAQualifyingEdge : Prop :=
  ∀ (u : ParallelSettings) (d : Fin 4) (c : SampleContext),
    let before := levelOf c.last u.clock
    let now := levelOf c.word u.clock
    let clocked := match u.edge with
      | .rise => before = false ∧ now = true
      | .fall => before = true ∧ now = false
      | .both => before ≠ now
    let qualified := match u.qualifier with
      | some q => levelOf c.word q = u.qualifyingLevel
      | none => True
    (clocked ∧ qualified → ∃ r : DecodeRecord, parallelSample u d c = [r] ∧ r.kind = .parWord ∧ r.decoder = d ∧
      r.segment = c.segment ∧ r.value2 = none ∧ r.bitCount = u.data.length ∧ r.startTime = c.index * c.divider ∧
      r.endTime = (c.index + 1) * c.divider ∧
      (r.flags.glitch = true ↔
        ∃ k : Fin 16, (k = u.clock ∨ k ∈ u.data ∨ u.qualifier = some k) ∧ levelOf c.glitch k = true) ∧
      r.flags = { parity := false, framing := false, nack := false, read := false, truncated := false
                  glitch := r.flags.glitch, clipped := false } ∧
      (∀ k : Nat, k < 32 → r.value.getLsbD k = ((u.data[k]?).map (levelOf c.word)).getD false)) ∧
    (¬(clocked ∧ qualified) → parallelSample u d c = []) ∧
    (∀ (running seen : Bool) (framing : Framing),
      let unit : DecodeUnit := { settings := .parallel u, running := running, framing := framing, glitchSeen := seen }
      unit.sample d c = (unit, if running then parallelSample u d c else []) ∧ unit.flushRecords d c = [])

/-! ### The log and the comparators -/

/-- R122, R123, R125: a record takes the next sequence number and is clipped to the first retained sample time of its segment;
once the counter is exhausted every record is dropped and counted as lost. R124, R125, R126: where a numbered and clipped
record goes, and what a trim removes: exactly the segment's records that start before the new first retained sample time.
R66, R127: LOG takes the records of a sample and the advances it causes, each in its own order; how many advances come before
a record is open (log 10), and a record meets the first retained sample and the run state of the last advance taken (log 40). -/
def Obligations.LogPlacesAndTrims : Prop :=
  (∀ (s : State) (rs : RunState) (first : Nat) (r : DecodeRecord),
    (s.log.counter < 2 ^ 32 →
      let clipped : DecodeRecord := if r.startTime < first * s.divider then
          { r with startTime := first * s.divider, flags := { r.flags with clipped := true } }
        else r
      s.logRecord rs first r =
        State.placeRecord { s with log := { s.log with counter := s.log.counter + 1 } } rs
          { sequence := s.log.counter, content := clipped }) ∧
    (2 ^ 32 ≤ s.log.counter →
      let t := s.logRecord rs first r
      t.log.records = s.log.records ∧ t.log.counter = s.log.counter ∧
        (∀ d : Fin 4, t.log.lost.get d =
          if d = r.decoder then min 65535 (s.log.lost.get d + 1) else s.log.lost.get d) ∧
        t.run.table = s.run.table.map (fun g =>
          if s.openIndex? = some g.index ∧ g.index = r.segment then { g with logLost := true } else g) ∧
        t = { s with log := t.log, run := { s.run with table := t.run.table } })) ∧
  (∀ (s : State) (rs : RunState) (r : LogRecord),
    (s.log.records.length < 4096 →
      s.placeRecord rs r = { s with log := { s.log with records := s.log.records ++ [r] } }) ∧
    (4096 ≤ s.log.records.length → (rs = .prefill ∨ rs = .pretrig) → ∀ (a b : List LogRecord) (x : LogRecord),
      s.log.records = a ++ x :: b → s.openIndex? = some x.content.segment →
      (∀ y ∈ a, s.openIndex? ≠ some y.content.segment) →
      s.placeRecord rs r = { s with log := { s.log with records := a ++ b ++ [r] } }) ∧
    (4096 ≤ s.log.records.length →
      ¬((rs = .prefill ∨ rs = .pretrig) ∧ ∃ y ∈ s.log.records, s.openIndex? = some y.content.segment) →
      let t := s.placeRecord rs r
      t.log.records = s.log.records ∧ t.log.counter = s.log.counter ∧
        (∀ d : Fin 4, t.log.lost.get d =
          if d = r.content.decoder then min 65535 (s.log.lost.get d + 1) else s.log.lost.get d) ∧
        t.run.table = s.run.table.map (fun g =>
          if s.openIndex? = some g.index ∧ g.index = r.content.segment then { g with logLost := true } else g) ∧
        t = { s with log := t.log, run := { s.run with table := t.run.table } })) ∧
  (∀ (s : State) (a : Advance),
    (∀ r : LogRecord, r ∈ (s.trimLog a).log.records ↔
      r ∈ s.log.records ∧ ¬(r.content.segment = a.segment ∧ r.content.startTime < a.firstSample * s.divider)) ∧
    (s.trimLog a).log.records.Sublist s.log.records ∧
    s.trimLog a = { s with log := { s.log with records := (s.trimLog a).log.records } }) ∧
  (∀ (s : State) (rs : RunState) (first : Nat) (advances : List Advance),
    s.logSample rs first [] advances = advances.foldl State.trimLog s ∧
    (∀ (r : DecodeRecord) (rest : List DecodeRecord),
      (advances = [] → s.logSample rs first (r :: rest) advances =
        (s.logRecord rs first r).logSample rs first rest []) ∧
      (advances ≠ [] → ∃ n : Nat,
        let taken := advances.take n
        let now := (taken.getLast?.map Advance.runState).getD rs
        let held := (taken.getLast?.map Advance.firstSample).getD first
        s.logSample rs first (r :: rest) advances =
          ((taken.foldl State.trimLog { s with freeCount := s.freeCount + 1 }).logRecord now held r).logSample now held rest
            (advances.drop n))))

/-- R131: a comparator tests a record of its source decoder, of a kind in its kinds mask, that carries the field it selects;
no other gives a hit. R132, R133: the flags of a comparison at width w from its masked operands and its result modulo 2^w;
the ordering, by signedness, is the ordering of the numbers compared; and a hit is an ordering in the accept set. R80: the
hits of some records are those of the comparators that hit for at least one of them. -/
def Obligations.ComparatorFlagsOrderingAndHit : Prop :=
  (∀ (k : Comparator) (rec : DecodeRecord),
    let bit := match rec.kind with
      | .uartChar => 0
      | .uartBreak => 1
      | .spiWord => 2
      | .i2cStart => 3
      | .i2cRestart => 4
      | .i2cAddress => 5
      | .i2cByte => 6
      | .i2cStop => 7
      | .parWord => 8
    let listens : Prop := rec.decoder = k.source ∧ k.kinds.getLsbD bit = true
    (listens → testedField k rec = (match k.field with
      | .value => some rec.value
      | .value2 => rec.value2)) ∧
    (¬listens → testedField k rec = none) ∧ (testedField k rec = none → comparatorHit k rec = false)) ∧
  (∀ (q : Quad Comparator) (records : List DecodeRecord) (i : Fin 4),
    (hitsOf q records).getLsbD i.val = true ↔ ∃ rec ∈ records, comparatorHit (q.get i) rec = true) ∧
  (∀ (k : Comparator) (rec : DecodeRecord) (x : Word), 1 ≤ k.width → k.width ≤ 32 → testedField k rec = some x →
    let w := k.width
    let a := (x.toNat % 2 ^ w) &&& k.mask.toNat
    let b := (k.constant.toNat % 2 ^ w) &&& k.mask.toNat
    let r := (((a : Int) - (b : Int)) % 2 ^ w).toNat
    let signed (n : Nat) : Int := if n.testBit (w - 1) then (n : Int) - 2 ^ w else (n : Int)
    let number (n : Nat) : Int := if k.isSigned then signed n else (n : Int)
    let f := subtractFlags w (maskedOperand w k.mask x) (maskedOperand w k.mask k.constant)
    (f.z = true ↔ r = 0) ∧ f.n = r.testBit (w - 1) ∧ (f.c = true ↔ a < b) ∧
      (f.v = true ↔ ¬(-(2 ^ (w - 1) : Int) ≤ signed a - signed b ∧ signed a - signed b ≤ 2 ^ (w - 1) - 1)) ∧
      (fieldOrdering k x = .lower ↔ number a < number b) ∧ (fieldOrdering k x = .equal ↔ number a = number b) ∧
      (fieldOrdering k x = .higher ↔ number b < number a) ∧
      (comparatorHit k rec = true ↔
        (number a < number b ∧ k.accept.lower = true) ∨ (number a = number b ∧ k.accept.equal = true) ∨
          (number b < number a ∧ k.accept.higher = true)))

/-! ### Flag lines -/

/-- R89, R161, R81: enabled drivers present the drives as they stood at the end of the last tick; and the observed level of
one line changes. Nothing else does. -/
def Obligations.FlagLinesArePresentedAndObserved : Prop :=
  ∀ s : State,
    (s.active = true → s.lnk.driversEnabled = true →
      exec .driverPresent s = .next { s with lnk := { s.lnk with presented := s.lnk.settledDrives } }) ∧
    (s.sul.resetHeld = false → ∀ (line : Fin 4) (asserted : Bool),
      ∃ t : State, exec (.flagLineChange line asserted) s = .next t ∧
        (∀ l : Fin 4, t.lnk.observed.getLsbD l.val = if l = line then asserted else s.lnk.observed.getLsbD l.val) ∧
        t = { s with lnk := { s.lnk with observed := t.lnk.observed } })

/-! ### Requests -/

/-- R39, R53, R51, R52, R67: STOP in IDLE has no effect but the receiver's; in WAIT_START it abandons the start; in a run
the open segment is closed with STOPPED and the run ends: IDLE, run time ended, no open entry, the sequencer stopped with
its drives released and every decoder unit stopped. The close commits an open entry that holds samples, the flush completes
the records of R118, which LOG and the comparators take, and the STATUS then posted (R57) shows the part after it, which is
the model's choice (log 18). -/
def Obligations.StopEndsTheRun : Prop :=
  ∀ (s : State) (source : Station), s.receives = true →
    let u := s.afterFrame { kind := 1, source := source, payload := [] }
    (s.run.state = .idle → exec (.stop source) s = .next u) ∧
    (s.run.state = .waitStart → exec (.stop source) s = .next (State.postStatus { u with
      tau := { s.tau with startPending := false, candidate := false }, tsq := { s.tsq with drives := 0 }
      run := { s.run with state := .idle } })) ∧
    (∀ g : SegmentRecord, s.openRecord? = some g →
      ∃ t : State, exec (.stop source) s = .next t ∧ t.run.state = .idle ∧ t.tau = { s.tau with runTime := none } ∧
        t.pfe = { s.pfe with changedOnce := 0, glitchSeen := 0, lastLevels := none } ∧ t.cst.openEntry = none ∧
        t.tsq.drives = 0 ∧ t.tsq.running = false ∧ t.run.pendingRemote = false ∧
        t.dec.units = s.dec.units.map DecodeUnit.stop ∧
        (∀ x ∈ t.run.table, x.index = g.index → x.state = .closed ∧ x.closeReason = some .stopped) ∧
        t.run.table.length = s.run.table.length ∧ t.ren = s.ren ∧ t.port = s.port ∧ t.sul = s.sul) ∧
    (∀ (g : SegmentRecord) (o : OpenEntry), s.openRecord? = some g → s.cst.openEntry = some o →
      (∀ x ∈ s.run.table, x.index = g.index → x = g) →
      exec (.stop source) s = .next (State.postStatus { u with
        tau := { s.tau with runTime := none }
        pfe := { s.pfe with changedOnce := 0, glitchSeen := 0, lastLevels := none }
        run := { s.run with
          state := .idle, pendingRemote := false
          table := s.run.table.map (fun x => if x.index = g.index then g.closedWith s.cst.store o .stopped else x) }
        cst := { store := committedStore s.cst.store g o, openEntry := none
                 checkpoints := committedSlots s.cst.checkpoints g o }
        tsq := { s.tsq with drives := 0, running := false }
        dec := { s.dec with units := s.dec.units.map DecodeUnit.stop }
        fc := { s.fc with sticky := s.fc.sticky ||| hitsOf s.fc.settings (s.flushedRecords g) }
        log := s.logAfterRun g o }))

/-- R38, R94, R119, R129, R137: a taken ARM empties the collections, loads the profile and waits for the start. That it sets
start-pending at a station that does not emit marks too is the model's reading (log 33). -/
def Obligations.ArmIsTaken : Prop :=
  ∀ (s : State) (source : Station) (profile : Byte) (p : Fin 4) (r : RawProfile), s.receives = true →
    s.run.state = .idle → profile.toNat = p.val → profileOf s.sul.contents p = some r →
    exec (.arm source profile) s = .next (State.postStatus
      { s.afterFrame { kind := 2, source := source, payload := [profile] } with
        run := { s.run with
          state := .waitStart, table := [], activeProfile := p, pendingRemote := false
          figures := some
            { divider := s.run.setup.divider, segments := s.run.setup.segments
              regionSize := 262144 / s.run.setup.segments
              depth := 262144 / s.run.setup.segments * s.run.setup.fraction / 16 } }
        cst := { s.cst with openEntry := none, checkpoints := [] }
        log := { records := [], counter := 0, lost := Quad.replicate 0 }
        fc := { settings := profileComparators r, sticky := 0 }
        tsq :=
          { program := profileProgram r, level := 0, counter := (profileProgram r)[(0 : Fin 8)].count, dwell := 0, drives := 0
            qualifier := true, fired := false, running := false }
        dec := loadDecoders s.pfe.enabled (profileDecoders r)
        ren := { s.ren with
          lanes := profileLanes r, lanesClipped := lanesClipped (profileLanes r)
          view := { s.ren.view with segment := 0, follow := true } }
        tau := { s.tau with startPending := true } })

/-- R38, R36: an ARM outside IDLE is refused with BUSY, and so is a SETUP; an ARM in IDLE that names an absent profile is
refused with NO_PROFILE. Nothing changes but the last refusal, and a STATUS is posted. -/
def Obligations.RefusalsChangeNothingElse : Prop :=
  ∀ (s : State) (source : Station), s.receives = true →
    (∀ profile : Byte, s.run.state ≠ .idle →
      let u := s.afterFrame { kind := 2, source := source, payload := [profile] }
      exec (.arm source profile) s =
        .next (State.postStatus { u with lnk := { u.lnk with lastRefusal := some (.arm, .busy) } })) ∧
    (∀ profile : Byte, s.run.state = .idle → s.armedProfile profile = none →
      let u := s.afterFrame { kind := 2, source := source, payload := [profile] }
      exec (.arm source profile) s =
        .next (State.postStatus { u with lnk := { u.lnk with lastRefusal := some (.arm, .noProfile) } })) ∧
    (∀ (d : Word) (n o a b : Byte), s.run.state ≠ .idle →
      let u := s.afterFrame { kind := 4, source := source, payload := bytesBE 4 d.toNat ++ [n, o, a, b] }
      exec (.setup source d n o a b) s =
        .next (State.postStatus { u with lnk := { u.lnk with lastRefusal := some (.setup, .busy) } }))

/-- R36, R32, R25, R27, R185: a SETUP in IDLE replaces the setup, clamped, and hands the codes to PFE: each group keeps its trim,
hysteresis and glitch detection, the channels of a group whose code changes settle, those of one whose code does not keep
their levels; nothing else changes. -/
def Obligations.SetupIsTakenInIdle : Prop :=
  ∀ (s : State) (source : Station) (d : Word) (n o a b : Byte), s.receives = true → s.run.state = .idle →
    let unchanged (c : Fin 16) : Prop := if c.val < 8 then s.pfe.groupA.code = some a else s.pfe.groupB.code = some b
    let above (c : Fin 16) (v : Int) : Bool := decide (1000 * max (-5000) (min 5200
      (-5000 + 40 * ((if c.val < 8 then a else b).toNat : Int) + 2 * (s.pfe.groupOf c).trim)) < v)
    ∃ raw : Levels,
      (∀ c : Fin 16, levelOf s.pfe.enabled c = false ∨ unchanged c → levelOf raw c = levelOf s.pfe.raw c) ∧
      (∀ c : Fin 16, levelOf s.pfe.enabled c = true → ¬unchanged c → levelOf raw c = (match s.pfe.inputs[c] with
        | .driven v => above c v
        | .undriven v =>
          if levelOf s.pfe.pullUp c then true
          else if levelOf s.pfe.pullDown c then false
          else if levelOf s.pfe.keeper c then levelOf s.pfe.raw c
          else above c v)) ∧
      exec (.setup source d n o a b) s = .next
        { s.afterFrame { kind := 4, source := source, payload := bytesBE 4 d.toNat ++ [n, o, a, b] } with
          run := { s.run with setup :=
            { divider := max 2 (min 1048576 d.toNat), segments := max 1 (min 32 n.toNat), fraction := o.toNat % 16
              prefillWait := o.getLsbD 4, followNotice := o.getLsbD 5, codeA := a, codeB := b } }
          pfe := { s.pfe with
            groupA := { s.pfe.groupA with code := some a }, groupB := { s.pfe.groupB with code := some b }, raw := raw } }

/-- R47, R48: a NOTICE lowers the reference time of the record it names, and leaves a remote fire pending at a following
station that has that segment open in PRETRIG; nothing else changes. R136, R185: a VIEW replaces the view record; nothing else
changes. -/
def Obligations.NoticeAndViewAreTaken : Prop :=
  ∀ (s : State) (source : Station) (segment : Byte), s.receives = true →
    (∀ time : BitVec 48, ∃ t : State, exec (.notice source segment time) s = .next t ∧
      t.run.table = s.run.table.map (fun r =>
        if r.index = segment.toNat then
          { r with reference := some (min (r.reference.getD time.toNat) time.toNat) } else r) ∧
      (t.run.pendingRemote = true ↔ s.run.pendingRemote = true ∨
        (s.run.setup.followNotice = true ∧ source ≠ s.sul.strap ∧ s.openIndex? = some segment.toNat ∧
          s.run.state = .pretrig)) ∧
      t = { s.afterFrame { kind := 3, source := source, payload := segment :: bytesBE 6 time.toNat } with
        run := { s.run with table := t.run.table, pendingRemote := t.run.pendingRemote } }) ∧
    (∀ (offset : BitVec 48) (scale follow : Byte),
      exec (.view source segment offset scale follow) s = .next
        { s.afterFrame
            { kind := 5, source := source, payload := segment :: (bytesBE 6 offset.toNat ++ [scale, follow]) } with
          ren := { s.ren with view :=
            { segment := segment.toNat % 32, offset := offset.toInt, scale := min 36 scale.toNat,
              follow := follow.getLsbD 0 } } })

/-- R153, R159: a PANEL addressed to this station replaces the live settings; where the mode then is not SLEEP, the port
ASLEEP and no frame under way, the wake frame starts, from a capture taken with the new settings (R140). -/
def Obligations.PanelReplacesLiveSettings : Prop :=
  ∀ (s : State) (source : Station) (target mode first last inversion : Byte), s.receives = true →
    addressed s.sul.strap (targetOf target) = true →
    ∃ t : State, exec (.panel source target mode first last inversion) s = .next t ∧
      t.port.live.firstRow = min (min 119 first.toNat) (min 119 last.toNat) ∧
      t.port.live.lastRow = max (min 119 first.toNat) (min 119 last.toNat) ∧
      t.port.live.inversion = inversion.getLsbD 0 ∧
      t.port.live.mode = (if mode.toNat = 0 then .normal else if mode.toNat = 1 then .partialRows
        else if mode.toNat = 2 then .reduced else if mode.toNat = 3 then .sleep else s.port.live.mode) ∧
      (t.port.live.mode ≠ .sleep ∧ s.port.state = .asleep ∧ s.ren.frameState = .waiting →
        t.port.wakePending = true ∧
          let f := State.captureFrame { s with port := { s.port with live := t.port.live } } true
          f.wake = true ∧ f.panel = t.port.live ∧
          t.ren = { s.ren with
            view := f.view, frameState := .rendering, frameTimer := 0, capture := some f, column := 0
            boxRuns := f.lanes.map (fun _ => none) }) ∧
      (t.port.live.mode = .sleep ∨ s.port.state ≠ .asleep ∨ s.ren.frameState ≠ .waiting →
        t.ren = s.ren ∧ t.port.wakePending = s.port.wakePending) ∧
      t = { s.afterFrame { kind := 6, source := source, payload := [target, mode, first, last, inversion] } with
        ren := t.ren, port := { s.port with live := t.port.live, wakePending := t.port.wakePending } }

/-- R172: the contents of a STATUS. R169, R171, R170: a QUERY addressed to this station posts a STATUS, and what a posting
does in each standing of the queue: at a full one it takes an entry freed at this tick from the newest DONE that took one, and
is owed where there is none. The mark that such a STATUS, or one which was owed, carries where it joins is the model's form of
R170's order of claimants (log 19). -/
def Obligations.QueryPostsStatus : Prop :=
  (∀ s : State, s.statusContents =
    { runState := s.run.state
      openSegment := if s.run.state = .idle ∨ s.run.state = .waitStart then none
        else s.run.table.getLast?.map SegmentRecord.index
      closedCount := (s.run.table.filter (fun r => decide (r.state = .closed))).length
      locked := s.tau.locked, clockState := s.tau.clockState, rateFactor := s.tau.rateFactor
      markStuck := s.tau.markStuck, duplicateId := s.lnk.duplicateId, imageBad := s.sul.imageBad
      lanesClipped := s.ren.lanesClipped, errorMask := s.dec.errorMask, sticky := s.fc.sticky, lost := s.log.lost
      observed := s.lnk.observed, resetCause := s.sul.resetCause, lastRefusal := s.lnk.lastRefusal
      lastBusError := s.lnk.lastBusError }) ∧
  (∀ (s : State) (source : Station) (target : Byte), s.receives = true →
    addressed s.sul.strap (targetOf target) = true →
    let u := s.afterFrame { kind := 7, source := source, payload := [target] }
    let c := u.statusContents
    ∃ t : State, exec (.query source target) s = .next t ∧
      (s.lnk.transmitter = .silent → t = u) ∧
      (s.lnk.transmitter ≠ .silent → s.lnk.queue.any QueueEntry.isStatus = true →
        t = { u with lnk := { u.lnk with queue := s.lnk.queue.map (fun e =>
          if e.isStatus then { e with message := .status c, resend := e.resend || e.underTransmission } else e) } }) ∧
      (s.lnk.transmitter ≠ .silent → s.lnk.queue.any QueueEntry.isStatus = false → s.lnk.queue.length < 8 →
        t = { u with lnk := { u.lnk with statusOwed := false, queue := s.lnk.queue ++
          [{ message := .status c, underTransmission := false, resend := false
             tookFreedEntry := s.lnk.statusOwed }] } }) ∧
      (s.lnk.transmitter ≠ .silent → s.lnk.queue.any QueueEntry.isStatus = false → 8 ≤ s.lnk.queue.length →
        let yields (e : QueueEntry) : Prop :=
          e.tookFreedEntry = true ∧ e.underTransmission = false ∧ e.message.kind = 11
        (∀ (a b : List QueueEntry) (e : QueueEntry) (x : Done), s.lnk.queue = a ++ e :: b → e.message = .done x →
          yields e → (∀ y ∈ b, ¬yields y) →
          t = { u with lnk := { u.lnk with
            statusOwed := false, heldDones := x :: s.lnk.heldDones
            queue := a ++ b ++
              [{ message := .status c, underTransmission := false, resend := false, tookFreedEntry := true }] } }) ∧
        ((∀ e ∈ s.lnk.queue, ¬yields e) → t = { u with lnk := { u.lnk with statusOwed := true } })))

/-- R173, R175, R176: a READ addressed to this station cuts the stream it finds, whose DONE with reason CUT and its sent count
is posted, and makes a stream: active, or waiting while the DONE of a cut stream has not gone out. An unknown collection or a
count of 0 ends at once with its DONE; that one with both ends with BAD_REQUEST is the model's choice (log 47). The next key
of an ENTRIES stream is the start of the entry its key names. A DONE that finds no free entry is held behind those held
already. A station strapped 7 makes no stream. That one SILENT after a DUPLICATE_ID makes one, of which nothing leaves the
part, is the model's reading (log 34). -/
def Obligations.ReadMakesAStream : Prop :=
  (∀ (s : State) (d : Done), (s.lnk.transmitter = .silent → s.postDone d = s) ∧
    (s.lnk.transmitter ≠ .silent →
      let claimed := s.lnk.queue.length + (if s.lnk.statusOwed then 1 else 0) + s.lnk.heldDones.length
      (claimed < 8 → s.postDone d = { s with lnk := { s.lnk with queue := s.lnk.queue ++
        [{ message := .done d, underTransmission := false, resend := false, tookFreedEntry := false }] } }) ∧
      (8 ≤ claimed → s.postDone d = { s with lnk := { s.lnk with heldDones := s.lnk.heldDones ++ [d] } }))) ∧
  (∀ (s : State) (source : Station) (target collection : Byte) (key : Word) (count : Byte), s.receives = true →
    addressed s.sul.strap (targetOf target) = true →
    let u := s.afterFrame
      { kind := 8, source := source, payload := [target, collection] ++ bytesBE 4 key.toNat ++ [count] }
    let v := match s.lnk.stream with
      | none => u
      | some x => State.postDone { u with lnk := { u.lnk with stream := none } }
          { collection := x.collection.code, sent := x.sent, reason := .cut }
    ∃ t : State, exec (.read source target collection key count) s = .next t ∧
      (s.sul.strap = 7 → t = u) ∧
      (s.sul.strap ≠ 7 →
        (3 ≤ collection.toNat → t = v.postDone { collection := collection, sent := 0, reason := .badRequest }) ∧
        (collection.toNat < 3 → count = 0 →
          t = v.postDone { collection := collection, sent := 0, reason := .complete }) ∧
        (collection.toNat < 3 → count ≠ 0 → ∃ x : Stream, t = { v with lnk := { v.lnk with stream := some x } } ∧
          x.collection.code = collection ∧ x.remaining = min 64 count.toNat ∧ x.sent = 0 ∧ x.formed = false ∧
          (x.waiting = true ↔
            (∃ e ∈ v.lnk.queue, ∃ d : Done, e.message = .done d ∧ d.reason = .cut) ∨
              ∃ d ∈ v.lnk.heldDones, d.reason = .cut) ∧
          (collection.toNat < 2 → x.nextKey = some key.toNat) ∧
          (collection.toNat = 2 → x.segment = key.toNat / 2 ^ 24 ∧
            (s.record? x.segment = none → x.nextKey = none) ∧
            (∀ g : SegmentRecord, s.record? x.segment = some g →
              let j := key.toNat % 2 ^ 24
              (g.retained ≤ j → x.nextKey = none) ∧
              (j < g.retained → (∀ p ∈ g.oldestPositions (j + 1), (Memory.read s.cst.store p).isSome = true) →
                x.nextKey = some (g.firstSample + countSum s.cst.store (g.oldestPositions j))))))) ∧
      (∀ x : Stream, s.sul.strap ≠ 7 → s.lnk.stream = some x → s.lnk.transmitter ≠ .silent → collection.toNat < 3 →
        count ≠ 0 → s.lnk.queue.length < 8 → s.lnk.statusOwed = false → s.lnk.heldDones = [] →
        t.lnk.queue = s.lnk.queue ++
          [{ message := .done { collection := x.collection.code, sent := x.sent, reason := .cut },
             underTransmission := false, resend := false, tookFreedEntry := false }] ∧
        t.lnk.stream.map Stream.waiting = some true ∧ t.lnk.stream.map Stream.sent = some 0))

/-- R168: STATUS, DATA and DONE frames, and frames addressed to other stations, are received and not taken. That a frame
command at a station that is receiving no frame changes nothing is the model's choice (log 2). -/
def Obligations.FramesNotTakenAreReceived : Prop :=
  ∀ (s : State) (i : Instr) (f : Frame), i.frame? = some f →
    (s.receives = false → exec i s = .next s) ∧
    (s.receives = true →
      (match i with
       | .replyFrameReceived _ _ _ => True
       | .unaddressedFrameReceived _ _ payload => addressed s.sul.strap (targetOf (payloadByte payload 0)) = false
       | .restart _ target _ => addressed s.sul.strap (targetOf target) = false
       | .panel _ target _ _ _ _ => addressed s.sul.strap (targetOf target) = false
       | .query _ target => addressed s.sul.strap (targetOf target) = false
       | .read _ target _ _ _ => addressed s.sul.strap (targetOf target) = false
       | _ => False) →
      exec i s = .next (s.afterFrame f))

/-- R163, R167: which fault a received frame shows; and a bad frame is dropped: the last bus error is the fault, the receiver
skips after a length above 28 and otherwise waits, or receives again where the second end bit alone was dominant; nothing else
but the idle count, the bit clock, the place in the frame and the level last seen changes. Of several faults in one frame, which is recorded is the
model's choice (log 16), and so is that a receiver which finds the first end bit dominant waits, whatever the second is (log
53). At an idle count of 9 a SKIPPING receiver waits again; how the bits between commands reach the count
is the model's choice too (log 15), and so is that LINE_IDLE at another count or at another receiver changes nothing (log
2). -/
def Obligations.BadFrameIsDropped : Prop :=
  (∀ f : RawFrame,
    let n := f.length.toNat
    let k := f.kind.toNat
    let allowed : Prop := (k = 0 ∧ n = 1) ∨ (k = 1 ∧ n = 0) ∨ (k = 2 ∧ n = 1) ∨ (k = 3 ∧ n = 7) ∨ (k = 4 ∧ n = 8) ∨
      (k = 5 ∧ n = 9) ∨ (k = 6 ∧ n = 5) ∨ (k = 7 ∧ n = 1) ∨ (k = 8 ∧ n = 7) ∨ (k = 9 ∧ n = 21) ∨
      (k = 10 ∧ (n = 14 ∨ n = 27 ∨ n = 28)) ∨ (k = 11 ∧ n = 3)
    let sum := (8 * k + f.source.toNat + n + (f.payload.map BitVec.toNat).sum + f.check.toNat) % 256
    (28 < n → f.fault = some .length) ∧
    (n ≤ 28 → f.end1 = false → f.fault = some .endBit) ∧
    (n ≤ 28 → f.end1 = true → 12 ≤ k → f.fault = some .kind) ∧
    (n ≤ 28 → f.end1 = true → k < 12 → ¬allowed → f.fault = some .length) ∧
    (f.end1 = true → allowed → sum ≠ 255 → f.fault = some .check) ∧
    (f.end1 = true → allowed → sum = 255 → f.fault = if f.end2 then none else some .endBit)) ∧
  (∀ (s : State) (f : RawFrame) (e : BusError), s.receives = true → f.fault = some e →
    ∃ t : State, exec (.receiveFault f) s = .next t ∧ t.lnk.lastBusError = some e ∧
      (28 < f.length.toNat → e = .length ∧ t.lnk.receiver = .skipping) ∧
      (f.length.toNat ≤ 28 → t.lnk.receiver = if f.end1 = true ∧ f.end2 = false then .receiving else .waiting) ∧
      t = { s with lnk := { s.lnk with
        lastBusError := some e, receiver := t.lnk.receiver, bitClock := 125
        framePosition := if f.length.toNat ≤ 28 ∧ f.end1 = true ∧ f.end2 = false then some 0 else none
        lineRecessive := if 28 < f.length.toNat then f.length.getLsbD 0 else f.end1 && f.end2
        idleCount := idleCountAfter s.lnk.idleCount
          (if 28 < f.length.toNat then f.headerBits else if f.end1 = false then f.bits.dropLast else f.bits) } }) ∧
  (∀ s : State, s.active = true →
    (s.lnk.idleCount = 9 → s.lnk.receiver = .skipping →
      exec .lineIdle s = .next { s with lnk := { s.lnk with receiver := .waiting } }) ∧
    (s.lnk.idleCount ≠ 9 ∨ s.lnk.receiver ≠ .skipping → exec .lineIdle s = .next s))

/-! ### Sending -/

/-- R164, R170, R184, R163, R167: where a frame begins, an IDLE transmitter that stands at an idle line with messages waiting
sends the earliest of the lowest kind, from its start bit on. Any other station becomes a receiver of the frame whose start
bit it observes, from WAITING, and its bit clock restarts; so does one that sees another station's start bit under way, whose
idle count stands until that bit is read. That FRAME_BEGIN is every start bit on the line, the station's own and another's, is
the model's choice (log 15), and so is that a sender whose idle count reached 9 within another station's frame abandons the
reception of that frame (log 52). -/
def Obligations.FrameBeginSelectsTheLowestKind : Prop :=
  ∀ s : State, s.active = true →
    (s.lnk.transmitter = .idle → s.lnk.idleCount = 9 → s.lnk.framePosition ≠ some 0 → s.lnk.queue ≠ [] →
      ∃ (a b : List QueueEntry) (e : QueueEntry), s.lnk.queue = a ++ e :: b ∧ (∀ x ∈ a, e.kind < x.kind) ∧
        (∀ x ∈ b, e.kind ≤ x.kind) ∧
        exec .frameBegin s = .next { s with lnk := { s.lnk with
          transmitter := .sending, receiver := .receiving, lineRecessive := false, bitClock := 0
          framePosition := some 0
          frameOnLine := some
            { kind := BitVec.ofNat 4 e.kind, source := s.sul.strap, payload := e.message.payload }
          queue := a ++ { e with underTransmission := true } :: b } }) ∧
    (s.lnk.transmitter ≠ .idle ∨ s.lnk.idleCount ≠ 9 ∨ s.lnk.framePosition = some 0 ∨ s.lnk.queue = [] →
      exec .frameBegin s = .next { s with lnk := { s.lnk with
        lineRecessive := false, bitClock := 0
        framePosition := if s.lnk.receiver = .waiting then some 0 else s.lnk.framePosition
        receiver := if s.lnk.receiver = .waiting then .receiving else s.lnk.receiver } })

/-- R163, R165: a lost arbitration and a BIT error: the station stops sending and keeps every message; a BIT error is recorded.
The bit lost is read dominant, which sets the idle count to 0; the bit in error is read recessive, after the bits before it as
they were sent. That a STATUS kept so is no longer marked for resending is the model's choice (log 17), and so is that the
command brings the place of the bit and its reading tick (log 15). -/
def Obligations.StoppedSenderKeepsItsMessages : Prop :=
  ∀ (s : State) (bit : Nat), s.active = true → s.lnk.transmitter = .sending → 1 ≤ bit →
    let sent := (s.lnk.frameOnLine.map Frame.bits).getD []
    let kept (recessive : Bool) (count : Nat) : Lnk := { s.lnk with
      transmitter := .idle, frameOnLine := none, idleCount := count, lineRecessive := recessive, bitClock := 125
      framePosition := some bit
      queue := s.lnk.queue.map (fun e => { e with underTransmission := false, resend := false }) }
    (bit ≤ 7 → s.lnk.sentBit bit = some true → exec (.arbitrationLost bit) s = .next { s with lnk := kept false 0 }) ∧
      (s.lnk.sentBit bit = some false →
        exec (.bitError bit) s = .next { s with lnk :=
          { kept true (idleCountAfter 0 (sent.take bit ++ [true])) with lastBusError := some .bit } })

/-- R163, R166: a bit lost after the source field: SILENT, DUPLICATE_ID, nothing left to send, and NOTICE_DROPPED in every record
a NOTICE of the queue names. The bit is read dominant, which sets the idle count to 0; that the command brings its place and
its reading tick is the model's choice (log 15). -/
def Obligations.DuplicateIdSilencesTheStation : Prop :=
  ∀ (s : State) (bit : Nat), s.active = true → s.lnk.transmitter = .sending → 8 ≤ bit →
    s.lnk.sentBit bit = some true →
    ∃ t : State, exec (.duplicateId bit) s = .next t ∧
      t.lnk = { s.lnk with
        transmitter := .silent, frameOnLine := none, queue := [], statusOwed := false, stream := none, heldDones := [],
        duplicateId := true, idleCount := 0, lineRecessive := false, bitClock := 125, framePosition := some bit } ∧
      t.run.table = s.run.table.map (fun r =>
        if r.index ∈ noticedSegments s.lnk.queue then { r with noticeDropped := true } else r) ∧
      t = { s with lnk := t.lnk, run := { s.run with table := t.run.table } }

/-- R165, R171, R175: the message under transmission leaves the queue, a STATUS marked for resending stays as the newest
entry, and a waiting stream becomes active when no DONE of a cut stream is left. R170, R171, R175: an owed STATUS joins where
an entry is free, with the contents of that tick; a held DONE joins, the oldest first, at an entry no owed STATUS claims. The
mark of the tick they carry until it ends is the model's (log 19). -/
def Obligations.FreedEntriesAreTaken : Prop :=
  (∀ (s : State) (a b : List QueueEntry) (e : QueueEntry), s.active = true → s.lnk.transmitter = .sending →
    s.lnk.queue = a ++ e :: b → e.underTransmission = true → (∀ x ∈ a ++ b, x.underTransmission = false) →
    ∃ t : State, exec .transmissionComplete s = .next t ∧ t.lnk.transmitter = .idle ∧ t.lnk.frameOnLine = none ∧
      t.lnk.queue = a ++ b ++ (if e.resend then [{ e with underTransmission := false, resend := false }] else []) ∧
      (let cutPending : Prop := (∃ e ∈ t.lnk.queue, ∃ d : Done, e.message = .done d ∧ d.reason = .cut) ∨
         ∃ d ∈ t.lnk.heldDones, d.reason = .cut
       (cutPending → t.lnk.stream = s.lnk.stream) ∧
       (¬cutPending → t.lnk.stream = s.lnk.stream.map (fun x => { x with waiting := false }))) ∧
      t = { s with lnk := { s.lnk with
        transmitter := .idle, frameOnLine := none, queue := t.lnk.queue, stream := t.lnk.stream } }) ∧
  (∀ s : State, s.active = true →
    (s.lnk.statusOwed = true → s.lnk.queue.length < 8 →
      exec .statusOwedJoin s = .next { s with lnk := { s.lnk with statusOwed := false, queue := s.lnk.queue ++
        [{ message := .status s.statusContents, underTransmission := false, resend := false,
           tookFreedEntry := true }] } }) ∧
    (∀ (d : Done) (rest : List Done), s.lnk.heldDones = d :: rest →
      s.lnk.queue.length + (if s.lnk.statusOwed then 1 else 0) < 8 →
      exec .heldDoneJoin s = .next { s with lnk := { s.lnk with heldDones := rest, queue := s.lnk.queue ++
        [{ message := .done d, underTransmission := false, resend := false, tookFreedEntry := true }] } }))

/-- R174, R175: an active stream forms a DATA message of the record it finds, at a tick at which fewer than 4 entries are
occupied and it has formed none, and goes on after it; the last record asked for ends it with COMPLETE, and where it finds no
record it ends with END. Otherwise nothing is formed. R128, R173, R174: the record it finds: the first segment or log record
whose number is not below the key, and the first entry, on the walk of the segment's retained entries (R72), that starts at
the key or after it. R70, R72: the walk goes from the first retained entry, or from a valid checkpoint of the segment that
does not start above the key, over the retained entries that follow, each starting where the one before ends. -/
def Obligations.StreamFormsData : Prop :=
  (∀ s : State,
    (4 ≤ s.lnk.queue.length ∨ s.lnk.stream.map Stream.formed = some true ∨ s.lnk.stream.map Stream.waiting = some true →
      exec .dataFormation s = .next s) ∧
    (∀ x : Stream, s.active = true → s.lnk.transmitter ≠ .silent → s.lnk.stream = some x → x.waiting = false →
      x.formed = false → 1 ≤ x.remaining → s.lnk.queue.length < 4 →
      let grown (r : DataRecord) : List QueueEntry := s.lnk.queue ++
        [{ message := .data r, underTransmission := false, resend := false, tookFreedEntry := false }]
      (∀ (r : DataRecord) (nextKey : Nat), s.nextRecord x = some (r, nextKey) →
        (2 ≤ x.remaining → exec .dataFormation s = .next { s with lnk := { s.lnk with
          stream := some
            { x with nextKey := some nextKey, remaining := x.remaining - 1, sent := x.sent + 1, formed := true }
          queue := grown r } }) ∧
        (x.remaining = 1 → exec .dataFormation s = .next (State.postDone
          { s with lnk := { s.lnk with stream := none, queue := grown r } }
          { collection := x.collection.code, sent := x.sent + 1, reason := .complete }))) ∧
      (s.nextRecord x = none → exec .dataFormation s = .next (State.postDone
        { s with lnk := { s.lnk with stream := none } }
        { collection := x.collection.code, sent := x.sent, reason := .ended })))) ∧
  (∀ (s : State) (x : Stream) (key : Nat), x.nextKey = some key →
    (x.collection = .segments →
      (∀ (a b : List SegmentRecord) (r : SegmentRecord), s.run.table = a ++ r :: b → (∀ y ∈ a, y.index < key) →
        key ≤ r.index →
        s.nextRecord x = some (.segment r (r.triggerPosition.map
          (fun p => (p + r.regionSize - r.firstPosition) % r.regionSize)), r.index + 1)) ∧
      ((∀ y ∈ s.run.table, y.index < key) → s.nextRecord x = none)) ∧
    (x.collection = .decode →
      (∀ (a b : List LogRecord) (r : LogRecord), s.log.records = a ++ r :: b → (∀ y ∈ a, y.sequence < key) →
        key ≤ r.sequence → s.nextRecord x = some (.decode r, r.sequence + 1)) ∧
      ((∀ y ∈ s.log.records, y.sequence < key) → s.nextRecord x = none)) ∧
    (x.collection = .entries →
      (s.record? x.segment = none → s.nextRecord x = none) ∧
      (∀ g : SegmentRecord, s.record? x.segment = some g →
        (∀ (a b : List (Nat × Entry)) (start : Nat) (e : Entry), retainedFrom s g key = a ++ (start, e) :: b →
          (∀ y ∈ a, y.1 < key) → key ≤ start →
          s.nextRecord x = some (.entry x.segment start e, start + e.count)) ∧
        ((∀ y ∈ retainedFrom s g key, y.1 < key) → s.nextRecord x = none)))) ∧
  (∀ (s : State) (x : Stream), x.nextKey = none → s.nextRecord x = none) ∧
  (∀ (s : State) (g : SegmentRecord) (key : Nat), ∃ passed start : Nat,
    (passed = 0 ∧ start = g.firstSample ∨ ∃ (slot : Nat) (c : Checkpoint), (slot, c) ∈ s.cst.checkpoints ∧
      c.segment = g.index ∧ c.start ≤ key ∧ c.start = start ∧ g.firstSample ≤ start ∧ g.regionFirst ≤ slot * 1024 ∧
      slot * 1024 < g.regionFirst + g.regionSize ∧ passed < g.retained ∧
      passed = (slot * 1024 + g.regionSize - g.firstPosition) % g.regionSize) ∧
    let walk := retainedFrom s g key
    let position (i : Nat) : Nat := g.positionAfter (passed + i)
    (∀ (i begins : Nat) (e : Entry), walk[i]? = some (begins, e) → passed + i < g.retained ∧
      Memory.read s.cst.store (position i) = some e ∧
      begins = start + countSum s.cst.store ((List.range i).map position)) ∧
    ((∀ i : Nat, passed + i < g.retained → (Memory.read s.cst.store (position i)).isSome = true) →
      walk.length = g.retained - passed))

/-! ### Frames of the panel -/

/-- R138, R140, R141, R142: the capture a frame starts from, a wake frame too: the view, the lanes and the live panel settings,
its origin the reference time of the viewed segment or the time of the segment's first sample; with follow on the open segment
the right edge of column 319 is the next sample's time, when no clamp acts. R139, R140: a frame starts from it at the end of
the frame period, at column 0 with no box run under way; the frame store, the lane table and the frame period stand. -/
def Obligations.FrameStartsFromItsCapture : Prop :=
  (∀ (s : State) (wake : Bool),
    let f := s.captureFrame wake
    f.panel = s.port.live ∧ f.wake = wake ∧ f.lanes = placeLanes s.ren.lanes ∧
      f.leftEdge = (f.origin : Int) + f.view.offset ∧ f.view.segment = s.ren.view.segment ∧
      (s.record? f.view.segment = none → f.origin = 0 ∧ f.reference = none) ∧
      (∀ g : SegmentRecord, s.record? f.view.segment = some g → f.reference = g.reference ∧
        (∀ time : Nat, g.reference = some time → f.origin = time) ∧
        (g.reference = none → f.view.segment = 0 → f.origin = 0) ∧
        (∀ h : SegmentRecord, g.reference = none → f.view.segment ≠ 0 → s.record? (f.view.segment - 1) = some h →
          f.origin = h.nextSample * s.divider)) ∧
      (s.ren.view.follow = false ∨ s.openIndex? ≠ some s.ren.view.segment → f.view = s.ren.view) ∧
      (∀ g : SegmentRecord, s.ren.view.follow = true → s.openRecord? = some g → g.index = s.ren.view.segment →
        let x := (g.nextSample : Int) * (s.divider : Int) - 320 * (columnWidth s.ren.view.scale : Int) - (f.origin : Int)
        f.view = { s.ren.view with offset := max (-(2 ^ 47)) (min (2 ^ 47 - 1) x) })) ∧
  (∀ s : State, s.active = true → s.ren.framePeriodMs * 500000 ≤ s.ren.frameTimer → s.ren.frameState = .waiting →
    s.port.state = .ready → s.port.live.mode ≠ .sleep →
    let f := s.captureFrame false
    exec .frameStart s = .next { s with ren := { s.ren with
      view := f.view, frameState := .rendering, frameTimer := 0, capture := some f, column := 0
      boxRuns := f.lanes.map (fun _ => none) } })

/-- R145: the pixels of a channel lane's column. R143, R144: the levels it shows and its glitch tick: those of the samples that
the viewed segment holds, from its first retained to its newest, in retained entries or the open one, and that meet the
column; a GAP adds nothing, and a disabled channel and a segment without a record show no data. That the record is read live
while the frame renders is the model's choice (log 41). -/
def Obligations.ChannelLanePixels : Prop :=
  (∀ (x : ChannelColumn) (h : Nat) (colour : BitVec 2) (c j : Nat), 4 ≤ h → j < h →
    (x.tick = true → j = 0 → x.pixel h colour c j = 3) ∧
    (x.tick = false ∨ j ≠ 0 →
      (x.low = true → x.high = false → x.pixel h colour c j = if j = h - 2 then colour else 0) ∧
      (x.low = false → x.high = true → x.pixel h colour c j = if j = 1 then colour else 0) ∧
      (x.low = true → x.high = true → x.pixel h colour c j = if 1 ≤ j ∧ j ≤ h - 2 then colour else 0) ∧
      (x.low = false → x.high = false → x.pixel h colour c j = if c % 2 = 0 ∧ j = (h - 1) / 2 then 2 else 0))) ∧
  (∀ (s : State) (f : FrameCapture) (l : PlacedLane) (k : Fin 16) (c : Nat), l.lane.source = .channel k →
    let width : Int := columnWidth f.view.scale
    let a := f.leftEdge + (c : Int) * width
    let b := f.leftEdge + ((c : Int) + 1) * width
    ∃ x : ChannelColumn, s.laneColumn f c l = .channel x ∧
      (levelOf s.pfe.enabled k = false ∨ s.record? f.view.segment = none →
        x = { low := false, high := false, tick := false }) ∧
      (∀ g : SegmentRecord, levelOf s.pfe.enabled k = true → s.record? f.view.segment = some g → 0 < s.divider →
        let meets (n : Nat) : Prop := (g.firstSample ≤ n ∧ n < g.nextSample) ∧ (n : Int) * s.divider < b ∧
          a < ((n : Int) + 1) * s.divider
        ∃ lowest : Nat, (∀ n : Nat, meets n → lowest ≤ n) ∧
          let holds (e : Nat × Entry) : Prop := e ∈ retainedFrom s g lowest ∨
            (s.openIndex? = some g.index ∧
              s.cst.openEntry.bind (fun o => o.holding.map (fun h => (o.start, h))) = some e)
          let shows (p : Levels → Levels → Prop) : Prop := ∃ (e : Nat × Entry) (n : Nat) (levels glitch : Levels),
            holds e ∧ (e.1 ≤ n ∧ n < e.1 + e.2.count) ∧ meets n ∧ e.2.data = .levels levels glitch ∧ p levels glitch
          (x.low = true ↔ shows (fun levels _ => levelOf levels k = false)) ∧
          (x.high = true ↔ shows (fun levels _ => levelOf levels k = true)) ∧
          (x.tick = true ↔ shows (fun _ glitch => levelOf glitch k = true))))

/-- R135, R142, R146, R147, R148, R149: the width of a column; the records a decode lane's column shows, none where the unit is
OFF; the pixels of its box; the column of the marker and what it covers; the text of a record and the pixels of its glyphs;
how box runs begin, go on and end, and when a run's text is written. -/
def Obligations.DecodeLanesTextAndMarker : Prop :=
  (∀ m : Nat, columnWidth (3 * m) = 10 ^ m ∧ columnWidth (3 * m + 1) = 2 * 10 ^ m ∧
    columnWidth (3 * m + 2) = 5 * 10 ^ m) ∧
  (∀ (s : State) (f : FrameCapture) (l : PlacedLane) (d : Fin 4) (c : Nat), l.lane.source = .decoder d →
    let width : Int := columnWidth f.view.scale
    ∃ rs : List LogRecord, s.laneColumn f c l = .decoder rs ∧ rs.Sublist s.log.records ∧
      (∀ r : LogRecord, r ∈ rs ↔ r ∈ s.log.records ∧ (s.dec.units.get d).settings ≠ .off ∧ r.content.decoder = d ∧
        r.content.segment = f.view.segment ∧ (r.content.startTime : Int) < f.leftEdge + ((c : Int) + 1) * width ∧
        f.leftEdge + (c : Int) * width < (r.content.endTime : Int))) ∧
  (∀ (rs : List LogRecord) (h : Nat) (colour : BitVec 2) (j : Nat), 4 ≤ h → j < h →
    (j = 0 ∨ j = h - 1 → decodePixel rs h colour j = 0) ∧
    (1 ≤ j → j ≤ h - 2 →
      (rs = [] → decodePixel rs h colour j = 0) ∧
      (∀ r : LogRecord, rs = [r] →
        let g := r.content.flags
        decodePixel rs h colour j = if g.parity || g.framing || g.nack || g.truncated then 3 else 1) ∧
      (2 ≤ rs.length → decodePixel rs h colour j = colour))) ∧
  (∀ f : FrameCapture, (f.reference = none → f.markerColumn = none) ∧
    (∀ time : Nat, f.reference = some time → ∀ c : Nat,
      let width : Int := columnWidth f.view.scale
      f.markerColumn = some c ↔
        c < 320 ∧ f.leftEdge + (c : Int) * width ≤ (time : Int) ∧ (time : Int) < f.leftEdge + ((c : Int) + 1) * width)) ∧
  (∀ (f : FrameCapture) (shown : List (PlacedLane × LaneColumn)) (c y : Nat),
    let within (l : PlacedLane) : Prop := l.top ≤ y ∧ y < l.top + l.lane.height
    let marked : Prop := f.markerColumn = some c ∧ y < (f.lanes.map (fun l => l.lane.height)).sum
    (marked → columnPixel f shown c y = 3) ∧
    (¬marked →
      (∀ (a b : List (PlacedLane × LaneColumn)) (l : PlacedLane) (x : LaneColumn), shown = a ++ (l, x) :: b →
        (∀ e ∈ a, ¬within e.1) → within l →
        columnPixel f shown c y = (match x with
          | .channel k => k.pixel l.lane.height l.lane.colour c (y - l.top)
          | .decoder rs => decodePixel rs l.lane.height l.lane.colour (y - l.top))) ∧
      ((∀ e ∈ shown, ¬within e.1) → columnPixel f shown c y = 0))) ∧
  (∀ r : DecodeRecord,
    let n := (r.bitCount + 3) / 4
    let digits := (List.range n).map (fun i => Glyph.digit (Fin.ofNat 16 (r.value.toNat / 16 ^ (n - 1 - i))))
    recordText r = (match r.kind with
        | .i2cStart => [.s]
        | .i2cRestart => [.r]
        | .i2cStop => [.p]
        | .i2cAddress => .a :: digits
        | _ => digits) ++
      (if r.flags.nack then [.n] else []) ++
      (if r.flags.parity || r.flags.framing || r.flags.truncated then [.mark] else [])) ∧
  (∀ (run : Option BoxRun) (shown : LaneColumn) (c : Nat),
    (∀ (r : LogRecord) (b : BoxRun), shown = .decoder [r] → run = some b → r.sequence = b.record.sequence →
      nextBoxRun run shown c = some b ∧ boxRunEnds run shown = none) ∧
    (∀ (r : LogRecord) (b : BoxRun), shown = .decoder [r] → run = some b → r.sequence ≠ b.record.sequence →
      nextBoxRun run shown c = some { record := r, firstColumn := c } ∧ boxRunEnds run shown = some b) ∧
    (∀ r : LogRecord, shown = .decoder [r] → run = none →
      nextBoxRun run shown c = some { record := r, firstColumn := c } ∧ boxRunEnds run shown = none) ∧
    ((∀ r : LogRecord, shown ≠ .decoder [r]) → nextBoxRun run shown c = none ∧ boxRunEnds run shown = run)) ∧
  (∀ (f : FrameCapture) (vertical : Bool) (c : Nat) (m : Mem (BitVec 2)),
    writeEnded f vertical c m [] = m ∧
    (∀ (l : PlacedLane) (run : Option BoxRun) (shown : LaneColumn) (rest : List (PlacedLane × Option BoxRun × LaneColumn)),
      (boxRunEnds run shown = none →
        writeEnded f vertical c m ((l, run, shown) :: rest) = writeEnded f vertical c m rest) ∧
      (∀ b : BoxRun, boxRunEnds run shown = some b →
        writeEnded f vertical c m ((l, run, shown) :: rest) =
          writeEnded f vertical c (writeText f vertical l b (c - b.firstColumn) m) rest)) ∧
    (∀ (l : PlacedLane) (b : BoxRun) (width p : Nat),
      let text := recordText b.record.content
      let drawn : Prop := 6 * text.length + 2 ≤ width ∧ 9 ≤ l.lane.height
      let row := l.top + 1 + (l.lane.height - 9) / 2
      let inText : Prop := ∃ (j x y : Nat) (g : Glyph), text[j]? = some g ∧ x < 5 ∧ y < 7 ∧
        (g.rows.getD y 0).getLsbD (4 - x) = true ∧ f.renders vertical (row + y) = true ∧
        p = (row + y) * 320 + (b.firstColumn + 1 + 6 * j + x)
      (drawn ∧ inText → Memory.read (writeText f vertical l b width m) p = some 0) ∧
      (¬(drawn ∧ inText) → Memory.read (writeText f vertical l b width m) p = Memory.read m p))) ∧
  (((List.range 16).map (fun d => Glyph.digit (Fin.ofNat 16 d)) ++
    [Glyph.s, Glyph.r, Glyph.p, Glyph.n, Glyph.mark]).map Glyph.rows =
    ([[0x0E, 0x11, 0x13, 0x15, 0x19, 0x11, 0x0E], [0x04, 0x0C, 0x04, 0x04, 0x04, 0x04, 0x0E],
     [0x0E, 0x11, 0x01, 0x02, 0x04, 0x08, 0x1F], [0x1F, 0x02, 0x04, 0x02, 0x01, 0x11, 0x0E],
     [0x02, 0x06, 0x0A, 0x12, 0x1F, 0x02, 0x02], [0x1F, 0x10, 0x1E, 0x01, 0x01, 0x11, 0x0E],
     [0x06, 0x08, 0x10, 0x1E, 0x11, 0x11, 0x0E], [0x1F, 0x01, 0x02, 0x04, 0x08, 0x08, 0x08],
     [0x0E, 0x11, 0x11, 0x0E, 0x11, 0x11, 0x0E], [0x0E, 0x11, 0x11, 0x0F, 0x01, 0x02, 0x0C],
     [0x0E, 0x11, 0x11, 0x1F, 0x11, 0x11, 0x11], [0x1E, 0x11, 0x11, 0x1E, 0x11, 0x11, 0x1E],
     [0x0E, 0x11, 0x10, 0x10, 0x10, 0x11, 0x0E], [0x1E, 0x11, 0x11, 0x11, 0x11, 0x11, 0x1E],
     [0x1F, 0x10, 0x10, 0x1E, 0x10, 0x10, 0x1F], [0x1F, 0x10, 0x10, 0x1E, 0x10, 0x10, 0x10],
     [0x0F, 0x10, 0x10, 0x0E, 0x01, 0x01, 0x1E], [0x1E, 0x11, 0x11, 0x1E, 0x14, 0x12, 0x11],
     [0x1E, 0x11, 0x11, 0x1E, 0x10, 0x10, 0x10], [0x11, 0x19, 0x15, 0x13, 0x11, 0x11, 0x11],
     [0x04, 0x04, 0x04, 0x04, 0x04, 0x00, 0x04]] : List (List (BitVec 5))) ∧ Glyph.rows .a = Glyph.rows (.digit 10))

/-- R150, R145, R146, R147, R149: a column is rendered and the next one is due; nothing changes but the frame store and the
box runs. Every rendered row of the column holds its pixel and every other pixel of the frame store is as it was, before the
texts of the runs the column ends are written over it; where no box run is under way none is. That the reads of one column are
made at one moment is the model's reading (log 14). -/
def Obligations.ColumnIsRendered : Prop :=
  ∀ (s : State) (f : FrameCapture), s.active = true → s.ren.frameState = .rendering → s.ren.capture = some f →
    s.ren.column < 320 →
    let c := s.ren.column
    let shown (l : PlacedLane) : LaneColumn := s.laneColumn f c l
    let pixel (y : Nat) : BitVec 2 := columnPixel f (f.lanes.map (fun l => (l, shown l))) c y
    let written (m : Mem (BitVec 2)) : Prop :=
      (∀ y : Nat, y < 120 → f.renders s.port.verticalReversal y = true → Memory.read m (y * 320 + c) = some (pixel y)) ∧
      (∀ p : Nat, (∀ y : Nat, y < 120 → f.renders s.port.verticalReversal y = true → p ≠ y * 320 + c) →
        Memory.read m p = Memory.read s.ren.frameStore p)
    ∃ (t : State) (drawn : Mem (BitVec 2)), exec .columnRender s = .next t ∧ written drawn ∧
      t.ren.frameStore = writeEnded f s.port.verticalReversal c drawn
        ((f.lanes.zip s.ren.boxRuns).map (fun e => (e.1, e.2, shown e.1))) ∧
      t.ren.boxRuns = (f.lanes.zip s.ren.boxRuns).map (fun e => nextBoxRun e.2 (shown e.1) c) ∧
      (s.ren.boxRuns.all Option.isNone = true → written t.ren.frameStore) ∧
      t = { s with ren := { s.ren with
        column := s.ren.column + 1, boxRuns := t.ren.boxRuns, frameStore := t.ren.frameStore } }

/-- R147, R151, R157, R159: when column 319 has been rendered the texts of the runs that end there are written, and the port
sends the frame: PANEL_WAKE ahead of a wake frame, the window of its rows, and the colours of its pixels. When the transfer
completes the port is READY again, and a wake frame clears the wake-pending mark. -/
def Obligations.RenderedFrameIsSent : Prop :=
  (∀ (s : State) (f : FrameCapture), s.active = true → s.ren.capture = some f →
    (s.ren.frameState = .rendering → s.ren.column = 320 →
      let store := finishRuns f s.port.verticalReversal s.ren.frameStore (f.lanes.zip s.ren.boxRuns)
      exec .renderComplete s = .next { s with
        ren := { s.ren with
          frameState := .transferring, boxRuns := s.ren.boxRuns.map (fun _ => none), frameStore := store }
        port := { s.port with
          state := .frame
          sending := (if f.wake then [.panelWake] else []) ++
            [.setWindow 0 319 f.rows.1 f.rows.2, .writePixels (frameColours s.port f store)] } }) ∧
    (s.ren.frameState = .transferring →
      exec .transferComplete s = .next { s with
        ren := { s.ren with frameState := .waiting, capture := none }
        port := { s.port with state := .ready, sending := [], wakePending := s.port.wakePending && !f.wake } })) ∧
  (∀ (f : FrameCapture) (vertical : Bool) (m : Mem (BitVec 2)),
    finishRuns f vertical m [] = m ∧
    (∀ (l : PlacedLane) (run : Option BoxRun) (rest : List (PlacedLane × Option BoxRun)),
      (run = none → finishRuns f vertical m ((l, run) :: rest) = finishRuns f vertical m rest) ∧
      (∀ b : BoxRun, run = some b → finishRuns f vertical m ((l, run) :: rest) =
        finishRuns f vertical (writeText f vertical l b (320 - b.firstColumn) m) rest)))

/-- R154: the colour sent for an index of the frame store. -/
def Obligations.PixelColourPipeline : Prop :=
  ∀ (q : Quad (BitVec 16)) (p : LivePanel) (i : BitVec 2),
    let a : BitVec 2 := if p.mode = .reduced ∧ (i = 2 ∨ i = 3) then 1 else i
    let b : BitVec 2 := if p.inversion then (if a = 0 then 1 else if a = 1 then 0 else if a = 2 then 3 else 2) else a
    pixelColour q p i = (if b = 0 then q.e0 else if b = 1 then q.e1 else if b = 2 then q.e2 else q.e3)

/-- R150, R155, R156, R157: the rows a frame sends, and that it renders the band rows shown there; its colours in window order, the band pixel each panel pixel shows, and the
bytes of each command, all within one assertion of select. A pixel that no render has written shows a free value (log 12). -/
def Obligations.PanelPixelsAndBytes : Prop :=
  (∀ f : FrameCapture,
    f.rows = (if f.wake = false ∧ f.panel.mode = .partialRows then (f.panel.firstRow, f.panel.lastRow) else (0, 119)) ∧
    (∀ (vertical : Bool) (y : Nat), f.renders vertical y = true ↔
      f.rows.1 ≤ panelRow f.lanes vertical y ∧ panelRow f.lanes vertical y ≤ f.rows.2)) ∧
  (∀ (p : Port) (f : FrameCapture) (m : Mem (BitVec 2)),
    let n := f.rows.2 + 1 - f.rows.1
    (frameColours p f m).length = 320 * n ∧
    (∀ x row : Nat, x < 320 → row < n →
      (frameColours p f m)[row * 320 + x]? = some (panelPixel p f m x (f.rows.1 + row))) ∧
    (∀ (lanes : List Lane) (c y : Nat), f.lanes = placeLanes lanes → c < 320 → y < 120 →
      panelPixel p f m (if p.horizontalReversal then 319 - c else c) (panelRow f.lanes p.verticalReversal y) =
        pixelColour p.palette f.panel (bandPixel m c y)) ∧
    (∀ c y : Nat, bandPixel m c y = (Memory.read m (y * 320 + c)).getD (Config.unwrittenPixel (y * 320 + c)))) ∧
  (∀ (lanes : List Lane) (y : Nat), y < 120 →
    let placed := placeLanes lanes
    panelRow placed false y = y ∧
    (∀ l ∈ placed, l.top ≤ y → y < l.top + l.lane.height →
      panelRow placed true y = 120 - l.top - l.lane.height + (y - l.top)) ∧
    ((placed.map (fun l => l.lane.height)).sum ≤ y →
      panelRow placed true y = y - (placed.map (fun l => l.lane.height)).sum)) ∧
  (∀ (x0 x1 y0 y1 : BitVec 16) (colours : List (BitVec 16)),
    let word (w : BitVec 16) : List PortByte := [(true, w.extractLsb' 8 8), (true, w.extractLsb' 0 8)]
    (PanelCommand.setWindow x0.toNat x1.toNat y0.toNat y1.toNat).bytes =
      (false, 0x51) :: (word x0 ++ word x1 ++ word y0 ++ word y1) ∧
    (PanelCommand.writePixels colours).bytes = (false, 0x52) :: colours.flatMap word ∧
    PanelCommand.panelSleep.bytes = [(false, 0x5A)] ∧ PanelCommand.panelWake.bytes = [(false, 0x5B)]) ∧
  (∀ s : State, s.panelAssertions = if s.sul.resetHeld then [] else s.port.sending.map PanelCommand.bytes)

/-- R158, R159: sleep starts at a READY port with no frame under way; when its command completes the port is ASLEEP, and
a mode that has left SLEEP starts the wake frame, from its capture (R140). -/
def Obligations.PanelSleeps : Prop :=
  ∀ s : State, s.active = true →
    (s.port.live.mode = .sleep → s.port.state = .ready → s.ren.frameState = .waiting →
      exec .sleepStart s = .next { s with port := { s.port with state := .sleeping, sending := [.panelSleep] } }) ∧
    (s.port.state = .sleeping → s.port.live.mode = .sleep →
      exec .sleepComplete s = .next { s with port := { s.port with state := .asleep, sending := [] } }) ∧
    (s.port.state = .sleeping → s.port.live.mode ≠ .sleep → s.ren.frameState = .waiting →
      let f := s.captureFrame true
      f.wake = true ∧
      exec .sleepComplete s = .next { s with
        ren := { s.ren with
          view := f.view, frameState := .rendering, frameTimer := 0, capture := some f, column := 0
          boxRuns := f.lanes.map (fun _ => none) }
        port := { s.port with state := .asleep, sending := [], wakePending := true } })

/-! ### Loads and starts -/

/-- R96, R97, R98, R142, R181, R36: what the fields of an image and of a profile become where they are loaded: numbers clamped,
unlisted choices replaced, a unit whose assignment is bad turned OFF with its mark in the decoder-error mask, lanes placed
from the top until one does not fit. That the first eight data fields of a PARALLEL unit which name a channel count, and as
many lanes as the lane count says, is the model's reading (log 25). R180: the parts of a profile that are present load from it,
the absent ones from the built-in default profile. -/
def Obligations.LoadsClampAndCheck : Prop :=
  (∀ (enabled : Levels) (q : Quad RawDecoder) (i : Fin 4),
    let loaded := loadDecoder enabled (q.get i)
    (loadDecoders enabled q).units.get i =
      { settings := loaded.1, running := false, framing := initialFraming loaded.1, glitchSeen := false } ∧
    (loadDecoders enabled q).errorMask.getLsbD i.val = loaded.2) ∧
  (∀ enabled : Levels,
    let on (l : List Nat) : Prop := l.Nodup ∧ ∀ n ∈ l, enabled.getLsbD n = true
    loadDecoder enabled .off = (.off, false) ∧ loadDecoder enabled .unlistedKind = (.off, false) ∧
    (∀ n : Nat, (channelField n).map Fin.val = if n < 16 then some n else none) ∧
    (∀ (channel period bits : Nat) (parity : Option Parity) (stops : Nat) (idle : Option IdleLevel),
      let loaded := loadDecoder enabled (.uart channel period bits parity stops idle)
      (∀ c : Fin 16, channel = c.val → enabled.getLsbD channel = true → loaded = (.uart
        { channel := c, bitPeriod := max 4 (min 65535 period), dataBits := max 5 (min 9 bits)
          parity := parity.getD .none, stopBits := max 1 (min 2 stops), idle := idle.getD .high }, false)) ∧
      (16 ≤ channel ∨ enabled.getLsbD channel = false → loaded = (.off, true))) ∧
    (∀ (clock select : Nat) (polarity : Option SelectPolarity) (dataOut dataIn : Nat) (clockIdle : Option Bool)
      (capture : Option CaptureEdge) (width : Nat) (order : Option BitOrder),
      let loaded := loadDecoder enabled (.spi clock select polarity dataOut dataIn clockIdle capture width order)
      let good : Prop := (dataOut < 16 ∨ dataIn < 16) ∧ on ([clock, select, dataOut, dataIn].filter (· < 16))
      (∀ c : Fin 16, clock = c.val → good → loaded = (.spi
        { clock := c, select := channelField select, polarity := polarity.getD .activeLow
          dataOut := channelField dataOut, dataIn := channelField dataIn, clockIdle := clockIdle.getD false
          capture := capture.getD .leading, width := max 4 (min 32 width), order := order.getD .msbFirst }, false)) ∧
      (16 ≤ clock ∨ ¬good → loaded = (.off, true))) ∧
    (∀ scl sda : Nat,
      let loaded := loadDecoder enabled (.i2c scl sda)
      (∀ a b : Fin 16, scl = a.val → sda = b.val → on [scl, sda] → loaded = (.i2c { scl := a, sda := b }, false)) ∧
      (16 ≤ scl ∨ 16 ≤ sda ∨ ¬on [scl, sda] → loaded = (.off, true))) ∧
    (∀ (clock : Nat) (edge : Option ClockEdge) (data : List Nat) (qualifier : Nat) (level : Option Bool),
      let loaded := loadDecoder enabled (.parallel clock edge data qualifier level)
      let kept := (data.filter (· < 16)).take 8
      let good : Prop := kept ≠ [] ∧ on (clock :: (kept ++ [qualifier].filter (· < 16)))
      (∀ c : Fin 16, clock = c.val → good → ∃ channels : List (Fin 16), channels.map Fin.val = kept ∧ loaded = (.parallel
        { clock := c, edge := edge.getD .rise, data := channels, qualifier := channelField qualifier
          qualifyingLevel := level.getD false }, false)) ∧
      (16 ≤ clock ∨ ¬good → loaded = (.off, true)))) ∧
  (∀ c : RawComparator, loadComparator c =
    { source := c.source.getD 0, kinds := c.kinds, field := c.field.getD .value, width := max 1 (min 32 c.width)
      mask := c.mask, constant := c.constant, isSigned := c.isSigned, accept := c.accept }) ∧
  (∀ l : LevelRecord, loadLevel l = { l with dwellLimit := min 16777215 l.dwellLimit }) ∧
  (∀ l : RawLanes, loadLanes l = (l.lanes.take (max 1 (min 20 l.count))).map (fun x =>
    { source := x.source.getD (.channel 0), height := max 4 (min 24 x.height), colour := x.colour })) ∧
  (∀ u : RunSetup, clampSetup u = { u with
    divider := max 2 (min 1048576 u.divider), segments := max 1 (min 32 u.segments), fraction := min 15 u.fraction }) ∧
  (∀ (g : RawGroup) (code : Byte), loadGroup g code =
    { code := some code, trim := max (-32) (min 31 g.trim), hysteresis := g.hysteresis.getD .mV50
      glitchDetection := g.glitchDetection }) ∧
  (∀ lanes : List Lane,
    let placed := placeLanes lanes
    let below (n : Nat) : Nat := ((lanes.take n).map Lane.height).sum
    placed.map PlacedLane.lane = lanes.take placed.length ∧
    (∀ i : Nat, i < placed.length → (placed.map PlacedLane.top)[i]? = some (below i)) ∧
    below placed.length ≤ 120 ∧ (placed.length < lanes.length → 120 < below (placed.length + 1)) ∧
    (lanesClipped lanes = true ↔ placed.length < lanes.length)) ∧
  (∀ r : RawProfile,
    (r.decoders = none → profileDecoders r = Quad.replicate .off) ∧
    (∀ q : Quad RawDecoder, r.decoders = some q → profileDecoders r = q) ∧
    (r.comparators = none → ∀ i : Fin 4, ((profileComparators r).get i).kinds = 0 ∧
      ((profileComparators r).get i).accept = { lower := false, equal := false, higher := false }) ∧
    (∀ q : Quad RawComparator, r.comparators = some q → ∀ i : Fin 4,
      (profileComparators r).get i = loadComparator (q.get i)) ∧
    (r.sequencer = none → profileProgram r = defaultProgram) ∧
    (∀ p : Program, r.sequencer = some p → ∀ i : Fin 8, (profileProgram r)[i] = loadLevel p[i]) ∧
    (r.lanes = none → profileLanes r =
      (List.range 16).map (fun c => { source := .channel (Fin.ofNat 16 c), height := 7, colour := 1 })) ∧
    (∀ l : RawLanes, r.lanes = some l → profileLanes r = loadLanes l))

/-- R178, R177, R56, R75, R129, R151: a POWER start keeps nothing but what is outside the part: the pins and the commands
waiting. That a held reset pin stays held over it is the model's choice (log 22), and so are the settings that stand until the
image is loaded, the built-in ones (log 6), the level the mark line and the message line are taken to have until the join (log
5), and the counter of the free values, which goes on (log 29). -/
def Obligations.PowerStartKeepsNothing : Prop :=
  ∀ (s : State) (straps : Station),
    exec (.powerUp straps) s = .next { State.reset with
      pfe := { State.reset.pfe with inputs := s.pfe.inputs }
      lnk := { State.reset.lnk with
        observed := s.lnk.observed, transmitter := if straps = 7 then .silent else .idle }
      sul := { State.reset.sul with strap := straps, resetHeld := s.sul.resetHeld }
      pending := s.pending, freeCount := s.freeCount }

/-- R178: while the reset pin is held every block holds and the part drives none of its lines, flash and panel included; no
command but a start, a change outside the part or the pin's release changes anything. That the voltage on a probe pin may
change meanwhile, and an observed flag level may not, is the model's choice (log 26). -/
def Obligations.HeldPartHolds : Prop :=
  ∀ s : State, exec .resetPinAssert s = .next { s with sul := { s.sul with resetHeld := true } } ∧
    (s.sul.resetHeld = true →
      (s.drivesMark = false ∧ s.drivesFlags = 0 ∧ s.sendsBits = [] ∧ s.panelAssertions = [] ∧ s.drivesFlash = false) ∧
      (∀ (c : Fin 16) (input : ProbeInput), exec (.levelChange c input) s =
        .next { s with pfe := { s.pfe with inputs := s.pfe.inputs.set c input } }) ∧
      ∀ i : Instr, (match i with
        | .powerUp _ => False
        | .resetPinRelease _ => False
        | .levelChange _ _ => False
        | _ => True) → exec i s = .next s)

/-- R178, R177, R55, R51, R74, R119, R129, R151: a PIN start keeps the figures, the log's counter, the sticky marks and the
frame store, and the segment table with its open segment, if there is one, closed with RESET and RECOVERED. The close commits an
open entry that holds samples, and the log loses what that commit's advance trims; the units flush nothing. Outside a run it
keeps the table, the log, the stored entries and the checkpoints as they are. The link controller takes R176's values: a station
SILENT after a DUPLICATE_ID is IDLE again, and one strapped 7 SILENT. That the panel port and the loader stand at the
built-in settings until the load is the model's choice (log 6), and so are the levels the mark line and the message line are
taken to have until the join, with the bit clock (log 5, log 15), and that the observed flag levels stand (log 26). -/
def Obligations.PinStartKeepsTheRecords : Prop :=
  ∀ (s : State) (straps : Station), s.sul.resetHeld = true →
    ∃ t : State, exec (.resetPinRelease straps) s = .next t ∧ t.run.state = .idle ∧
      t.run.table.length = s.run.table.length ∧ t.run.figures = s.run.figures ∧ t.cst.openEntry = none ∧
      (s.openRecord? = none →
        t.run.table = s.run.table ∧ t.log = s.log ∧ t.cst = { s.cst with openEntry := none }) ∧
      (∀ g : SegmentRecord, s.openRecord? = some g → ∀ x ∈ t.run.table, x.index = g.index →
        x.state = .closed ∧ x.closeReason = some .reset ∧ x.recovered = true) ∧
      (∀ (g : SegmentRecord) (o : OpenEntry), s.openRecord? = some g → s.cst.openEntry = some o →
        (∀ x ∈ s.run.table, x.index = g.index → x = g) →
        t.run.table = s.run.table.map (fun x =>
          if x.index = g.index then { g.closedWith s.cst.store o .reset with recovered := true } else x) ∧
        t.cst = { store := committedStore s.cst.store g o, openEntry := none
                  checkpoints := committedSlots s.cst.checkpoints g o } ∧
        t.log = s.logAfterClose g o) ∧
      t.log.counter = s.log.counter ∧ t.fc.sticky = s.fc.sticky ∧ t.ren.frameStore = s.ren.frameStore ∧
      t.ren.frameState = .waiting ∧ t.tau = State.reset.tau ∧ t.port = State.reset.port ∧
      t.lnk =
        { transmitter := if straps = 7 then .silent else .idle, frameOnLine := none, receiver := .waiting, idleCount := 0
          lineRecessive := true, bitClock := 0, framePosition := none, queue := [], statusOwed := false, stream := none
          heldDones := [], lastRefusal := none, lastBusError := none, duplicateId := false, observed := s.lnk.observed
          settledDrives := 0, presented := 0, driversEnabled := false } ∧
      t.sul = { State.reset.sul with strap := straps, resetCause := .pin } ∧ t.pending = s.pending

/-- R169, R178, R55, R74: a RESTART addressed to this station is a LINK start: the open segment is closed with RESET and gains
RECOVERED, the segment table loses no record, TAU, the link controller and the loader take their start values, a station SILENT
after a DUPLICATE_ID being IDLE again and one strapped 7 SILENT (R176), and the reset cause is LINK. The close commits an open entry that holds samples, and the units flush before they take their start
values: their records reach the comparators and LOG, whose counter and lost counts go on (R118, R119, R129). The settings of the
panel port, the loader, the decoders and the comparators until the load are the model's (log 6), and so are the levels of the
mark line and the message line until the join, with the bit clock (log 5, log 15), and that the observed flag levels stand (log
26). -/
def Obligations.RestartIsALinkStart : Prop :=
  ∀ (s : State) (source straps : Station) (target : Byte), s.receives = true →
    addressed s.sul.strap (targetOf target) = true →
    ∃ t : State, exec (.restart source target straps) s = .next t ∧ t.run.state = .idle ∧
      t.run.table.length = s.run.table.length ∧ t.run.figures = s.run.figures ∧
      (∀ g : SegmentRecord, s.openRecord? = some g → ∀ x ∈ t.run.table, x.index = g.index →
        x.state = .closed ∧ x.closeReason = some .reset ∧ x.recovered = true) ∧
      t.cst.openEntry = none ∧ t.tau = State.reset.tau ∧ t.port = State.reset.port ∧
      t.lnk =
        { transmitter := if straps = 7 then .silent else .idle, frameOnLine := none, receiver := .waiting, idleCount := 0
          lineRecessive := true, bitClock := 0, framePosition := none, queue := [], statusOwed := false, stream := none
          heldDones := [], lastRefusal := none, lastBusError := none, duplicateId := false, observed := s.lnk.observed
          settledDrives := 0, presented := 0, driversEnabled := false } ∧
      t.ren.frameStore = s.ren.frameStore ∧ t.dec = State.reset.dec ∧ t.fc.settings = State.reset.fc.settings ∧
      (∀ (g : SegmentRecord) (o : OpenEntry), s.openRecord? = some g → s.cst.openEntry = some o →
        (∀ x ∈ s.run.table, x.index = g.index → x = g) →
        t.run.table = s.run.table.map (fun x =>
          if x.index = g.index then { g.closedWith s.cst.store o .reset with recovered := true } else x) ∧
        t.cst = { store := committedStore s.cst.store g o, openEntry := none
                  checkpoints := committedSlots s.cst.checkpoints g o } ∧
        t.log = s.logAfterRun g o ∧ t.fc.sticky = s.fc.sticky ||| hitsOf s.fc.settings (s.flushedRecords g)) ∧
      (s.openRecord? = none → (∀ d : Fin 4, (s.dec.units.get d).running = false) →
        t.run.table = s.run.table ∧ t.cst = { s.cst with openEntry := none } ∧ t.log = s.log ∧
        t.fc.sticky = s.fc.sticky) ∧
      t.sul = { State.reset.sul with strap := straps, resetCause := .link } ∧ t.pending = s.pending

/-- R178, R179, R180, R182: what an attempt on the image does: a bad one counts, the third failure ends BAD with the built-in
defaults, a good one ends GOOD with its sections, and the blocks load them, with the built-in defaults where they are absent.
R179, R186: the image is good when its marker, its length, its sections and its sum are. R180: the contents hold the sections
the list names, and an ARM finds the profiles the profiles section marks present; P0 without that section is the built-in
default profile, the model's reading (log 9). That the settings of the sections come with the command beside the bytes, and
that a byte beyond those given reads 0xFF, are the model's choices (log 7, log 8). -/
def Obligations.ImageAttemptEnds : Prop :=
  (∀ (bytes : List Byte) (image : RawImage),
    let byte (i : Nat) : Nat := (bytes.getD i 0xFF).toNat
    let word (i : Nat) : Nat := 256 * byte i + byte (i + 1)
    let length := word 2
    let count := byte 6
    let names (e k : Nat) : Prop := e < count ∧ byte (7 + 5 * e) = k ∧ 1 ≤ k ∧ k ≤ 5
    let present {α : Type} (k : Nat) (contents : Option α) (spelt : α) : Prop :=
      ((∃ e : Nat, names e k) → contents = some spelt) ∧ ((∀ e : Nat, ¬names e k) → contents = none)
    (imageGood bytes = true ↔ (byte 0 = 0xA5 ∧ byte 1 = 0x3D) ∧ (7 + 5 * count ≤ length ∧ length ≤ 3072) ∧
      (∀ e k : Nat, names e k → word (8 + 5 * e) + word (10 + 5 * e) ≤ length) ∧
      (∀ e d k : Nat, names e k → names d k → e = d) ∧
      ((List.range (length - 7)).map (fun i => byte (7 + i))).sum % 65536 = word 4) ∧
    present 1 (contentsOf bytes image).options image.options ∧ present 2 (contentsOf bytes image).probe image.probe ∧
    present 3 (contentsOf bytes image).panel image.panel ∧ present 4 (contentsOf bytes image).setup image.setup ∧
    present 5 (contentsOf bytes image).profiles image.profiles) ∧
  (∀ (c : ImageContents) (p : Fin 4),
    (∀ q : Quad (Option RawProfile), c.profiles = some q → profileOf c p = q.get p) ∧
    (c.profiles = none → profileOf c p = if p = 0 then
      some { decoders := none, comparators := none, sequencer := none, lanes := none } else none)) ∧
  (∀ (s : State) (bytes : List Byte) (image : RawImage), s.sul.imageState = .reading → s.sul.resetHeld = false →
    let stopped (p : Program) : Tsq :=
      { program := p, level := 0, counter := p[(0 : Fin 8)].count, dwell := 0, drives := 0, qualifier := true, fired := false
        running := false }
    (imageGood bytes = false → s.sul.attempt < 3 →
      exec (.imageAttempt bytes image) s = .next { s with sul := { s.sul with attempt := s.sul.attempt + 1 } }) ∧
    (imageGood bytes = false → 3 ≤ s.sul.attempt → ∃ t : State, exec (.imageAttempt bytes image) s = .next t ∧
      t.sul = { s.sul with imageState := .bad, contents := ImageContents.empty } ∧ t.run.setup = defaultSetup ∧
      t.pfe.enabled = 0xFFFF ∧ t.pfe.groupA.code = some 160 ∧ t.pfe.groupB.code = some 160 ∧
      t.tsq = stopped defaultProgram ∧ t.fc.settings = Quad.replicate defaultComparator ∧
      t.ren.lanes = defaultLanes ∧ t.ren.framePeriodMs = 50 ∧ t.ren.view.scale = 9 ∧ t.port.live.mode = .normal) ∧
    (imageGood bytes = true →
      let c := contentsOf bytes image
      let probe := c.probe.getD defaultProbe
      let panel := c.panel.getD defaultPanel
      let setup := clampSetup (c.setup.getD defaultSetup)
      let profile := (profileOf c 0).getD bareProfile
      ∃ t : State, exec (.imageAttempt bytes image) s = .next t ∧
        t.sul = { s.sul with imageState := .good, contents := c } ∧
        t.run = { s.run with setup := setup, activeProfile := 0 } ∧
        t.pfe = { s.pfe with
          groupA := loadGroup probe.groupA setup.codeA, groupB := loadGroup probe.groupB setup.codeB
          enabled := probe.enabled, inverted := probe.inverted, pullUp := probe.pullUp &&& probe.enabled
          pullDown := probe.pullDown &&& ~~~probe.pullUp &&& probe.enabled
          keeper := probe.keeper &&& ~~~(probe.pullUp ||| probe.pullDown) &&& probe.enabled, raw := t.pfe.raw } ∧
        (∀ (k : Fin 16) (v : Int), levelOf probe.enabled k = true → s.pfe.inputs[k] = .driven v →
          (levelOf t.pfe.raw k = true ↔ 1000 * thresholdMillivolts (if k.val < 8 then setup.codeA else setup.codeB)
            (if k.val < 8 then t.pfe.groupA.trim else t.pfe.groupB.trim) < v)) ∧
        t.tsq = stopped (profileProgram profile) ∧ t.dec = loadDecoders probe.enabled (profileDecoders profile) ∧
        t.fc = { s.fc with settings := profileComparators profile } ∧
        t.ren = { s.ren with
          view := { segment := 0, offset := 0, scale := min 36 panel.scaleStep, follow := true }
          framePeriodMs := max 20 (min 250 panel.framePeriodMs), lanes := profileLanes profile
          lanesClipped := lanesClipped (profileLanes profile) } ∧
        t.port = { s.port with
          live := { mode := panel.mode.getD .normal, inversion := panel.inversion
                    firstRow := min (min 119 panel.firstRow) (min 119 panel.lastRow)
                    lastRow := max (min 119 panel.firstRow) (min 119 panel.lastRow) }
          palette := panel.palette, horizontalReversal := panel.horizontalReversal
          verticalReversal := panel.verticalReversal } ∧
        t.cst = s.cst ∧ t.log = s.log ∧ t.tau = s.tau ∧ t.lnk = s.lnk))

/-- R178, R182, R139, R160, R163: the join tick: the mark line and the message line are observed at the levels JOIN brings (log
5, log 32), the drivers are enabled but at strap 7, the frame timer starts, IMAGE_BAD says how the image ended, a STATUS is
posted, and the wake frame starts, from its capture (R140), or, in SLEEP, PANEL_SLEEP is sent. -/
def Obligations.JoinCompletesTheStart : Prop :=
  ∀ (s : State) (levels : JoinLevels), s.sul.imageState ≠ .reading → s.sul.joined = false → s.sul.resetHeld = false →
    s.port.state = .asleep → s.ren.frameState = .waiting →
    ∃ t : State, exec (.join levels) s = .next t ∧ t.active = true ∧
      (t.sul.imageBad = true ↔ s.sul.imageState = .bad) ∧ t.tau.markLine = levels.markAsserted ∧
      t.lnk.lineRecessive = levels.messageRecessive ∧ t.lnk.framePosition = none ∧
      t.tau.monitorRunning = s.options.referenceClock ∧ t.lnk.receiver = .waiting ∧ t.lnk.idleCount = 0 ∧
      (t.lnk.driversEnabled = true ↔ s.sul.strap ≠ 7) ∧ t.ren.frameTimer = 0 ∧
      (s.port.live.mode ≠ .sleep →
        let f := s.captureFrame true
        f.wake = true ∧ t.port = { s.port with wakePending := true } ∧
          t.ren = { s.ren with
            view := f.view, frameState := .rendering, frameTimer := 0, capture := some f, column := 0
            boxRuns := f.lanes.map (fun _ => none) }) ∧
      (s.port.live.mode = .sleep → t.ren = { s.ren with frameTimer := 0 } ∧ t.port.state = .sleeping ∧ t.port.sending = [.panelSleep]) ∧
      (s.lnk.transmitter = .idle → s.lnk.queue = [] →
        t.lnk.queue.map (fun e => e.message) = [.status t.statusContents])
end

