-- ==== Sys2Proof/Laws/Bytes.lean ====
section
/-! SUPPORT. Sys2Proof/Laws/Bytes.lean: byte order and the check sum of frames (R183, R184). -/

namespace Sys2Proof.Machine

@[simp] theorem bytesBE_length (n v : Nat) : (bytesBE n v).length = n := by
  induction n with
  | zero => rfl
  | succ n ih => simp [bytesBE, ih]

theorem natBE_foldl (l : List Byte) (a : Nat) :
    l.foldl (fun v b => v * 256 + b.toNat) a = a * 256 ^ l.length + natBE l := by
  induction l generalizing a with
  | nil => simp [natBE]
  | cons b rest ih =>
    rw [natBE, List.foldl_cons, List.foldl_cons, ih, ih (0 * 256 + b.toNat)]
    simp only [List.length_cons, Nat.pow_succ]
    ring

theorem natBE_cons (b : Byte) (l : List Byte) : natBE (b :: l) = b.toNat * 256 ^ l.length + natBE l := by
  rw [natBE, List.foldl_cons, natBE_foldl]
  simp

/-- Reading back the `n` low bytes of a number gives it modulo 256 to the `n`. -/
theorem natBE_bytesBE (n v : Nat) : natBE (bytesBE n v) = v % 256 ^ n := by
  induction n with
  | zero => simp [bytesBE, natBE, Nat.mod_one]
  | succ n ih =>
    rw [bytesBE, natBE_cons, ih, bytesBE_length, BitVec.toNat_ofNat]
    have h : v % 256 ^ (n + 1) = v % 256 ^ n + 256 ^ n * (v / 256 ^ n % 256) := Nat.mod_pow_succ
    rw [h, Nat.mul_comm (256 ^ n)]
    exact Nat.add_comm _ _

/-- A 48-bit field is read back from its six bytes. -/
theorem natBE_bytesBE_six (x : BitVec 48) : BitVec.ofNat 48 (natBE (bytesBE 6 x.toNat)) = x := by
  have h : x.toNat < 256 ^ 6 := x.isLt
  rw [natBE_bytesBE, Nat.mod_eq_of_lt h]
  exact BitVec.eq_of_toNat_eq (by simp)

/-- A 32-bit field is read back from its four bytes. -/
theorem natBE_bytesBE_four (x : Word) : BitVec.ofNat 32 (natBE (bytesBE 4 x.toNat)) = x := by
  have h : x.toNat < 256 ^ 4 := x.isLt
  rw [natBE_bytesBE, Nat.mod_eq_of_lt h]
  exact BitVec.eq_of_toNat_eq (by simp)

end Sys2Proof.Machine

namespace Sys2Proof
open Machine

/-- R162, R184: a frame with an allowed length, on the line unharmed, shows no fault. -/
theorem Frame.toRaw_fault {f : Frame} (h : (allowedLengths f.kind.toNat).contains f.payload.length = true) :
    f.toRaw.fault = none := by
  have hk : f.kind.toNat < 12 ∧ f.payload.length ≤ 28 := by
    have e := List.contains_iff_mem.1 h
    have k := f.kind.isLt
    generalize f.kind.toNat = n at e k
    generalize f.payload.length = m at e
    clear h
    have c : n = 0 ∨ n = 1 ∨ n = 2 ∨ n = 3 ∨ n = 4 ∨ n = 5 ∨ n = 6 ∨ n = 7 ∨ n = 8 ∨ n = 9 ∨ n = 10 ∨ n = 11 ∨ n = 12 ∨ n = 13 ∨
        n = 14 ∨ n = 15 := by omega
    rcases c with rfl | rfl | rfl | rfl | rfl | rfl | rfl | rfl | rfl | rfl | rfl | rfl | rfl | rfl | rfl | rfl <;>
      simp [allowedLengths] at e <;> omega
  have hl : f.toRaw.length.toNat = f.payload.length := by
    simp only [Frame.toRaw, BitVec.toNat_ofNat]
    exact Nat.mod_eq_of_lt (by omega)
  have hs : f.toRaw.sum = 0xFF := by
    have e : headerByte1 f.toRaw.length.toNat = headerByte1 f.payload.length := by rw [hl]
    simp only [RawFrame.sum, e]
    show byteSum (headerByte0 f.kind f.source :: headerByte1 f.payload.length :: f.payload)
      + (0xFF - byteSum (headerByte0 f.kind f.source :: headerByte1 f.payload.length :: f.payload)) = 0xFF
    generalize byteSum _ = x
    bv_omega
  have e1 : f.toRaw.end1 = true := rfl
  have e2 : f.toRaw.end2 = true := rfl
  have ek : f.toRaw.kind = f.kind := rfl
  have n1 : ¬ 28 < f.payload.length := by omega
  have n2 : ¬ 12 ≤ f.kind.toNat := by omega
  simp only [RawFrame.fault, hl, e1, e2, ek, hs, n1, n2, h, if_false, Bool.not_true, Bool.false_eq_true, ne_eq,
    not_true_eq_false]

end Sys2Proof
end

