-- ==== Sys2Proof/Laws/State.lean ====
section
/-! SUPPORT. Sys2Proof/Laws/State.lean: every field of the state after every setter. -/

namespace Sys2Proof.Machine

@[simp] theorem State.setTau_tau (s : State) (x : Tau) : (s.setTau x).tau = x := rfl
@[simp] theorem State.setTau_pfe (s : State) (x : Tau) : (s.setTau x).pfe = s.pfe := rfl
@[simp] theorem State.setTau_run (s : State) (x : Tau) : (s.setTau x).run = s.run := rfl
@[simp] theorem State.setTau_cst (s : State) (x : Tau) : (s.setTau x).cst = s.cst := rfl
@[simp] theorem State.setTau_tsq (s : State) (x : Tau) : (s.setTau x).tsq = s.tsq := rfl
@[simp] theorem State.setTau_dec (s : State) (x : Tau) : (s.setTau x).dec = s.dec := rfl
@[simp] theorem State.setTau_log (s : State) (x : Tau) : (s.setTau x).log = s.log := rfl
@[simp] theorem State.setTau_fc (s : State) (x : Tau) : (s.setTau x).fc = s.fc := rfl
@[simp] theorem State.setTau_ren (s : State) (x : Tau) : (s.setTau x).ren = s.ren := rfl
@[simp] theorem State.setTau_port (s : State) (x : Tau) : (s.setTau x).port = s.port := rfl
@[simp] theorem State.setTau_lnk (s : State) (x : Tau) : (s.setTau x).lnk = s.lnk := rfl
@[simp] theorem State.setTau_sul (s : State) (x : Tau) : (s.setTau x).sul = s.sul := rfl
@[simp] theorem State.setTau_pending (s : State) (x : Tau) : (s.setTau x).pending = s.pending := rfl
@[simp] theorem State.setTau_freeCount (s : State) (x : Tau) : (s.setTau x).freeCount = s.freeCount := rfl

@[simp] theorem State.setPfe_tau (s : State) (x : Pfe) : (s.setPfe x).tau = s.tau := rfl
@[simp] theorem State.setPfe_pfe (s : State) (x : Pfe) : (s.setPfe x).pfe = x := rfl
@[simp] theorem State.setPfe_run (s : State) (x : Pfe) : (s.setPfe x).run = s.run := rfl
@[simp] theorem State.setPfe_cst (s : State) (x : Pfe) : (s.setPfe x).cst = s.cst := rfl
@[simp] theorem State.setPfe_tsq (s : State) (x : Pfe) : (s.setPfe x).tsq = s.tsq := rfl
@[simp] theorem State.setPfe_dec (s : State) (x : Pfe) : (s.setPfe x).dec = s.dec := rfl
@[simp] theorem State.setPfe_log (s : State) (x : Pfe) : (s.setPfe x).log = s.log := rfl
@[simp] theorem State.setPfe_fc (s : State) (x : Pfe) : (s.setPfe x).fc = s.fc := rfl
@[simp] theorem State.setPfe_ren (s : State) (x : Pfe) : (s.setPfe x).ren = s.ren := rfl
@[simp] theorem State.setPfe_port (s : State) (x : Pfe) : (s.setPfe x).port = s.port := rfl
@[simp] theorem State.setPfe_lnk (s : State) (x : Pfe) : (s.setPfe x).lnk = s.lnk := rfl
@[simp] theorem State.setPfe_sul (s : State) (x : Pfe) : (s.setPfe x).sul = s.sul := rfl
@[simp] theorem State.setPfe_pending (s : State) (x : Pfe) : (s.setPfe x).pending = s.pending := rfl
@[simp] theorem State.setPfe_freeCount (s : State) (x : Pfe) : (s.setPfe x).freeCount = s.freeCount := rfl

@[simp] theorem State.setRun_tau (s : State) (x : Run) : (s.setRun x).tau = s.tau := rfl
@[simp] theorem State.setRun_pfe (s : State) (x : Run) : (s.setRun x).pfe = s.pfe := rfl
@[simp] theorem State.setRun_run (s : State) (x : Run) : (s.setRun x).run = x := rfl
@[simp] theorem State.setRun_cst (s : State) (x : Run) : (s.setRun x).cst = s.cst := rfl
@[simp] theorem State.setRun_tsq (s : State) (x : Run) : (s.setRun x).tsq = s.tsq := rfl
@[simp] theorem State.setRun_dec (s : State) (x : Run) : (s.setRun x).dec = s.dec := rfl
@[simp] theorem State.setRun_log (s : State) (x : Run) : (s.setRun x).log = s.log := rfl
@[simp] theorem State.setRun_fc (s : State) (x : Run) : (s.setRun x).fc = s.fc := rfl
@[simp] theorem State.setRun_ren (s : State) (x : Run) : (s.setRun x).ren = s.ren := rfl
@[simp] theorem State.setRun_port (s : State) (x : Run) : (s.setRun x).port = s.port := rfl
@[simp] theorem State.setRun_lnk (s : State) (x : Run) : (s.setRun x).lnk = s.lnk := rfl
@[simp] theorem State.setRun_sul (s : State) (x : Run) : (s.setRun x).sul = s.sul := rfl
@[simp] theorem State.setRun_pending (s : State) (x : Run) : (s.setRun x).pending = s.pending := rfl
@[simp] theorem State.setRun_freeCount (s : State) (x : Run) : (s.setRun x).freeCount = s.freeCount := rfl

@[simp] theorem State.setCst_tau (s : State) (x : Cst) : (s.setCst x).tau = s.tau := rfl
@[simp] theorem State.setCst_pfe (s : State) (x : Cst) : (s.setCst x).pfe = s.pfe := rfl
@[simp] theorem State.setCst_run (s : State) (x : Cst) : (s.setCst x).run = s.run := rfl
@[simp] theorem State.setCst_cst (s : State) (x : Cst) : (s.setCst x).cst = x := rfl
@[simp] theorem State.setCst_tsq (s : State) (x : Cst) : (s.setCst x).tsq = s.tsq := rfl
@[simp] theorem State.setCst_dec (s : State) (x : Cst) : (s.setCst x).dec = s.dec := rfl
@[simp] theorem State.setCst_log (s : State) (x : Cst) : (s.setCst x).log = s.log := rfl
@[simp] theorem State.setCst_fc (s : State) (x : Cst) : (s.setCst x).fc = s.fc := rfl
@[simp] theorem State.setCst_ren (s : State) (x : Cst) : (s.setCst x).ren = s.ren := rfl
@[simp] theorem State.setCst_port (s : State) (x : Cst) : (s.setCst x).port = s.port := rfl
@[simp] theorem State.setCst_lnk (s : State) (x : Cst) : (s.setCst x).lnk = s.lnk := rfl
@[simp] theorem State.setCst_sul (s : State) (x : Cst) : (s.setCst x).sul = s.sul := rfl
@[simp] theorem State.setCst_pending (s : State) (x : Cst) : (s.setCst x).pending = s.pending := rfl
@[simp] theorem State.setCst_freeCount (s : State) (x : Cst) : (s.setCst x).freeCount = s.freeCount := rfl

@[simp] theorem State.setTsq_tau (s : State) (x : Tsq) : (s.setTsq x).tau = s.tau := rfl
@[simp] theorem State.setTsq_pfe (s : State) (x : Tsq) : (s.setTsq x).pfe = s.pfe := rfl
@[simp] theorem State.setTsq_run (s : State) (x : Tsq) : (s.setTsq x).run = s.run := rfl
@[simp] theorem State.setTsq_cst (s : State) (x : Tsq) : (s.setTsq x).cst = s.cst := rfl
@[simp] theorem State.setTsq_tsq (s : State) (x : Tsq) : (s.setTsq x).tsq = x := rfl
@[simp] theorem State.setTsq_dec (s : State) (x : Tsq) : (s.setTsq x).dec = s.dec := rfl
@[simp] theorem State.setTsq_log (s : State) (x : Tsq) : (s.setTsq x).log = s.log := rfl
@[simp] theorem State.setTsq_fc (s : State) (x : Tsq) : (s.setTsq x).fc = s.fc := rfl
@[simp] theorem State.setTsq_ren (s : State) (x : Tsq) : (s.setTsq x).ren = s.ren := rfl
@[simp] theorem State.setTsq_port (s : State) (x : Tsq) : (s.setTsq x).port = s.port := rfl
@[simp] theorem State.setTsq_lnk (s : State) (x : Tsq) : (s.setTsq x).lnk = s.lnk := rfl
@[simp] theorem State.setTsq_sul (s : State) (x : Tsq) : (s.setTsq x).sul = s.sul := rfl
@[simp] theorem State.setTsq_pending (s : State) (x : Tsq) : (s.setTsq x).pending = s.pending := rfl
@[simp] theorem State.setTsq_freeCount (s : State) (x : Tsq) : (s.setTsq x).freeCount = s.freeCount := rfl

@[simp] theorem State.setDec_tau (s : State) (x : Dec) : (s.setDec x).tau = s.tau := rfl
@[simp] theorem State.setDec_pfe (s : State) (x : Dec) : (s.setDec x).pfe = s.pfe := rfl
@[simp] theorem State.setDec_run (s : State) (x : Dec) : (s.setDec x).run = s.run := rfl
@[simp] theorem State.setDec_cst (s : State) (x : Dec) : (s.setDec x).cst = s.cst := rfl
@[simp] theorem State.setDec_tsq (s : State) (x : Dec) : (s.setDec x).tsq = s.tsq := rfl
@[simp] theorem State.setDec_dec (s : State) (x : Dec) : (s.setDec x).dec = x := rfl
@[simp] theorem State.setDec_log (s : State) (x : Dec) : (s.setDec x).log = s.log := rfl
@[simp] theorem State.setDec_fc (s : State) (x : Dec) : (s.setDec x).fc = s.fc := rfl
@[simp] theorem State.setDec_ren (s : State) (x : Dec) : (s.setDec x).ren = s.ren := rfl
@[simp] theorem State.setDec_port (s : State) (x : Dec) : (s.setDec x).port = s.port := rfl
@[simp] theorem State.setDec_lnk (s : State) (x : Dec) : (s.setDec x).lnk = s.lnk := rfl
@[simp] theorem State.setDec_sul (s : State) (x : Dec) : (s.setDec x).sul = s.sul := rfl
@[simp] theorem State.setDec_pending (s : State) (x : Dec) : (s.setDec x).pending = s.pending := rfl
@[simp] theorem State.setDec_freeCount (s : State) (x : Dec) : (s.setDec x).freeCount = s.freeCount := rfl

@[simp] theorem State.setLog_tau (s : State) (x : Log) : (s.setLog x).tau = s.tau := rfl
@[simp] theorem State.setLog_pfe (s : State) (x : Log) : (s.setLog x).pfe = s.pfe := rfl
@[simp] theorem State.setLog_run (s : State) (x : Log) : (s.setLog x).run = s.run := rfl
@[simp] theorem State.setLog_cst (s : State) (x : Log) : (s.setLog x).cst = s.cst := rfl
@[simp] theorem State.setLog_tsq (s : State) (x : Log) : (s.setLog x).tsq = s.tsq := rfl
@[simp] theorem State.setLog_dec (s : State) (x : Log) : (s.setLog x).dec = s.dec := rfl
@[simp] theorem State.setLog_log (s : State) (x : Log) : (s.setLog x).log = x := rfl
@[simp] theorem State.setLog_fc (s : State) (x : Log) : (s.setLog x).fc = s.fc := rfl
@[simp] theorem State.setLog_ren (s : State) (x : Log) : (s.setLog x).ren = s.ren := rfl
@[simp] theorem State.setLog_port (s : State) (x : Log) : (s.setLog x).port = s.port := rfl
@[simp] theorem State.setLog_lnk (s : State) (x : Log) : (s.setLog x).lnk = s.lnk := rfl
@[simp] theorem State.setLog_sul (s : State) (x : Log) : (s.setLog x).sul = s.sul := rfl
@[simp] theorem State.setLog_pending (s : State) (x : Log) : (s.setLog x).pending = s.pending := rfl
@[simp] theorem State.setLog_freeCount (s : State) (x : Log) : (s.setLog x).freeCount = s.freeCount := rfl

@[simp] theorem State.setRen_tau (s : State) (x : Ren) : (s.setRen x).tau = s.tau := rfl
@[simp] theorem State.setRen_pfe (s : State) (x : Ren) : (s.setRen x).pfe = s.pfe := rfl
@[simp] theorem State.setRen_run (s : State) (x : Ren) : (s.setRen x).run = s.run := rfl
@[simp] theorem State.setRen_cst (s : State) (x : Ren) : (s.setRen x).cst = s.cst := rfl
@[simp] theorem State.setRen_tsq (s : State) (x : Ren) : (s.setRen x).tsq = s.tsq := rfl
@[simp] theorem State.setRen_dec (s : State) (x : Ren) : (s.setRen x).dec = s.dec := rfl
@[simp] theorem State.setRen_log (s : State) (x : Ren) : (s.setRen x).log = s.log := rfl
@[simp] theorem State.setRen_fc (s : State) (x : Ren) : (s.setRen x).fc = s.fc := rfl
@[simp] theorem State.setRen_ren (s : State) (x : Ren) : (s.setRen x).ren = x := rfl
@[simp] theorem State.setRen_port (s : State) (x : Ren) : (s.setRen x).port = s.port := rfl
@[simp] theorem State.setRen_lnk (s : State) (x : Ren) : (s.setRen x).lnk = s.lnk := rfl
@[simp] theorem State.setRen_sul (s : State) (x : Ren) : (s.setRen x).sul = s.sul := rfl
@[simp] theorem State.setRen_pending (s : State) (x : Ren) : (s.setRen x).pending = s.pending := rfl
@[simp] theorem State.setRen_freeCount (s : State) (x : Ren) : (s.setRen x).freeCount = s.freeCount := rfl

@[simp] theorem State.setPort_tau (s : State) (x : Port) : (s.setPort x).tau = s.tau := rfl
@[simp] theorem State.setPort_pfe (s : State) (x : Port) : (s.setPort x).pfe = s.pfe := rfl
@[simp] theorem State.setPort_run (s : State) (x : Port) : (s.setPort x).run = s.run := rfl
@[simp] theorem State.setPort_cst (s : State) (x : Port) : (s.setPort x).cst = s.cst := rfl
@[simp] theorem State.setPort_tsq (s : State) (x : Port) : (s.setPort x).tsq = s.tsq := rfl
@[simp] theorem State.setPort_dec (s : State) (x : Port) : (s.setPort x).dec = s.dec := rfl
@[simp] theorem State.setPort_log (s : State) (x : Port) : (s.setPort x).log = s.log := rfl
@[simp] theorem State.setPort_fc (s : State) (x : Port) : (s.setPort x).fc = s.fc := rfl
@[simp] theorem State.setPort_ren (s : State) (x : Port) : (s.setPort x).ren = s.ren := rfl
@[simp] theorem State.setPort_port (s : State) (x : Port) : (s.setPort x).port = x := rfl
@[simp] theorem State.setPort_lnk (s : State) (x : Port) : (s.setPort x).lnk = s.lnk := rfl
@[simp] theorem State.setPort_sul (s : State) (x : Port) : (s.setPort x).sul = s.sul := rfl
@[simp] theorem State.setPort_pending (s : State) (x : Port) : (s.setPort x).pending = s.pending := rfl
@[simp] theorem State.setPort_freeCount (s : State) (x : Port) : (s.setPort x).freeCount = s.freeCount := rfl

@[simp] theorem State.setLnk_tau (s : State) (x : Lnk) : (s.setLnk x).tau = s.tau := rfl
@[simp] theorem State.setLnk_pfe (s : State) (x : Lnk) : (s.setLnk x).pfe = s.pfe := rfl
@[simp] theorem State.setLnk_run (s : State) (x : Lnk) : (s.setLnk x).run = s.run := rfl
@[simp] theorem State.setLnk_cst (s : State) (x : Lnk) : (s.setLnk x).cst = s.cst := rfl
@[simp] theorem State.setLnk_tsq (s : State) (x : Lnk) : (s.setLnk x).tsq = s.tsq := rfl
@[simp] theorem State.setLnk_dec (s : State) (x : Lnk) : (s.setLnk x).dec = s.dec := rfl
@[simp] theorem State.setLnk_log (s : State) (x : Lnk) : (s.setLnk x).log = s.log := rfl
@[simp] theorem State.setLnk_fc (s : State) (x : Lnk) : (s.setLnk x).fc = s.fc := rfl
@[simp] theorem State.setLnk_ren (s : State) (x : Lnk) : (s.setLnk x).ren = s.ren := rfl
@[simp] theorem State.setLnk_port (s : State) (x : Lnk) : (s.setLnk x).port = s.port := rfl
@[simp] theorem State.setLnk_lnk (s : State) (x : Lnk) : (s.setLnk x).lnk = x := rfl
@[simp] theorem State.setLnk_sul (s : State) (x : Lnk) : (s.setLnk x).sul = s.sul := rfl
@[simp] theorem State.setLnk_pending (s : State) (x : Lnk) : (s.setLnk x).pending = s.pending := rfl
@[simp] theorem State.setLnk_freeCount (s : State) (x : Lnk) : (s.setLnk x).freeCount = s.freeCount := rfl

@[simp] theorem State.fresh_tau (s : State) : s.fresh.tau = s.tau := rfl
@[simp] theorem State.fresh_pfe (s : State) : s.fresh.pfe = s.pfe := rfl
@[simp] theorem State.fresh_run (s : State) : s.fresh.run = s.run := rfl
@[simp] theorem State.fresh_cst (s : State) : s.fresh.cst = s.cst := rfl
@[simp] theorem State.fresh_tsq (s : State) : s.fresh.tsq = s.tsq := rfl
@[simp] theorem State.fresh_dec (s : State) : s.fresh.dec = s.dec := rfl
@[simp] theorem State.fresh_log (s : State) : s.fresh.log = s.log := rfl
@[simp] theorem State.fresh_fc (s : State) : s.fresh.fc = s.fc := rfl
@[simp] theorem State.fresh_ren (s : State) : s.fresh.ren = s.ren := rfl
@[simp] theorem State.fresh_port (s : State) : s.fresh.port = s.port := rfl
@[simp] theorem State.fresh_lnk (s : State) : s.fresh.lnk = s.lnk := rfl
@[simp] theorem State.fresh_sul (s : State) : s.fresh.sul = s.sul := rfl
@[simp] theorem State.fresh_pending (s : State) : s.fresh.pending = s.pending := rfl
@[simp] theorem State.fresh_freeCount (s : State) : s.fresh.freeCount = s.freeCount + 1 := rfl

@[simp] theorem State.updateRecord_tau (s : State) (i : Nat) (f : SegmentRecord → SegmentRecord) :
    (s.updateRecord i f).tau = s.tau := rfl
@[simp] theorem State.updateRecord_pfe (s : State) (i : Nat) (f : SegmentRecord → SegmentRecord) :
    (s.updateRecord i f).pfe = s.pfe := rfl
@[simp] theorem State.updateRecord_cst (s : State) (i : Nat) (f : SegmentRecord → SegmentRecord) :
    (s.updateRecord i f).cst = s.cst := rfl
@[simp] theorem State.updateRecord_tsq (s : State) (i : Nat) (f : SegmentRecord → SegmentRecord) :
    (s.updateRecord i f).tsq = s.tsq := rfl
@[simp] theorem State.updateRecord_dec (s : State) (i : Nat) (f : SegmentRecord → SegmentRecord) :
    (s.updateRecord i f).dec = s.dec := rfl
@[simp] theorem State.updateRecord_log (s : State) (i : Nat) (f : SegmentRecord → SegmentRecord) :
    (s.updateRecord i f).log = s.log := rfl
@[simp] theorem State.updateRecord_fc (s : State) (i : Nat) (f : SegmentRecord → SegmentRecord) :
    (s.updateRecord i f).fc = s.fc := rfl
@[simp] theorem State.updateRecord_ren (s : State) (i : Nat) (f : SegmentRecord → SegmentRecord) :
    (s.updateRecord i f).ren = s.ren := rfl
@[simp] theorem State.updateRecord_port (s : State) (i : Nat) (f : SegmentRecord → SegmentRecord) :
    (s.updateRecord i f).port = s.port := rfl
@[simp] theorem State.updateRecord_lnk (s : State) (i : Nat) (f : SegmentRecord → SegmentRecord) :
    (s.updateRecord i f).lnk = s.lnk := rfl
@[simp] theorem State.updateRecord_sul (s : State) (i : Nat) (f : SegmentRecord → SegmentRecord) :
    (s.updateRecord i f).sul = s.sul := rfl
@[simp] theorem State.updateRecord_pending (s : State) (i : Nat) (f : SegmentRecord → SegmentRecord) :
    (s.updateRecord i f).pending = s.pending := rfl
@[simp] theorem State.updateRecord_freeCount (s : State) (i : Nat) (f : SegmentRecord → SegmentRecord) :
    (s.updateRecord i f).freeCount = s.freeCount := rfl

@[simp] theorem State.enqueue_tau (s : State) (e : QueueEntry) : (s.enqueue e).tau = s.tau := rfl
@[simp] theorem State.enqueue_pfe (s : State) (e : QueueEntry) : (s.enqueue e).pfe = s.pfe := rfl
@[simp] theorem State.enqueue_run (s : State) (e : QueueEntry) : (s.enqueue e).run = s.run := rfl
@[simp] theorem State.enqueue_cst (s : State) (e : QueueEntry) : (s.enqueue e).cst = s.cst := rfl
@[simp] theorem State.enqueue_tsq (s : State) (e : QueueEntry) : (s.enqueue e).tsq = s.tsq := rfl
@[simp] theorem State.enqueue_dec (s : State) (e : QueueEntry) : (s.enqueue e).dec = s.dec := rfl
@[simp] theorem State.enqueue_log (s : State) (e : QueueEntry) : (s.enqueue e).log = s.log := rfl
@[simp] theorem State.enqueue_fc (s : State) (e : QueueEntry) : (s.enqueue e).fc = s.fc := rfl
@[simp] theorem State.enqueue_ren (s : State) (e : QueueEntry) : (s.enqueue e).ren = s.ren := rfl
@[simp] theorem State.enqueue_port (s : State) (e : QueueEntry) : (s.enqueue e).port = s.port := rfl
@[simp] theorem State.enqueue_sul (s : State) (e : QueueEntry) : (s.enqueue e).sul = s.sul := rfl
@[simp] theorem State.enqueue_pending (s : State) (e : QueueEntry) : (s.enqueue e).pending = s.pending := rfl
@[simp] theorem State.enqueue_freeCount (s : State) (e : QueueEntry) : (s.enqueue e).freeCount = s.freeCount := rfl

end Sys2Proof.Machine
end

