-- ==== Sys2Proof/Laws/Table.lean ====
section
/-! SUPPORT. Sys2Proof/Laws/Table.lean: the segment table and its open record under the operations that change records. -/

namespace Sys2Proof.Machine

/-- Changing the open record changes exactly the records with its index. -/
theorem State.updateOpen_eq (s : State) (f : SegmentRecord → SegmentRecord) :
    s.updateOpen f = { s with run := { s.run with
      table := s.run.table.map (fun r => if s.openIndex? = some r.index then f r else r) } } := by
  unfold State.updateOpen
  split
  · next i h =>
    have e (r : SegmentRecord) : (r.index == i) = true ↔ some i = some r.index := by
      rw [beq_iff_eq, Option.some_inj]; exact eq_comm
    simp only [State.updateRecord, h, e]
  · next h => simp [h]

theorem State.updateRecord_eq (s : State) (i : Nat) (f : SegmentRecord → SegmentRecord) :
    s.updateRecord i f = { s with run := { s.run with
      table := s.run.table.map (fun r => if r.index = i then f r else r) } } := by
  simp [State.updateRecord]

/-- The open record depends on the run state and the table alone. -/
theorem State.openRecord?_congr {s t : State} (h : t.run.state.hasSegment = s.run.state.hasSegment)
    (e : t.run.table = s.run.table) : t.openRecord? = s.openRecord? := by
  simp only [State.openRecord?, h, e]

theorem State.openIndex?_congr {s t : State} (h : t.run.state.hasSegment = s.run.state.hasSegment)
    (e : t.run.table.map SegmentRecord.index = s.run.table.map SegmentRecord.index) : t.openIndex? = s.openIndex? := by
  have g (l : List SegmentRecord) : l.getLast?.map SegmentRecord.index = (l.map SegmentRecord.index).getLast? := by
    simp
  simp only [State.openIndex?, State.openRecord?, h]
  split
  · rw [g, g, e]
  · rfl

theorem map_index_of_keeps {f : SegmentRecord → SegmentRecord} (h : ∀ r, (f r).index = r.index) (l : List SegmentRecord) :
    (l.map f).map SegmentRecord.index = l.map SegmentRecord.index := by
  simp [Function.comp_def, h]

/-- A change of records that keeps their indices keeps the open index. -/
theorem State.updateRecord_openIndex? (s : State) (i : Nat) {f : SegmentRecord → SegmentRecord}
    (h : ∀ r, (f r).index = r.index) : (s.updateRecord i f).openIndex? = s.openIndex? := by
  refine State.openIndex?_congr rfl ?_
  refine map_index_of_keeps (fun r => ?_) _
  split <;> simp [h]

theorem State.updateOpen_openIndex? (s : State) {f : SegmentRecord → SegmentRecord} (h : ∀ r, (f r).index = r.index) :
    (s.updateOpen f).openIndex? = s.openIndex? := by
  unfold State.updateOpen
  split
  · exact State.updateRecord_openIndex? s _ h
  · rfl

/-- With no segment open there is no open index. -/
theorem State.openIndex?_of_noSegment {s : State} (h : s.run.state.hasSegment = false) : s.openIndex? = none := by
  simp [State.openIndex?, State.openRecord?, h]

theorem State.updateOpen_of_none {s : State} (h : s.openIndex? = none) (f : SegmentRecord → SegmentRecord) :
    s.updateOpen f = s := by
  simp [State.updateOpen, h]

end Sys2Proof.Machine
end

