-- ==== Sys2Proof/Laws/Preserve.lean ====
section
/-! SUPPORT. Sys2Proof/Laws/Preserve.lean: one induction over the taking of samples. A property of the log, the stores, the
renderer and the link controller that six shared operations keep is kept by every sample, mark edge, segment close and end
of a run. -/

namespace Sys2Proof.Machine

/-- The six things to show of a property of a state's log, stores, renderer and link controller. -/
structure SamplingKeeps (P : State → Prop) : Prop where
  /-- The property looks at nothing else. -/
  elsewhere : ∀ {s t : State}, P s → t.log = s.log → t.cst.store = s.cst.store →
    t.cst.checkpoints = s.cst.checkpoints → t.ren = s.ren → t.lnk = s.lnk → P t
  postStatus : ∀ {s : State}, P s → P s.postStatus
  postNotice : ∀ {s : State} (i time : Nat), P s → P (s.postNotice i time)
  commitOpen : ∀ {s : State}, P s → P s.commitOpen.1
  preTriggerCut : ∀ {s : State}, P s → P s.preTriggerCut.1
  logSample : ∀ {s : State} (rs : RunState) (first : Nat) (l : List DecodeRecord) (a : List Advance),
    P s → P (s.logSample rs first l a)

namespace SamplingKeeps
variable {P : State → Prop} {s : State}

theorem setTau (k : SamplingKeeps P) (t : Tau) (h : P s) : P (s.setTau t) := k.elsewhere h rfl rfl rfl rfl rfl
theorem setPfe (k : SamplingKeeps P) (p : Pfe) (h : P s) : P (s.setPfe p) := k.elsewhere h rfl rfl rfl rfl rfl

theorem updateOpen (k : SamplingKeeps P) (f : SegmentRecord → SegmentRecord) (h : P s) : P (s.updateOpen f) := by
  rw [State.updateOpen_eq]; exact k.elsewhere h rfl rfl rfl rfl rfl

theorem trims (k : SamplingKeeps P) (l : List Advance) (h : P s) : P (l.foldl State.trimLog s) := by
  have := k.logSample .idle 0 [] l h
  rwa [State.logSample] at this

theorem closeSegment (k : SamplingKeeps P) (c : CloseReason) (h : P s) : P (s.closeSegment c) :=
  k.elsewhere (k.updateOpen (fun r => { r with state := .closed, closeReason := some c })
    (k.trims s.commitOpen.2 (k.commitOpen h))) rfl rfl rfl rfl rfl

theorem flushDecoders (k : SamplingKeeps P) (h : P s) : P s.flushDecoders := by
  unfold State.flushDecoders
  dsimp only
  split
  · exact k.elsewhere (k.logSample _ _ _ _ (k.elsewhere (t := s.compareRecords _) h rfl rfl rfl rfl rfl))
      rfl rfl rfl rfl rfl
  · exact k.elsewhere h rfl rfl rfl rfl rfl

theorem endRunTime (k : SamplingKeeps P) (h : P s) : P s.endRunTime := k.elsewhere h rfl rfl rfl rfl rfl

theorem endRun (k : SamplingKeeps P) (h : P s) : P s.endRun := k.postStatus (k.flushDecoders (k.endRunTime h))

theorem closeAndEnd (k : SamplingKeeps P) (c : CloseReason) (h : P s) : P (s.closeAndEnd c) :=
  k.endRun (k.closeSegment c h)

theorem openSegment (k : SamplingKeeps P) (i m : Nat) (h : P s) : P (s.openSegment i m) := by
  unfold State.openSegment
  split
  · exact k.postStatus (k.elsewhere h rfl rfl rfl rfl rfl)
  · exact h

theorem enterPretrigIfFilled (k : SamplingKeeps P) (h : P s) : P s.enterPretrigIfFilled := by
  unfold State.enterPretrigIfFilled
  split
  · split
    · exact k.postStatus (k.elsewhere h rfl rfl rfl rfl rfl)
    · exact h
  · exact h
  · exact h

theorem closeIfFilled (k : SamplingKeeps P) (m : Nat) (h : P s) : P (s.closeIfFilled m) := by
  unfold State.closeIfFilled
  split
  · split
    · dsimp only
      split
      · exact k.openSegment _ _ (k.closeSegment _ h)
      · exact k.endRun (k.closeSegment _ h)
    · exact h
  · exact h
  · exact h

theorem arrive (k : SamplingKeeps P) (m : Nat) (w g : Levels) (h : P s) : P (s.arrive m w g).1 := by
  unfold State.arrive
  split
  · exact k.closeIfFilled m (k.enterPretrigIfFilled (k.commitOpen h))
  · exact h

theorem enterSample (k : SamplingKeeps P) (m : Nat) (d : EntryData) (h : P s) : P (s.enterSample m d) := by
  unfold State.enterSample
  split
  · exact k.updateOpen _ (k.elsewhere h rfl rfl rfl rfl rfl)
  · exact h

theorem takeTrigger (k : SamplingKeeps P) (t : Nat) (w g : Levels) (src : TriggerSource) (h : P s) :
    P (s.takeTrigger t w g src).1 := by
  have cut : P (s.commitOpen.1.preTriggerCut.1.updateOpen (fun r => r.triggered t s.divider src)) :=
    k.updateOpen _ (k.preTriggerCut (k.commitOpen h))
  have posted : ∀ {u : State}, u.log = _ → u.cst.store = _ → u.cst.checkpoints = _ → u.ren = _ → u.lnk = _ →
      P u.postStatus := fun e1 e2 e3 e4 e5 => k.postStatus (k.elsewhere cut e1 e2 e3 e4 e5)
  unfold State.takeTrigger
  dsimp only
  split
  · exact k.postNotice _ _ (posted rfl rfl rfl rfl rfl)
  all_goals exact posted rfl rfl rfl rfl rfl

theorem compress (k : SamplingKeeps P) (m : Nat) (w g : Levels) (q : Bool) (t : Option TriggerSource) (h : P s) :
    P (s.compress m w g q t).1 := by
  unfold State.compress
  split
  · exact k.takeTrigger _ _ _ _ h
  · exact k.enterSample _ _ h

theorem takeArrived (k : SamplingKeeps P) (b : State) (m : Nat) (w g l : Levels) (a : List Advance) (h : P s) :
    P (s.takeArrived b m w g l a) := by
  unfold State.takeArrived
  dsimp only
  exact k.setPfe _ (k.logSample _ _ _ _ (k.compress _ _ _ _ _ (k.elsewhere h rfl rfl rfl rfl rfl)))

/-- Every sample keeps the property. -/
theorem takeSample (k : SamplingKeeps P) (h : P s) : P s.takeSample := by
  unfold State.takeSample
  split
  · have f : P s.formWord := k.elsewhere h rfl rfl rfl rfl rfl
    dsimp only
    split
    · exact k.takeArrived _ _ _ _ _ _ (k.arrive _ _ _ f)
    · exact k.arrive _ _ _ f
  · exact h

theorem takeDue (k : SamplingKeeps P) (n : Nat) (h : P s) : P (State.takeDue n s) := by
  induction n generalizing s with
  | zero => exact h
  | succ n ih =>
    unfold State.takeDue
    split
    · exact ih (k.takeSample h)
    · exact h

theorem takeAllDue (k : SamplingKeeps P) (h : P s) : P s.takeAllDue := k.takeDue _ h

/-- Every mark-edge step keeps the property. -/
theorem markEdgeStep (k : SamplingKeeps P) (h : P s) : P s.markEdgeStep := by
  unfold State.markEdgeStep
  split
  · exact h
  · dsimp only
    split
    · exact k.closeAndEnd _ (k.updateOpen _ (k.takeAllDue (k.setTau _ h)))
    · exact k.updateOpen _ (k.takeAllDue (k.setTau _ h))

theorem observeLeadingEdge (k : SamplingKeeps P) (h : P s) : P s.observeLeadingEdge := k.markEdgeStep (k.setTau _ h)

theorem startRun (k : SamplingKeeps P) (h : P s) : P s.startRun :=
  k.takeAllDue (k.openSegment 0 0 (k.elsewhere h rfl rfl rfl rfl rfl))

theorem switchClock (k : SamplingKeeps P) (c : ClockState) (h : P s) : P (s.switchClock c) :=
  k.updateOpen _ (k.setTau _ h)

theorem recover (k : SamplingKeeps P) (h : P s) : P s.recover := by
  unfold State.recover
  split
  · exact k.updateOpen _ (k.closeSegment _ h)
  · exact h

end SamplingKeeps

end Sys2Proof.Machine
end

