-- ==== Sys2Proof/Laws/Queue.lean ====
section
/-! SUPPORT. Sys2Proof/Laws/Queue.lean: what posting to the transmit queue can change. -/

namespace Sys2Proof.Machine

theorem State.reclaimEntry_eq {s t : State} {k : Nat} (h : s.reclaimEntry k = some t) : t = { s with lnk := t.lnk } := by
  unfold State.reclaimEntry at h
  split at h
  · split at h <;> cases h; rfl
  · split at h <;> cases h; rfl

/-- Posting a STATUS changes LNK alone. -/
theorem State.postStatus_eq (s : State) : s.postStatus = { s with lnk := s.postStatus.lnk } := by
  unfold State.postStatus
  dsimp only
  split
  · rfl
  split
  · rfl
  split
  · rfl
  split
  · next t h => rw [State.reclaimEntry_eq h]; rfl
  · rfl

/-- Posting a DONE changes LNK alone. -/
theorem State.postDone_eq (s : State) (d : Done) : s.postDone d = { s with lnk := (s.postDone d).lnk } := by
  unfold State.postDone
  split
  · rfl
  split <;> rfl

/-- Posting a NOTICE changes LNK and, where the NOTICE is dropped, the record it names. -/
theorem State.postNotice_eq (s : State) (i time : Nat) :
    s.postNotice i time = { s with
      lnk := (s.postNotice i time).lnk, run := { s.run with table := (s.postNotice i time).run.table } } := by
  unfold State.postNotice
  split
  · split <;> rfl
  split
  · rfl
  split
  · next t h => rw [State.reclaimEntry_eq h]; rfl
  · rfl

/-- SILENT, no STATUS joins the queue. -/
theorem State.postStatus_silent {s : State} (h : s.lnk.transmitter = .silent) : s.postStatus = s := by
  simp [State.postStatus, h]

/-- A STATUS joins a queue that has room and holds none. -/
theorem State.postStatus_joins {s : State} (h : s.lnk.transmitter ≠ .silent)
    (n : s.lnk.queue.any QueueEntry.isStatus = false) (r : s.lnk.queue.length < 8) :
    s.postStatus = { s with lnk := { s.lnk with
      statusOwed := false, queue := s.lnk.queue ++
        [{ QueueEntry.new (.status s.statusContents) with tookFreedEntry := s.lnk.statusOwed }] } } := by
  have r' : s.hasRoom = true := decide_eq_true r
  simp [State.postStatus, h, n, r', State.enqueue, State.setLnk]

/-- With messages of no freed entry there is none to take back. -/
theorem removeLast_none {α : Type} {p : α → Bool} {l : List α} (h : ∀ x ∈ l, p x = false) : removeLast p l = none := by
  induction l with
  | nil => rfl
  | cons x rest ih =>
    simp [removeLast, ih (fun y hy => h y (List.mem_cons_of_mem _ hy)), h x (List.mem_cons_self ..)]

theorem State.reclaimEntry_none {s : State} {k : Nat} (h : ∀ e ∈ s.lnk.queue, e.tookFreedEntry = false) :
    s.reclaimEntry k = none := by
  have a : removeLast QueueEntry.yieldingDone s.lnk.queue = none :=
    removeLast_none (fun e he => by simp [QueueEntry.yieldingDone, h e he])
  have b : removeLast QueueEntry.yieldingStatus s.lnk.queue = none :=
    removeLast_none (fun e he => by simp [QueueEntry.yieldingStatus, h e he])
  simp [State.reclaimEntry, a, b]

end Sys2Proof.Machine
end

