-- ==== Sys2Proof/Laws/LogLaw.lean ====
section
/-! SUPPORT. Sys2Proof/Laws/LogLaw.lean: what the log's operations do to its law (R121, R122, R124, R125). -/

namespace Sys2Proof.Machine

theorem Quad.get_set {α : Type} (q : Quad α) (i j : Fin 4) (a : α) :
    (q.set i a).get j = if j = i then a else q.get j := by
  fin_cases i <;> fin_cases j <;> rfl

/-- Removing records keeps the law. -/
theorem LogLaw.sublist {l : Log} (h : LogLaw l) {rs : List LogRecord} (hs : rs.Sublist l.records) :
    LogLaw { l with records := rs } :=
  ⟨Nat.le_trans hs.length_le h.1, h.2.sublist hs, fun r hr => h.3 r (hs.subset hr), h.4, h.5⟩

/-- A record that takes the counter's number and joins at the newest end keeps the law. -/
theorem LogLaw.join {l : Log} (h : LogLaw l) (hc : l.counter < Config.sequenceLimit) (c : DecodeRecord)
    {rs : List LogRecord} (hs : rs.Sublist l.records) (hl : rs.length < Config.logCapacity) :
    LogLaw { l with records := rs ++ [{ sequence := l.counter, content := c }], counter := l.counter + 1 } := by
  refine ⟨?_, ?_, ?_, hc, h.5⟩
  · simp only [List.length_append, List.length_singleton]; exact hl
  · refine List.pairwise_append.2 ⟨h.2.sublist hs, List.pairwise_singleton _ _, fun a ha b hb => ?_⟩
    rw [List.mem_singleton.1 hb]; exact h.3 a (hs.subset ha)
  · intro r hr
    rcases List.mem_append.1 hr with hr | hr
    · exact Nat.lt_succ_of_lt (h.3 r (hs.subset hr))
    · rw [List.mem_singleton.1 hr]; exact Nat.lt_succ_self _

theorem State.dropRecord_logLaw {s : State} (h : LogLaw s.log) (r : DecodeRecord) : LogLaw (s.dropRecord r).log := by
  have hl : LogLaw { s.log with
      lost := s.log.lost.set r.decoder (min Config.lostLimit (s.log.lost.get r.decoder + 1)) } := by
    refine ⟨h.1, h.2, h.3, h.4, fun d => ?_⟩
    dsimp only
    rw [Quad.get_set]
    split
    · exact Nat.min_le_left _ _
    · exact h.5 d
  unfold State.dropRecord
  dsimp only
  split
  · rw [State.updateOpen_eq]; exact hl
  · exact hl

theorem State.logRecord_logLaw {s : State} (h : LogLaw s.log) (rs : RunState) (first : Nat) (r : DecodeRecord) :
    LogLaw (s.logRecord rs first r).log := by
  unfold State.logRecord
  split
  · exact State.dropRecord_logLaw h _
  · next hc =>
    have hc : s.log.counter < Config.sequenceLimit := Nat.lt_of_not_le hc
    dsimp only
    unfold State.placeRecord
    dsimp only
    split
    · next hl => exact h.join hc _ (List.Sublist.refl _) hl
    split
    · next hp =>
      refine h.join hc _ List.eraseP_sublist ?_
      simp only [Bool.and_eq_true, List.any_eq_true] at hp
      obtain ⟨x, hx, hxp⟩ := hp.2
      simp only [State.setLog_log] at hx
      have hlen := List.length_eraseP_of_mem (p := fun (l : LogRecord) =>
        (s.setLog { s.log with counter := s.log.counter + 1 }).openIndex? == some l.content.segment) hx hxp
      have hpos := List.length_pos_of_mem hx
      have hcap := h.1
      exact Nat.lt_of_lt_of_le (hlen.trans_lt (Nat.sub_lt hpos Nat.one_pos)) hcap
    · refine State.dropRecord_logLaw (s := s.setLog _) ?_ _
      exact ⟨h.1, h.2, fun r hr => Nat.lt_succ_of_lt (h.3 r hr), hc, h.5⟩

theorem State.foldl_trimLog_logLaw {s : State} (h : LogLaw s.log) (l : List Advance) :
    LogLaw (l.foldl State.trimLog s).log := by
  induction l generalizing s with
  | nil => exact h
  | cons a rest ih => exact ih (h.sublist List.filter_sublist)

theorem State.logSample_logLaw {s : State} (h : LogLaw s.log) (rs : RunState) (first : Nat) (l : List DecodeRecord)
    (a : List Advance) : LogLaw (s.logSample rs first l a).log := by
  induction l generalizing s rs first a with
  | nil => unfold State.logSample; exact State.foldl_trimLog_logLaw h _
  | cons r rest ih =>
    cases a with
    | nil => unfold State.logSample; exact ih (State.logRecord_logLaw h ..) ..
    | cons a more =>
      unfold State.logSample
      dsimp only
      exact ih (State.logRecord_logLaw (State.foldl_trimLog_logLaw (s := s.fresh) h _) ..) ..

theorem State.commitOpen_log (s : State) : s.commitOpen.1.log = s.log := by
  unfold State.commitOpen
  split
  · split
    · unfold State.commitEntry; dsimp only; split <;> rfl
    · rfl
  · rfl
  · rfl

theorem State.preTriggerCut_log (s : State) : s.preTriggerCut.1.log = s.log := by
  unfold State.preTriggerCut
  split
  · split
    · rfl
    · split <;> rfl
  · rfl
  · rfl

theorem samplingKeeps_logLaw : SamplingKeeps (fun s => LogLaw s.log) where
  elsewhere h e _ _ _ _ := e ▸ h
  postStatus {s} h := by rw [State.postStatus_eq]; exact h
  postNotice i t h := by rw [State.postNotice_eq]; exact h
  commitOpen {s} h := by rw [State.commitOpen_log]; exact h
  preTriggerCut {s} h := by rw [State.preTriggerCut_log]; exact h
  logSample rs first l a h := State.logSample_logLaw h rs first l a

end Sys2Proof.Machine
end

