-- ==== Sys2Proof/Laws/Memory.lean ====
section
/-! SUPPORT. Sys2Proof/Laws/Memory.lean: reads after writes and erasures of a sparse store, and that every operation on one
keeps its canonical form. -/

namespace Sys2Proof.Machine

variable {α : Type}

@[simp] theorem Memory.read_nil (p : Nat) : Memory.read ([] : Mem α) p = none := rfl

theorem Memory.read_write_same (m : Mem α) (p : Nat) (v : α) : Memory.read (Memory.write m p v) p = some v := by
  induction m with
  | nil => simp [Memory.write, Memory.read]
  | cons e rest ih =>
    obtain ⟨k, w⟩ := e
    unfold Memory.write
    split
    · simp [Memory.read]
    split
    · simp [Memory.read]
    · next h => simp [Memory.read, Ne.symm h, ih]

theorem Memory.read_write_other (m : Mem α) {p q : Nat} (v : α) (h : q ≠ p) :
    Memory.read (Memory.write m p v) q = Memory.read m q := by
  induction m with
  | nil => simp [Memory.write, Memory.read, h.symm]
  | cons e rest ih =>
    obtain ⟨k, w⟩ := e
    unfold Memory.write
    split
    · simp [Memory.read, h.symm]
    split
    · next e => subst e; simp [Memory.read, h.symm]
    · simp only [Memory.read, ih]

theorem Memory.wf_cons (k : Nat) (v : α) (rest : Mem α) :
    Memory.wf ((k, v) :: rest) = true ↔ (∀ e ∈ rest, k < e.1) ∧ Memory.wf rest = true := by
  simp [Memory.wf, List.all_eq_true]

theorem Memory.mem_write {m : Mem α} {p : Nat} {v : α} {e : Nat × α} (h : e ∈ Memory.write m p v) :
    e = (p, v) ∨ e ∈ m := by
  induction m with
  | nil => simpa [Memory.write] using h
  | cons x rest ih =>
    obtain ⟨k, w⟩ := x
    unfold Memory.write at h
    split at h
    · simpa using h
    split at h
    · rcases List.mem_cons.1 h with h | h
      · exact .inl h
      · exact .inr (List.mem_cons_of_mem _ h)
    · rcases List.mem_cons.1 h with h | h
      · exact .inr (h ▸ List.mem_cons_self ..)
      · exact (ih h).imp_right (List.mem_cons_of_mem _)

/-- A write keeps the canonical form. -/
theorem Memory.write_wf {m : Mem α} (h : Memory.wf m = true) (p : Nat) (v : α) :
    Memory.wf (Memory.write m p v) = true := by
  induction m with
  | nil => rfl
  | cons x rest ih =>
    obtain ⟨k, w⟩ := x
    have hk := (Memory.wf_cons k w rest).1 h
    unfold Memory.write
    split
    · next hp =>
      refine (Memory.wf_cons p v _).2 ⟨fun e he => ?_, h⟩
      rcases List.mem_cons.1 he with rfl | he
      · exact hp
      · exact Nat.lt_trans hp (hk.1 e he)
    split
    · next _ hp => subst hp; exact (Memory.wf_cons _ v rest).2 hk
    · next h1 h2 =>
      refine (Memory.wf_cons k w _).2 ⟨fun e he => ?_, ih hk.2⟩
      rcases Memory.mem_write he with rfl | he
      · exact Nat.lt_of_le_of_ne (Nat.le_of_not_lt h1) (Ne.symm h2)
      · exact hk.1 e he

theorem Memory.filter_wf {m : Mem α} (h : Memory.wf m = true) (f : Nat × α → Bool) : Memory.wf (m.filter f) = true := by
  induction m with
  | nil => rfl
  | cons x rest ih =>
    obtain ⟨k, w⟩ := x
    have hk := (Memory.wf_cons k w rest).1 h
    rw [List.filter_cons]
    split
    · exact (Memory.wf_cons k w _).2 ⟨fun e he => hk.1 e (List.mem_filter.1 he).1, ih hk.2⟩
    · exact ih hk.2

/-- Unlisting positions keeps the canonical form. -/
theorem Memory.eraseAll_wf {m : Mem α} (h : Memory.wf m = true) (ps : List Nat) : Memory.wf (Memory.eraseAll m ps) = true :=
  Memory.filter_wf h _

theorem Memory.read_eraseAll (m : Mem α) (ps : List Nat) (p : Nat) :
    Memory.read (Memory.eraseAll m ps) p = if p ∈ ps then none else Memory.read m p := by
  induction m with
  | nil => simp [Memory.eraseAll]
  | cons x rest ih =>
    obtain ⟨k, w⟩ := x
    unfold Memory.eraseAll at ih ⊢
    rw [List.filter_cons]
    by_cases hk : k ∈ ps
    · simp only [List.contains_iff_mem.2 hk, Bool.not_true, Bool.false_eq_true, if_false, ih]
      by_cases hp : p ∈ ps
      · simp [hp]
      · have : k ≠ p := fun e => hp (e ▸ hk)
        simp [hp, Memory.read, this]
    · have : ps.contains k = false := by simpa using hk
      simp only [this, Bool.not_false, if_true, Memory.read, ih]
      by_cases hp : k = p
      · subst hp; simp [hk]
      · simp [hp]

end Sys2Proof.Machine
end

