-- ==== Sys2Proof/Laws/Ring.lean ====
section
/-! SUPPORT. Sys2Proof/Laws/Ring.lean: the positions of a record's ring (R65) and the sums of sample counts over them, under a
commit (R65, R66) and a cut (R45). -/

namespace Sys2Proof.Machine

/-- A record's ring: its first position stands in its region. -/
structure SegmentRecord.Ring (r : SegmentRecord) : Prop where
  below : r.regionFirst ≤ r.firstPosition
  above : r.firstPosition < r.regionFirst + r.regionSize

theorem SegmentRecord.InRegion.ring {r : SegmentRecord} {f : RunFigures} (h : r.InRegion f) : r.Ring := ⟨h.below, h.above⟩

namespace SegmentRecord.Ring
variable {r : SegmentRecord} (h : r.Ring)
include h

theorem size : 0 < r.regionSize := by have := h.below; have := h.above; omega

theorem positionAfter_mem (n : Nat) :
    r.regionFirst ≤ r.positionAfter n ∧ r.positionAfter n < r.regionFirst + r.regionSize :=
  ⟨Nat.le_add_right _ _, Nat.add_lt_add_left (Nat.mod_lt _ h.size) _⟩

theorem positionAfter_zero : r.positionAfter 0 = r.firstPosition := by
  have := h.below; have := h.above
  rw [SegmentRecord.positionAfter, Nat.add_zero, Nat.mod_eq_of_lt (by omega)]; omega

omit h in
/-- A position comes round after a whole region. -/
theorem positionAfter_size (n : Nat) : r.positionAfter (r.regionSize + n) = r.positionAfter n := by
  have e : r.firstPosition - r.regionFirst + (r.regionSize + n) = r.firstPosition - r.regionFirst + n + r.regionSize := by omega
  rw [SegmentRecord.positionAfter, e, Nat.add_mod_right]; rfl

theorem positionAfter_inj {m n : Nat} (hm : m < r.regionSize) (hn : n < r.regionSize)
    (e : r.positionAfter m = r.positionAfter n) : m = n := by
  have := h.below; have := h.above
  have e' : (r.firstPosition - r.regionFirst + m) % r.regionSize = (r.firstPosition - r.regionFirst + n) % r.regionSize :=
    Nat.add_left_cancel e
  have lt : r.firstPosition - r.regionFirst < r.regionSize := by omega
  generalize r.firstPosition - r.regionFirst = a at e' lt
  have mod (x : Nat) (hx : x < r.regionSize) : (a + x) % r.regionSize = if a + x < r.regionSize then a + x else a + x - r.regionSize := by
    split
    · exact Nat.mod_eq_of_lt ‹_›
    · rw [Nat.mod_eq_sub_mod (by omega), Nat.mod_eq_of_lt (by omega)]
  rw [mod m hm, mod n hn] at e'
  split at e' <;> split at e' <;> omega

/-- Counted back, a position after the first is where it was counted to. -/
theorem offsetOf_positionAfter {n : Nat} (hn : n < r.regionSize) : r.offsetOf (r.positionAfter n) = n := by
  have := h.below; have := h.above
  unfold SegmentRecord.offsetOf SegmentRecord.positionAfter
  by_cases c : r.firstPosition - r.regionFirst + n < r.regionSize
  · rw [Nat.mod_eq_of_lt c]
    have e : r.regionFirst + (r.firstPosition - r.regionFirst + n) + r.regionSize - r.firstPosition = n + r.regionSize := by omega
    rw [e, Nat.add_mod_right, Nat.mod_eq_of_lt hn]
  · have m : (r.firstPosition - r.regionFirst + n) % r.regionSize = r.firstPosition - r.regionFirst + n - r.regionSize := by
      rw [Nat.mod_eq_sub_mod (by omega), Nat.mod_eq_of_lt (by omega)]
    rw [m]
    have e : r.regionFirst + (r.firstPosition - r.regionFirst + n - r.regionSize) + r.regionSize - r.firstPosition = n := by omega
    rw [e, Nat.mod_eq_of_lt hn]

/-- The ring of a record whose first position has moved on by `k`. -/
theorem moved (k : Nat) : ({ r with firstPosition := r.positionAfter k } : SegmentRecord).Ring :=
  ⟨(h.positionAfter_mem k).1, (h.positionAfter_mem k).2⟩

omit h in
theorem moved_positionAfter {q : SegmentRecord} {k : Nat} (e1 : q.regionFirst = r.regionFirst)
    (e2 : q.regionSize = r.regionSize) (e3 : q.firstPosition = r.positionAfter k) (n : Nat) :
    q.positionAfter n = r.positionAfter (k + n) := by
  unfold SegmentRecord.positionAfter at *
  rw [e1, e2, e3, Nat.add_sub_cancel_left, Nat.mod_add_mod, Nat.add_assoc]

/-! ### Sums of sample counts -/

omit h in
theorem oldestPositions_succ (n : Nat) : r.oldestPositions (n + 1) = r.oldestPositions n ++ [r.positionAfter n] := by
  simp [SegmentRecord.oldestPositions, List.range_succ]

omit h in
theorem countSum_append (m : Mem Entry) (a b : List Nat) : countSum m (a ++ b) = countSum m a + countSum m b := by
  simp [countSum]

omit h in
theorem countSum_succ (m : Mem Entry) (n : Nat) :
    countSum m (r.oldestPositions (n + 1)) = countSum m (r.oldestPositions n) + entryCountAt m (r.positionAfter n) := by
  rw [oldestPositions_succ, countSum_append]; simp [countSum]

omit h in
theorem countSum_congr {m m' : Mem Entry} {ps : List Nat} (e : ∀ p ∈ ps, Memory.read m' p = Memory.read m p) :
    countSum m' ps = countSum m ps := by
  unfold countSum
  congr 1
  exact List.map_congr_left (fun p hp => by rw [entryCountAt, entryCountAt, e p hp])

omit h in
/-- The counts of the `k + n` oldest entries are those of the `k` oldest and those of the `n` that follow. -/
theorem countSum_split {q : SegmentRecord} {k : Nat} (e1 : q.regionFirst = r.regionFirst) (e2 : q.regionSize = r.regionSize)
    (e3 : q.firstPosition = r.positionAfter k) (m : Mem Entry) (n : Nat) :
    countSum m (r.oldestPositions (k + n)) = countSum m (r.oldestPositions k) + countSum m (q.oldestPositions n) := by
  induction n with
  | zero => simp [countSum, SegmentRecord.oldestPositions]
  | succ n ih =>
    rw [← Nat.add_assoc, countSum_succ, ih, countSum_succ, moved_positionAfter e1 e2 e3, Nat.add_assoc]

/-- A commit at the write position of a ring with room. -/
theorem countSum_commit (m : Mem Entry) (e : Entry) {n : Nat} (hn : n < r.regionSize) :
    countSum (Memory.write m (r.positionAfter n) e) (r.oldestPositions (n + 1)) = countSum m (r.oldestPositions n) + e.count := by
  rw [countSum_succ, entryCountAt, Memory.read_write_same]
  congr 1
  refine countSum_congr (fun p hp => ?_)
  obtain ⟨k, hk, rfl⟩ := List.mem_map.mp hp
  have hk := List.mem_range.mp hk
  refine Memory.read_write_other _ _ (fun c => ?_)
  have := h.positionAfter_inj (by omega) hn c; omega

/-- A commit into a full ring replaces the oldest entry, and the ring's first position moves on by one. -/
theorem countSum_commit_full (m : Mem Entry) (e : Entry) {q : SegmentRecord} (e1 : q.regionFirst = r.regionFirst)
    (e2 : q.regionSize = r.regionSize) (e3 : q.firstPosition = r.positionAfter 1) :
    countSum (Memory.write m (r.positionAfter r.regionSize) e) (q.oldestPositions r.regionSize) + entryCountAt m r.firstPosition =
      countSum m (r.oldestPositions r.regionSize) + e.count := by
  obtain ⟨k, hk⟩ : ∃ k, r.regionSize = 1 + k := ⟨r.regionSize - 1, by have := h.size; omega⟩
  have w : r.positionAfter r.regionSize = r.firstPosition := by
    have := positionAfter_size (r := r) 0; rw [Nat.add_zero] at this; rw [this, h.positionAfter_zero]
  have one : countSum m (r.oldestPositions 1) = entryCountAt m r.firstPosition := by
    rw [show (1 : Nat) = 0 + 1 from rfl, countSum_succ, h.positionAfter_zero]; simp [countSum, SegmentRecord.oldestPositions]
  have mid : countSum (Memory.write m (r.positionAfter r.regionSize) e) (q.oldestPositions k) = countSum m (q.oldestPositions k) := by
    refine countSum_congr (fun p hp => ?_)
    obtain ⟨j, hj, rfl⟩ := List.mem_map.mp hp
    have hj := List.mem_range.mp hj
    refine Memory.read_write_other _ _ (fun c => ?_)
    rw [moved_positionAfter e1 e2 e3, w, ← h.positionAfter_zero] at c
    have := h.positionAfter_inj (by omega) h.size c; omega
  have last : entryCountAt (Memory.write m (r.positionAfter r.regionSize) e) (q.positionAfter k) = e.count := by
    rw [moved_positionAfter e1 e2 e3, ← hk, entryCountAt, Memory.read_write_same]; rfl
  have split := countSum_split e1 e2 e3 m k
  rw [← hk] at split
  have s2 : q.oldestPositions r.regionSize = q.oldestPositions k ++ [q.positionAfter k] := by
    rw [hk, Nat.add_comm]; exact oldestPositions_succ (r := q) k
  rw [s2, countSum_append, mid, split, one]
  simp only [countSum, List.map_cons, List.map_nil, List.sum_cons, List.sum_nil, last]
  simp only [countSum] at *
  omega

end SegmentRecord.Ring

end Sys2Proof.Machine
end

