-- ==== Sys2Proof/Laws/Frame.lean ====
section
/-! SUPPORT. Sys2Proof/Laws/Frame.lean: one frame lemma for each shared operation of sampling: what `State.still` collects is
left as it was. -/

namespace Sys2Proof.Machine

/-! ### Setters that sampling uses -/

@[simp] theorem State.setLog_still (s : State) (l : Log) : (s.setLog l).still = s.still := rfl
@[simp] theorem State.setCst_still (s : State) (c : Cst) : (s.setCst c).still = s.still := rfl
@[simp] theorem State.fresh_still (s : State) : s.fresh.still = s.still := rfl
@[simp] theorem State.updateRecord_still (s : State) (i : Nat) (f : SegmentRecord → SegmentRecord) :
    (s.updateRecord i f).still = s.still := rfl
@[simp] theorem State.enqueue_still (s : State) (e : QueueEntry) : (s.enqueue e).still = s.still := rfl

@[simp] theorem State.updateOpen_still (s : State) (f : SegmentRecord → SegmentRecord) :
    (s.updateOpen f).still = s.still := by
  unfold State.updateOpen; split <;> rfl

/-! ### Posting -/

theorem State.reclaimEntry_still {s t : State} {k : Nat} (h : s.reclaimEntry k = some t) : t.still = s.still := by
  unfold State.reclaimEntry at h
  split at h
  · split at h <;> cases h; rfl
  · split at h <;> cases h; rfl

@[simp] theorem State.postStatus_still (s : State) : s.postStatus.still = s.still := by
  unfold State.postStatus
  split
  · rfl
  split
  · rfl
  split
  · rfl
  split
  · next t h =>
    have e := State.reclaimEntry_still h
    exact e
  · rfl

@[simp] theorem State.markNoticeDropped_still (s : State) (i : Nat) : (s.markNoticeDropped i).still = s.still := rfl

@[simp] theorem State.postNotice_still (s : State) (i t : Nat) : (s.postNotice i t).still = s.still := by
  unfold State.postNotice
  split
  · split <;> rfl
  split
  · rfl
  split
  · next u h =>
    have e := State.reclaimEntry_still h
    exact e
  · rfl

/-! ### The log -/

@[simp] theorem State.trimLog_still (s : State) (a : Advance) : (s.trimLog a).still = s.still := rfl

@[simp] theorem State.foldl_trimLog_still (s : State) (l : List Advance) : (l.foldl State.trimLog s).still = s.still := by
  induction l generalizing s with
  | nil => rfl
  | cons a rest ih => rw [List.foldl_cons, ih, State.trimLog_still]

@[simp] theorem State.dropRecord_still (s : State) (r : DecodeRecord) : (s.dropRecord r).still = s.still := by
  unfold State.dropRecord
  split <;> simp

@[simp] theorem State.placeRecord_still (s : State) (rs : RunState) (r : LogRecord) :
    (s.placeRecord rs r).still = s.still := by
  unfold State.placeRecord
  dsimp only
  split
  · rfl
  split <;> simp

@[simp] theorem State.logRecord_still (s : State) (rs : RunState) (n : Nat) (r : DecodeRecord) :
    (s.logRecord rs n r).still = s.still := by
  unfold State.logRecord
  split <;> simp

@[simp] theorem State.logSample_still (s : State) (rs : RunState) (n : Nat) (l : List DecodeRecord) (a : List Advance) :
    (s.logSample rs n l a).still = s.still := by
  induction l generalizing s rs n a with
  | nil => simp [State.logSample]
  | cons r rest ih => cases a <;> simp [State.logSample, ih]

@[simp] theorem State.logFlushed_still (s : State) (n : Nat) (l : List DecodeRecord) :
    (s.logFlushed n l).still = s.still := State.logSample_still ..

@[simp] theorem State.compareRecords_still (s : State) (l : List DecodeRecord) :
    (s.compareRecords l).still = s.still := rfl

/-! ### The capture store -/

@[simp] theorem State.commitEntry_still (s : State) (r : SegmentRecord) (n : Nat) (e : Entry) :
    (s.commitEntry r n e).1.still = s.still := by
  unfold State.commitEntry
  split <;> rfl

@[simp] theorem State.commitOpen_still (s : State) : s.commitOpen.1.still = s.still := by
  unfold State.commitOpen
  split
  · split
    · exact State.commitEntry_still ..
    · rfl
  · rfl
  · rfl

@[simp] theorem State.preTriggerCut_still (s : State) : s.preTriggerCut.1.still = s.still := by
  unfold State.preTriggerCut
  split
  · split
    · rfl
    · split <;> rfl
  · rfl
  · rfl

@[simp] theorem State.enterSample_still (s : State) (m : Nat) (d : EntryData) : (s.enterSample m d).still = s.still := by
  unfold State.enterSample
  split
  · simp
  · rfl

/-! ### The sequencer -/

@[simp] theorem Tsq.enter_program (t : Tsq) (l : Fin 8) : (t.enter l).program = t.program := rfl
@[simp] theorem Tsq.act_program (t : Tsq) (a : Action) : (t.act a).program = t.program := rfl

@[simp] theorem Tsq.evaluate_program (t : Tsq) (i : SequencerInputs) : (t.evaluate i).program = t.program := by
  unfold Tsq.evaluate
  split
  · rfl
  · dsimp only
    split <;> rfl

theorem State.setTsq_still {s : State} {t : Tsq} (h : t.program = s.tsq.program) : (s.setTsq t).still = s.still := by
  unfold State.still State.setTsq
  simp only [h]

@[simp] theorem State.sequence_still (s : State) (i : SequencerInputs) : (s.sequence i).still = s.still :=
  State.setTsq_still (Tsq.evaluate_program ..)

/-! ### Runs -/

@[simp] theorem Tsq.openSegment_program (t : Tsq) (rs : RunState) : (t.openSegment rs).program = t.program := by
  unfold Tsq.openSegment
  dsimp only
  split <;> rfl

@[simp] theorem State.openSegment_still (s : State) (i m : Nat) : (s.openSegment i m).still = s.still := by
  unfold State.openSegment
  split
  · rw [State.postStatus_still, State.setCst_still]
    exact State.setTsq_still (Tsq.openSegment_program ..)
  · rfl

@[simp] theorem State.closeSegment_still (s : State) (c : CloseReason) : (s.closeSegment c).still = s.still := by
  have h : ((s.commitOpen.2.foldl State.trimLog s.commitOpen.1).updateOpen
      (fun r => { r with state := .closed, closeReason := some c })).still = s.still := by simp
  exact h

@[simp] theorem State.endRunTime_still (s : State) : s.endRunTime.still = s.still := rfl

theorem DecodeUnit.stop_settings (u : DecodeUnit) : u.stop.settings = u.settings := rfl

@[simp] theorem State.stopDecoders_still (s : State) :
    (s.setDec { s.dec with units := s.dec.units.map DecodeUnit.stop }).still = s.still := rfl

@[simp] theorem State.flushDecoders_still (s : State) : s.flushDecoders.still = s.still := by
  unfold State.flushDecoders
  dsimp only
  rw [State.stopDecoders_still]
  split <;> simp

@[simp] theorem State.endRun_still (s : State) : s.endRun.still = s.still := by simp [State.endRun]

@[simp] theorem State.closeAndEnd_still (s : State) (c : CloseReason) : (s.closeAndEnd c).still = s.still := by
  simp [State.closeAndEnd]

theorem State.takeTrigger_still (s : State) (t : Nat) (w g : Levels) (src : TriggerSource) :
    (s.takeTrigger t w g src).1.still = s.still := by
  have h : ((s.commitOpen.1.preTriggerCut.1.updateOpen (fun r => r.triggered t s.divider src)).still) = s.still := by simp
  unfold State.takeTrigger
  dsimp only
  split <;> simp only [State.postNotice_still, State.postStatus_still] <;> exact h

/-! ### Samples -/

@[simp] theorem State.formWord_still (s : State) : s.formWord.still = s.still := rfl

@[simp] theorem State.enterPretrigIfFilled_still (s : State) : s.enterPretrigIfFilled.still = s.still := by
  unfold State.enterPretrigIfFilled
  split
  · split
    · rw [State.postStatus_still]; rfl
    · rfl
  · rfl
  · rfl

@[simp] theorem State.closeIfFilled_still (s : State) (m : Nat) : (s.closeIfFilled m).still = s.still := by
  unfold State.closeIfFilled
  split
  · split
    · dsimp only
      split <;> simp
    · rfl
  · rfl
  · rfl

@[simp] theorem State.arrive_still (s : State) (m : Nat) (w g : Levels) : (s.arrive m w g).1.still = s.still := by
  unfold State.arrive
  split
  · simp
  · rfl

@[simp] theorem State.compress_still (s : State) (m : Nat) (w g : Levels) (q : Bool) (t : Option TriggerSource) :
    (s.compress m w g q t).1.still = s.still := by
  unfold State.compress
  split
  · exact State.takeTrigger_still ..
  · exact State.enterSample_still ..

theorem DecodeUnit.sample_settings (u : DecodeUnit) (d : Fin 4) (c : SampleContext) :
    (u.sample d c).1.settings = u.settings := by
  unfold DecodeUnit.sample
  split
  · rfl
  split <;> rfl

theorem State.afterSample_still (s : State) (c : SampleContext) : (s.setDec (s.dec.afterSample c)).still = s.still := by
  unfold State.still State.setDec Dec.afterSample Quad.map
  simp only [DecodeUnit.sample_settings]

@[simp] theorem State.takeArrived_still (s b : State) (m : Nat) (w g l : Levels) (a : List Advance) :
    (s.takeArrived b m w g l a).still = s.still := by
  have h (x : State) (y : Option Levels) : (x.setPfe { x.pfe with lastLevels := y }).still = x.still := rfl
  unfold State.takeArrived
  simp only [h, State.logSample_still, State.compress_still, State.sequence_still, State.compareRecords_still]
  exact State.afterSample_still ..

@[simp] theorem State.takeSample_still (s : State) : s.takeSample.still = s.still := by
  unfold State.takeSample
  split
  · dsimp only
    split <;> simp
  · rfl

@[simp] theorem State.takeDue_still (n : Nat) (s : State) : (State.takeDue n s).still = s.still := by
  induction n generalizing s with
  | zero => rfl
  | succ n ih =>
    unfold State.takeDue
    split
    · rw [ih, State.takeSample_still]
    · rfl

@[simp] theorem State.takeAllDue_still (s : State) : s.takeAllDue.still = s.still := State.takeDue_still ..

@[simp] theorem State.reportCorrection_still (s : State) (c : Nat) : (s.reportCorrection c).still = s.still :=
  State.updateOpen_still ..

/-- R17, R18: the mark-edge step leaves alone everything but run time, the run, the store, the log, the sequencer's and the
decoders' progress, and the queue. -/
@[simp] theorem State.markEdgeStep_still (s : State) : s.markEdgeStep.still = s.still := by
  unfold State.markEdgeStep
  split
  · rfl
  · dsimp only
    split <;> simp <;> rfl

end Sys2Proof.Machine
end

