-- ==== Sys2Proof/Laws/Sampling.lean ====
section
/-! SUPPORT. Sys2Proof/Laws/Sampling.lean: what the taking of a sample does to run time, to PFE's marks and to the run state:
TAU and PFE stand under every shared operation of sampling but a run's end, and each sample either moves the next sample
index by one or ends run time (R19, R28, R34, R52). -/

namespace Sys2Proof.Machine

/-- TAU and PFE together, which only a run's end and the word formed at a sample change while samples are taken. -/
def State.front (s : State) : Tau × Pfe := (s.tau, s.pfe)

@[simp] theorem State.setLog_front (s : State) (l : Log) : (s.setLog l).front = s.front := rfl
@[simp] theorem State.setCst_front (s : State) (c : Cst) : (s.setCst c).front = s.front := rfl
@[simp] theorem State.setRun_front (s : State) (r : Run) : (s.setRun r).front = s.front := rfl
@[simp] theorem State.setTsq_front (s : State) (t : Tsq) : (s.setTsq t).front = s.front := rfl
@[simp] theorem State.setDec_front (s : State) (d : Dec) : (s.setDec d).front = s.front := rfl
@[simp] theorem State.fresh_front (s : State) : s.fresh.front = s.front := rfl
@[simp] theorem State.updateRecord_front (s : State) (i : Nat) (f : SegmentRecord → SegmentRecord) :
    (s.updateRecord i f).front = s.front := rfl

@[simp] theorem State.updateOpen_front (s : State) (f : SegmentRecord → SegmentRecord) :
    (s.updateOpen f).front = s.front := by
  unfold State.updateOpen; split <;> rfl

theorem State.reclaimEntry_front {s t : State} {k : Nat} (h : s.reclaimEntry k = some t) : t.front = s.front := by
  unfold State.reclaimEntry at h
  split at h
  · split at h <;> cases h; rfl
  · split at h <;> cases h; rfl

@[simp] theorem State.postStatus_front (s : State) : s.postStatus.front = s.front := by
  unfold State.postStatus
  split
  · rfl
  split
  · rfl
  split
  · rfl
  split
  · next t h =>
    have e := State.reclaimEntry_front h
    exact e
  · rfl

@[simp] theorem State.postNotice_front (s : State) (i t : Nat) : (s.postNotice i t).front = s.front := by
  unfold State.postNotice
  split
  · split <;> rfl
  split
  · rfl
  split
  · next u h =>
    have e := State.reclaimEntry_front h
    exact e
  · rfl

@[simp] theorem State.trimLog_front (s : State) (a : Advance) : (s.trimLog a).front = s.front := rfl

@[simp] theorem State.foldl_trimLog_front (s : State) (l : List Advance) :
    (l.foldl State.trimLog s).front = s.front := by
  induction l generalizing s with
  | nil => rfl
  | cons a rest ih => rw [List.foldl_cons, ih, State.trimLog_front]

@[simp] theorem State.dropRecord_front (s : State) (r : DecodeRecord) : (s.dropRecord r).front = s.front := by
  unfold State.dropRecord
  split <;> simp

@[simp] theorem State.placeRecord_front (s : State) (rs : RunState) (r : LogRecord) :
    (s.placeRecord rs r).front = s.front := by
  unfold State.placeRecord
  dsimp only
  split
  · rfl
  split <;> simp

@[simp] theorem State.logRecord_front (s : State) (rs : RunState) (n : Nat) (r : DecodeRecord) :
    (s.logRecord rs n r).front = s.front := by
  unfold State.logRecord
  split <;> simp

@[simp] theorem State.logSample_front (s : State) (rs : RunState) (n : Nat) (l : List DecodeRecord) (a : List Advance) :
    (s.logSample rs n l a).front = s.front := by
  induction l generalizing s rs n a with
  | nil => simp [State.logSample]
  | cons r rest ih => cases a <;> simp [State.logSample, ih]

@[simp] theorem State.compareRecords_front (s : State) (l : List DecodeRecord) :
    (s.compareRecords l).front = s.front := rfl

@[simp] theorem State.commitEntry_front (s : State) (r : SegmentRecord) (n : Nat) (e : Entry) :
    (s.commitEntry r n e).1.front = s.front := by
  unfold State.commitEntry
  split <;> rfl

@[simp] theorem State.commitOpen_front (s : State) : s.commitOpen.1.front = s.front := by
  unfold State.commitOpen
  split
  · split
    · exact State.commitEntry_front ..
    · rfl
  · rfl
  · rfl

@[simp] theorem State.preTriggerCut_front (s : State) : s.preTriggerCut.1.front = s.front := by
  unfold State.preTriggerCut
  split
  · split
    · rfl
    · split <;> rfl
  · rfl
  · rfl

@[simp] theorem State.enterSample_front (s : State) (m : Nat) (d : EntryData) : (s.enterSample m d).front = s.front := by
  unfold State.enterSample
  split
  · simp
  · rfl

@[simp] theorem State.sequence_front (s : State) (i : SequencerInputs) : (s.sequence i).front = s.front := rfl

@[simp] theorem State.openSegment_front (s : State) (i m : Nat) : (s.openSegment i m).front = s.front := by
  unfold State.openSegment
  split
  · simp
  · rfl

@[simp] theorem State.closeSegment_front (s : State) (c : CloseReason) : (s.closeSegment c).front = s.front := by
  simp [State.closeSegment]

theorem State.takeTrigger_front (s : State) (t : Nat) (w g : Levels) (src : TriggerSource) :
    (s.takeTrigger t w g src).1.front = s.front := by
  unfold State.takeTrigger
  dsimp only
  split <;> simp

@[simp] theorem State.enterPretrigIfFilled_front (s : State) : s.enterPretrigIfFilled.front = s.front := by
  unfold State.enterPretrigIfFilled
  split
  · split
    · simp
    · rfl
  · rfl
  · rfl

@[simp] theorem State.compress_front (s : State) (m : Nat) (w g : Levels) (q : Bool) (t : Option TriggerSource) :
    (s.compress m w g q t).1.front = s.front := by
  unfold State.compress
  split
  · exact State.takeTrigger_front ..
  · exact State.enterSample_front ..

/-! ### The run state -/

/-- The run state, which few operations change. -/
@[simp] theorem State.updateRecord_state (s : State) (i : Nat) (f : SegmentRecord → SegmentRecord) :
    (s.updateRecord i f).run.state = s.run.state := rfl

@[simp] theorem State.updateOpen_state (s : State) (f : SegmentRecord → SegmentRecord) :
    (s.updateOpen f).run.state = s.run.state := by
  unfold State.updateOpen; split <;> rfl

theorem State.reclaimEntry_run {s t : State} {k : Nat} (h : s.reclaimEntry k = some t) : t.run = s.run := by
  unfold State.reclaimEntry at h
  split at h
  · split at h <;> cases h; rfl
  · split at h <;> cases h; rfl

/-- Posting a STATUS touches nothing of RUN. -/
@[simp] theorem State.postStatus_run (s : State) : s.postStatus.run = s.run := by
  unfold State.postStatus
  split
  · rfl
  split
  · rfl
  split
  · rfl
  split
  · next t h =>
    have e := State.reclaimEntry_run h
    exact e
  · rfl

@[simp] theorem State.postNotice_state (s : State) (i t : Nat) : (s.postNotice i t).run.state = s.run.state := by
  unfold State.postNotice
  split
  · split <;> rfl
  split
  · rfl
  split
  · next u h =>
    have e := congrArg Run.state (State.reclaimEntry_run h)
    exact e
  · rfl

@[simp] theorem State.trimLog_run (s : State) (a : Advance) : (s.trimLog a).run = s.run := rfl

@[simp] theorem State.foldl_trimLog_run (s : State) (l : List Advance) : (l.foldl State.trimLog s).run = s.run := by
  induction l generalizing s with
  | nil => rfl
  | cons a rest ih => rw [List.foldl_cons, ih, State.trimLog_run]

@[simp] theorem State.dropRecord_state (s : State) (r : DecodeRecord) : (s.dropRecord r).run.state = s.run.state := by
  unfold State.dropRecord
  split <;> simp

@[simp] theorem State.placeRecord_state (s : State) (rs : RunState) (r : LogRecord) :
    (s.placeRecord rs r).run.state = s.run.state := by
  unfold State.placeRecord
  dsimp only
  split
  · rfl
  split <;> simp

@[simp] theorem State.logRecord_state (s : State) (rs : RunState) (n : Nat) (r : DecodeRecord) :
    (s.logRecord rs n r).run.state = s.run.state := by
  unfold State.logRecord
  split <;> simp

@[simp] theorem State.logSample_state (s : State) (rs : RunState) (n : Nat) (l : List DecodeRecord) (a : List Advance) :
    (s.logSample rs n l a).run.state = s.run.state := by
  induction l generalizing s rs n a with
  | nil => simp [State.logSample]
  | cons r rest ih => cases a <;> simp [State.logSample, ih, State.fresh]

@[simp] theorem State.commitEntry_state (s : State) (r : SegmentRecord) (n : Nat) (e : Entry) :
    (s.commitEntry r n e).1.run.state = s.run.state := by
  unfold State.commitEntry
  split <;> rfl

@[simp] theorem State.commitOpen_state (s : State) : s.commitOpen.1.run.state = s.run.state := by
  unfold State.commitOpen
  split
  · split
    · exact State.commitEntry_state ..
    · rfl
  · rfl
  · rfl

@[simp] theorem State.enterSample_state (s : State) (m : Nat) (d : EntryData) :
    (s.enterSample m d).run.state = s.run.state := by
  unfold State.enterSample
  split
  · simp
  · rfl

@[simp] theorem State.closeSegment_state (s : State) (c : CloseReason) :
    (s.closeSegment c).run.state = s.run.state := by
  simp [State.closeSegment]

/-- A trigger moves the run state to POSTTRIG. -/
theorem State.takeTrigger_state (s : State) (t : Nat) (w g : Levels) (src : TriggerSource) :
    (s.takeTrigger t w g src).1.run.state = .posttrig := by
  unfold State.takeTrigger
  dsimp only
  split <;> simp

/-- A run that has ended is IDLE, with no run time. -/
theorem State.flushDecoders_state (s : State) : s.flushDecoders.run.state = s.run.state := by
  unfold State.flushDecoders
  dsimp only
  split
  · simp [State.logFlushed, State.compareRecords]
  · rfl

theorem State.flushDecoders_front (s : State) : s.flushDecoders.front = s.front := by
  unfold State.flushDecoders
  dsimp only
  split
  · simp [State.logFlushed]
  · rfl

theorem State.endRun_state (s : State) : s.endRun.run.state = .idle := by
  simp only [State.endRun, State.postStatus_run, State.flushDecoders_state]; rfl

theorem State.endRun_front (s : State) :
    s.endRun.front = ({ s.tau with runTime := none }, s.pfe.endRunTime) := by
  simp only [State.endRun, State.postStatus_front, State.flushDecoders_front]; rfl

/-! ### What LOG's part of a sample leaves alone -/

@[simp] theorem State.updateOpen_cst (s : State) (f : SegmentRecord → SegmentRecord) : (s.updateOpen f).cst = s.cst := by
  rw [State.updateOpen_eq]

@[simp] theorem State.dropRecord_cst (s : State) (r : DecodeRecord) : (s.dropRecord r).cst = s.cst := by
  unfold State.dropRecord; split <;> simp

@[simp] theorem State.placeRecord_cst (s : State) (rs : RunState) (r : LogRecord) : (s.placeRecord rs r).cst = s.cst := by
  unfold State.placeRecord; dsimp only; split
  · rfl
  split <;> simp

@[simp] theorem State.logRecord_cst (s : State) (rs : RunState) (n : Nat) (r : DecodeRecord) :
    (s.logRecord rs n r).cst = s.cst := by
  unfold State.logRecord; split <;> simp

@[simp] theorem State.foldl_trimLog_cst (s : State) (l : List Advance) : (l.foldl State.trimLog s).cst = s.cst := by
  induction l generalizing s with
  | nil => rfl
  | cons a rest ih => rw [List.foldl_cons, ih]; rfl

@[simp] theorem State.logSample_cst (s : State) (rs : RunState) (n : Nat) (l : List DecodeRecord) (a : List Advance) :
    (s.logSample rs n l a).cst = s.cst := by
  induction l generalizing s rs n a with
  | nil => simp [State.logSample]
  | cons r rest ih => cases a <;> simp [State.logSample, ih, State.fresh]

section
variable {β : Type} {f : SegmentRecord → β}

/-- What a record says but LOG_LOST stands where the open record is marked. -/
theorem State.updateOpen_map {g : SegmentRecord → SegmentRecord} (h : ∀ r, f (g r) = f r) (s : State) :
    (s.updateOpen g).run.table.map f = s.run.table.map f := by
  rw [State.updateOpen_eq]
  simp only [List.map_map]
  refine List.map_congr_left (fun r _ => ?_)
  simp only [Function.comp]
  split
  · exact h r
  · rfl

theorem State.dropRecord_map (h : ∀ r : SegmentRecord, f { r with logLost := true } = f r) (s : State) (r : DecodeRecord) :
    (s.dropRecord r).run.table.map f = s.run.table.map f := by
  unfold State.dropRecord
  dsimp only
  split
  · exact State.updateOpen_map h _
  · rfl

theorem State.logRecord_map (h : ∀ r : SegmentRecord, f { r with logLost := true } = f r) (s : State) (rs : RunState)
    (n : Nat) (r : DecodeRecord) : (s.logRecord rs n r).run.table.map f = s.run.table.map f := by
  unfold State.logRecord State.placeRecord
  dsimp only
  split
  · exact State.dropRecord_map h s r
  split
  · rfl
  split
  · rfl
  · exact State.dropRecord_map h _ _

theorem State.logSample_map (h : ∀ r : SegmentRecord, f { r with logLost := true } = f r) (s : State) (rs : RunState)
    (n : Nat) (l : List DecodeRecord) (a : List Advance) :
    (s.logSample rs n l a).run.table.map f = s.run.table.map f := by
  induction l generalizing s rs n a with
  | nil => simp [State.logSample]
  | cons r rest ih =>
    cases a with
    | nil => rw [State.logSample, ih, State.logRecord_map h]
    | cons x more =>
      simp only [State.logSample]
      rw [ih, State.logRecord_map h, State.foldl_trimLog_run]; rfl

end

/-! ### One sample -/

/-- What the arrival of a sample does to TAU and PFE: nothing, or the run has ended. -/
theorem State.arrive_front (s : State) (m : Nat) (w g : Levels) :
    (s.arrive m w g).1.front = s.front ∨
      ((s.arrive m w g).1.run.state = .idle ∧
        (s.arrive m w g).1.front = ({ s.tau with runTime := none }, s.pfe.endRunTime)) := by
  have hf : s.commitOpen.1.enterPretrigIfFilled.front = s.front := by simp
  unfold State.arrive
  split
  · unfold State.closeIfFilled
    dsimp only
    split
    · split
      · split
        · left; simp
        · right
          refine ⟨State.endRun_state _, ?_⟩
          have e : (s.commitOpen.1.enterPretrigIfFilled.closeSegment .filled).front = s.front := by simp
          rw [State.endRun_front]
          exact congrArg (fun x : Tau × Pfe => (({ x.1 with runTime := none } : Tau), x.2.endRunTime)) e
      · left; exact hf
    · left; exact hf
    · left; exact hf
  · left; rfl

/-- Taking the sample that an arrival has left standing changes, of TAU and PFE, the last-sample levels alone. -/
theorem State.takeArrived_front (s b : State) (m : Nat) (w g l : Levels) (a : List Advance) :
    (s.takeArrived b m w g l a).front = (s.tau, { s.pfe with lastLevels := some w }) := by
  unfold State.takeArrived
  dsimp only
  generalize hk : State.compress _ _ _ _ _ _ = k
  have e : (k.1.logSample s.run.state (firstBefore b s) (s.dec.sampleRecords (sampleContext s m w g l)) (a ++ k.2)).front =
      s.front := by
    rw [State.logSample_front, ← hk]; simp
  exact congrArg (fun x : Tau × Pfe => (x.1, ({ x.2 with lastLevels := some w } : Pfe))) e

/-- The run divider is among what sampling leaves alone. -/
theorem State.divider_of_still {s t : State} (h : t.still = s.still) : t.divider = s.divider := by
  have e : t.run.figures = s.run.figures := congrArg Still.figures h
  simp [State.divider, e]

theorem State.rateFactor_of_still {s t : State} (h : t.still = s.still) : t.tau.rateFactor = s.tau.rateFactor :=
  congrArg (fun x => x.tau.rateFactor) h

theorem front_tau {s t : State} (h : t.front = s.front) : t.tau = s.tau := congrArg Prod.fst h
theorem front_pfe {s t : State} (h : t.front = s.front) : t.pfe = s.pfe := congrArg Prod.snd h

/-- A sample moves the next sample index by one, with the word it forms, or ends run time. -/
theorem State.takeSample_cases {s : State} {r : RunTime} (h : s.tau.runTime = some r) :
    (s.takeSample.tau.runTime = some { r with nextSample := r.nextSample + 1 } ∧
      s.takeSample.pfe.changedOnce = 0 ∧ s.takeSample.pfe.glitchSeen = 0 ∧
      (s.takeSample.run.state.hasSegment = true → s.takeSample.pfe.lastLevels = some s.pfe.currentLevels)) ∨
    (s.takeSample.tau.runTime = none ∧ s.takeSample.run.state = .idle ∧
      s.takeSample.pfe.changedOnce = 0 ∧ s.takeSample.pfe.glitchSeen = 0) := by
  have hf : s.formWord.tau.runTime = some { r with nextSample := r.nextSample + 1 } := by
    simp [State.formWord, h]
  unfold State.takeSample
  simp only [h]
  rcases State.arrive_front s.formWord r.nextSample s.pfe.currentLevels s.pfe.glitchSeen with ha | ⟨hi, ha⟩
  · left
    split
    · have e := State.takeArrived_front (s.formWord.arrive r.nextSample s.pfe.currentLevels s.pfe.glitchSeen).1 s.formWord r.nextSample s.pfe.currentLevels s.pfe.glitchSeen (s.pfe.lastLevels.getD s.pfe.currentLevels) (s.formWord.arrive r.nextSample s.pfe.currentLevels s.pfe.glitchSeen).2
      have e1 := congrArg Prod.fst e
      have e2 := congrArg Prod.snd e
      simp only [State.front] at e1 e2
      have a1 := front_tau ha
      have a2 := front_pfe ha
      rw [e1, e2, a1, a2]
      exact ⟨hf, rfl, rfl, fun _ => rfl⟩
    · next hs =>
      rw [front_tau ha, front_pfe ha]
      exact ⟨hf, rfl, rfl, fun x => absurd x hs⟩
  · right
    have a1 := congrArg Prod.fst ha
    have a2 := congrArg Prod.snd ha
    simp only [State.front] at a1 a2
    have : ¬ ((s.formWord.arrive r.nextSample s.pfe.currentLevels s.pfe.glitchSeen).1.run.state.hasSegment = true) := by
      rw [hi]; simp [RunState.hasSegment]
    rw [if_neg this, a1, a2]
    exact ⟨rfl, hi, rfl, rfl⟩

end Sys2Proof.Machine
end

