-- ==== Sys2Proof/Laws/Run.lean ====
section
/-! SUPPORT. Sys2Proof/Laws/Run.lean: what the closing of a segment does to the segment table, and what the flush of a run that
has ended leaves alone (R51, R52, R118). -/

namespace Sys2Proof.Machine

/-- A commit changes records without changing their indices. -/
theorem State.commitOpen_table (s : State) : ∃ f : SegmentRecord → SegmentRecord,
    (∀ r, (f r).index = r.index) ∧ s.commitOpen.1.run.table = s.run.table.map f := by
  have h0 : ∃ f : SegmentRecord → SegmentRecord, (∀ r, (f r).index = r.index) ∧ s.run.table = s.run.table.map f :=
    ⟨id, fun _ => rfl, by simp⟩
  unfold State.commitOpen
  split
  · split
    · unfold State.commitEntry
      dsimp only
      split
      · exact ⟨_, fun r => by dsimp only; split <;> rfl, rfl⟩
      · exact ⟨_, fun r => by dsimp only; split <;> rfl, rfl⟩
    · exact h0
  · exact h0
  · exact h0

theorem State.commitOpen_openIndex? (s : State) : s.commitOpen.1.openIndex? = s.openIndex? := by
  obtain ⟨f, hf, ht⟩ := State.commitOpen_table s
  refine State.openIndex?_congr (by simp) ?_
  rw [ht, map_index_of_keeps hf]

/-- A closing marks the open segment's record, and keeps every index. -/
theorem State.closeSegment_table (s : State) (c : CloseReason) : ∃ f : SegmentRecord → SegmentRecord,
    (∀ r, (f r).index = r.index) ∧
    (∀ r, s.openIndex? = some r.index → (f r).state = .closed ∧ (f r).closeReason = some c) ∧
    (s.closeSegment c).run.table = s.run.table.map f := by
  obtain ⟨f, hf, ht⟩ := State.commitOpen_table s
  have ho : (s.commitOpen.2.foldl State.trimLog s.commitOpen.1).openIndex? = s.openIndex? := by
    rw [State.openIndex?_congr (s := s.commitOpen.1) (by simp) (by simp)]; exact State.commitOpen_openIndex? s
  have hT : (s.closeSegment c).run.table = ((s.commitOpen.2.foldl State.trimLog s.commitOpen.1).updateOpen
      (fun r => { r with state := .closed, closeReason := some c })).run.table := rfl
  rw [hT, State.updateOpen_eq]
  simp only [ho, State.foldl_trimLog_run, ht, List.map_map]
  refine ⟨_, ?_, ?_, rfl⟩
  · intro r; simp only [Function.comp]; split <;> simp [hf]
  · intro r hr; simp only [Function.comp, hf, hr, if_true]; exact ⟨trivial, trivial⟩

/-! ### LOG's part of a flush -/

theorem State.dropRecord_run_idle {s : State} (h : s.run.state.hasSegment = false) (r : DecodeRecord) :
    (s.dropRecord r).run = s.run := by
  unfold State.dropRecord
  rw [if_neg]
  · rfl
  · rw [State.openIndex?_of_noSegment h]; simp

theorem State.logRecord_run_idle {s : State} (h : s.run.state.hasSegment = false) (rs : RunState) (n : Nat)
    (r : DecodeRecord) : (s.logRecord rs n r).run = s.run := by
  unfold State.logRecord State.placeRecord
  dsimp only
  split
  · exact State.dropRecord_run_idle h r
  split
  · rfl
  split
  · rfl
  · exact (State.dropRecord_run_idle (s := s.setLog { s.log with counter := s.log.counter + 1 }) h _).trans rfl

theorem State.logSample_run_idle {s : State} (h : s.run.state.hasSegment = false) (rs : RunState) (n : Nat)
    (l : List DecodeRecord) : (s.logSample rs n l []).run = s.run := by
  induction l generalizing s rs n with
  | nil => rfl
  | cons r rest ih =>
    rw [State.logSample, ih, State.logRecord_run_idle h]
    rw [State.logRecord_run_idle h]; exact h

/-- The flush of a run that has ended leaves the table as it is. -/
theorem State.flushDecoders_run_idle {s : State} (h : s.run.state.hasSegment = false) :
    s.flushDecoders.run = s.run := by
  unfold State.flushDecoders
  dsimp only
  split
  · simp only [State.setDec_run, State.logFlushed]; exact State.logSample_run_idle (s := s.compareRecords _) h _ _ _
  · rfl

/-- LOG's part of a sample touches neither the sequencer nor the decoders. -/
theorem State.logSample_tsq_dec (s : State) (rs : RunState) (n : Nat) (l : List DecodeRecord) (a : List Advance) :
    (s.logSample rs n l a).tsq = s.tsq ∧ (s.logSample rs n l a).dec = s.dec := by
  have up (s : State) (f : SegmentRecord → SegmentRecord) : (s.updateOpen f).tsq = s.tsq ∧ (s.updateOpen f).dec = s.dec := by
    rw [State.updateOpen_eq]; exact ⟨rfl, rfl⟩
  have dr (s : State) (r : DecodeRecord) : (s.dropRecord r).tsq = s.tsq ∧ (s.dropRecord r).dec = s.dec := by
    unfold State.dropRecord; dsimp only; split
    · exact up _ _
    · exact ⟨rfl, rfl⟩
  have lr (s : State) (rs : RunState) (n : Nat) (r : DecodeRecord) :
      (s.logRecord rs n r).tsq = s.tsq ∧ (s.logRecord rs n r).dec = s.dec := by
    unfold State.logRecord State.placeRecord
    dsimp only
    split
    · exact dr _ _
    split
    · exact ⟨rfl, rfl⟩
    split
    · exact ⟨rfl, rfl⟩
    · exact dr _ _
  have tr (l : List Advance) (s : State) :
      (l.foldl State.trimLog s).tsq = s.tsq ∧ (l.foldl State.trimLog s).dec = s.dec := by
    induction l generalizing s with
    | nil => exact ⟨rfl, rfl⟩
    | cons a r ih => exact ih _
  induction l generalizing s rs n a with
  | nil => rw [State.logSample]; exact tr a s
  | cons r rest ih =>
    cases a with
    | nil => rw [State.logSample, (ih ..).1, (ih ..).2]; exact lr ..
    | cons x y =>
      simp only [State.logSample]
      rw [(ih ..).1, (ih ..).2, (lr ..).1, (lr ..).2]; exact tr _ _

end Sys2Proof.Machine
end

