-- ==== Sys2Proof/Laws/Capture.lean ====
section
/-! SUPPORT. Sys2Proof/Laws/Capture.lean: what each shared operation of sampling does to the laws of the capture store and of
the log over the segments (R65 to R69, R121, R126). -/

namespace Sys2Proof.Machine

/-! ### One record -/

/-- What the laws of the capture store look at in a record. -/
def SegmentRecord.span (r : SegmentRecord) : (Nat × Nat × Nat × Nat) × Nat × Nat × Nat × Option Nat :=
  ((r.index, r.regionFirst, r.regionSize, r.firstPosition), r.firstSample, r.nextSample, r.retained, r.triggerPosition)

/-- The laws of one record, `n` samples of whose segment are in the open entry. -/
structure RecordLaw (fig : Option RunFigures) (m : Mem Entry) (n : Nat) (r : SegmentRecord) : Prop where
  region : ∀ f : RunFigures, fig = some f → r.InRegion f
  trigger : ∀ p : Nat, r.triggerPosition = some p → r.regionFirst ≤ p ∧ p < r.regionFirst + r.regionSize ∧
    (r.offsetOf p < r.retained ∨ (r.offsetOf p = r.retained ∧ 0 < n))
  account : r.firstSample + countSum m (r.oldestPositions r.retained) + n = r.nextSample

theorem RecordLaw.congr {fig : Option RunFigures} {m : Mem Entry} {n : Nat} {r q : SegmentRecord} (e : q.span = r.span)
    (h : RecordLaw fig m n r) : RecordLaw fig m n q := by
  cases r; cases q
  simp only [SegmentRecord.span, Prod.mk.injEq] at e
  obtain ⟨⟨rfl, rfl, rfl, rfl⟩, rfl, rfl, rfl, rfl⟩ := e
  exact ⟨fun f hf => let i := h.region f hf; ⟨i.1, i.2, i.3, i.4, i.5, i.6⟩, h.trigger, h.account⟩

/-- A store that reads alike over a record's region. -/
theorem RecordLaw.store {fig : Option RunFigures} {m m' : Mem Entry} {n : Nat} {r : SegmentRecord} (g : r.Ring)
    (h : RecordLaw fig m n r)
    (e : ∀ p, r.regionFirst ≤ p → p < r.regionFirst + r.regionSize → Memory.read m' p = Memory.read m p) :
    RecordLaw fig m' n r := by
  refine ⟨h.region, h.trigger, ?_⟩
  rw [SegmentRecord.Ring.countSum_congr (m := m)]
  · exact h.account
  · intro p hp
    obtain ⟨k, _, rfl⟩ := List.mem_map.mp hp
    exact e _ (g.positionAfter_mem k).1 (g.positionAfter_mem k).2

section
variable {fig : Option RunFigures} {f : RunFigures} {m : Mem Entry} {n : Nat} {r : SegmentRecord}
  (hf : fig = some f)
include hf

/-- R65: a commit into a ring with room. -/
theorem RecordLaw.commit (h : RecordLaw fig m n r) (room : r.retained < r.regionSize) {e : Entry} (he : e.count = n) :
    RecordLaw fig (Memory.write m r.writePosition e) 0 { r with retained := r.retained + 1 } := by
  have i := h.region f hf
  refine ⟨fun f' hf' => ?_, fun p hp => ?_, ?_⟩
  · have i' := h.region f' hf'; exact ⟨i'.1, i'.2, i'.3, i'.4, room, i'.6⟩
  · obtain ⟨a, b, c⟩ := h.trigger p hp
    refine ⟨a, b, .inl ?_⟩
    have : r.offsetOf p ≤ r.retained := by rcases c with c | c <;> omega
    exact Nat.lt_succ_of_le this
  · have := i.ring.countSum_commit m e room
    have a := h.account
    show r.firstSample + countSum (Memory.write m (r.positionAfter r.retained) e) (r.oldestPositions (r.retained + 1)) + 0 = r.nextSample
    rw [this]; omega

/-- R65, R66: a commit into a full ring of a segment without a trigger. -/
theorem RecordLaw.commitFull (h : RecordLaw fig m n r) (full : r.regionSize ≤ r.retained) (none : r.triggerPosition = none)
    {e : Entry} (he : e.count = n) :
    RecordLaw fig (Memory.write m r.writePosition e) 0
      { r with firstPosition := r.positionAfter 1, firstSample := r.firstSample + entryCountAt m r.firstPosition } := by
  have i := h.region f hf
  have eq : r.retained = r.regionSize := Nat.le_antisymm i.retained full
  refine ⟨fun f' hf' => ?_, fun p hp => (by rw [none] at hp; cases hp), ?_⟩
  · have i' := h.region f' hf'
    exact ⟨i'.1, i'.2, (i.ring.positionAfter_mem 1).1, (i.ring.positionAfter_mem 1).2, i'.5, i'.6⟩
  · obtain ⟨q, hq⟩ : ∃ q : SegmentRecord, q = { r with
        firstPosition := r.positionAfter 1, firstSample := r.firstSample + entryCountAt m r.firstPosition } := ⟨_, rfl⟩
    have s := i.ring.countSum_commit_full m e (q := q) (by rw [hq]) (by rw [hq]) (by rw [hq])
    have a := h.account
    rw [← hq, show q.firstSample = r.firstSample + entryCountAt m r.firstPosition by rw [hq],
      show q.retained = r.regionSize by rw [hq]; exact eq, show q.nextSample = r.nextSample by rw [hq],
      show r.writePosition = r.positionAfter r.regionSize by rw [← eq]; rfl]
    rw [eq] at a
    omega

/-- R45: the cut to `depth` entries, of a segment without a trigger. -/
theorem RecordLaw.cutTo (h : RecordLaw fig m n r) {depth : Nat} (deep : depth < r.retained) (none : r.triggerPosition = none) :
    RecordLaw fig m n { r with
      retained := depth, firstPosition := r.positionAfter (r.retained - depth)
      firstSample := r.firstSample + countSum m (r.oldestPositions (r.retained - depth)) } := by
  have i := h.region f hf
  refine ⟨fun f' hf' => ?_, fun p hp => (by rw [none] at hp; cases hp), ?_⟩
  · have i' := h.region f' hf'
    exact ⟨i'.1, i'.2, (i.ring.positionAfter_mem _).1, (i.ring.positionAfter_mem _).2,
      Nat.le_trans (Nat.le_of_lt deep) i'.5, i'.6⟩
  · obtain ⟨q, hq⟩ : ∃ q : SegmentRecord, q = { r with
        retained := depth, firstPosition := r.positionAfter (r.retained - depth)
        firstSample := r.firstSample + countSum m (r.oldestPositions (r.retained - depth)) } := ⟨_, rfl⟩
    have s := SegmentRecord.Ring.countSum_split (r := r) (q := q) (k := r.retained - depth) (by rw [hq]) (by rw [hq]) (by rw [hq]) m depth
    have a := h.account
    rw [Nat.sub_add_cancel (Nat.le_of_lt deep)] at s
    rw [← hq, show q.firstSample = r.firstSample + countSum m (r.oldestPositions (r.retained - depth)) by rw [hq],
      show q.retained = depth by rw [hq], show q.nextSample = r.nextSample by rw [hq]]
    omega

/-- R43, R64: the trigger fields, of a record with room at which no sample is in the open entry; the trigger entry holds
sample `t`. -/
theorem RecordLaw.triggered (h : RecordLaw fig m 0 r) (room : r.retained < r.regionSize) (divider : Nat)
    (source : TriggerSource) : RecordLaw fig m 1 (r.triggered r.nextSample divider source) := by
  have i := h.region f hf
  refine ⟨fun f' hf' => let i' := h.region f' hf'; ⟨i'.1, i'.2, i'.3, i'.4, i'.5, i'.6⟩, fun p hp => ?_, ?_⟩
  · cases hp
    refine ⟨(i.ring.positionAfter_mem _).1, (i.ring.positionAfter_mem _).2, .inr ⟨?_, by decide⟩⟩
    exact i.ring.offsetOf_positionAfter room
  · have a := h.account
    show r.firstSample + countSum m (r.oldestPositions r.retained) + 1 = r.nextSample + 1
    omega

end

/-- R61: one more sample enters the open entry. -/
theorem RecordLaw.enter {fig : Option RunFigures} {m : Mem Entry} {n : Nat} {r : SegmentRecord} (h : RecordLaw fig m n r) :
    RecordLaw fig m (n + 1) { r with nextSample := r.nextSample + 1 } := by
  refine ⟨fun f' hf' => let i' := h.region f' hf'; ⟨i'.1, i'.2, i'.3, i'.4, i'.5, i'.6⟩, fun p hp => ?_, ?_⟩
  · obtain ⟨a, b, c⟩ := h.trigger p hp
    exact ⟨a, b, c.imp id (fun c => ⟨c.1, by omega⟩)⟩
  · have a := h.account
    show r.firstSample + countSum m (r.oldestPositions r.retained) + (n + 1) = r.nextSample + 1
    omega

/-- R40: a record as its segment opens. -/
theorem RecordLaw.opened {f : RunFigures} (fit : f.Fit) {i : Nat} (h : i < f.segments) (m : Mem Entry) (at' : Nat)
    (unaligned : Bool) : RecordLaw (some f) m 0 (newRecord f i at' unaligned) := by
  have pos := fit.some
  refine ⟨fun f' hf' => ?_, fun p hp => (by cases hp), by simp [newRecord, countSum, SegmentRecord.oldestPositions]⟩
  cases hf'
  refine ⟨rfl, rfl, Nat.le_refl _, Nat.lt_add_of_pos_right pos, Nat.zero_le _, ?_⟩
  have : (i + 1) * f.regionSize ≤ f.segments * f.regionSize := Nat.mul_le_mul_right _ h
  have s := fit.store
  show i * f.regionSize + f.regionSize ≤ _
  rw [Nat.add_mul, Nat.one_mul] at this
  exact Nat.le_trans this s

/-! ### The segment table -/

/-- The laws of a segment table over a store, `n` samples of the segment `oi` being in the open entry. -/
structure SegmentLaw (fig : Option RunFigures) (tab : List SegmentRecord) (m : Mem Entry) (oi : Option Nat) (n : Nat) :
    Prop where
  figures : ∀ f : RunFigures, fig = some f → f.Fit
  indices : tab.map SegmentRecord.index = List.range tab.length
  fits : tab ≠ [] → ∃ f : RunFigures, fig = some f ∧ tab.length ≤ f.segments
  records : ∀ r ∈ tab, RecordLaw fig m (if oi = some r.index then n else 0) r

section
variable {fig : Option RunFigures} {tab : List SegmentRecord} {m : Mem Entry} {oi : Option Nat} {n : Nat}

/-- The law looks at the spans of the records alone. -/
theorem SegmentLaw.congr {tab' : List SegmentRecord} (h : SegmentLaw fig tab m oi n)
    (e : tab'.map SegmentRecord.span = tab.map SegmentRecord.span) : SegmentLaw fig tab' m oi n := by
  have len : tab'.length = tab.length := by simpa using congrArg List.length e
  have idx : tab'.map SegmentRecord.index = tab.map SegmentRecord.index := by
    have := congrArg (List.map (fun x => x.1.1)) e
    simpa [Function.comp_def, SegmentRecord.span] using this
  refine ⟨h.figures, by rw [idx, len]; exact h.indices, fun ne => ?_, fun r hr => ?_⟩
  · rw [len]; refine h.fits (fun c => ne ?_)
    rw [c] at len; exact List.length_eq_zero_iff.mp len
  · have mem : r.span ∈ tab.map SegmentRecord.span := e ▸ List.mem_map_of_mem hr
    obtain ⟨q, hq, hs⟩ := List.mem_map.mp mem
    have i : q.index = r.index := congrArg (fun x => x.1.1) hs
    have := (h.records q hq).congr hs.symm
    rwa [i] at this

/-- With no sample in the open entry it does not matter which segment is open. -/
theorem SegmentLaw.anyOpen (h : SegmentLaw fig tab m oi 0) (oi' : Option Nat) : SegmentLaw fig tab m oi' 0 :=
  ⟨h.figures, h.indices, h.fits, fun r hr => by have := h.records r hr; simpa using this⟩

theorem SegmentLaw.noneOpen (h : SegmentLaw fig tab m oi 0) (k : Nat) : SegmentLaw fig tab m none k :=
  ⟨h.figures, h.indices, h.fits, fun r hr => by have := h.records r hr; simpa using this⟩

/-- The newest record stands last and bears the highest index. -/
theorem SegmentLaw.split (h : SegmentLaw fig tab m oi n) {r : SegmentRecord} (l : tab.getLast? = some r) :
    ∃ before, tab = before ++ [r] ∧ r.index = before.length ∧ ∀ x ∈ before, x.index < before.length := by
  obtain ⟨before, rfl⟩ := List.getLast?_eq_some_iff.mp l
  have i := h.indices
  simp only [List.map_append, List.map_cons, List.map_nil, List.length_append, List.length_cons, List.length_nil,
    Nat.zero_add, List.range_succ] at i
  have ⟨a, b⟩ := List.append_inj i (by simp)
  refine ⟨before, rfl, by simpa using b, fun x hx => ?_⟩
  have : x.index ∈ before.map SegmentRecord.index := List.mem_map_of_mem hx
  rw [a] at this; exact List.mem_range.mp this

/-- A change of the newest record, and of the store within its region. -/
theorem SegmentLaw.change (h : SegmentLaw fig tab m oi n) {r : SegmentRecord} (l : tab.getLast? = some r)
    (o : oi = some r.index) {g : SegmentRecord → SegmentRecord} (gi : (g r).index = r.index) {m' : Mem Entry} {n' : Nat}
    (same : ∀ p, ¬(r.regionFirst ≤ p ∧ p < r.regionFirst + r.regionSize) → Memory.read m' p = Memory.read m p)
    (new : RecordLaw fig m' n' (g r)) :
    SegmentLaw fig (tab.map (fun x => if x.index = r.index then g x else x)) m' oi n' := by
  obtain ⟨before, e, ri, bi⟩ := h.split l
  have ne : tab ≠ [] := by rw [e]; simp
  obtain ⟨f, hf, len⟩ := h.fits ne
  have mapped : tab.map (fun x => if x.index = r.index then g x else x) = before ++ [g r] := by
    rw [e, List.map_append]
    congr 1
    · refine (List.map_congr_left (fun x hx => ?_)).trans (List.map_id _)
      rw [if_neg]; · rfl
      have := bi x hx; omega
    · simp
  have rmem : r ∈ tab := by rw [e]; simp
  rw [mapped]
  refine ⟨h.figures, ?_, fun _ => ⟨f, hf, by rw [e] at len; simpa using len⟩, fun x hx => ?_⟩
  · have i := h.indices
    rw [e] at i; simp only [List.map_append, List.map_cons, List.map_nil, gi] at i ⊢; simpa using i
  · rcases List.mem_append.mp hx with hb | hb
    · have lt := bi x hb
      have xm : x ∈ tab := by rw [e]; exact List.mem_append_left _ hb
      have R := h.records x xm
      have off : oi ≠ some x.index := by rw [o]; intro c; have := Option.some.inj c; omega
      rw [if_neg off] at R ⊢
      have ix := R.region f hf
      have ir := (h.records r rmem).region f hf
      refine R.store ix.ring (fun p p1 p2 => same p ?_)
      intro c
      have mono : (x.index + 1) * f.regionSize ≤ r.index * f.regionSize := Nat.mul_le_mul_right _ (by omega)
      rw [Nat.add_mul, Nat.one_mul] at mono
      have := ix.first; have := ir.first; have := ix.size
      omega
    · have : x = g r := by simpa using hb
      subst this
      rw [gi, if_pos o]; exact new

/-- R40: a segment opens after those of the table. -/
theorem SegmentLaw.opened {f : RunFigures} (h : SegmentLaw fig tab m oi 0) (hf : fig = some f) (room : tab.length < f.segments)
    (at' : Nat) (unaligned : Bool) :
    SegmentLaw fig (tab ++ [newRecord f tab.length at' unaligned]) m (some tab.length) 0 := by
  refine ⟨h.figures, ?_, fun _ => ⟨f, hf, by simpa using room⟩, fun r hr => ?_⟩
  · rw [List.map_append, h.indices, List.length_append, List.length_cons, List.length_nil, Nat.zero_add, List.range_succ]
    rfl
  · rcases List.mem_append.mp hr with hb | hb
    · have := h.records r hb; simpa using this
    · have : r = newRecord f tab.length at' unaligned := by simpa using hb
      subst this
      rw [ite_self, hf]; exact RecordLaw.opened (h.figures f hf) room m at' unaligned

end

/-! ### LOG's part -/

theorem State.foldl_trimLog_mem (a : List Advance) (s : State) (x : LogRecord) :
    x ∈ (a.foldl State.trimLog s).log.records ↔
      x ∈ s.log.records ∧ ∀ adv ∈ a, LogRecord.outlives adv.segment (adv.firstSample * s.divider) x = true := by
  induction a generalizing s with
  | nil => simp
  | cons adv rest ih =>
    rw [List.foldl_cons, ih]
    have d : (s.trimLog adv).divider = s.divider := rfl
    have r : x ∈ (s.trimLog adv).log.records ↔
        x ∈ s.log.records ∧ LogRecord.outlives adv.segment (adv.firstSample * s.divider) x = true := List.mem_filter
    rw [r, d, List.forall_mem_cons]; tauto

theorem LogRecord.outlives_start {x : LogRecord} {i t : Nat} (h : LogRecord.outlives i t x = true)
    (e : x.content.segment = i) : t ≤ x.content.startTime := by
  unfold LogRecord.outlives at h
  simpa [e] using h

/-- A record's arrival leaves in the log the records that were there and, where it is placed, the record, clipped. -/
theorem State.logRecord_mem {s : State} {rs : RunState} {first : Nat} {r : DecodeRecord} {x : LogRecord}
    (h : x ∈ (s.logRecord rs first r).log.records) :
    x ∈ s.log.records ∨ x.content = clipRecord (first * s.divider) r := by
  have dropped (t : State) (q : DecodeRecord) : (t.dropRecord q).log.records = t.log.records := by
    unfold State.dropRecord; dsimp only; split
    · rw [State.updateOpen_eq]; rfl
    · rfl
  unfold State.logRecord at h
  split at h
  · rw [dropped] at h; exact .inl h
  · unfold State.placeRecord at h
    dsimp only at h
    split at h
    · rcases List.mem_append.mp h with h | h
      · exact .inl h
      · rw [List.mem_singleton.mp h]; exact .inr rfl
    split at h
    · rcases List.mem_append.mp h with h | h
      · exact .inl (List.mem_of_mem_eraseP h)
      · rw [List.mem_singleton.mp h]; exact .inr rfl
    · rw [dropped] at h; exact .inl h

theorem clipRecord_segment (t : Nat) (r : DecodeRecord) : (clipRecord t r).segment = r.segment := by
  unfold clipRecord; split <;> rfl

theorem clipRecord_start (t : Nat) (r : DecodeRecord) : t ≤ (clipRecord t r).startTime := by
  unfold clipRecord; split
  · exact Nat.le_refl _
  · next h => exact Nat.le_of_not_lt h

/-- LOG's part of a sample, over the advances of one segment, the last of which is to the first retained sample index `F`: no
record of that segment is left that starts before it, and no record of another segment comes. -/
theorem State.logSample_starts {i F : Nat} (l : List DecodeRecord) : ∀ {s : State} {rs : RunState} {first : Nat}
    {a : List Advance}, (∀ adv ∈ a, adv.segment = i) → (∀ adv, a.getLast? = some adv → adv.firstSample = F) →
    (a = [] → first = F) → (∀ r ∈ l, r.segment = i) →
    (∀ x ∈ s.log.records, x.content.segment = i → a ≠ [] ∨ F * s.divider ≤ x.content.startTime) →
    (∀ x ∈ (s.logSample rs first l a).log.records, x.content.segment = i → F * s.divider ≤ x.content.startTime) ∧
      ∀ x ∈ (s.logSample rs first l a).log.records, x.content.segment ≠ i → x ∈ s.log.records := by
  induction l with
  | nil =>
    intro s rs first a seg last _ _ old
    rw [State.logSample]
    refine ⟨fun x hx e => ?_, fun x hx _ => ((State.foldl_trimLog_mem a s x).mp hx).1⟩
    obtain ⟨h1, h2⟩ := (State.foldl_trimLog_mem a s x).mp hx
    rcases old x h1 e with ne | le
    · have g := List.getLast?_eq_some_getLast ne
      have := LogRecord.outlives_start (h2 _ (List.getLast_mem ne)) (e.trans (seg _ (List.getLast_mem ne)).symm)
      rwa [last _ g] at this
    · exact le
  | cons r rest ih =>
    intro s rs first a seg last none recs old
    have recs' : ∀ q ∈ rest, q.segment = i := fun q hq => recs q (List.mem_cons_of_mem _ hq)
    have ri := recs r (List.mem_cons_self ..)
    cases a with
    | nil =>
      rw [State.logSample]
      have d : (s.logRecord rs first r).divider = s.divider := State.divider_of_still (by simp)
      have key := ih (s := s.logRecord rs first r) (rs := rs) (first := first) (a := []) (by simp) (by simp) none recs'
        (fun x hx e => .inr ?_)
      · rw [d] at key
        refine ⟨key.1, fun x hx ne => ?_⟩
        rcases State.logRecord_mem (key.2 x hx ne) with h | h
        · exact h
        · exact absurd (by rw [h, clipRecord_segment, ri]) ne
      · rw [d]
        rcases State.logRecord_mem hx with h | h
        · exact (old x h e).resolve_left (fun c => c rfl)
        · rw [h, ← none rfl]; exact clipRecord_start ..
    | cons adv more =>
      simp only [State.logSample]
      generalize Config.advancesBeforeRecord s.freeCount = k
      generalize hT : (adv :: more).take k = taken
      generalize hR : (adv :: more).drop k = left
      have whole : adv :: more = taken ++ left := by rw [← hT, ← hR]; exact (List.take_append_drop ..).symm
      generalize hN : (taken.getLast?).getD { segment := adv.segment, firstSample := first, runState := rs } = now
      generalize hU : taken.foldl State.trimLog s.fresh = u
      have ud : u.divider = s.divider := by rw [← hU]; exact State.divider_of_still (by simp)
      have d : (u.logRecord now.runState now.firstSample r).divider = s.divider :=
        (State.divider_of_still (by simp)).trans ud
      have um (x : LogRecord) : x ∈ u.log.records → x ∈ s.log.records ∧
          ∀ b ∈ taken, LogRecord.outlives b.segment (b.firstSample * s.divider) x = true := by
        rw [← hU]; exact fun h => (State.foldl_trimLog_mem taken s.fresh x).mp h
      have allTaken : left = [] → now.firstSample = F ∧ taken ≠ [] ∧ taken.getLast? = (adv :: more).getLast? := by
        intro e
        rw [e, List.append_nil] at whole
        have ne : taken ≠ [] := by rw [← whole]; simp
        have g := List.getLast?_eq_some_getLast ne
        refine ⟨?_, ne, by rw [whole]⟩
        rw [← hN, g]; exact last _ (by rw [whole]; exact g)
      have segL : ∀ b ∈ left, b.segment = i := fun b hb => seg b (by rw [whole]; exact List.mem_append_right _ hb)
      have segT : ∀ b ∈ taken, b.segment = i := fun b hb => seg b (by rw [whole]; exact List.mem_append_left _ hb)
      have lastL : ∀ b, left.getLast? = some b → b.firstSample = F := by
        intro b hb
        refine last b ?_
        rw [whole, List.getLast?_append, hb]; rfl
      have key := ih (s := u.logRecord now.runState now.firstSample r) (rs := now.runState) (first := now.firstSample)
        (a := left) segL lastL (fun e => (allTaken e).1) recs' (fun x hx e => ?_)
      · rw [d] at key
        refine ⟨key.1, fun x hx ne => ?_⟩
        rcases State.logRecord_mem (key.2 x hx ne) with h | h
        · exact (um x h).1
        · exact absurd (by rw [h, clipRecord_segment, ri]) ne
      · by_cases el : left = []
        · right
          obtain ⟨nf, ne, g⟩ := allTaken el
          rw [d]
          rcases State.logRecord_mem hx with h | h
          · have gl := List.getLast?_eq_some_getLast ne
            have lm := List.getLast_mem ne
            have := LogRecord.outlives_start ((um x h).2 _ lm) (e.trans (segT _ lm).symm)
            rwa [last _ (by rw [← g]; exact gl)] at this
          · rw [h, nf, ud]; exact clipRecord_start ..
        · exact .inl el

end Sys2Proof.Machine
end

