-- ==== Sys2Proof/Laws/Channels.lean ====
section
/-! SUPPORT. Sys2Proof/Laws/Channels.lean: which channels a channel set holds, the level a channel settles to, when a decoder
unit sees a glitch, and which bits a collected value has (R25, R100, R101). -/

namespace Sys2Proof.Machine

/-! ### Channel sets -/

theorem levelOf_oneChannel (c k : Fin 16) : levelOf (oneChannel c.val) k = decide (k = c) := by
  simp only [levelOf, oneChannel, BitVec.getLsbD_shiftLeft, BitVec.getLsbD_one]
  by_cases h : k = c
  · subst h; simp
  · have h' : decide (k = c) = false := by simpa using h
    rw [h']
    simp only [Fin.ext_iff] at h
    simp only [Fin.is_lt, decide_true, Bool.true_and, Bool.and_eq_false_iff, Bool.not_eq_false', decide_eq_true_eq,
      decide_eq_false_iff_not]
    omega

theorem levelOf_or (a b : Levels) (k : Fin 16) : levelOf (a ||| b) k = (levelOf a k || levelOf b k) := BitVec.getLsbD_or

theorem levelOf_foldl_oneChannel (cs : List (Fin 16)) (m : Levels) (k : Fin 16) :
    levelOf (cs.foldl (fun m c => m ||| oneChannel c.val) m) k = (levelOf m k || decide (k ∈ cs)) := by
  induction cs generalizing m with
  | nil => simp
  | cons c r ih =>
    rw [List.foldl_cons, ih, levelOf_or, levelOf_oneChannel]
    simp only [List.mem_cons, Bool.decide_or, Bool.or_assoc]

@[simp] theorem levelOf_channelsOf (cs : List (Fin 16)) (k : Fin 16) : levelOf (channelsOf cs) k = decide (k ∈ cs) := by
  rw [channelsOf, levelOf_foldl_oneChannel]
  simp [levelOf]

/-- Two channel sets meet exactly when they have a channel in common. -/
theorem levels_meet_iff (x m : Levels) :
    ((x &&& m) != 0) = true ↔ ∃ k : Fin 16, levelOf x k = true ∧ levelOf m k = true := by
  rw [bne_iff_ne]
  constructor
  · intro hne
    by_contra hc
    apply hne
    apply BitVec.eq_of_getLsbD_eq
    intro i hi
    rw [BitVec.getLsbD_and]
    have h : ¬(x.getLsbD i = true ∧ m.getLsbD i = true) := fun e => hc ⟨⟨i, hi⟩, e⟩
    rw [← Bool.and_eq_true, Bool.not_eq_true] at h
    rw [h]
    exact (BitVec.getLsbD_zero).symm
  · rintro ⟨k, h1, h2⟩ h
    have hk : (x &&& m).getLsbD k.val = true := by
      rw [BitVec.getLsbD_and]
      simp only [levelOf] at h1 h2
      rw [h1, h2, Bool.and_self]
    rw [h] at hk
    simp at hk

theorem levelOf_channelsBelow (f : Nat → Bool) (n : Nat) (k : Fin 16) :
    levelOf (channelsBelow f n) k = (decide (k.val < n) && f k.val) := by
  induction n with
  | zero => simp [channelsBelow, levelOf]
  | succ n ih =>
    rw [channelsBelow, levelOf_or, ih]
    by_cases h : k.val = n
    · have h1 : (1#16 <<< n).getLsbD k.val = true := by
        rw [BitVec.getLsbD_shiftLeft, h]
        simp [h ▸ k.isLt]
      cases hf : f n <;> simp [h, hf, levelOf]
      rw [← h]
      simpa [h] using h1
    · have h1 : levelOf (if f n then (1#16 <<< n) else 0) k = false := by
        split
        · simp only [levelOf, BitVec.getLsbD_shiftLeft, BitVec.getLsbD_one]
          simp only [k.isLt, decide_true, Bool.true_and, Bool.and_eq_false_iff, Bool.not_eq_false', decide_eq_true_eq,
            decide_eq_false_iff_not]
          omega
        · simp [levelOf]
      rw [h1, Bool.or_false]
      congr 1
      simp only [decide_eq_decide]
      omega

@[simp] theorem levelOf_channelSet (f : Nat → Bool) (k : Fin 16) : levelOf (channelSet f) k = f k.val := by
  rw [channelSet, levelOf_channelsBelow]
  simp [k.isLt]

/-- R25: the enabled channels of a set settle, and the others keep their level. -/
theorem Pfe.levelOf_settle (p : Pfe) (kept : Fin 16 → Bool) (channels : Levels) (k : Fin 16) :
    levelOf (p.settle kept channels).raw k =
      if levelOf channels k = true ∧ levelOf p.enabled k = true then p.settledLevel (kept k) k else levelOf p.raw k := by
  have h : levelOf (p.settle kept channels).raw k =
      ((levelOf p.raw k && !(levelOf channels k && levelOf p.enabled k)) ||
        ((if h : k.val < 16 then p.settledLevel (kept ⟨k.val, h⟩) ⟨k.val, h⟩ else false) &&
          (levelOf channels k && levelOf p.enabled k))) := by
    rw [← levelOf_channelSet (fun i => if h : i < 16 then p.settledLevel (kept ⟨i, h⟩) ⟨i, h⟩ else false)]
    simp [Pfe.settle, levelOf]
  rw [h]
  simp only [k.isLt, dif_pos, Fin.eta]
  cases levelOf channels k <;> cases levelOf p.enabled k <;> simp

/-! ### Glitches (R101) -/

theorem sawGlitch_uart (u : UartSettings) (c : SampleContext) :
    sawGlitch (.uart u) c = levelOf c.glitch u.channel := by
  rw [Bool.eq_iff_iff, sawGlitch, levels_meet_iff]
  simp [assignedChannels, levelOf_oneChannel]

theorem sawGlitch_spi (u : SpiSettings) (c : SampleContext) :
    sawGlitch (.spi u) c = true ↔ ∃ k : Fin 16, levelOf c.glitch k = true ∧
      (k = u.clock ∨ u.select = some k ∨ u.dataOut = some k ∨ u.dataIn = some k) := by
  rw [sawGlitch, levels_meet_iff]
  simp [assignedChannels]

theorem sawGlitch_i2c (u : I2cSettings) (c : SampleContext) :
    sawGlitch (.i2c u) c = true ↔ levelOf c.glitch u.scl = true ∨ levelOf c.glitch u.sda = true := by
  rw [sawGlitch, levels_meet_iff]
  simp [assignedChannels, and_or_left, exists_or]

/-! ### Values collected bit by bit (R100) -/

/-- Bit k of a value collected least significant bit first is the k-th bit collected. -/
theorem natLsbFirst_testBit (l : List Bool) (k : Nat) : (natLsbFirst l).testBit k = (l[k]?).getD false := by
  induction l generalizing k with
  | nil => simp [natLsbFirst]
  | cons b r ih =>
    cases k with
    | zero =>
      simp only [natLsbFirst, Nat.testBit_zero]
      cases b <;> simp
    | succ k =>
      have h : (b.toNat + 2 * natLsbFirst r) / 2 = natLsbFirst r := by have := b.toNat_lt; omega
      rw [natLsbFirst, Nat.testBit_succ, h, ih]
      simp

end Sys2Proof.Machine
end

