-- ==== Sys2Proof/Laws/Closing.lean ====
section
/-! SUPPORT. Sys2Proof/Laws/Closing.lean: what the commit of an open entry, the close of a segment and the end of a run make
of a state, each in one equation, in the terms of Safety.lean. -/

namespace Sys2Proof.Machine

/-- The advance that the commit of the open entry `o` of segment `g` causes, if it causes one (R66). -/
def SegmentRecord.commitAdvances (g : SegmentRecord) (s : State) (o : OpenEntry) : List Advance :=
  if o.holding ≠ none ∧ g.regionSize ≤ g.retained then
    [{ segment := g.index, firstSample := (g.committed s.cst.store o).firstSample, runState := s.run.state }]
  else []

/-- A change of the records with the index of `g`, where `g` is the only one. -/
theorem map_ofIndex {table : List SegmentRecord} {g : SegmentRecord} (hu : ∀ x ∈ table, x.index = g.index → x = g)
    (f : SegmentRecord → SegmentRecord) :
    table.map (fun x => if x.index == g.index then f x else x) =
      table.map (fun x => if x.index = g.index then f g else x) :=
  List.map_congr_left fun x hx => by
    by_cases h : x.index = g.index
    · simp [hu x hx h]
    · simp [h]

/-- R43 step 1, R51 step 1, R61 step 1: the commit of the open entry of the open segment. -/
theorem State.commitOpen_eq {s : State} {g : SegmentRecord} {o : OpenEntry} (hg : s.openRecord? = some g)
    (ho : s.cst.openEntry = some o) (hu : ∀ x ∈ s.run.table, x.index = g.index → x = g) :
    s.commitOpen = ({ s with
      cst := { store := committedStore s.cst.store g o, checkpoints := committedSlots s.cst.checkpoints g o
               openEntry := some (match o.holding with
                 | some e => { start := o.start + e.count, holding := none }
                 | none => o) }
      run := { s.run with
        table := s.run.table.map (fun x => if x.index = g.index then g.committed s.cst.store o else x) } },
      g.commitAdvances s o) := by
  obtain ⟨start, holding⟩ := o
  cases holding with
  | none =>
    have hself : s.run.table.map (fun x => if x.index = g.index then g else x) = s.run.table := by
      conv_rhs => rw [← List.map_id s.run.table]
      exact List.map_congr_left fun x hx => by
        by_cases h : x.index = g.index
        · simp [hu x hx h]
        · simp [h]
    simp only [State.commitOpen, hg, ho, SegmentRecord.commitAdvances, SegmentRecord.committed, committedStore,
      committedSlots, if_true, hself, ne_eq, not_true_eq_false, false_and, if_false]
    rw [← ho]
  | some e =>
    simp only [State.commitOpen, hg, ho, State.commitEntry, SegmentRecord.commitAdvances, SegmentRecord.committed,
      committedStore, committedSlots, reduceCtorEq, not_false_eq_true, ne_eq, true_and, if_false, checkpointCommit,
      Config.checkpointSpacing, State.setCst, State.updateRecord]
    by_cases h : g.retained < g.regionSize
    · rw [if_pos h, if_neg (Nat.not_le.mpr h), if_pos h, map_ofIndex hu]
      congr
    · rw [if_neg h, if_pos (Nat.le_of_not_lt h), if_neg h, map_ofIndex hu]
      congr

/-- R51, R67: the open segment closes: its record, its store, LOG trimmed by the commit, TSQ's drives released. -/
theorem State.closeSegment_eq {s : State} {g : SegmentRecord} {o : OpenEntry} (reason : CloseReason)
    (hg : s.openRecord? = some g) (ho : s.cst.openEntry = some o) (hu : ∀ x ∈ s.run.table, x.index = g.index → x = g) :
    s.closeSegment reason = { s with
      cst := { store := committedStore s.cst.store g o, openEntry := none
               checkpoints := committedSlots s.cst.checkpoints g o }
      run := { s.run with
        pendingRemote := false
        table := s.run.table.map (fun x => if x.index = g.index then g.closedWith s.cst.store o reason else x) }
      tsq := { s.tsq with drives := 0 }
      log := s.logAfterClose g o } := by
  have oi : s.openIndex? = some g.index := by rw [State.openIndex?, hg]; rfl
  have ho' : (s.commitOpen.2.foldl State.trimLog s.commitOpen.1).openIndex? = some g.index := by
    rw [State.openIndex?_congr (s := s.commitOpen.1) (by simp) (by simp), State.commitOpen_openIndex?, oi]
  have trims (a : List Advance) (x : State) : a.foldl State.trimLog x =
      { x with log := (a.foldl State.trimLog x).log } := by
    induction a generalizing x with
    | nil => rfl
    | cons b rest ih => rw [List.foldl_cons, ih]; rfl
  have tl (b : Advance) (x : State) (c : Cst) (u : Run) (h : u.figures = x.run.figures) :
      (State.trimLog { x with cst := c, run := u } b).log = (x.trimLog b).log := by
    simp only [State.trimLog, State.setLog, State.divider, h]
  unfold State.closeSegment
  dsimp only
  rw [State.updateOpen_eq, ho', trims, State.commitOpen_eq hg ho hu]
  have table : (s.run.table.map (fun x => if x.index = g.index then g.committed s.cst.store o else x)).map
      (fun r => if some g.index = some r.index then { r with state := .closed, closeReason := some reason } else r) =
      s.run.table.map (fun x => if x.index = g.index then g.closedWith s.cst.store o reason else x) := by
    rw [List.map_map]
    refine List.map_congr_left fun x _ => ?_
    have gi : (g.committed s.cst.store o).index = g.index := by
      unfold SegmentRecord.committed; split <;> [rfl; (split <;> rfl)]
    by_cases h : x.index = g.index
    · simp [Function.comp, h, gi, SegmentRecord.closedWith]
    · simp [Function.comp, h, Ne.symm h]
  simp only [State.setCst, State.setTsq, State.setRun, Tsq.release, table]
  congr 1
  unfold SegmentRecord.commitAdvances State.logAfterClose
  by_cases h : o.holding ≠ none ∧ g.regionSize ≤ g.retained
  · simp only [if_pos h]; exact tl _ _ _ _ rfl
  · simp only [if_neg h]; rfl

theorem State.divider_of_figures {s t : State} (h : t.run.figures = s.run.figures) : t.divider = s.divider := by
  rw [State.divider, State.divider, h]

/-- R122 to R125 with no segment open: a record changes the log alone. -/
theorem State.logRecord_idle {s : State} (h : s.run.state.hasSegment = false) (rs : RunState) (n : Nat) (r : DecodeRecord) :
    s.logRecord rs n r = { s with log :=
      let clipped := clipRecord (n * s.divider) r
      if Config.sequenceLimit ≤ s.log.counter then
        { s.log with lost := s.log.lost.set r.decoder (min Config.lostLimit (s.log.lost.get r.decoder + 1)) }
      else if s.log.records.length < Config.logCapacity then
        { s.log with
          counter := s.log.counter + 1, records := s.log.records ++ [{ sequence := s.log.counter, content := clipped }] }
      else
        { s.log with
          counter := s.log.counter + 1
          lost := s.log.lost.set clipped.decoder (min Config.lostLimit (s.log.lost.get clipped.decoder + 1)) } } := by
  have drop (x : State) (hx : x.run.state.hasSegment = false) (y : DecodeRecord) : x.dropRecord y =
      x.setLog { x.log with lost := x.log.lost.set y.decoder (min Config.lostLimit (x.log.lost.get y.decoder + 1)) } := by
    unfold State.dropRecord
    rw [if_neg (by rw [State.openIndex?_of_noSegment hx]; simp)]
  unfold State.logRecord
  split
  · rw [drop s h]; rfl
  · have hx : (s.setLog { s.log with counter := s.log.counter + 1 }).run.state.hasSegment = false := h
    have none : (s.setLog { s.log with counter := s.log.counter + 1 }).openIndex? = none :=
      State.openIndex?_of_noSegment hx
    unfold State.placeRecord
    simp only [none, drop _ hx]
    have off : (s.setLog { s.log with counter := s.log.counter + 1 }).log.records.any
        (fun l => (Option.none : Option Nat) == some l.content.segment) = false := by
      rw [List.any_eq_false]; intro x _; simp
    rw [off, Bool.and_false, if_neg Bool.false_ne_true]
    dsimp only [State.setLog]
    by_cases hl : s.log.records.length < Config.logCapacity
    · simp only [hl, if_true]
    · simp only [hl, if_false]

/-- LOG's part of a flush changes the log alone, by what the log, the divider and the records give. -/
theorem State.logFlush_eq {s t : State} (hs : s.run.state.hasSegment = false) (ht : t.run.state.hasSegment = false)
    (hl : t.log = s.log) (hf : t.run.figures = s.run.figures) (rs : RunState) (n : Nat) (l : List DecodeRecord) :
    t.logSample rs n l [] = { t with log := (s.logSample rs n l []).log } := by
  induction l generalizing s t with
  | nil => show t = { t with log := s.log }; rw [← hl]
  | cons r rest ih =>
    have one : t.logRecord rs n r = { t with log := (s.logRecord rs n r).log } := by
      rw [State.logRecord_idle hs, State.logRecord_idle ht, hl, State.divider_of_figures hf]
    have hs' : (s.logRecord rs n r).run = s.run := State.logRecord_run_idle hs rs n r
    have ht' : (t.logRecord rs n r).run = t.run := State.logRecord_run_idle ht rs n r
    show (t.logRecord rs n r).logSample rs n rest [] = { t with log := ((s.logRecord rs n r).logSample rs n rest []).log }
    rw [ih (s := s.logRecord rs n r) (t := t.logRecord rs n r) (by rw [hs']; exact hs) (by rw [ht']; exact ht)
      (by rw [one]) (by rw [hs', ht', hf])]
    conv_lhs => rw [one]

/-- R118: the flush once the run is over: the records reach the comparators and LOG, and the units stop. -/
theorem State.flushDecoders_eq {s : State} {g : SegmentRecord} (h : s.run.state.hasSegment = false)
    (last : s.run.table.getLast? = some g) :
    s.flushDecoders = { s with
      dec := { s.dec with units := s.dec.units.map DecodeUnit.stop }
      fc := { s.fc with
        sticky := s.fc.sticky ||| hitsOf s.fc.settings (s.dec.flushRecords (flushContext s g)) }
      log := (s.logSample s.run.state g.firstSample (s.dec.flushRecords (flushContext s g)) []).log } := by
  unfold State.flushDecoders
  rw [last]
  dsimp only
  have flushed := State.logFlush_eq (s := s) (t := s.compareRecords (s.dec.flushRecords (flushContext s g))) h h rfl rfl
    s.run.state g.firstSample (s.dec.flushRecords (flushContext s g))
  rw [State.logFlushed, show (s.compareRecords (s.dec.flushRecords (flushContext s g))).run.state = s.run.state from rfl,
    flushed]
  rfl

/-- The log after a close reads the log, the table's figures and the store alone. -/
theorem State.logAfterClose_congr {s t : State} (run : t.run = s.run) (store : t.cst.store = s.cst.store)
    (log : t.log = s.log) (g : SegmentRecord) (o : OpenEntry) : t.logAfterClose g o = s.logAfterClose g o := by
  have divider : t.divider = s.divider := State.divider_of_figures (by rw [run])
  simp only [State.logAfterClose, State.trimLog, State.setLog, store, run, log, divider]

/-- The log after a run's end reads the log, the table's figures, the store and the units alone. -/
theorem State.logAfterRun_congr {s t : State} (run : t.run = s.run) (store : t.cst.store = s.cst.store)
    (dec : t.dec = s.dec) (log : t.log = s.log) (g : SegmentRecord) (o : OpenEntry) :
    t.logAfterRun g o = s.logAfterRun g o := by
  have divider : t.divider = s.divider := State.divider_of_figures (by rw [run])
  have records : t.flushedRecords g = s.flushedRecords g := by rw [State.flushedRecords, State.flushedRecords, dec, divider]
  have logOf (x y : State) (hr : x.run = y.run) (hi : y.run.state.hasSegment = false) (hl : x.log = y.log) (n : Nat)
      (l : List DecodeRecord) : (x.logSample .idle n l []).log = (y.logSample .idle n l []).log := by
    rw [State.logFlush_eq (s := y) (t := x) hi (by rw [hr]; exact hi) hl (by rw [hr])]
  unfold State.logAfterRun
  rw [records, store, State.logAfterClose_congr run store log]
  exact logOf { t with log := s.logAfterClose g o, run := { t.run with state := .idle } }
    { s with log := s.logAfterClose g o, run := { s.run with state := .idle } } (by rw [run]) rfl rfl _ _

/-- R51, R52, R118: the open segment closes and the run ends: what stands before the STATUS is posted. -/
theorem State.closeAndEnd_eq {s : State} {g : SegmentRecord} {o : OpenEntry} (reason : CloseReason)
    (hg : s.openRecord? = some g) (ho : s.cst.openEntry = some o) (hu : ∀ x ∈ s.run.table, x.index = g.index → x = g) :
    (s.closeSegment reason).endRunTime.flushDecoders = { s with
      tau := { s.tau with runTime := none }
      pfe := { s.pfe with changedOnce := 0, glitchSeen := 0, lastLevels := none }
      run := { s.run with
        state := .idle, pendingRemote := false
        table := s.run.table.map (fun x => if x.index = g.index then g.closedWith s.cst.store o reason else x) }
      cst := { store := committedStore s.cst.store g o, openEntry := none
               checkpoints := committedSlots s.cst.checkpoints g o }
      tsq := { s.tsq with drives := 0, running := false }
      dec := { s.dec with units := s.dec.units.map DecodeUnit.stop }
      fc := { s.fc with sticky := s.fc.sticky ||| hitsOf s.fc.settings (s.flushedRecords g) }
      log := s.logAfterRun g o } := by
  have getLast : s.run.table.getLast? = some g := by
    unfold State.openRecord? at hg
    split at hg
    · exact hg
    · cases hg
  have ci : (g.closedWith s.cst.store o reason).nextSample = g.nextSample ∧
      (g.closedWith s.cst.store o reason).index = g.index ∧
      (g.closedWith s.cst.store o reason).firstSample = (g.committed s.cst.store o).firstSample := by
    unfold SegmentRecord.closedWith SegmentRecord.committed
    split <;> [exact ⟨rfl, rfl, rfl⟩; (split <;> exact ⟨rfl, rfl, rfl⟩)]
  rw [State.closeSegment_eq reason hg ho hu]
  generalize hE : State.endRunTime _ = e
  have last : e.run.table.getLast? = some (g.closedWith s.cst.store o reason) := by
    rw [← hE]; simp [State.endRunTime, getLast, List.getLast?_map]
  have context : flushContext e (g.closedWith s.cst.store o reason) =
      { index := g.nextSample - 1, divider := s.divider, segment := g.index, word := 0, last := 0, glitch := 0 } := by
    rw [flushContext, ci.1, ci.2.1, ← hE]; rfl
  have records : e.dec.flushRecords (flushContext e (g.closedWith s.cst.store o reason)) = s.flushedRecords g := by
    rw [context, ← hE]; rfl
  have idle : e.run.state = .idle := by rw [← hE]; rfl
  have flushed := State.logFlush_eq
    (s := { s with log := s.logAfterClose g o, run := { s.run with state := .idle } }) (t := e) rfl
    (by rw [idle]; rfl) (by rw [← hE]; rfl) (by rw [← hE]; rfl) .idle (g.committed s.cst.store o).firstSample
    (s.flushedRecords g)
  rw [State.flushDecoders_eq (by rw [idle]; rfl) last, records, ci.2.2, idle, flushed, ← hE]
  simp only [State.endRunTime, State.setRun, State.setTau, State.setPfe, State.setTsq, Pfe.endRunTime, Tsq.release,
    Tsq.stopRunning, State.logAfterRun]

end Sys2Proof.Machine
end

