-- ==== Sys2Proof/Laws/Lock.lean ====
section
/-! SUPPORT. Sys2Proof/Laws/Lock.lean: what the timebase's operations do to the law of lock and rate factor (R12 to R14). -/

namespace Sys2Proof.Machine

/-- The law looks at the history, the lock state and K alone. -/
theorem LockLaw.congr {t u : Tau} (h : LockLaw t) (e1 : u.history = t.history) (e2 : u.locked = t.locked)
    (e3 : u.rateFactor = t.rateFactor) : LockLaw u := by
  obtain ⟨a, b, c, d, e⟩ := h
  exact ⟨e1 ▸ a, e1 ▸ b, by rw [e1, e2]; exact c, by rw [e1, e2, e3]; exact d, e3 ▸ e⟩

theorem LockLaw.unlock (t : Tau) : LockLaw t.unlock :=
  ⟨by simp [Tau.unlock], by simp [Tau.unlock], by simp [Tau.unlock], rfl, ⟨Nat.le_refl _, by simp [Tau.unlock, Config.unlockedK]⟩⟩

/-- R14: K from four accepted intervals lies within its bounds. -/
theorem rateFactorOf_bounds {h : List Nat} (hl : h.length = 4)
    (ha : ∀ m ∈ h, Config.acceptedLow ≤ m ∧ m ≤ Config.markInterval) :
    Config.unlockedK ≤ rateFactorOf h ∧ rateFactorOf h ≤ 68267 := by
  obtain ⟨a, b, c, d, rfl⟩ : ∃ a b c d, h = [a, b, c, d] := by
    match h, hl with
    | [a, b, c, d], _ => exact ⟨a, b, c, d, rfl⟩
  simp only [Config.acceptedLow, Config.markInterval, List.mem_cons, List.not_mem_nil, or_false, forall_eq_or_imp,
    forall_eq] at ha
  simp only [rateFactorOf, List.sum_cons, List.sum_nil, Config.unlockedK]
  generalize hA : (a + (b + (c + (d + 0))) + 2) / 4 = A
  have low : 1006633 ≤ A := by omega
  have high : A ≤ 1048576 := by omega
  constructor
  · rw [Nat.le_div_iff_mul_le (by omega)]; omega
  · rw [Nat.div_le_iff_le_mul_add_pred (by omega)]; omega

theorem pushInterval_length {h : List Nat} (hl : h.length ≤ 4) (m : Nat) : (pushInterval h m).length ≤ 4 := by
  unfold pushInterval
  split
  · simp; omega
  · simp; omega

theorem mem_pushInterval {h : List Nat} {m x : Nat} (hx : x ∈ pushInterval h m) : x ∈ h ∨ x = m := by
  unfold pushInterval at hx
  split at hx
  · simpa using hx
  · rcases List.mem_append.1 hx with hx | hx
    · exact .inl (List.mem_of_mem_drop hx)
    · exact .inr (List.mem_singleton.1 hx)

/-- R13, R14: an accepted interval keeps the law. -/
theorem LockLaw.acceptInterval {t : Tau} (h : LockLaw t) {m : Nat}
    (hm : Config.acceptedLow ≤ m ∧ m ≤ Config.markInterval) : LockLaw (t.acceptInterval m) := by
  have len := pushInterval_length h.atMostFour m
  have acc : ∀ x ∈ pushInterval t.history m, Config.acceptedLow ≤ x ∧ x ≤ Config.markInterval := by
    intro x hx
    rcases mem_pushInterval hx with hx | rfl
    · exact h.accepted x hx
    · exact hm
  unfold Tau.acceptInterval
  dsimp only
  split
  · next h4 => exact ⟨len, acc, by simp [h4], by simp, rateFactorOf_bounds h4 acc⟩
  · next h4 => exact ⟨len, acc, by simp [h4], by simp, ⟨Nat.le_refl _, by simp [Config.unlockedK]⟩⟩

theorem LockLaw.measureInterval {t : Tau} (h : LockLaw t) : LockLaw t.measureInterval := by
  unfold Tau.measureInterval
  split
  · exact h
  · exact h
  · split
    · next hm => exact h.acceptInterval hm
    · exact LockLaw.unlock t

theorem LockLaw.leadingEdge {t : Tau} (h : LockLaw t) (rs : RunState) : LockLaw (t.leadingEdge rs) :=
  h.measureInterval.congr rfl rfl rfl

/-- What leaves all of TAU but run time as it was keeps the law. -/
theorem LockLaw.of_still {s t : State} (h : LockLaw s.tau) (e : t.still.tau = s.still.tau) : LockLaw t.tau :=
  by
  have e1 : t.tau.history = s.tau.history := by
    have := congrArg Tau.history e
    exact this
  have e2 : t.tau.locked = s.tau.locked := by
    have := congrArg Tau.locked e
    exact this
  have e3 : t.tau.rateFactor = s.tau.rateFactor := by
    have := congrArg Tau.rateFactor e
    exact this
  exact h.congr e1 e2 e3

theorem State.observeLeadingEdge_lockLaw {s : State} (h : LockLaw s.tau) : LockLaw s.observeLeadingEdge.tau :=
  LockLaw.of_still (s := s.setTau (s.tau.leadingEdge s.run.state)) (h.leadingEdge _)
    (congrArg Still.tau (State.markEdgeStep_still _))

theorem State.switchClock_lockLaw (s : State) (c : ClockState) : LockLaw (s.switchClock c).tau := by
  simp only [State.switchClock, State.updateOpen_eq]
  exact (LockLaw.unlock s.tau.rebase).congr rfl rfl rfl

end Sys2Proof.Machine
end

