-- ==== Sys2Proof/Laws/PerInstr.lean ====
section
/-! SUPPORT. Sys2Proof/Laws/PerInstr.lean: statements about each command as syntax. `FrameRoundTrip`: the frame that a
well-formed message command stands for has a length its kind allows and, on the line unharmed, shows no fault (R162, R167,
R184). -/

namespace Sys2Proof.Laws.FrameRoundTrip
open Sys2Proof Sys2Proof.Machine

def Statement (i : Instr) : Prop :=
  i.wellFormed = true → ∀ f : Frame, i.frame? = some f →
    f.payload.length ∈ allowedLengths f.kind.toNat ∧ f.toRaw.fault = none

/-- A command that is no whole frame stands for none. -/
theorem of_no_frame {i : Instr} (h : i.frame? = none) : Statement i := by
  intro _ f hf
  simp [h] at hf

/-- A command whose frame has an allowed length. -/
theorem of_length {i : Instr} {g : Frame} (h : i.frame? = some g)
    (hl : i.wellFormed = true → g.payload.length ∈ allowedLengths g.kind.toNat) : Statement i := by
  intro w f hf
  obtain rfl : g = f := Option.some.inj (h.symm.trans hf)
  exact ⟨hl w, Frame.toRaw_fault (List.contains_iff_mem.2 (hl w))⟩

theorem windowEnd (edges : Nat) : Statement (.windowEnd edges) :=
  of_no_frame rfl

theorem emissionTimerExpiry : Statement .emissionTimerExpiry :=
  of_no_frame rfl

theorem markPulseEnd : Statement .markPulseEnd :=
  of_no_frame rfl

theorem leadingEdge : Statement .leadingEdge :=
  of_no_frame rfl

theorem trailingEdge : Statement .trailingEdge :=
  of_no_frame rfl

theorem markStuck : Statement .markStuck :=
  of_no_frame rfl

theorem synthesizedMark : Statement .synthesizedMark :=
  of_no_frame rfl

theorem levelChange (channel : Fin 16) (input : ProbeInput) : Statement (.levelChange channel input) :=
  of_no_frame rfl

theorem sample : Statement .sample :=
  of_no_frame rfl

theorem driverPresent : Statement .driverPresent :=
  of_no_frame rfl

theorem flagLineChange (line : Fin 4) (asserted : Bool) : Statement (.flagLineChange line asserted) :=
  of_no_frame rfl

theorem restart (source : Station) (target : Byte) (straps : Station) : Statement (.restart source target straps) :=
  of_length rfl (fun _ => by simp [allowedLengths])

theorem stop (source : Station) : Statement (.stop source) :=
  of_length rfl (fun _ => by simp [allowedLengths])

theorem arm (source : Station) (profile : Byte) : Statement (.arm source profile) :=
  of_length rfl (fun _ => by simp [allowedLengths])

theorem notice (source : Station) (segment : Byte) (time : BitVec 48) : Statement (.notice source segment time) :=
  of_length rfl (fun _ => by simp [allowedLengths])

theorem setup (source : Station) (divider : Word) (segments options codeA codeB : Byte) :
    Statement (.setup source divider segments options codeA codeB) :=
  of_length rfl (fun _ => by simp [allowedLengths])

theorem view (source : Station) (segment : Byte) (offset : BitVec 48) (scale follow : Byte) :
    Statement (.view source segment offset scale follow) :=
  of_length rfl (fun _ => by simp [allowedLengths])

theorem panel (source : Station) (target mode firstRow lastRow inversion : Byte) :
    Statement (.panel source target mode firstRow lastRow inversion) :=
  of_length rfl (fun _ => by simp [allowedLengths])

theorem query (source : Station) (target : Byte) : Statement (.query source target) :=
  of_length rfl (fun _ => by simp [allowedLengths])

theorem read (source : Station) (target collection : Byte) (key : Word) (count : Byte) :
    Statement (.read source target collection key count) :=
  of_length rfl (fun _ => by simp [allowedLengths])

theorem replyFrameReceived (kind : ReplyKind) (source : Station) (payload : List Byte) :
    Statement (.replyFrameReceived kind source payload) :=
  of_length rfl List.contains_iff_mem.1

theorem receiveFault (frame : RawFrame) : Statement (.receiveFault frame) :=
  of_no_frame rfl

theorem lineIdle : Statement .lineIdle :=
  of_no_frame rfl

theorem frameBegin : Statement .frameBegin :=
  of_no_frame rfl

theorem arbitrationLost (bit : Nat) : Statement (.arbitrationLost bit) :=
  of_no_frame rfl

theorem bitError (bit : Nat) : Statement (.bitError bit) :=
  of_no_frame rfl

theorem duplicateId (bit : Nat) : Statement (.duplicateId bit) :=
  of_no_frame rfl

theorem transmissionComplete : Statement .transmissionComplete :=
  of_no_frame rfl

theorem statusOwedJoin : Statement .statusOwedJoin :=
  of_no_frame rfl

theorem heldDoneJoin : Statement .heldDoneJoin :=
  of_no_frame rfl

theorem dataFormation : Statement .dataFormation :=
  of_no_frame rfl

theorem frameStart : Statement .frameStart :=
  of_no_frame rfl

theorem columnRender : Statement .columnRender :=
  of_no_frame rfl

theorem renderComplete : Statement .renderComplete :=
  of_no_frame rfl

theorem transferComplete : Statement .transferComplete :=
  of_no_frame rfl

theorem sleepStart : Statement .sleepStart :=
  of_no_frame rfl

theorem sleepComplete : Statement .sleepComplete :=
  of_no_frame rfl

theorem powerUp (straps : Station) : Statement (.powerUp straps) :=
  of_no_frame rfl

theorem resetPinAssert : Statement .resetPinAssert :=
  of_no_frame rfl

theorem resetPinRelease (straps : Station) : Statement (.resetPinRelease straps) :=
  of_no_frame rfl

theorem imageAttempt (bytes : List Byte) (image : RawImage) : Statement (.imageAttempt bytes image) :=
  of_no_frame rfl

theorem join (levels : JoinLevels) : Statement (.join levels) :=
  of_no_frame rfl

theorem unaddressedFrameReceived (kind : TargetedKind) (source : Station) (payload : List Byte) :
    Statement (.unaddressedFrameReceived kind source payload) :=
  of_length rfl List.contains_iff_mem.1

end Sys2Proof.Laws.FrameRoundTrip
end

