-- ==== Sys2Proof/Laws/Posting.lean ====
section
/-! SUPPORT. Sys2Proof/Laws/Posting.lean: the law of the transmit queue kept by every posting, by the begin, the stop and the
completion of a frame, and by a tick (R164 to R166, R170, R171, R175). -/

namespace Sys2Proof.Machine

/-! ### The link controller's ticks -/

/-- Where a tick reads the line, the idle count alone changes. -/
theorem Lnk.readBit_eq (l : Lnk) : l.readBit =
    { l with idleCount := if l.bitClock = 125 then idleCountAfter l.idleCount [l.lineRecessive] else l.idleCount } := by
  unfold Lnk.readBit; split <;> rfl

/-- Where the line is observed, the level, the bit clock and the place in the frame change. -/
theorem Lnk.observeLine_eq (l : Lnk) (recessive : Bool) : l.observeLine recessive =
    { l with
      lineRecessive := recessive, bitClock := if l.lineRecessive && !recessive then 0 else l.bitClock
      framePosition :=
        if (l.lineRecessive && !recessive) && decide (125 < l.bitClock) then l.nextPosition else l.framePosition } := by
  unfold Lnk.observeLine
  by_cases h : (l.lineRecessive && !recessive) = true
  · by_cases c : 125 < l.bitClock <;> simp [h, c]
  · simp [h]

/-- A tick moves the bit clock, observes the line, reads it where the tick is a reading tick, takes the drives, and forgets the
marks of the tick before. -/
theorem Lnk.tick_eq (l : Lnk) (d : FlagLines) (level : Bool) :
    l.tick d level =
      let ran := (l.bitClock + 1) % 250
      let recessive := l.runBitClock.levelSeen level
      let falls := l.lineRecessive && !recessive
      let clock := if falls then 0 else ran
      { l with
        bitClock := clock
        framePosition :=
          if falls && decide (125 < ran) then l.runBitClock.nextPosition else l.runBitClock.framePosition
        lineRecessive := recessive, settledDrives := d
        idleCount := if clock = 125 then idleCountAfter l.idleCount [recessive] else l.idleCount
        queue := l.queue.map (fun e => { e with tookFreedEntry := false })
        stream := l.stream.map (fun x => { x with formed := false }) } := by
  unfold Lnk.tick
  dsimp only
  rw [Lnk.readBit_eq, Lnk.observeLine_eq]
  rfl

section
variable (l : Lnk) (d : FlagLines) (v : Bool)
@[simp] theorem Lnk.tick_transmitter : (l.tick d v).transmitter = l.transmitter := by rw [Lnk.tick_eq]
@[simp] theorem Lnk.tick_receiver : (l.tick d v).receiver = l.receiver := by rw [Lnk.tick_eq]
@[simp] theorem Lnk.tick_frameOnLine : (l.tick d v).frameOnLine = l.frameOnLine := by rw [Lnk.tick_eq]
@[simp] theorem Lnk.tick_statusOwed : (l.tick d v).statusOwed = l.statusOwed := by rw [Lnk.tick_eq]
@[simp] theorem Lnk.tick_heldDones : (l.tick d v).heldDones = l.heldDones := by rw [Lnk.tick_eq]
@[simp] theorem Lnk.tick_queue : (l.tick d v).queue = l.queue.map (fun e => { e with tookFreedEntry := false }) := by
  rw [Lnk.tick_eq]
@[simp] theorem Lnk.tick_stream : (l.tick d v).stream = l.stream.map (fun x => { x with formed := false }) := by
  rw [Lnk.tick_eq]
@[simp] theorem Lnk.tick_lineRecessive : (l.tick d v).lineRecessive = l.runBitClock.levelSeen v := by rw [Lnk.tick_eq]
@[simp] theorem Lnk.tick_settledDrives : (l.tick d v).settledDrives = d := by rw [Lnk.tick_eq]

/-- A WAITING receiver on a recessive line sees it recessive, whatever the free level. -/
theorem Lnk.levelSeen_waiting {l : Lnk} (h : l.receiver = .waiting) (r : l.lineRecessive = true) :
    l.levelSeen v = true := by
  simp [Lnk.levelSeen, h, r]

/-- The start bit of a frame under way is dominant. -/
theorem Lnk.levelSeen_start {l : Lnk} (h : l.receiver ≠ .waiting) (p : l.framePosition = some 0) :
    l.levelSeen v = false := by
  simp [Lnk.levelSeen, h, p]

/-- The line is dominant through a bit this station sends dominant, from the first kind bit on. -/
theorem Lnk.levelSeen_sent {l : Lnk} {n : Nat} (h : l.receiver ≠ .waiting) (p : l.framePosition = some (n + 1))
    (sent : l.sentBit (n + 1) = some false) : l.levelSeen v = false := by
  simp [Lnk.levelSeen, h, p, sent]

/-- A dominant bit sets the idle count to 0, whatever was read before it. -/
theorem idleCountAfter_dominant (c : Nat) (bits : List Bool) : idleCountAfter c (bits ++ [false]) = 0 := by
  simp [idleCountAfter]

/-- A sender that reads dominant counts no recessive bit. -/
@[simp] theorem Lnk.readSent_dominant (l : Lnk) (bit : Nat) :
    l.readSent bit false =
      { l with idleCount := 0, lineRecessive := false, bitClock := 125, framePosition := some bit } := by
  rw [Lnk.readSent, idleCountAfter_dominant]

@[simp] theorem Lnk.observeTransition_queue : l.observeTransition.queue = l.queue := rfl
@[simp] theorem Lnk.observeTransition_transmitter : l.observeTransition.transmitter = l.transmitter := rfl
@[simp] theorem Lnk.observeTransition_idleCount : l.observeTransition.idleCount = l.idleCount := rfl
@[simp] theorem Lnk.observeTransition_bitClock : l.observeTransition.bitClock = 0 := rfl
end

/-! ### Counting the entries of a queue -/

theorem statusCount_append (a b : List QueueEntry) : statusCount (a ++ b) = statusCount a + statusCount b := by
  simp [statusCount]

theorem sendingCount_append (a b : List QueueEntry) : sendingCount (a ++ b) = sendingCount a + sendingCount b := by
  simp [sendingCount]

theorem statusCount_cons (a : QueueEntry) (b : List QueueEntry) :
    statusCount (a :: b) = (if a.isStatus then 1 else 0) + statusCount b := by
  unfold statusCount
  rw [List.filter_cons]
  split <;> simp_all
  omega

theorem sendingCount_cons (a : QueueEntry) (b : List QueueEntry) :
    sendingCount (a :: b) = (if a.underTransmission then 1 else 0) + sendingCount b := by
  unfold sendingCount
  rw [List.filter_cons]
  split <;> simp_all
  omega

theorem statusCount_map {f : QueueEntry → QueueEntry} (h : ∀ e, (f e).isStatus = e.isStatus) (q : List QueueEntry) :
    statusCount (q.map f) = statusCount q := by
  induction q with
  | nil => rfl
  | cons a r ih => rw [List.map_cons, statusCount_cons, statusCount_cons, h, ih]

theorem sendingCount_map {f : QueueEntry → QueueEntry} (h : ∀ e, (f e).underTransmission = e.underTransmission)
    (q : List QueueEntry) : sendingCount (q.map f) = sendingCount q := by
  induction q with
  | nil => rfl
  | cons a r ih => rw [List.map_cons, sendingCount_cons, sendingCount_cons, h, ih]

theorem sendingCount_keep (q : List QueueEntry) : sendingCount (q.map QueueEntry.keep) = 0 := by
  induction q with
  | nil => rfl
  | cons a r ih => rw [List.map_cons, sendingCount_cons, ih]; rfl

theorem statusCount_none {q : List QueueEntry} (h : ¬q.any QueueEntry.isStatus = true) : statusCount q = 0 := by
  unfold statusCount
  rw [List.length_eq_zero_iff, List.filter_eq_nil_iff]
  simpa [List.any_eq_true] using h

theorem removeLast_spec {α : Type} {p : α → Bool} : ∀ {l : List α} {y : α} {r : List α}, removeLast p l = some (y, r) →
    p y = true ∧ ∃ a b, l = a ++ y :: b ∧ r = a ++ b
  | [], _, _, h => by cases h
  | x :: rest, y, r, h => by
    unfold removeLast at h
    split at h
    · next y' o e =>
      cases h
      obtain ⟨hp, a, b, rfl, rfl⟩ := removeLast_spec e
      exact ⟨hp, x :: a, b, rfl, rfl⟩
    · split at h
      · cases h; exact ⟨‹_›, [], rest, rfl, rfl⟩
      · cases h

/-! ### Postings -/

/-- What the law looks at. -/
theorem QueueLaw.congr {l m : Lnk} (h : QueueLaw l) (e1 : m.queue = l.queue) (e2 : m.statusOwed = l.statusOwed)
    (e3 : m.transmitter = l.transmitter) (e4 : m.heldDones = l.heldDones) : QueueLaw m := by
  obtain ⟨a, b, c, d, e, f⟩ := h
  exact ⟨by rw [e1]; exact a, by rw [e1]; exact b, by rw [e1, e2]; exact c, by rw [e1, e3]; exact d, by rw [e1, e3]; exact e,
    by rw [e1, e2, e3, e4]; exact f⟩

/-- A claimant that takes an entry back leaves room for itself; one of the kinds of STATUS and DONE takes a DONE back. -/
theorem QueueLaw.reclaimEntry {s t : State} {k : Nat} (h : s.reclaimEntry k = some t) (law : QueueLaw s.lnk)
    (speaks : s.lnk.transmitter ≠ .silent) :
    QueueLaw t.lnk ∧ t.lnk.queue.length + 1 = s.lnk.queue.length ∧ t.lnk.transmitter = s.lnk.transmitter ∧
      (9 ≤ k → statusCount t.lnk.queue = statusCount s.lnk.queue ∧ t.lnk.statusOwed = s.lnk.statusOwed) := by
  have key : ∀ (e : QueueEntry) (a b : List QueueEntry) (owed : Bool) (held : List Done), s.lnk.queue = a ++ e :: b →
      e.underTransmission = false → (owed = true → statusCount (a ++ b) = 0) →
      QueueLaw { s.lnk with queue := a ++ b, statusOwed := owed, heldDones := held } := by
    intro e a b owed held hl hu ho
    obtain ⟨q1, q2, q3, q4, q5, q6⟩ := law
    simp only [hl, statusCount_append, statusCount_cons, sendingCount_append, sendingCount_cons, hu, List.length_append,
      List.length_cons, Bool.false_eq_true, if_false, Nat.zero_add] at q1 q2 q4 q5
    refine ⟨?_, ?_, ho, ?_, ?_, fun hs => absurd hs speaks⟩
    · show (a ++ b).length ≤ _; simp only [List.length_append]; omega
    · show statusCount (a ++ b) ≤ 1; rw [statusCount_append]; omega
    · show _ → sendingCount (a ++ b) = 1; rw [sendingCount_append]; exact q4
    · show _ → sendingCount (a ++ b) = 0; rw [sendingCount_append]; exact q5
  unfold State.reclaimEntry at h
  split at h
  · next e rest he =>
    split at he
    · obtain ⟨hp, a, b, hl, rfl⟩ := removeLast_spec he
      simp only [QueueEntry.yieldingDone, Bool.and_eq_true, Bool.not_eq_true', beq_iff_eq] at hp
      have none : statusCount (a ++ b) = statusCount s.lnk.queue := by
        have : e.isStatus = false := by simp [QueueEntry.isStatus, hp.2]
        rw [hl, statusCount_append, statusCount_append, statusCount_cons, this]; simp
      split at h
      · cases h
        refine ⟨key e a b _ _ hl hp.1.2 (fun ho => none.trans (law.owed ho)), ?_, rfl, fun _ => ⟨none, rfl⟩⟩
        show (a ++ b).length + 1 = _
        rw [hl]; simp; omega
      all_goals cases h
    · cases he
  · split at h
    · next e rest he =>
      cases h
      split at he
      · next hk =>
        obtain ⟨hp, a, b, hl, rfl⟩ := removeLast_spec he
        simp only [QueueEntry.yieldingStatus, Bool.and_eq_true, Bool.not_eq_true', beq_iff_eq] at hp
        have one := law.oneStatus
        have : e.isStatus = true := by simp [QueueEntry.isStatus, hp.2]
        rw [hl, statusCount_append, statusCount_cons, this, if_pos rfl] at one
        refine ⟨key e a b true _ hl hp.1.2 (fun _ => by rw [statusCount_append]; omega), ?_, rfl, fun h9 => by omega⟩
        show (a ++ b).length + 1 = _
        rw [hl]; simp; omega
      · cases he
    · cases h

/-- A message that is not on the line joins a queue with room. -/
theorem QueueLaw.enqueue {l : Lnk} (h : QueueLaw l) (speaks : l.transmitter ≠ .silent) (room : l.queue.length < 8)
    (e : QueueEntry) (off : e.underTransmission = false) (owed : Bool)
    (status : if e.isStatus then statusCount l.queue = 0 ∧ owed = false else owed = l.statusOwed) (held : List Done) :
    QueueLaw { l with queue := l.queue ++ [e], statusOwed := owed, heldDones := held } := by
  obtain ⟨q1, q2, q3, q4, q5, q6⟩ := h
  have e0 : statusCount ([] : List QueueEntry) = 0 := rfl
  have e1 : sendingCount ([] : List QueueEntry) = 0 := rfl
  refine ⟨?_, ?_, ?_, ?_, ?_, fun hx => absurd hx speaks⟩
  · simp [Config.queueCapacity]; omega
  · show statusCount (l.queue ++ [e]) ≤ 1
    rw [statusCount_append, statusCount_cons, e0]; split at status <;> simp_all
  · show owed = true → statusCount (l.queue ++ [e]) = 0
    rw [statusCount_append, statusCount_cons, e0]; split at status <;> simp_all
  · show _ → sendingCount (l.queue ++ [e]) = 1
    rw [sendingCount_append, sendingCount_cons, e1, off]; exact q4
  · show _ → sendingCount (l.queue ++ [e]) = 0
    rw [sendingCount_append, sendingCount_cons, e1, off]; exact q5

theorem QueueLaw.enqueueStatus {l : Lnk} (h : QueueLaw l) (speaks : l.transmitter ≠ .silent) (room : l.queue.length < 8)
    (c : StatusContents) (freed : Bool) (none : statusCount l.queue = 0) :
    QueueLaw { l with
      queue := l.queue ++ [{ QueueEntry.new (.status c) with tookFreedEntry := freed }], statusOwed := false } :=
  h.enqueue speaks room { QueueEntry.new (.status c) with tookFreedEntry := freed } rfl false
    (show _ ∧ _ from ⟨none, rfl⟩) l.heldDones

theorem QueueLaw.enqueueOther {l : Lnk} (h : QueueLaw l) (speaks : l.transmitter ≠ .silent) (room : l.queue.length < 8)
    (m : Message) (freed : Bool) (other : (QueueEntry.new m).isStatus = false) (held : List Done) :
    QueueLaw { l with
      queue := l.queue ++ [{ QueueEntry.new m with tookFreedEntry := freed }], heldDones := held } :=
  h.enqueue speaks room { QueueEntry.new m with tookFreedEntry := freed } rfl l.statusOwed
    (by rw [show QueueEntry.isStatus { QueueEntry.new m with tookFreedEntry := freed } = false from other]; rfl) held

theorem State.room_lt {s : State} (h : s.hasRoom = true) : s.lnk.queue.length < 8 := of_decide_eq_true h

theorem QueueLaw.postStatus {s : State} (h : QueueLaw s.lnk) : QueueLaw s.postStatus.lnk := by
  unfold State.postStatus
  dsimp only
  split
  · exact h
  · next silent =>
    have speaks : s.lnk.transmitter ≠ .silent := by simpa using silent
    split
    · have hs := statusCount_map (f := QueueEntry.replaceStatus s.statusContents) (fun e => by
        unfold QueueEntry.replaceStatus
        split
        · next hh => rw [hh]; rfl
        · rfl) s.lnk.queue
      have hd := sendingCount_map (f := QueueEntry.replaceStatus s.statusContents)
        (fun e => by unfold QueueEntry.replaceStatus; split <;> rfl) s.lnk.queue
      refine ⟨?_, ?_, ?_, ?_, ?_, fun hx => absurd hx speaks⟩
      · show (List.map _ _).length ≤ _; rw [List.length_map]; exact h.room
      · show statusCount (List.map _ _) ≤ 1; rw [hs]; exact h.oneStatus
      · show _ → statusCount (List.map _ _) = 0; rw [hs]; exact h.owed
      · show _ → sendingCount (List.map _ _) = 1; rw [hd]; exact h.sending
      · show _ → sendingCount (List.map _ _) = 0; rw [hd]; exact h.notSending
    · next hany =>
      have none := statusCount_none hany
      split
      · next room => exact h.enqueueStatus speaks (State.room_lt room) _ _ none
      · split
        · next t ht =>
          obtain ⟨a, b, c, d⟩ := QueueLaw.reclaimEntry ht h speaks
          have := h.room
          exact a.enqueueStatus (by rw [c]; exact speaks) (by simp only [Config.queueCapacity] at this; omega) _ _
            (by rw [(d (Nat.le_refl 9)).1]; exact none)
        · exact ⟨h.room, h.oneStatus, fun _ => none, h.sending, h.notSending, fun hx => absurd hx speaks⟩

theorem QueueLaw.postDone {s : State} (h : QueueLaw s.lnk) (d : Done) : QueueLaw (s.postDone d).lnk := by
  unfold State.postDone
  split
  · exact h
  · next silent =>
    have speaks : s.lnk.transmitter ≠ .silent := by simpa using silent
    split
    · next room =>
      exact h.enqueueOther speaks (by simp only [Config.queueCapacity] at room; omega) (.done d) false rfl _
    · exact ⟨h.room, h.oneStatus, h.owed, h.sending, h.notSending, fun hx => absurd hx speaks⟩

theorem QueueLaw.postNotice {s : State} (h : QueueLaw s.lnk) (i time : Nat) : QueueLaw (s.postNotice i time).lnk := by
  unfold State.postNotice
  split
  · split <;> exact h
  · next silent =>
    have speaks : s.lnk.transmitter ≠ .silent := by simpa using silent
    split
    · next room => exact h.enqueueOther speaks (State.room_lt room) (.notice i time) false rfl _
    · split
      · next t ht =>
        obtain ⟨a, b, c, -⟩ := QueueLaw.reclaimEntry ht h speaks
        have := h.room
        exact a.enqueueOther (by rw [c]; exact speaks) (by simp only [Config.queueCapacity] at this; omega)
          (.notice i time) false rfl _
      · exact h

/-! ### Frames -/

/-- One entry is marked as under transmission, and no kind changes. -/
theorem markSelected_counts (k : Nat) : ∀ q : List QueueEntry, sendingCount q = 0 → (∃ e ∈ q, e.kind = k) →
    sendingCount (markSelected k q) = 1 ∧ statusCount (markSelected k q) = statusCount q ∧
      (markSelected k q).length = q.length
  | [], _, h => by obtain ⟨e, he, _⟩ := h; cases he
  | a :: r, h0, hex => by
    rw [sendingCount_cons] at h0
    unfold markSelected
    split
    · refine ⟨?_, ?_, rfl⟩
      · rw [sendingCount_cons]; simp at h0 ⊢; omega
      · rw [statusCount_cons, statusCount_cons]; rfl
    · next hne =>
      obtain ⟨e, he, hk⟩ := hex
      rcases List.mem_cons.1 he with rfl | he
      · exact absurd hk hne
      · obtain ⟨i1, i2, i3⟩ := markSelected_counts k r (by omega) ⟨e, he, hk⟩
        exact ⟨by rw [sendingCount_cons, i1]; omega, by rw [statusCount_cons, statusCount_cons, i2], by simp [i3]⟩

theorem selectEntry_mem : ∀ {q : List QueueEntry} {e : QueueEntry}, selectEntry q = some e → e ∈ q
  | [], _, h => by cases h
  | a :: r, e, h => by
    unfold selectEntry at h
    split at h
    · next f hf =>
      cases h
      unfold selectBetween
      split
      · exact List.mem_cons_of_mem _ (selectEntry_mem hf)
      · exact List.mem_cons_self
    · cases h; exact List.mem_cons_self

theorem QueueLaw.frameBegin {s : State} (h : QueueLaw s.lnk) : QueueLaw s.frameBegin.lnk := by
  unfold State.frameBegin
  split
  · split
    · next e he =>
      split at he
      · next ready =>
        simp only [Lnk.ready, Bool.and_eq_true, beq_iff_eq] at ready
        obtain ⟨m1, m2, m3⟩ := markSelected_counts e.kind s.lnk.queue (h.notSending (by rw [ready.1.1]; decide))
          ⟨e, selectEntry_mem he, rfl⟩
        refine ⟨?_, ?_, ?_, fun _ => m1, fun hx => absurd rfl hx, fun hx => by cases hx⟩
        · show (markSelected _ _).length ≤ _; rw [m3]; exact h.room
        · show statusCount (markSelected _ _) ≤ _; rw [m2]; exact h.oneStatus
        · show _ → statusCount (markSelected _ _) = _; rw [m2]; exact h.owed
      · cases he
    · exact h.congr rfl rfl rfl rfl
  · exact h

theorem QueueLaw.stopSending {l : Lnk} (h : QueueLaw l) : QueueLaw l.stopSending := by
  have hs : statusCount (l.queue.map QueueEntry.keep) = statusCount l.queue :=
    statusCount_map (f := QueueEntry.keep) (fun _ => rfl) _
  refine ⟨?_, ?_, ?_, fun hx => (by cases hx), fun _ => sendingCount_keep _, fun hx => by cases hx⟩
  · show (List.map _ _).length ≤ _; rw [List.length_map]; exact h.room
  · show statusCount (List.map _ _) ≤ _; rw [hs]; exact h.oneStatus
  · show _ → statusCount (List.map _ _) = _; rw [hs]; exact h.owed

/-- A completion leaves nothing under transmission, and no more than there was. -/
theorem afterCompletion_counts (q : List QueueEntry) : sendingCount (afterCompletion q) = 0 ∧
    statusCount (afterCompletion q) ≤ statusCount q ∧ (afterCompletion q).length ≤ q.length := by
  unfold afterCompletion
  refine ⟨?_, ?_, ?_⟩
  · rw [sendingCount_append, sendingCount_keep]
    unfold sendingCount; simp
  · rw [statusCount_append, statusCount_map (f := QueueEntry.keep) (fun _ => rfl)]
    induction q with
    | nil => simp [statusCount]
    | cons a r ih =>
      rw [statusCount_cons, List.filter_cons, List.filter_cons]
      rcases a with ⟨m, u, re, tk⟩
      cases u <;> cases re <;> simp [statusCount_cons] <;> omega
  · rw [List.length_append, List.length_map]
    induction q with
    | nil => simp
    | cons a r ih =>
      rw [List.filter_cons, List.filter_cons]
      rcases a with ⟨m, u, re, tk⟩
      cases u <;> cases re <;> simp <;> omega

theorem QueueLaw.transmissionComplete {s : State} (h : QueueLaw s.lnk) : QueueLaw s.transmissionComplete.lnk := by
  unfold State.transmissionComplete
  split
  · have act : ∀ l : Lnk, QueueLaw l → QueueLaw l.activateStream := by
      intro l hl
      unfold Lnk.activateStream
      split
      · exact hl
      · exact hl.congr rfl rfl rfl rfl
    obtain ⟨m1, m2, m3⟩ := afterCompletion_counts s.lnk.queue
    refine act _ ⟨Nat.le_trans m3 h.room, Nat.le_trans m2 h.oneStatus, fun hx => ?_, fun hx => (by cases hx), fun _ => m1,
      fun hx => by cases hx⟩
    have := h.owed hx
    show statusCount (afterCompletion _) = 0
    omega
  · exact h

/-- A tick keeps the law. -/
theorem QueueLaw.tick {l : Lnk} (h : QueueLaw l) (d : FlagLines) (level : Bool) : QueueLaw (l.tick d level) := by
  have hs : statusCount (l.queue.map (fun e => { e with tookFreedEntry := false })) = statusCount l.queue :=
    statusCount_map (f := fun e : QueueEntry => { e with tookFreedEntry := false }) (fun _ => rfl) _
  have hd : sendingCount (l.queue.map (fun e => { e with tookFreedEntry := false })) = sendingCount l.queue :=
    sendingCount_map (f := fun e : QueueEntry => { e with tookFreedEntry := false }) (fun _ => rfl) _
  obtain ⟨q1, q2, q3, q4, q5, q6⟩ := h
  refine ⟨?_, ?_, ?_, ?_, ?_, ?_⟩
  · rw [Lnk.tick_queue, List.length_map]; exact q1
  · rw [Lnk.tick_queue, hs]; exact q2
  · rw [Lnk.tick_queue, Lnk.tick_statusOwed, hs]; exact q3
  · rw [Lnk.tick_queue, Lnk.tick_transmitter, hd]; exact q4
  · rw [Lnk.tick_queue, Lnk.tick_transmitter, hd]; exact q5
  · rw [Lnk.tick_queue, Lnk.tick_transmitter, Lnk.tick_statusOwed, Lnk.tick_heldDones]
    exact fun hx => by obtain ⟨a, b, c⟩ := q6 hx; exact ⟨by rw [a]; rfl, b, c⟩

end Sys2Proof.Machine
end

