-- ==== Sys2Proof/Laws/Requests.lean ====
section
/-! SUPPORT. Sys2Proof/Laws/Requests.lean: what a whole frame on the line does before any block takes it (R167, R168). -/

namespace Sys2Proof.Machine

/-- R162: the last bit of a frame is its second end bit. -/
theorem RawFrame.bits_getLast? (f : RawFrame) : f.bits.getLast? = some f.end2 := by
  simp [RawFrame.bits]

/-- A frame that is received is read to its end, and then taken. -/
theorem State.onFrame_received {s : State} {i : Instr} {f : Frame} (hf : i.frame? = some f) (h : s.receives = true)
    (taken : State → State) : s.onFrame i taken = taken (s.afterFrame f) := by
  have e : (Frame.bits f).getLast? = some true := RawFrame.bits_getLast? f.toRaw
  simp only [State.onFrame, hf, h, if_true, Lnk.readFrame, e]
  rfl

/-- A frame that is not received changes nothing. -/
theorem State.onFrame_missed {s : State} (i : Instr) (h : s.receives = false) (taken : State → State) :
    s.onFrame i taken = s := by
  unfold State.onFrame
  split
  · simp [h]
  · rfl

/-! ### The state after a frame: the receiver alone has moved -/

@[simp] theorem State.afterFrame_tau (s : State) (f : Frame) : (s.afterFrame f).tau = s.tau := rfl
@[simp] theorem State.afterFrame_pfe (s : State) (f : Frame) : (s.afterFrame f).pfe = s.pfe := rfl
@[simp] theorem State.afterFrame_run (s : State) (f : Frame) : (s.afterFrame f).run = s.run := rfl
@[simp] theorem State.afterFrame_cst (s : State) (f : Frame) : (s.afterFrame f).cst = s.cst := rfl
@[simp] theorem State.afterFrame_tsq (s : State) (f : Frame) : (s.afterFrame f).tsq = s.tsq := rfl
@[simp] theorem State.afterFrame_dec (s : State) (f : Frame) : (s.afterFrame f).dec = s.dec := rfl
@[simp] theorem State.afterFrame_log (s : State) (f : Frame) : (s.afterFrame f).log = s.log := rfl
@[simp] theorem State.afterFrame_fc (s : State) (f : Frame) : (s.afterFrame f).fc = s.fc := rfl
@[simp] theorem State.afterFrame_ren (s : State) (f : Frame) : (s.afterFrame f).ren = s.ren := rfl
@[simp] theorem State.afterFrame_port (s : State) (f : Frame) : (s.afterFrame f).port = s.port := rfl
@[simp] theorem State.afterFrame_sul (s : State) (f : Frame) : (s.afterFrame f).sul = s.sul := rfl
@[simp] theorem State.afterFrame_pending (s : State) (f : Frame) : (s.afterFrame f).pending = s.pending := rfl
@[simp] theorem State.afterFrame_freeCount (s : State) (f : Frame) : (s.afterFrame f).freeCount = s.freeCount := rfl
@[simp] theorem State.afterFrame_transmitter (s : State) (f : Frame) :
    (s.afterFrame f).lnk.transmitter = s.lnk.transmitter := rfl
@[simp] theorem State.afterFrame_queue (s : State) (f : Frame) : (s.afterFrame f).lnk.queue = s.lnk.queue := rfl
@[simp] theorem State.afterFrame_stream (s : State) (f : Frame) : (s.afterFrame f).lnk.stream = s.lnk.stream := rfl
@[simp] theorem State.afterFrame_heldDones (s : State) (f : Frame) :
    (s.afterFrame f).lnk.heldDones = s.lnk.heldDones := rfl
@[simp] theorem State.afterFrame_statusOwed (s : State) (f : Frame) :
    (s.afterFrame f).lnk.statusOwed = s.lnk.statusOwed := rfl

end Sys2Proof.Machine
end

