-- ==== Sys2Proof/Laws/Segments.lean ====
section
/-! SUPPORT. Sys2Proof/Laws/Segments.lean: the laws of the capture store and of the log kept, operation by operation, by
everything the taking of samples does (R40 to R54, R60 to R69, R121, R126). -/

namespace Sys2Proof.Machine

/-! ### What the laws look at -/

/-- What the laws of the capture store and the log look at. -/
def State.captureView (s : State) :=
  (s.run.setup, s.run.figures, s.run.table.map SegmentRecord.span, s.run.state, s.cst.store, s.cst.openEntry, s.log.records)

/-- The samples that the open entry holds. -/
def State.held (s : State) : Nat :=
  match s.cst.openEntry with
  | some o => (o.holding.map Entry.count).getD 0
  | none => 0

theorem State.openCount_eq (s : State) (r : SegmentRecord) :
    s.openCount r = if s.openIndex? = some r.index then s.held else 0 := rfl

/-- The laws of the capture store, between the operations of a sample: the next sample index of the open record is `n`. -/
structure CaptureCore (n : Option Nat) (s : State) : Prop where
  setup : 1 ≤ s.run.setup.segments ∧ s.run.setup.fraction ≤ 15 ∧ s.run.setup.segments ≤ Config.storeEntries
  segments : SegmentLaw s.run.figures s.run.table s.cst.store s.openIndex? s.held
  waiting : s.run.state = .waitStart → s.run.table = [] ∧ ∃ f : RunFigures, s.run.figures = some f ∧ 1 ≤ f.segments
  opened : s.run.state.hasSegment = true → s.run.table ≠ []
  untriggered : s.run.state = .prefill ∨ s.run.state = .pretrig →
    ∀ r : SegmentRecord, s.openRecord? = some r → r.triggerPosition = none
  next : ∀ r : SegmentRecord, s.openRecord? = some r → n = some r.nextSample
  logged : ∀ x ∈ s.log.records, x.content.segment < s.run.table.length

/-- The log while LOG has still to take some advances of the open segment, the last of them to its first retained sample. -/
structure LogBehind (s : State) (a : List Advance) : Prop where
  segment : ∀ adv ∈ a, s.openIndex? = some adv.segment
  last : ∀ r : SegmentRecord, s.openRecord? = some r → ∀ adv : Advance, a.getLast? = some adv → adv.firstSample = r.firstSample
  starts : ∀ x ∈ s.log.records, ∀ r ∈ s.run.table, r.index = x.content.segment →
    (a ≠ [] ∧ s.openIndex? = some r.index) ∨ r.firstSample * s.divider ≤ x.content.startTime

/-- R50: in POSTTRIG the open segment's ring has room. -/
def State.hasRingRoom (s : State) : Prop :=
  s.run.state = .posttrig → ∀ r : SegmentRecord, s.openRecord? = some r → r.retained < r.regionSize

theorem captureLaw_iff (s : State) : CaptureLaw s ↔
    CaptureCore (s.tau.runTime.map RunTime.nextSample) s ∧ (s.run.state.hasSegment = true → s.cst.openEntry.isSome = true) ∧
      s.hasRingRoom ∧ LogBehind s [] := by
  constructor
  · intro h
    have t := h.table
    refine ⟨⟨t.setup, ⟨t.figures, t.indices, t.fits, fun r hr => ⟨h.regions r hr, h.triggers r hr, h.accounts r hr⟩⟩,
      t.waiting, fun x => (t.opened x).1, t.untriggered, t.next, h.logged⟩, fun x => (t.opened x).2, t.room,
      ⟨by simp, by simp, fun x hx r hr e => .inr (h.starts x hx r hr e)⟩⟩
  · rintro ⟨c, o, room, b⟩
    have g := c.segments
    exact ⟨⟨c.setup, g.figures, g.indices, g.fits, c.waiting, fun x => ⟨c.opened x, o x⟩, c.untriggered, room, c.next⟩,
      fun r hr => (g.records r hr).region, fun r hr => (g.records r hr).trigger, fun r hr => (g.records r hr).account,
      c.logged, fun x hx r hr e => (b.starts x hx r hr e).resolve_left (fun y => y.1 rfl)⟩

theorem State.openRecord_eq {s : State} {r : SegmentRecord} (h : s.openRecord? = some r) :
    s.run.state.hasSegment = true ∧ s.run.table.getLast? = some r := by
  unfold State.openRecord? at h
  split at h
  · exact ⟨‹_›, h⟩
  · cases h

theorem State.openRecord_of {s : State} {r : SegmentRecord} (h : s.run.state.hasSegment = true)
    (l : s.run.table.getLast? = some r) : s.openRecord? = some r := by
  unfold State.openRecord?; rw [if_pos h, l]

theorem State.openIndex_of {s : State} {r : SegmentRecord} (h : s.openRecord? = some r) : s.openIndex? = some r.index := by
  simp [State.openIndex?, h]

/-- Of states that look alike to the laws, the open records span the same. -/
theorem openRecord_of_view {s t : State} (e : t.captureView = s.captureView) {r : SegmentRecord}
    (h : t.openRecord? = some r) : ∃ q, s.openRecord? = some q ∧ r.span = q.span := by
  simp only [State.captureView, Prod.mk.injEq] at e
  obtain ⟨_, _, tab, st, _, _, _⟩ := e
  obtain ⟨hs, l⟩ := State.openRecord_eq h
  have : (s.run.table.map SegmentRecord.span).getLast? = some r.span := by rw [← tab, List.getLast?_map, l]; rfl
  rw [List.getLast?_map] at this
  obtain ⟨q, hq, e⟩ := Option.map_eq_some_iff.mp this
  exact ⟨q, State.openRecord_of (st ▸ hs) hq, e.symm⟩

theorem openIndex_of_view {s t : State} (e : t.captureView = s.captureView) : t.openIndex? = s.openIndex? := by
  simp only [State.captureView, Prod.mk.injEq] at e
  obtain ⟨_, _, tab, st, _, _, _⟩ := e
  refine State.openIndex?_congr (by rw [st]) ?_
  have := congrArg (List.map (fun x => x.1.1)) tab
  simpa [Function.comp_def, SegmentRecord.span] using this

theorem divider_of_view {s t : State} (e : t.captureView = s.captureView) : t.divider = s.divider := by
  have : t.run.figures = s.run.figures := congrArg (fun x => x.2.1) e
  simp [State.divider, this]

theorem CaptureCore.congr {n : Option Nat} {s t : State} (h : CaptureCore n s) (e : t.captureView = s.captureView) :
    CaptureCore n t := by
  have oi := openIndex_of_view e
  have orec {r : SegmentRecord} := openRecord_of_view (r := r) e
  simp only [State.captureView, Prod.mk.injEq] at e
  obtain ⟨su, fig, tab, st, store, entry, recs⟩ := e
  have hd : t.held = s.held := by simp only [State.held, entry]
  have len : t.run.table.length = s.run.table.length := by simpa using congrArg List.length tab
  have nil : t.run.table = [] ↔ s.run.table = [] := by
    rw [← List.length_eq_zero_iff, len, List.length_eq_zero_iff]
  refine ⟨su ▸ h.setup, ?_, ?_, ?_, ?_, ?_, ?_⟩
  · rw [fig, store, oi, hd]; exact h.segments.congr tab
  · rw [st, fig, nil]; exact h.waiting
  · rw [st, Ne, nil]; exact h.opened
  · rw [st]; intro x r hr
    obtain ⟨q, hq, e⟩ := orec hr
    have := h.untriggered x q hq
    rw [← this]; exact congrArg (fun x => x.2.2.2.2) e
  · intro r hr
    obtain ⟨q, hq, e⟩ := orec hr
    rw [h.next q hq]; exact congrArg (fun x => some x.2.2.1) e.symm
  · rw [recs, len]; exact h.logged

theorem LogBehind.congr {a : List Advance} {s t : State} (h : LogBehind s a) (e : t.captureView = s.captureView) :
    LogBehind t a := by
  have oi := openIndex_of_view e
  have orec {r : SegmentRecord} := openRecord_of_view (r := r) e
  have d := divider_of_view e
  simp only [State.captureView, Prod.mk.injEq] at e
  obtain ⟨_, _, tab, _, _, _, recs⟩ := e
  refine ⟨oi ▸ h.segment, fun r hr adv ha => ?_, fun x hx r hr i => ?_⟩
  · obtain ⟨q, hq, e⟩ := orec hr
    rw [h.last q hq adv ha]; exact congrArg (fun x => x.2.1) e.symm
  · have : r.span ∈ s.run.table.map SegmentRecord.span := tab ▸ List.mem_map_of_mem hr
    obtain ⟨q, hq, e⟩ := List.mem_map.mp this
    have qi : q.index = r.index := congrArg (fun x => x.1.1) e
    have qf : q.firstSample = r.firstSample := congrArg (fun x => x.2.1) e
    rw [recs] at hx
    have := h.starts x hx q hq (qi.trans i)
    rw [oi, d, ← qi, ← qf]; exact this

theorem State.hasRingRoom_congr {s t : State} (h : s.hasRingRoom) (e : t.captureView = s.captureView) : t.hasRingRoom := by
  intro st r hr
  obtain ⟨q, hq, es⟩ := openRecord_of_view e hr
  have st' : t.run.state = s.run.state := congrArg (fun x => x.2.2.2.1) e
  have := h (st' ▸ st) q hq
  have r1 : r.retained = q.retained := congrArg (fun x => x.2.2.2.1) es
  have r2 : r.regionSize = q.regionSize := congrArg (fun x => x.1.2.2.1) es
  omega

/-! ### Operations the laws do not see -/

theorem span_map {l : List SegmentRecord} {f : SegmentRecord → SegmentRecord} (h : ∀ r, (f r).span = r.span) :
    (l.map f).map SegmentRecord.span = l.map SegmentRecord.span := by
  simp [Function.comp_def, h]

theorem State.updateOpen_view (s : State) {f : SegmentRecord → SegmentRecord} (h : ∀ r, (f r).span = r.span) :
    (s.updateOpen f).captureView = s.captureView := by
  rw [State.updateOpen_eq]
  have : (s.run.table.map (fun r => if s.openIndex? = some r.index then f r else r)).map SegmentRecord.span =
      s.run.table.map SegmentRecord.span := span_map (fun r => by split <;> simp [h])
  simp only [State.captureView, this]

theorem State.updateRecord_view (s : State) (i : Nat) {f : SegmentRecord → SegmentRecord} (h : ∀ r, (f r).span = r.span) :
    (s.updateRecord i f).captureView = s.captureView := by
  rw [State.updateRecord_eq]
  have : (s.run.table.map (fun r => if r.index = i then f r else r)).map SegmentRecord.span =
      s.run.table.map SegmentRecord.span := span_map (fun r => by split <;> simp [h])
  simp only [State.captureView, this]

theorem State.postStatus_view (s : State) : s.postStatus.captureView = s.captureView := by
  rw [State.postStatus_eq]; rfl

theorem State.postNotice_view (s : State) (i t : Nat) : (s.postNotice i t).captureView = s.captureView := by
  unfold State.postNotice
  split
  · split
    · rfl
    · exact State.updateRecord_view _ _ (fun _ => rfl)
  split
  · rfl
  split
  · next u h => rw [State.reclaimEntry_eq h]; rfl
  · exact State.updateRecord_view _ _ (fun _ => rfl)

/-! ### A change of the newest record -/

theorem lastChanged {l : List SegmentRecord} {r : SegmentRecord} (h : l.getLast? = some r)
    (g : SegmentRecord → SegmentRecord) :
    (l.map (fun x => if x.index = r.index then g x else x)).getLast? = some (g r) := by
  rw [List.getLast?_map, h]; simp

section
variable {n : Option Nat} {s t : State} {r : SegmentRecord} {g : SegmentRecord → SegmentRecord}

/-- The open record changes, and with it the store within its region and the open entry. -/
theorem CaptureCore.changed (h : CaptureCore n s) (o : s.openRecord? = some r) (gi : (g r).index = r.index)
    (su : t.run.setup = s.run.setup) (fig : t.run.figures = s.run.figures)
    (tab : t.run.table = s.run.table.map (fun x => if x.index = r.index then g x else x))
    (st : t.run.state.hasSegment = true)
    (un : t.run.state = .prefill ∨ t.run.state = .pretrig → (g r).triggerPosition = none)
    (same : ∀ p, ¬(r.regionFirst ≤ p ∧ p < r.regionFirst + r.regionSize) →
      Memory.read t.cst.store p = Memory.read s.cst.store p)
    (new : RecordLaw s.run.figures t.cst.store t.held (g r)) (recs : ∀ x ∈ t.log.records, x ∈ s.log.records) :
    CaptureCore (some (g r).nextSample) t ∧ t.openRecord? = some (g r) := by
  obtain ⟨hs, l⟩ := State.openRecord_eq o
  have l' : t.run.table.getLast? = some (g r) := by rw [tab]; exact lastChanged l g
  have o' := State.openRecord_of st l'
  have oi : t.openIndex? = s.openIndex? := by rw [State.openIndex_of o, State.openIndex_of o', gi]
  have len : t.run.table.length = s.run.table.length := by rw [tab, List.length_map]
  refine ⟨⟨su ▸ h.setup, ?_, fun w => ?_, fun _ c => ?_, fun w q hq => ?_, fun q hq => ?_, fun x hx => ?_⟩, o'⟩
  · rw [fig, tab, oi]; exact h.segments.change l (State.openIndex_of o) gi same new
  · rw [w] at st; cases st
  · rw [c] at l'; cases l'
  · rw [o'] at hq; rw [← Option.some.inj hq]; exact un w
  · rw [o'] at hq; rw [← Option.some.inj hq]
  · rw [len]; exact h.logged x (recs x hx)

/-- What LOG has still to take when the open record has changed and `b` reports how. -/
theorem LogBehind.changed {a b : List Advance} (h : LogBehind s a) (o : s.openRecord? = some r)
    (idx : s.run.table.map SegmentRecord.index = List.range s.run.table.length) (gi : (g r).index = r.index)
    (fig : t.run.figures = s.run.figures)
    (tab : t.run.table = s.run.table.map (fun x => if x.index = r.index then g x else x))
    (st : t.run.state.hasSegment = true) (recs : t.log.records = s.log.records)
    (bs : ∀ adv ∈ b, adv.segment = r.index) (stand : b = [] → (g r).firstSample = r.firstSample)
    (bl : ∀ adv, b.getLast? = some adv → adv.firstSample = (g r).firstSample) : LogBehind t (a ++ b) := by
  obtain ⟨hs, l⟩ := State.openRecord_eq o
  have o' : t.openRecord? = some (g r) := State.openRecord_of st (by rw [tab]; exact lastChanged l g)
  have oi : t.openIndex? = some r.index := by rw [State.openIndex_of o', gi]
  have d : t.divider = s.divider := by simp [State.divider, fig]
  have nodup : (s.run.table.map SegmentRecord.index).Nodup := by rw [idx]; exact List.nodup_range
  have rm : r ∈ s.run.table := List.mem_of_getLast? l
  refine ⟨fun adv ha => ?_, fun q hq adv ha => ?_, fun x hx q hq i => ?_⟩
  · rcases List.mem_append.mp ha with ha | ha
    · rw [oi, ← State.openIndex_of o]; exact h.segment adv ha
    · rw [oi, bs adv ha]
  · rw [o'] at hq; rw [← Option.some.inj hq]
    by_cases bn : b = []
    · rw [bn, List.append_nil] at ha
      rw [stand bn]; exact h.last r o adv ha
    · rw [List.getLast?_append_of_ne_nil _ bn] at ha
      exact bl adv ha
  · rw [tab] at hq
    obtain ⟨y, hy, rfl⟩ := List.mem_map.mp hq
    rw [recs] at hx
    by_cases c : y.index = r.index
    · have yr : y = r := List.inj_on_of_nodup_map nodup hy rm c
      subst yr
      simp only [if_true] at i ⊢
      by_cases bn : a ++ b = []
      · obtain ⟨an, bn⟩ := List.append_eq_nil_iff.mp bn
        right
        rw [stand bn, d]
        have := h.starts x hx y hy (by rw [← i, gi])
        exact this.resolve_left (fun z => z.1 an)
      · exact .inl ⟨bn, by rw [oi, gi]⟩
    · simp only [if_neg c] at i ⊢
      rw [d]
      refine .inr ((h.starts x hx y hy i).resolve_left (fun z => c ?_))
      have := z.2; rw [State.openIndex_of o] at this; exact (Option.some.inj this).symm

end

/-! ### Commit, cut, trigger, entry -/

/-- R61 step 1, R65, R66: what a commit of the open entry does. -/
theorem CaptureCore.commitOpen {n : Option Nat} {s : State} {r : SegmentRecord} (h : CaptureCore n s)
    (o : s.openRecord? = some r) (full : r.regionSize ≤ r.retained → r.triggerPosition = none) :
    CaptureCore n s.commitOpen.1 ∧ s.commitOpen.1.held = 0 ∧ (∀ a, LogBehind s a → LogBehind s.commitOpen.1 (a ++ s.commitOpen.2)) ∧
      ((s.cst.openEntry.isSome = true → s.commitOpen.1.cst.openEntry.isSome = true) ∧
        s.commitOpen.1.run.figures = s.run.figures ∧ s.commitOpen.1.run.setup = s.run.setup) ∧
      ∃ q, s.commitOpen.1.openRecord? = some q ∧ q.index = r.index ∧ q.regionSize = r.regionSize ∧
        q.triggerPosition = r.triggerPosition ∧ (r.retained < r.regionSize → s.commitOpen.2 = []) ∧
        (s.commitOpen.2 = [] → q.firstSample = r.firstSample) := by
  obtain ⟨hs, l⟩ := State.openRecord_eq o
  obtain ⟨f, hf, -⟩ := h.segments.fits (h.opened hs)
  have rm : r ∈ s.run.table := List.mem_of_getLast? l
  have L := h.segments.records r rm
  rw [State.openIndex_of o, if_pos rfl] at L
  have reg := L.region f hf
  have nx : n = some r.nextSample := h.next r o
  unfold State.commitOpen
  simp only [o]
  cases ho : s.cst.openEntry with
  | none =>
    exact ⟨h, by simp [State.held, ho], fun a b => by rw [List.append_nil]; exact b, ⟨fun c => by simp at c, by trivial, by trivial⟩, r, o, rfl, rfl, rfl,
      fun _ => by trivial, fun _ => rfl⟩
  | some oe =>
    cases hh : oe.holding with
    | none =>
      simp only [hh]
      exact ⟨h, by simp [State.held, ho, hh], fun a b => by rw [List.append_nil]; exact b, ⟨fun _ => by simp [ho], by trivial, by trivial⟩, r, o, rfl, rfl, rfl,
        fun _ => by trivial, fun _ => rfl⟩
    | some e =>
      have hd : s.held = e.count := by simp [State.held, ho, hh]
      rw [hd] at L
      simp only [hh]
      unfold State.commitEntry
      dsimp only
      have same : ∀ p, ¬(r.regionFirst ≤ p ∧ p < r.regionFirst + r.regionSize) →
          Memory.read (Memory.write s.cst.store r.writePosition e) p = Memory.read s.cst.store p :=
        fun p hp => Memory.read_write_other _ _ (fun c => hp (c ▸ reg.ring.positionAfter_mem _))
      split
      · next room =>
        rw [State.updateRecord_eq]
        have new := L.commit hf room (e := e) rfl
        let g (x : SegmentRecord) : SegmentRecord := { x with retained := x.retained + 1 }
        have ch := h.changed o (g := g)
          (t := { s with
            cst := { store := Memory.write s.cst.store r.writePosition e
                     openEntry := some { start := oe.start + e.count, holding := none }
                     checkpoints := checkpointCommit s.cst.checkpoints r.writePosition r.index oe.start }
            run := { s.run with table := s.run.table.map (fun x => if x.index = r.index then g x else x) } })
          rfl rfl rfl rfl hs (fun w => h.untriggered w r o) same new (fun x hx => hx)
        refine ⟨by rw [nx]; exact ch.1, rfl, fun a b => ?_, ⟨fun _ => rfl, by trivial, by trivial⟩, _, ch.2, rfl, rfl, rfl,
          fun _ => rfl, fun _ => rfl⟩
        exact b.changed (b := []) (g := g) o h.segments.indices rfl rfl rfl hs rfl (by simp) (fun _ => rfl) (by simp)
      · next room =>
        rw [State.updateRecord_eq]
        have none := full (Nat.le_of_not_lt room)
        have new := L.commitFull hf (Nat.le_of_not_lt room) none (e := e) rfl
        let g (x : SegmentRecord) : SegmentRecord := { x with
          firstPosition := r.positionAfter 1, firstSample := r.firstSample + entryCountAt s.cst.store r.firstPosition }
        have ch := h.changed o (g := g)
          (t := { s with
            cst := { store := Memory.write s.cst.store r.writePosition e
                     openEntry := some { start := oe.start + e.count, holding := .none }
                     checkpoints := checkpointCommit s.cst.checkpoints r.writePosition r.index oe.start }
            run := { s.run with table := s.run.table.map (fun x => if x.index = r.index then g x else x) } })
          rfl rfl rfl rfl hs (fun w => h.untriggered w r o) same new (fun x hx => hx)
        refine ⟨by rw [nx]; exact ch.1, rfl, fun a b => ?_, ⟨fun _ => rfl, by trivial, by trivial⟩, _, ch.2, rfl, rfl, rfl,
          fun c => absurd c room, fun c => by cases c⟩
        exact b.changed (g := g) o h.segments.indices rfl rfl rfl hs rfl (by simp) (by simp) (by simp [g])

/-- After a commit the open entry of an open segment is empty. -/
theorem State.commitOpen_empty {s : State} {r : SegmentRecord} (o : s.openRecord? = some r) :
    ∀ oe : OpenEntry, s.commitOpen.1.cst.openEntry = some oe → oe.holding = none := by
  intro oe h
  unfold State.commitOpen at h
  simp only [o] at h
  cases ho : s.cst.openEntry with
  | none => simp [ho] at h
  | some oe' =>
    cases hh : oe'.holding with
    | none => simp only [ho, hh] at h; rw [← Option.some.inj h]; exact hh
    | some e =>
      simp only [ho, hh] at h
      unfold State.commitEntry at h
      dsimp only at h
      split at h <;> (rw [State.updateRecord_eq] at h; rw [← Option.some.inj h])

/-- An empty open entry is not committed. -/
theorem State.commitOpen_of_empty {s : State} (h : ∀ oe : OpenEntry, s.cst.openEntry = some oe → oe.holding = none) :
    s.commitOpen = (s, []) := by
  unfold State.commitOpen
  split
  · next oe _ ho =>
    have := h _ ho
    simp only [this]
  · rfl
  · rfl

/-- R45: what the pre-trigger cut does, before the segment's trigger. -/
theorem CaptureCore.preTriggerCut {n : Option Nat} {s : State} {r : SegmentRecord} (h : CaptureCore n s)
    (o : s.openRecord? = some r) (none : r.triggerPosition = .none) :
    CaptureCore n s.preTriggerCut.1 ∧ s.preTriggerCut.1.held = s.held ∧
      (∀ a, LogBehind s a → LogBehind s.preTriggerCut.1 (a ++ s.preTriggerCut.2)) ∧
      (s.preTriggerCut.1.run.figures = s.run.figures ∧ s.preTriggerCut.1.run.state = s.run.state) ∧
      ∃ q, s.preTriggerCut.1.openRecord? = some q ∧ q.index = r.index ∧ q.regionSize = r.regionSize ∧
        q.triggerPosition = .none ∧ q.nextSample = r.nextSample ∧ q.retained < q.regionSize ∧
        (s.preTriggerCut.2 = [] → q.firstSample = r.firstSample) := by
  obtain ⟨hs, l⟩ := State.openRecord_eq o
  obtain ⟨f, hf, -⟩ := h.segments.fits (h.opened hs)
  have fit := h.segments.figures f hf
  have rm : r ∈ s.run.table := List.mem_of_getLast? l
  have L := h.segments.records r rm
  rw [State.openIndex_of o, if_pos rfl] at L
  have reg := L.region f hf
  have size := reg.size
  have deep := fit.depth
  have nx : n = some r.nextSample := h.next r o
  unfold State.preTriggerCut
  simp only [o, hf]
  split
  · next c =>
    rw [State.updateRecord_eq]
    have new := L.cutTo hf c none
    let g (x : SegmentRecord) : SegmentRecord := { x with
      retained := f.depth, firstPosition := r.positionAfter (r.retained - f.depth)
      firstSample := r.firstSample + countSum s.cst.store (r.oldestPositions (r.retained - f.depth)) }
    have ch := h.changed o (g := g)
      (t := { s with
        cst := { s.cst with
          checkpoints := Memory.eraseAll s.cst.checkpoints (slotsOf (r.oldestPositions (r.retained - f.depth))) }
        run := { s.run with table := s.run.table.map (fun x => if x.index = r.index then g x else x) } })
      rfl rfl rfl rfl hs (fun w => h.untriggered w r o) (fun _ _ => rfl) new (fun x hx => hx)
    refine ⟨by rw [nx]; exact ch.1, rfl, fun a b => ?_, ⟨by first | rfl | exact hf, rfl⟩, _, ch.2, rfl, rfl, none, rfl, ?_,
      fun c => by cases c⟩
    · exact b.changed (g := g) o h.segments.indices rfl rfl rfl hs rfl (by simp) (by simp) (by simp [g])
    · show f.depth < r.regionSize; omega
  split
  · have v := State.updateRecord_view s r.index (f := fun x => { x with shortPre := true }) (fun _ => rfl)
    refine ⟨h.congr v, rfl, fun a b => by rw [List.append_nil]; exact b.congr v, ⟨by first | rfl | exact hf, rfl⟩,
      { r with shortPre := true }, ?_, rfl,
      rfl, none, rfl, ?_, fun _ => rfl⟩
    · rw [State.updateRecord_eq]; exact State.openRecord_of hs (lastChanged l _)
    · show r.retained < r.regionSize; omega
  · exact ⟨h, rfl, fun a b => by rw [List.append_nil]; exact b, ⟨hf, rfl⟩, r, o, rfl, rfl, none, rfl, by omega, fun _ => rfl⟩

/-- R43, R64: what a trigger does at the next sample of the open segment. -/
theorem CaptureCore.takeTrigger {s : State} {r : SegmentRecord} {t : Nat} (h : CaptureCore (some t) s)
    (o : s.openRecord? = some r) (pre : s.run.state = .pretrig) (word glitch : Levels) (source : TriggerSource) :
    CaptureCore (some (t + 1)) (s.takeTrigger t word glitch source).1 ∧
      (s.takeTrigger t word glitch source).1.cst.openEntry.isSome = true ∧
      (s.takeTrigger t word glitch source).1.hasRingRoom ∧
      (∀ a, LogBehind s a →
        LogBehind (s.takeTrigger t word glitch source).1 (a ++ (s.takeTrigger t word glitch source).2)) ∧
      ∃ q, (s.takeTrigger t word glitch source).1.openRecord? = some q ∧ q.index = r.index ∧
        ((s.takeTrigger t word glitch source).2 = [] → q.firstSample = r.firstSample) := by
  have none := h.untriggered (.inr pre) r o
  obtain ⟨h1, z1, b1, ⟨-, f1, u1⟩, q, o1, i1, s1, t1, -, k1⟩ := h.commitOpen o (fun _ => none)
  rw [none] at t1
  obtain ⟨h2, z2, b2, ⟨f2, r2⟩, p, o2, i2, s2, t2, n2, room, k2⟩ := h1.preTriggerCut o1 t1
  rw [z1] at z2
  have seg2 := (State.openRecord_eq o2).1
  have pm : p ∈ s.commitOpen.1.preTriggerCut.1.run.table := List.mem_of_getLast? (State.openRecord_eq o2).2
  obtain ⟨f, hf, -⟩ := h2.segments.fits (h2.opened seg2)
  have L := h2.segments.records p pm
  rw [State.openIndex_of o2, if_pos rfl, z2] at L
  have pn : t = p.nextSample := Option.some.inj (h2.next p o2)
  have new := L.triggered hf room s.divider source
  rw [← pn] at new
  generalize hk : s.commitOpen.1.preTriggerCut.1 = k at *
  let x : State := { k with
    run := { k.run with
      state := .posttrig, pendingRemote := false
      table := k.run.table.map (fun y => if y.index = p.index then y.triggered t s.divider source else y) }
    cst := { k.cst with openEntry := some { start := t, holding := some { data := .levels word glitch, count := 1 } } }
    tsq := { k.tsq with fired := true } }
  have ch := h2.changed (g := fun y => y.triggered t s.divider source) (t := x) o2 rfl rfl rfl rfl rfl
    (fun w => by rcases w with w | w <;> cases w) (fun _ _ => rfl) new (fun y hy => hy)
  have e : (k.updateOpen (fun y => y.triggered t s.divider source)).run.table = x.run.table := by
    rw [State.updateOpen_eq, State.openIndex_of o2]
    exact List.map_congr_left (fun y _ => by simp only [Option.some.injEq, eq_comm])
  have view : (s.takeTrigger t word glitch source).1.captureView = x.captureView := by
    have up : ({ (k.updateOpen (fun y => y.triggered t s.divider source)) with
        run := { (k.updateOpen (fun y => y.triggered t s.divider source)).run with state := .posttrig, pendingRemote := false }
        cst := { (k.updateOpen (fun y => y.triggered t s.divider source)).cst with
          openEntry := some { start := t, holding := some { data := .levels word glitch, count := 1 } } }
        tsq := { (k.updateOpen (fun y => y.triggered t s.divider source)).tsq with fired := true } } : State).captureView =
        x.captureView := by
      rw [State.updateOpen_eq] at e ⊢
      simp only [State.captureView] at e ⊢
      rw [e]
    unfold State.takeTrigger
    simp only [hk]
    split
    · rw [State.postNotice_view, State.postStatus_view]; exact up
    all_goals rw [State.postStatus_view]; exact up
  refine ⟨ch.1.congr view, ?_, State.hasRingRoom_congr (s := x) ?_ view, fun a b => ?_, ?_⟩
  · have : (s.takeTrigger t word glitch source).1.cst.openEntry = x.cst.openEntry := congrArg (fun y => y.2.2.2.2.2.1) view
    rw [this]; rfl
  · intro _ y hy
    rw [ch.2] at hy; rw [← Option.some.inj hy]; exact room
  · have := (b2 _ (b1 a b)).changed (b := []) (g := fun y => y.triggered t s.divider source) (t := x) o2 h2.segments.indices
      rfl rfl rfl rfl rfl (by simp) (fun _ => rfl) (by simp)
    rw [List.append_nil] at this
    have c := this.congr view
    have e2 : (s.takeTrigger t word glitch source).2 = s.commitOpen.2 ++ s.commitOpen.1.preTriggerCut.2 := rfl
    rw [e2, ← List.append_assoc]; exact c
  · have hs : (s.takeTrigger t word glitch source).1.run.state.hasSegment = true := by
      have : (s.takeTrigger t word glitch source).1.run.state = x.run.state := congrArg (fun y => y.2.2.2.1) view
      rw [this]; rfl
    obtain ⟨z, oz, ze⟩ := openRecord_of_view view.symm ch.2
    have zi : z.index = p.index := congrArg (fun y => y.1.1) ze.symm
    have zf : z.firstSample = p.firstSample := congrArg (fun y => y.2.1) ze.symm
    refine ⟨z, oz, zi.trans (i2.trans i1), fun e => ?_⟩
    have e2 : s.commitOpen.2 ++ s.commitOpen.1.preTriggerCut.2 = [] := e
    obtain ⟨ea, eb⟩ := List.append_eq_nil_iff.mp e2
    rw [zf, k2 eb, k1 ea]

/-- R60, R61: what the entry of a sample does. -/
theorem CaptureCore.enterSample {s : State} {r : SegmentRecord} {m : Nat} (h : CaptureCore (some m) s)
    (o : s.openRecord? = some r) (entry : s.cst.openEntry.isSome = true) (d : EntryData) :
    CaptureCore (some (m + 1)) (s.enterSample m d) ∧ (s.enterSample m d).cst.openEntry.isSome = true ∧
      (s.hasRingRoom → (s.enterSample m d).hasRingRoom) ∧ (∀ a, LogBehind s a → LogBehind (s.enterSample m d) a) ∧
      (s.enterSample m d).openRecord? = some { r with nextSample := m + 1 } := by
  obtain ⟨hs, l⟩ := State.openRecord_eq o
  have rm : r ∈ s.run.table := List.mem_of_getLast? l
  have L := h.segments.records r rm
  rw [State.openIndex_of o, if_pos rfl] at L
  have mn : m = r.nextSample := Option.some.inj (h.next r o)
  have new := L.enter
  rw [← mn] at new
  obtain ⟨oe, ho⟩ := Option.isSome_iff_exists.mp entry
  unfold State.enterSample
  simp only [ho]
  generalize hC : ({ s.cst with openEntry := some _ } : Cst) = c
  have cs : c.store = s.cst.store := by rw [← hC]
  have ce : c.openEntry.isSome = true := by rw [← hC]; rfl
  have ch' : (match c.openEntry with | some o => (o.holding.map Entry.count).getD 0 | none => 0) = s.held + 1 := by
    rw [← hC]
    simp only [State.held, ho]
    cases oe.holding <;> simp
  rw [State.updateOpen_eq]
  have oi : (s.setCst c).openIndex? = some r.index := State.openIndex_of o
  simp only [oi, Option.some.injEq]
  have tabE : s.run.table.map (fun y => if r.index = y.index then { y with nextSample := m + 1 } else y) =
      s.run.table.map (fun y => if y.index = r.index then { y with nextSample := m + 1 } else y) :=
    List.map_congr_left (fun y _ => by simp only [eq_comm])
  generalize hx : ({ (s.setCst c) with run := _ } : State) = x
  have xs : x.run = { s.run with table := s.run.table.map (fun y => if y.index = r.index then { y with nextSample := m + 1 } else y) } := by
    rw [← hx, ← tabE]; rfl
  have xc : x.cst = c := by rw [← hx]; rfl
  have xl : x.log = s.log := by rw [← hx]; rfl
  have xh : x.held = s.held + 1 := by unfold State.held; rw [xc]; exact ch'
  have key := h.changed (g := fun y => { y with nextSample := m + 1 }) (t := x) o rfl (by rw [xs]) (by rw [xs]) (by rw [xs])
    (by rw [xs]; exact hs) (by rw [xs]; exact fun w => h.untriggered w r o) (fun _ _ => by rw [xc, cs])
    (by rw [xc, cs, xh]; exact new) (by rw [xl]; exact fun y hy => hy)
  refine ⟨key.1, ce, fun room st q hq => ?_, fun a b => ?_, ?_⟩
  · rw [key.2] at hq; rw [← Option.some.inj hq]
    exact room (by rw [xs] at st; exact st) r o
  · have := b.changed (b := []) (g := fun y => { y with nextSample := m + 1 }) (t := x) o h.segments.indices rfl
      (by rw [xs]) (by rw [xs]) (by rw [xs]; exact hs) (by rw [xl]) (by simp) (fun _ => rfl) (by simp)
    rwa [List.append_nil] at this
  · exact key.2

/-! ### LOG's part of a sample, and the flush -/

theorem CaptureCore.withLog {n : Option Nat} {s : State} (h : CaptureCore n s) {l : Log}
    (logged : ∀ x ∈ l.records, x.content.segment < s.run.table.length) : CaptureCore n { s with log := l } :=
  ⟨h.setup, h.segments, h.waiting, h.opened, h.untriggered, h.next, logged⟩

/-- LOG takes the records and the advances of one sample of the newest segment. -/
theorem CaptureCore.logSample {n : Option Nat} {s : State} {a : List Advance} {r : SegmentRecord} (h : CaptureCore n s)
    (b : LogBehind s a) (l : s.run.table.getLast? = some r) (o : a ≠ [] → s.openRecord? = some r) {rs : RunState} {first : Nat}
    {records : List DecodeRecord} (seg : ∀ q ∈ records, q.segment = r.index) (nf : a = [] → first = r.firstSample) :
    CaptureCore n (s.logSample rs first records a) ∧ LogBehind (s.logSample rs first records a) [] := by
  have rm : r ∈ s.run.table := List.mem_of_getLast? l
  have idx := h.segments.indices
  have nodup : (s.run.table.map SegmentRecord.index).Nodup := by rw [idx]; exact List.nodup_range
  have lt (q : SegmentRecord) (hq : q ∈ s.run.table) : q.index < s.run.table.length := by
    have : q.index ∈ s.run.table.map SegmentRecord.index := List.mem_map_of_mem hq
    rw [idx] at this; exact List.mem_range.mp this
  have key := State.logSample_starts (i := r.index) (F := r.firstSample) records (s := s) (rs := rs) (first := first) (a := a)
    (fun adv ha => by
      have := b.segment adv ha
      rw [State.openIndex_of (o (List.ne_nil_of_mem ha))] at this
      exact (Option.some.inj this).symm)
    (fun adv ha => b.last r (o (by rintro rfl; cases ha)) adv ha) nf seg
    (fun x hx e => (b.starts x hx r rm e.symm).imp And.left id)
  have logged : ∀ x ∈ (s.logSample rs first records a).log.records, x.content.segment < s.run.table.length := fun x hx => by
    by_cases e : x.content.segment = r.index
    · rw [e]; exact lt r rm
    · exact h.logged x (key.2 x hx e)
  have b' : LogBehind { s with log := (s.logSample rs first records a).log } [] := by
    refine ⟨by simp, by simp, fun x hx q hq e => .inr ?_⟩
    by_cases c : q.index = r.index
    · have : q = r := List.inj_on_of_nodup_map nodup hq rm c
      subst this; exact key.1 x hx e.symm
    · refine (b.starts x (key.2 x hx (fun z => c (e.trans z))) q hq e).resolve_left (fun z => c ?_)
      have := z.2
      rw [State.openIndex_of (o z.1)] at this; exact (Option.some.inj this).symm
  have view : (s.logSample rs first records a).captureView =
      ({ s with log := (s.logSample rs first records a).log } : State).captureView := by
    have st := State.logSample_still s rs first records a
    have e1 : (s.logSample rs first records a).run.setup = s.run.setup := congrArg Still.setup st
    have e2 : (s.logSample rs first records a).run.figures = s.run.figures := congrArg Still.figures st
    simp only [State.captureView, e1, e2, State.logSample_state, State.logSample_cst,
      State.logSample_map (f := SegmentRecord.span) (fun _ => rfl)]
  exact ⟨(h.withLog logged).congr view, b'.congr view⟩

theorem makeRecord_segment (c : SampleContext) (d : Fin 4) (k : RecordKind) (f v : Nat) (w : Option Nat) (n : Nat)
    (g : RecordFlags) : (makeRecord c d k f v w n g).segment = c.segment := rfl

theorem i2cCutRecord_segment {c : SampleContext} {d : Fin 4} {f : I2cFraming} {g : Bool} {r : DecodeRecord}
    (h : r ∈ i2cCutRecord c d f g) : r.segment = c.segment := by
  unfold i2cCutRecord at h
  dsimp only at h
  split at h
  · cases h
  · rw [List.mem_singleton.mp h]; rfl

/-- R100: every record a unit completes at a sample bears the segment of the sample. -/
theorem DecodeUnit.sample_segment {u : DecodeUnit} {d : Fin 4} {c : SampleContext} {r : DecodeRecord}
    (h : r ∈ (u.sample d c).2) : r.segment = c.segment := by
  unfold DecodeUnit.sample at h
  split at h
  · cases h
  split at h
  · simp only [uartSample] at h
    repeat' split at h
    all_goals first | (cases h; done) | (rw [List.mem_singleton.mp h]; rfl)
  · simp only [spiSample] at h
    repeat' split at h
    all_goals first | (cases h; done) | (rw [List.mem_singleton.mp h]; rfl)
  · simp only [i2cSample] at h
    repeat' split at h
    all_goals try first
      | (cases h; done)
      | (rw [List.mem_singleton.mp h]; unfold i2cByteRecord; split <;> rfl)
    all_goals
      rcases List.mem_append.mp h with h | h
      · exact i2cCutRecord_segment h
      · rw [List.mem_singleton.mp h]; rfl
  · unfold parallelSample at h
    split at h
    · rw [List.mem_singleton.mp h]; rfl
    · cases h
  · cases h

theorem DecodeUnit.flushRecords_segment {u : DecodeUnit} {d : Fin 4} {c : SampleContext} {r : DecodeRecord}
    (h : r ∈ u.flushRecords d c) : r.segment = c.segment := by
  unfold DecodeUnit.flushRecords at h
  split at h
  · cases h
  split at h
  · repeat' split at h
    all_goals first | (cases h; done) | (rw [List.mem_singleton.mp h]; rfl)
  · split at h
    · cases h
    · rw [List.mem_singleton.mp h]; rfl
  · split at h
    · cases h
    · exact i2cCutRecord_segment h
  · cases h

theorem Dec.sampleRecords_segment {x : Dec} {c : SampleContext} {r : DecodeRecord} (h : r ∈ x.sampleRecords c) :
    r.segment = c.segment := by
  simp only [Dec.sampleRecords, List.mem_append] at h
  rcases h with ((h | h) | h) | h <;> exact DecodeUnit.sample_segment h

theorem Dec.flushRecords_segment {x : Dec} {c : SampleContext} {r : DecodeRecord} (h : r ∈ x.flushRecords c) :
    r.segment = c.segment := by
  simp only [Dec.flushRecords, List.mem_append] at h
  rcases h with ((h | h) | h) | h <;> exact DecodeUnit.flushRecords_segment h

/-! ### Segments closing and opening -/

/-- R51, R67: what a close does, its commit made. -/
theorem CaptureCore.closeCommitted {n : Option Nat} {s : State} {q : SegmentRecord} (h1 : CaptureCore n s.commitOpen.1)
    (z1 : s.commitOpen.1.held = 0) (b1 : LogBehind s.commitOpen.1 s.commitOpen.2)
    (o1 : s.commitOpen.1.openRecord? = some q) (f1 : s.commitOpen.1.run.figures = s.run.figures)
    (u1 : s.commitOpen.1.run.setup = s.run.setup) (c : CloseReason) :
    CaptureCore n (s.closeSegment c) ∧ (s.closeSegment c).held = 0 ∧ LogBehind (s.closeSegment c) [] ∧
      (s.closeSegment c).run.figures = s.run.figures ∧ (s.closeSegment c).run.table.length = s.run.table.length ∧
      (s.closeSegment c).run.setup = s.run.setup := by
  have l1 := (State.openRecord_eq o1).2
  obtain ⟨h2, b2⟩ := h1.logSample b1 l1 (fun _ => o1) (records := []) (rs := .idle) (first := q.firstSample) (by simp)
    (fun _ => rfl)
  rw [State.logSample] at h2 b2
  have z2 : (s.commitOpen.2.foldl State.trimLog s.commitOpen.1).held = 0 := by
    unfold State.held at z1 ⊢; rw [State.foldl_trimLog_cst]; exact z1
  generalize hu : s.commitOpen.2.foldl State.trimLog s.commitOpen.1 = u at *
  have uf : u.run.figures = s.run.figures := by rw [← hu, State.foldl_trimLog_run]; exact f1
  have us : u.run.setup = s.run.setup := by rw [← hu, State.foldl_trimLog_run]; exact u1
  have ul : u.run.table.length = s.run.table.length := by
    obtain ⟨f, _, ht⟩ := State.commitOpen_table s
    rw [← hu, State.foldl_trimLog_run, ht, List.length_map]
  let x : State := { u with cst := { u.cst with openEntry := none } }
  have hx : CaptureCore n x := by
    refine ⟨h2.setup, ?_, h2.waiting, h2.opened, h2.untriggered, h2.next, h2.logged⟩
    have := h2.segments; rw [z2] at this; exact this
  have bx : LogBehind x [] := ⟨b2.segment, b2.last, b2.starts⟩
  have view : (s.closeSegment c).captureView = x.captureView := by
    have v := State.updateOpen_view u (f := fun r => { r with state := .closed, closeReason := some c }) (fun _ => rfl)
    unfold State.closeSegment
    simp only [hu]
    generalize u.updateOpen (fun r => { r with state := .closed, closeReason := some c }) = w at v ⊢
    show (w.run.setup, w.run.figures, w.run.table.map SegmentRecord.span, w.run.state, w.cst.store, none, w.log.records) = _
    rw [show w.run.setup = u.run.setup from congrArg (fun y => y.1) v,
      show w.run.figures = u.run.figures from congrArg (fun y => y.2.1) v,
      show w.run.table.map SegmentRecord.span = u.run.table.map SegmentRecord.span from congrArg (fun y => y.2.2.1) v,
      show w.run.state = u.run.state from congrArg (fun y => y.2.2.2.1) v,
      show w.cst.store = u.cst.store from congrArg (fun y => y.2.2.2.2.1) v,
      show w.log.records = u.log.records from congrArg (fun y => y.2.2.2.2.2.2) v]
    rfl
  refine ⟨hx.congr view, ?_, bx.congr view, ?_, ?_, ?_⟩
  · have : (s.closeSegment c).cst.openEntry = none := rfl
    simp [State.held, this]
  · exact (congrArg (fun y => y.2.1) view).trans uf
  · have := congrArg (fun y => y.2.2.1.length) view
    simp only [State.captureView, List.length_map] at this
    exact this.trans ul
  · exact (congrArg (fun y => y.1) view).trans us

/-- R51, R67: what a close does. -/
theorem CaptureCore.closeSegment {n : Option Nat} {s : State} {r : SegmentRecord} (h : CaptureCore n s)
    (o : s.openRecord? = some r) (full : r.regionSize ≤ r.retained → r.triggerPosition = none) (b : LogBehind s [])
    (c : CloseReason) :
    CaptureCore n (s.closeSegment c) ∧ (s.closeSegment c).held = 0 ∧ LogBehind (s.closeSegment c) [] ∧
      (s.closeSegment c).run.figures = s.run.figures ∧ (s.closeSegment c).run.table.length = s.run.table.length ∧
      (s.closeSegment c).run.setup = s.run.setup := by
  obtain ⟨h1, z1, b1, ⟨-, f1, u1⟩, q, o1, -, -, -, -, -⟩ := h.commitOpen o full
  exact h1.closeCommitted z1 (b1 [] b) o1 f1 u1 c

/-- R40: what an opening does. -/
theorem CaptureCore.openSegment {n : Option Nat} {s : State} (h : CaptureCore n s) (z : s.held = 0) (b : LogBehind s [])
    {f : RunFigures} (hf : s.run.figures = some f) {i : Nat} (hi : i = s.run.table.length) (room : i < f.segments) (m : Nat) :
    CaptureCore (some m) (s.openSegment i m) ∧ (s.openSegment i m).cst.openEntry.isSome = true ∧
      (s.openSegment i m).hasRingRoom ∧ LogBehind (s.openSegment i m) [] ∧ (s.openSegment i m).run.state.hasSegment = true ∧
      (s.openSegment i m).openRecord? = some (newRecord f i m (!s.tau.locked)) := by
  subst hi
  let rs := openingState s.run.setup.prefillWait f.depth
  have rh : rs = .prefill ∨ rs = .pretrig := by show openingState _ _ = _ ∨ openingState _ _ = _; unfold openingState; split <;> simp
  have hs : rs.hasSegment = true := by rcases rh with e | e <;> rw [e] <;> rfl
  let x : State := { s with
    run := { s.run with
      state := rs, table := s.run.table ++ [newRecord f s.run.table.length m (!s.tau.locked)], pendingRemote := false }
    cst := { s.cst with openEntry := some { start := m, holding := none } } }
  have ox : x.openRecord? = some (newRecord f s.run.table.length m (!s.tau.locked)) :=
    State.openRecord_of hs (by simp [x])
  have seg := h.segments
  rw [z] at seg
  have hx : CaptureCore (some m) x := by
    refine ⟨h.setup, ?_, fun w => ?_, fun _ c => ?_, fun _ r hr => ?_, fun r hr => ?_, fun y hy => ?_⟩
    · rw [State.openIndex_of ox]; exact seg.opened hf room m _
    · have : rs = .waitStart := w
      rw [this] at hs; cases hs
    · have : s.run.table ++ [newRecord f s.run.table.length m (!s.tau.locked)] = [] := c
      simp at this
    · rw [ox] at hr; rw [← Option.some.inj hr]; rfl
    · rw [ox] at hr; rw [← Option.some.inj hr]; rfl
    · have := h.logged y hy
      show _ < (s.run.table ++ [_]).length
      rw [List.length_append]; exact Nat.lt_succ_of_lt this
  have bx : LogBehind x [] := by
    refine ⟨by simp, by simp, fun y hy r hr e => .inr ?_⟩
    rcases List.mem_append.mp hr with hr | hr
    · exact (b.starts y hy r hr e).resolve_left (fun c => c.1 rfl)
    · rw [List.mem_singleton.mp hr] at e
      have := h.logged y hy
      have e' : s.run.table.length = y.content.segment := e
      omega
  have opening : s.openSegment s.run.table.length m =
      (({ x with cst := s.cst, tsq := x.tsq.openSegment rs } : State).setCst x.cst).postStatus := by
    unfold State.openSegment
    split
    · next f' hf' =>
      obtain rfl : f' = f := Option.some.inj (hf'.symm.trans hf)
      rfl
    · next c => rw [hf] at c; cases c
  have view : (s.openSegment s.run.table.length m).captureView = x.captureView := by
    rw [opening, State.postStatus_view]; rfl
  refine ⟨hx.congr view, ?_, State.hasRingRoom_congr (s := x) (fun st => ?_) view, bx.congr view, ?_, ?_⟩
  · have : (s.openSegment s.run.table.length m).cst.openEntry = x.cst.openEntry := congrArg (fun y => y.2.2.2.2.2.1) view
    rw [this]; rfl
  · have : rs = .posttrig := st
    rcases rh with e | e <;> rw [e] at this <;> cases this
  · have : (s.openSegment s.run.table.length m).run.state = x.run.state := congrArg (fun y => y.2.2.2.1) view
    rw [this]; exact hs
  · have e : (s.openSegment s.run.table.length m).run = x.run := by
      rw [opening, State.postStatus_run]; rfl
    exact (State.openRecord?_congr (s := x) (by rw [e]) (by rw [e])).trans ox

/-- R52: what the end of a run does, its segment closed. -/
theorem CaptureCore.endRun {n : Option Nat} {s : State} (h : CaptureCore n s) (z : s.held = 0) (b : LogBehind s []) :
    CaptureLaw s.endRun := by
  let x : State := s.endRunTime
  have none : x.openIndex? = none := State.openIndex?_of_noSegment rfl
  have nr : x.openRecord? = .none := by unfold State.openRecord?; rfl
  have seg := h.segments
  rw [z] at seg
  have zx : x.held = 0 := z
  have hx : CaptureCore .none x := by
    refine ⟨h.setup, ?_, fun w => ?_, fun w => ?_, fun _ r hr => ?_, fun r hr => ?_, h.logged⟩
    · rw [none]; exact seg.noneOpen _
    · cases w
    · cases w
    · rw [nr] at hr; cases hr
    · rw [nr] at hr; cases hr
  have bx : LogBehind x [] :=
    ⟨by simp, by simp, fun y hy r hr e => .inr ((b.starts y hy r hr e).resolve_left (fun c => c.1 rfl))⟩
  have flushed : CaptureCore .none x.flushDecoders ∧ LogBehind x.flushDecoders [] := by
    unfold State.flushDecoders
    dsimp only
    cases ht : x.run.table.getLast? with
    | none =>
      have v : (x.setDec { x.dec with units := x.dec.units.map DecodeUnit.stop }).captureView = x.captureView := rfl
      exact ⟨hx.congr v, bx.congr v⟩
    | some r =>
      dsimp only
      generalize hrec : x.dec.flushRecords (flushContext x r) = records
      have hy : CaptureCore .none (x.compareRecords records) := hx.congr rfl
      have by' : LogBehind (x.compareRecords records) [] := bx.congr rfl
      have key := hy.logSample by' (r := r) ht (fun c => absurd rfl c) (rs := x.run.state) (first := r.firstSample)
        (records := records) (fun q hq => by rw [← hrec] at hq; exact Dec.flushRecords_segment hq) (fun _ => rfl)
      have v (u : State) (d : Dec) : (u.setDec d).captureView = u.captureView := rfl
      exact ⟨key.1.congr (v _ _), key.2.congr (v _ _)⟩
  have v := State.postStatus_view x.flushDecoders
  have e : s.endRun = x.flushDecoders.postStatus := rfl
  have st : s.endRun.run.state = .idle := State.endRun_state s
  have rt : s.endRun.tau.runTime = .none := by
    have := congrArg (fun y => y.1.runTime) (State.endRun_front s); exact this
  rw [captureLaw_iff, rt]
  refine ⟨by rw [e]; exact flushed.1.congr v, fun c => ?_, fun c => ?_, by rw [e]; exact flushed.2.congr v⟩
  · rw [st] at c; cases c
  · rw [st] at c; cases c

theorem CaptureCore.closeAndEnd {n : Option Nat} {s : State} {r : SegmentRecord} (h : CaptureCore n s)
    (o : s.openRecord? = some r) (full : r.regionSize ≤ r.retained → r.triggerPosition = none) (b : LogBehind s [])
    (c : CloseReason) : CaptureLaw (s.closeAndEnd c) := by
  obtain ⟨h1, z1, b1, -, -, -⟩ := h.closeSegment o full b c
  exact h1.endRun z1 b1

/-- A full ring has no trigger: in PREFILL and PRETRIG none is taken, and in POSTTRIG the ring has room. -/
theorem CaptureCore.fullUntriggered {n : Option Nat} {s : State} {r : SegmentRecord} (h : CaptureCore n s)
    (room : s.hasRingRoom) (o : s.openRecord? = some r) : r.regionSize ≤ r.retained → r.triggerPosition = none := by
  intro c
  have hs := (State.openRecord_eq o).1
  cases st : s.run.state with
  | idle => rw [st] at hs; cases hs
  | waitStart => rw [st] at hs; cases hs
  | prefill => exact h.untriggered (.inl st) r o
  | pretrig => exact h.untriggered (.inr st) r o
  | posttrig => have := room st r o; omega

/-! ### Samples -/

/-- R61 step 1, R41, R50: what the arrival of sample `m` leaves: a run that has ended under the laws, or one that goes on. -/
theorem CaptureCore.arrive {s : State} {r : SegmentRecord} {m : Nat} (h : CaptureCore (some m) s)
    (o : s.openRecord? = some r) (entry : s.cst.openEntry.isSome = true) (room : s.hasRingRoom) (b : LogBehind s [])
    (word glitch : Levels) :
    let t := s.arrive m word glitch
    (t.1.run.state.hasSegment = false ∧ CaptureLaw t.1) ∨
    (t.1.run.state.hasSegment = true ∧ CaptureCore (some m) t.1 ∧ t.1.cst.openEntry.isSome = true ∧ t.1.hasRingRoom ∧
      LogBehind t.1 t.2 ∧
      ∀ q, t.1.openRecord? = some q → t.2 = [] → firstBefore s t.1 = q.firstSample) := by
  have hs := (State.openRecord_eq o).1
  have before (u : State) (q : SegmentRecord) (oq : u.openRecord? = some q)
      (e : q.index = r.index → q.firstSample = r.firstSample) : firstBefore s u = q.firstSample := by
    unfold firstBefore
    rw [State.openIndex_of o, State.openIndex_of oq]
    dsimp only
    split
    · next c => rw [o]; exact (e (Option.some.inj c).symm).symm
    · rw [oq]; rfl
  unfold State.arrive
  dsimp only
  split
  · obtain ⟨h1, z1, b1, ⟨e1, f1, u1⟩, q, o1, i1, s1, t1, k1, a1⟩ := h.commitOpen o (h.fullUntriggered room o)
    have ent1 := e1 entry
    have emp := State.commitOpen_empty o
    have st1 : s.commitOpen.1.run.state = s.run.state := State.commitOpen_state s
    generalize hC : s.commitOpen.1 = u at *
    generalize hA : s.commitOpen.2 = a at *
    have bu : LogBehind u a := b1 [] b
    dsimp only
    -- PREFILL to PRETRIG
    obtain ⟨v, hv, hsv, hcv, hev, hbv, ov, zv, stv, fv, cv⟩ : ∃ v, u.enterPretrigIfFilled = v ∧ v.run.state.hasSegment = true ∧
        CaptureCore (some m) v ∧ v.cst.openEntry.isSome = true ∧ LogBehind v a ∧ v.openRecord? = some q ∧ v.held = 0 ∧
        (v.run.state = .posttrig → u.run.state = .posttrig) ∧ v.run.figures = u.run.figures ∧ v.cst = u.cst := by
      refine ⟨_, rfl, ?_⟩
      have stay : u.run.state.hasSegment = true ∧ CaptureCore (some m) u ∧ u.cst.openEntry.isSome = true ∧ LogBehind u a ∧
          u.openRecord? = some q ∧ u.held = 0 ∧ (u.run.state = .posttrig → u.run.state = .posttrig) ∧
          u.run.figures = u.run.figures ∧ u.cst = u.cst := ⟨st1 ▸ hs, h1, ent1, bu, o1, z1, id, rfl, rfl⟩
      unfold State.enterPretrigIfFilled
      split
      · next q' f' oq' hf' =>
        obtain rfl : q' = q := Option.some.inj (oq'.symm.trans o1)
        split
        · next c =>
          let x : State := { u with run := { u.run with state := .pretrig } }
          have l1 := (State.openRecord_eq o1).2
          have ox : x.openRecord? = some q' := State.openRecord_of rfl l1
          have oix : x.openIndex? = u.openIndex? := by rw [State.openIndex_of ox, State.openIndex_of o1]
          have hx : CaptureCore (some m) x := by
            refine ⟨h1.setup, ?_, fun w => (by cases w), fun _ => h1.opened (st1 ▸ hs), fun _ p hp => ?_, fun p hp => ?_, h1.logged⟩
            · rw [oix]; exact h1.segments
            · rw [ox] at hp; rw [← Option.some.inj hp]; exact h1.untriggered (.inl c.1) q' o1
            · rw [ox] at hp; rw [← Option.some.inj hp]; exact h1.next q' o1
          have bx : LogBehind x a := by
            refine ⟨oix ▸ bu.segment, fun p hp => ?_, fun y hy p hp e => ?_⟩
            · rw [ox] at hp; rw [← Option.some.inj hp]; exact bu.last q' o1
            · rw [oix]; exact bu.starts y hy p hp e
          dsimp only
          generalize hy : (u.setRun { u.run with state := .pretrig }).setTsq _ = y
          have vy : y.postStatus.captureView = x.captureView := by rw [State.postStatus_view, ← hy]; rfl
          have ry : y.postStatus.run = x.run := by rw [State.postStatus_run, ← hy]; rfl
          have cy : y.postStatus.cst = u.cst := by rw [State.postStatus_eq, ← hy]; rfl
          refine ⟨by rw [ry]; rfl, hx.congr vy, by rw [cy]; exact ent1, bx.congr vy, ?_, ?_, ?_, by rw [ry], cy⟩
          · exact (State.openRecord?_congr (s := x) (by rw [ry]) (by rw [ry])).trans ox
          · unfold State.held; rw [cy]; exact z1
          · rw [ry]; intro c; cases c
        · exact stay
      · exact stay
      · exact stay
    rw [hv]
    have goesOn : (v.run.state = .posttrig → q.retained ≠ q.regionSize) →
        (v.run.state.hasSegment = false ∧ CaptureLaw v) ∨ (v.run.state.hasSegment = true ∧ CaptureCore (some m) v ∧
          v.cst.openEntry.isSome = true ∧ v.hasRingRoom ∧ LogBehind v a ∧
          ∀ p, v.openRecord? = some p → a = [] → firstBefore s v = p.firstSample) := by
      intro nf
      refine .inr ⟨hsv, hcv, hev, fun st p hp => ?_, hbv, fun p hp e => ?_⟩
      · rw [ov] at hp; rw [← Option.some.inj hp]
        obtain ⟨f, hf, -⟩ := hcv.segments.fits (hcv.opened hsv)
        have := (hcv.segments.records q (List.mem_of_getLast? (State.openRecord_eq ov).2)).region f hf
        have := this.retained; have := nf st; omega
      · rw [ov] at hp; rw [← Option.some.inj hp]; exact before v q ov (fun _ => a1 e)
    unfold State.closeIfFilled
    split
    · next q' f' oq' hf' =>
      obtain rfl : q' = q := Option.some.inj (oq'.symm.trans ov)
      split
      · next c =>
        have nil : a = [] := k1 (room (st1 ▸ stv c.1) r o)
        have reg := (hcv.segments.records q' (List.mem_of_getLast? (State.openRecord_eq ov).2)).region f' hf'
        have idx : q'.index + 1 = v.run.table.length := by
          obtain ⟨before, e, qi, -⟩ := hcv.segments.split (State.openRecord_eq ov).2
          rw [e, qi]; simp
        have bv' : LogBehind v [] := nil ▸ hbv
        have co : v.commitOpen = (v, []) := State.commitOpen_of_empty (fun oe he => emp oe (by rw [← cv]; exact he))
        obtain ⟨hc1, zc1, bc1, fc1, lc1, -⟩ := CaptureCore.closeCommitted (n := some m) (s := v) (q := q') (by rw [co]; exact hcv)
          (by rw [co]; exact zv) (by rw [co]; exact bv') (by rw [co]; exact ov) (by rw [co]) (by rw [co]) .filled
        split
        · next more =>
          obtain ⟨hn, en, rn, bn, hsn, on⟩ := hc1.openSegment zc1 bc1 (fc1.trans hf') (i := q'.index + 1)
            (idx.trans lc1.symm) more m
          right
          refine ⟨hsn, hn, en, rn, nil ▸ bn, fun p hp _ => ?_⟩
          rw [on] at hp; rw [← Option.some.inj hp]
          exact before _ _ on (fun c => by
            exfalso
            have c' : q'.index + 1 = r.index := c
            omega)
        · left
          exact ⟨by rw [State.endRun_state]; rfl, hc1.endRun zc1 bc1⟩
      · next c => exact goesOn (fun st e => c ⟨st, e⟩)
    · next c =>
      obtain ⟨f, hf, -⟩ := hcv.segments.fits (hcv.opened hsv)
      rw [c] at hf; cases hf
    · next c => rw [ov] at c; cases c
  · refine .inr ⟨hs, h, entry, room, b, fun q hq _ => ?_⟩
    rw [o] at hq; rw [← Option.some.inj hq]; exact before s r o (fun _ => rfl)

/-- R64, R90, R86, R127: what is left once a sample whose arrival the run has outlived is taken. -/
theorem CaptureCore.takeArrived {s before : State} {r : SegmentRecord} {m : Nat} {a : List Advance}
    (h : CaptureCore (some m) s) (o : s.openRecord? = some r) (entry : s.cst.openEntry.isSome = true) (room : s.hasRingRoom)
    (b : LogBehind s a) (first : a = [] → firstBefore before s = r.firstSample) (word glitch last : Levels) :
    let t := s.takeArrived before m word glitch last a
    CaptureCore (some (m + 1)) t ∧ t.cst.openEntry.isSome = true ∧ t.hasRingRoom ∧ LogBehind t [] ∧
      t.run.state.hasSegment = true := by
  have hs := (State.openRecord_eq o).1
  have seg : ∀ q ∈ s.dec.sampleRecords (sampleContext s m word glitch last), q.segment = r.index := by
    intro q hq
    rw [Dec.sampleRecords_segment hq]
    simp [sampleContext, State.openIndex_of o]
  unfold State.takeArrived
  dsimp only
  generalize s.dec.sampleRecords (sampleContext s m word glitch last) = records at *
  generalize hi : ({ word := word, last := last, hits := _, observed := _ } : SequencerInputs) = i
  generalize hu : ((s.setDec (s.dec.afterSample (sampleContext s m word glitch last))).compareRecords records).sequence i = u
  have vu : u.captureView = s.captureView := by rw [← hu]; rfl
  have ou : u.openRecord? = some r := by rw [← hu]; exact o
  have hu1 := h.congr vu
  have bu := b.congr vu
  have ru := State.hasRingRoom_congr room vu
  have eu : u.cst.openEntry.isSome = true := by rw [← hu]; exact entry
  have su : u.run.state = s.run.state := by rw [← hu]; rfl
  have entered : ∀ k, k = u.compress m word glitch s.tsq.qualifier
        (triggerAt s.run.state (s.tsq.fires i) s.run.pendingRemote) →
      CaptureCore (some (m + 1)) k.1 ∧ k.1.cst.openEntry.isSome = true ∧ k.1.hasRingRoom ∧ LogBehind k.1 (a ++ k.2) ∧
        ∃ q, k.1.openRecord? = some q ∧ q.index = r.index ∧ (k.2 = [] → q.firstSample = r.firstSample) := by
    rintro k rfl
    unfold State.compress
    cases ht : triggerAt s.run.state (s.tsq.fires i) s.run.pendingRemote with
    | none =>
      obtain ⟨e1, e2, e3, e4, e5⟩ := hu1.enterSample ou eu (sampleData s.tsq.qualifier word glitch)
      exact ⟨e1, e2, e3 ru, by rw [List.append_nil]; exact e4 a bu, _, e5, rfl, fun _ => rfl⟩
    | some source =>
      have pre : u.run.state = .pretrig := by
        rw [su]; unfold triggerAt at ht; split at ht
        · assumption
        · cases ht
      obtain ⟨e1, e2, e3, e4, q, e5, e6, e7⟩ := hu1.takeTrigger ou pre word glitch source
      refine ⟨e1, e2, e3, ?_, q, e5, e6, e7⟩
      exact e4 a bu
  generalize u.compress m word glitch s.tsq.qualifier (triggerAt s.run.state (s.tsq.fires i) s.run.pendingRemote) = k at *
  obtain ⟨k1, k2, k3, k4, q, k5, k6, k7⟩ := entered k rfl
  have lk := (State.openRecord_eq k5).2
  have key := k1.logSample k4 lk (fun _ => k5) (rs := s.run.state) (first := firstBefore before s) (records := records)
    (fun p hp => (seg p hp).trans k6.symm) (fun e => by
      obtain ⟨ea, eb⟩ := List.append_eq_nil_iff.mp e
      rw [first ea, k7 eb])
  have v (x : State) (y : Pfe) : (x.setPfe y).captureView = x.captureView := rfl
  refine ⟨key.1.congr (v _ _), ?_, ?_, key.2.congr (v _ _), ?_⟩
  · rw [State.setPfe_cst, State.logSample_cst]; exact k2
  · refine State.hasRingRoom_congr ?_ (v _ _)
    intro st p hp
    rw [State.logSample_state] at st
    have e : ((k.1.logSample s.run.state (firstBefore before s) records (a ++ k.2)).run.table.map SegmentRecord.span) =
        k.1.run.table.map SegmentRecord.span := State.logSample_map (fun _ => rfl) ..
    have l := (State.openRecord_eq hp).2
    have : (k.1.run.table.map SegmentRecord.span).getLast? = some p.span := by rw [← e, List.getLast?_map, l]; rfl
    rw [List.getLast?_map, lk] at this
    have es : q.span = p.span := Option.some.inj this
    have := k3 st q k5
    have r1 : p.retained = q.retained := congrArg (fun x => x.2.2.2.1) es.symm
    have r2 : p.regionSize = q.regionSize := congrArg (fun x => x.1.2.2.1) es.symm
    omega
  · rw [State.setPfe_run, State.logSample_state]; exact (State.openRecord_eq k5).1

/-- Every sample keeps the laws of the capture store and the log. -/
theorem CaptureLaw.takeSample {s : State} (h : CaptureLaw s) : CaptureLaw s.takeSample := by
  obtain ⟨c, e, room, b⟩ := (captureLaw_iff s).mp h
  cases ht : s.tau.runTime with
  | none => unfold State.takeSample; rw [ht]; exact h
  | some t =>
    have vf : s.formWord.captureView = s.captureView := rfl
    rw [ht] at c
    have hf : CaptureCore (some t.nextSample) s.formWord := c.congr vf
    have bf := b.congr vf
    have rf := State.hasRingRoom_congr room vf
    have cases := State.takeSample_cases ht
    cases ho : s.formWord.openRecord? with
    | none =>
      have noSeg : s.formWord.run.state.hasSegment = false := by
        by_contra w
        have w' : s.formWord.run.state.hasSegment = true := by simpa using w
        have := hf.opened w'
        unfold State.openRecord? at ho
        rw [if_pos w', List.getLast?_eq_none_iff] at ho
        exact this ho
      have stay : (s.formWord.arrive t.nextSample s.pfe.currentLevels s.pfe.glitchSeen).1 = s.formWord := by
        have c0 : s.formWord.commitOpen = (s.formWord, []) := by unfold State.commitOpen; rw [ho]
        have c1 : s.formWord.enterPretrigIfFilled = s.formWord := by unfold State.enterPretrigIfFilled; rw [ho]
        have c2 : s.formWord.closeIfFilled t.nextSample = s.formWord := by unfold State.closeIfFilled; rw [ho]
        unfold State.arrive
        dsimp only
        split
        · rw [c0]; dsimp only; rw [c1, c2]
        · rfl
      have eq : s.takeSample = s.formWord := by
        unfold State.takeSample
        simp only [ht, stay]
        rw [if_neg (by rw [noSeg]; simp)]
      rw [eq, captureLaw_iff]
      refine ⟨⟨hf.setup, hf.segments, hf.waiting, hf.opened, hf.untriggered, fun r hr => ?_, hf.logged⟩, fun w => ?_, rf, bf⟩
      · rw [ho] at hr; cases hr
      · rw [noSeg] at w; cases w
    | some r =>
      have hs := (State.openRecord_eq ho).1
      have arr := hf.arrive ho (e hs) rf bf s.pfe.currentLevels s.pfe.glitchSeen
      have unfolded : s.takeSample =
          let a := s.formWord.arrive t.nextSample s.pfe.currentLevels s.pfe.glitchSeen
          if a.1.run.state.hasSegment then a.1.takeArrived s.formWord t.nextSample s.pfe.currentLevels s.pfe.glitchSeen
            (s.pfe.lastLevels.getD s.pfe.currentLevels) a.2 else a.1 := by
        unfold State.takeSample; rw [ht]
      generalize s.formWord.arrive t.nextSample s.pfe.currentLevels s.pfe.glitchSeen = a at *
      rcases arr with ⟨n1, n2⟩ | ⟨g1, g2, g3, g4, g5, g6⟩
      · rw [unfolded]; dsimp only; rw [if_neg (by rw [n1]; simp)]; exact n2
      · obtain ⟨q, oq⟩ : ∃ q, a.1.openRecord? = some q := by
          unfold State.openRecord?
          rw [if_pos g1]
          exact ⟨_, List.getLast?_eq_some_getLast (g2.opened g1)⟩
        have key := g2.takeArrived oq g3 g4 g5 (g6 q oq) s.pfe.currentLevels s.pfe.glitchSeen
          (s.pfe.lastLevels.getD s.pfe.currentLevels)
        dsimp only at unfolded
        rw [if_pos g1] at unfolded
        rw [← unfolded] at key
        obtain ⟨k1, k2, k3, k4, k5⟩ := key
        rw [captureLaw_iff]
        rcases cases with c | c
        · rw [c.1]; exact ⟨k1, fun _ => k2, k3, k4⟩
        · rw [c.2.1] at k5; cases k5

theorem CaptureLaw.takeDue (n : Nat) {s : State} (h : CaptureLaw s) : CaptureLaw (State.takeDue n s) := by
  induction n generalizing s with
  | zero => exact h
  | succ n ih =>
    unfold State.takeDue
    split
    · exact ih h.takeSample
    · exact h

theorem CaptureLaw.takeAllDue {s : State} (h : CaptureLaw s) : CaptureLaw s.takeAllDue := h.takeDue _

/-- The laws look at run time for the next sample index alone, and not at all outside a run. -/
theorem CaptureLaw.congr {s t : State} (h : CaptureLaw s) (e : t.captureView = s.captureView)
    (n : t.tau.runTime.map RunTime.nextSample = s.tau.runTime.map RunTime.nextSample) : CaptureLaw t := by
  rw [captureLaw_iff] at h ⊢
  obtain ⟨c, o, room, b⟩ := h
  have st : t.run.state = s.run.state := congrArg (fun x => x.2.2.2.1) e
  have en : t.cst.openEntry = s.cst.openEntry := congrArg (fun x => x.2.2.2.2.2.1) e
  exact ⟨by rw [n]; exact c.congr e, by rw [st, en]; exact o, State.hasRingRoom_congr room e, b.congr e⟩

/-- The close of the open segment and the run's end keep the laws. -/
theorem CaptureLaw.closeAndEnd {s : State} {r : SegmentRecord} (h : CaptureLaw s) (o : s.openRecord? = some r)
    (c : CloseReason) : CaptureLaw (s.closeAndEnd c) := by
  obtain ⟨core, -, room, b⟩ := (captureLaw_iff s).mp h
  exact core.closeAndEnd o (core.fullUntriggered room o) b c

/-- A change of the open record that leaves its span alone keeps the laws. -/
theorem CaptureLaw.updateOpen {s : State} (h : CaptureLaw s) {f : SegmentRecord → SegmentRecord}
    (e : ∀ r, (f r).span = r.span) : CaptureLaw (s.updateOpen f) :=
  h.congr (State.updateOpen_view s e) (by rw [State.updateOpen_eq])

/-- In a run there is an open record. -/
theorem CaptureLaw.openRecord {s : State} (h : CaptureLaw s) (hs : s.run.state.hasSegment = true) :
    ∃ r, s.openRecord? = some r :=
  ⟨_, State.openRecord_of hs (List.getLast?_eq_some_getLast (h.table.opened hs).1)⟩

/-- Every mark-edge step keeps the laws. -/
theorem CaptureLaw.markEdgeStep {s : State} (h : CaptureLaw s) : CaptureLaw s.markEdgeStep := by
  unfold State.markEdgeStep
  split
  · exact h
  · next r hr =>
    have hj : CaptureLaw (s.setTau { s.tau with runTime := some r.atMarkEdge }) := h.congr rfl (by rw [hr]; rfl)
    have hk : CaptureLaw ((s.setTau { s.tau with runTime := some r.atMarkEdge }).takeAllDue.reportCorrection r.correction) :=
      hj.takeAllDue.updateOpen (fun _ => rfl)
    have key : ∀ k : State, CaptureLaw k → CaptureLaw
        (if r.marks + 1 = Config.timeLimitMarks ∧ k.run.state.hasSegment = true then k.closeAndEnd .timeLimit else k) := by
      intro k hk
      split
      · next c =>
        obtain ⟨q, oq⟩ := hk.openRecord c.2
        exact hk.closeAndEnd oq _
      · exact hk
    exact key _ hk

end Sys2Proof.Machine
end

