-- ==== Sys2Proof/Laws/Stores.lean ====
section
/-! SUPPORT. Sys2Proof/Laws/Stores.lean: every operation that writes a sparse store keeps its canonical form. -/

namespace Sys2Proof.Machine

theorem Memory.foldl_wf {α β : Type} {f : Mem α → β → Mem α} (hf : ∀ m b, Memory.wf m = true → Memory.wf (f m b) = true)
    {m : Mem α} (h : Memory.wf m = true) (l : List β) : Memory.wf (l.foldl f m) = true := by
  induction l generalizing m with
  | nil => exact h
  | cons b rest ih => exact ih (hf m b h)

/-! ### The frame store -/

section
variable {m : Mem (BitVec 2)} (f : FrameCapture) (vertical : Bool)

theorem writePixel_wf (h : Memory.wf m = true) (column y : Nat) (v : BitVec 2) :
    Memory.wf (writePixel f vertical m column y v) = true := by
  unfold writePixel
  split
  · exact Memory.write_wf h _ _
  · exact h

theorem writeColumn_wf (h : Memory.wf m = true) (column : Nat) (pixel : Nat → BitVec 2) :
    Memory.wf (writeColumn f vertical column pixel m) = true :=
  Memory.foldl_wf (fun _ _ hm => writePixel_wf f vertical hm ..) h _

theorem writeText_wf (h : Memory.wf m = true) (l : PlacedLane) (b : BoxRun) (width : Nat) :
    Memory.wf (writeText f vertical l b width m) = true := by
  unfold writeText
  dsimp only
  split
  · exact Memory.foldl_wf (fun _ _ hm => writePixel_wf f vertical hm ..) h _
  · exact h

theorem writeEnded_wf (h : Memory.wf m = true) (column : Nat) (l : List (PlacedLane × Option BoxRun × LaneColumn)) :
    Memory.wf (writeEnded f vertical column m l) = true := by
  induction l generalizing m with
  | nil => exact h
  | cons e rest ih =>
    obtain ⟨lane, run, shown⟩ := e
    unfold writeEnded
    split
    · exact ih (writeText_wf f vertical h ..)
    · exact ih h

theorem finishRuns_wf (h : Memory.wf m = true) (l : List (PlacedLane × Option BoxRun)) :
    Memory.wf (finishRuns f vertical m l) = true := by
  induction l generalizing m with
  | nil => exact h
  | cons e rest ih =>
    obtain ⟨lane, run⟩ := e
    cases run with
    | none => exact ih h
    | some b => exact ih (writeText_wf f vertical h ..)

end

/-! ### The capture store and the checkpoint table -/

theorem checkpointCommit_wf {m : Mem Checkpoint} (h : Memory.wf m = true) (position segment start : Nat) :
    Memory.wf (checkpointCommit m position segment start) = true := by
  unfold checkpointCommit
  split
  · exact Memory.write_wf h _ _
  · exact h

theorem State.commitEntry_canonical {s : State} (h : StoresCanonical s) (r : SegmentRecord) (start : Nat) (e : Entry) :
    StoresCanonical (s.commitEntry r start e).1 := by
  unfold State.commitEntry
  dsimp only
  split <;> exact ⟨Memory.write_wf h.1 _ _, checkpointCommit_wf h.2 .., h.3⟩

theorem State.commitOpen_canonical {s : State} (h : StoresCanonical s) : StoresCanonical s.commitOpen.1 := by
  unfold State.commitOpen
  split
  · split
    · exact State.commitEntry_canonical h ..
    · exact h
  · exact h
  · exact h

theorem State.preTriggerCut_canonical {s : State} (h : StoresCanonical s) : StoresCanonical s.preTriggerCut.1 := by
  unfold State.preTriggerCut
  split
  · split
    · exact ⟨h.1, Memory.eraseAll_wf h.2 _, h.3⟩
    · split <;> exact ⟨h.1, h.2, h.3⟩
  · exact h
  · exact h

theorem samplingKeeps_storesCanonical : SamplingKeeps StoresCanonical where
  elsewhere h _ e1 e2 e3 _ := ⟨e1 ▸ h.1, e2 ▸ h.2, e3 ▸ h.3⟩
  postStatus {s} h := by rw [State.postStatus_eq]; exact ⟨h.1, h.2, h.3⟩
  postNotice i t h := by rw [State.postNotice_eq]; exact ⟨h.1, h.2, h.3⟩
  commitOpen h := State.commitOpen_canonical h
  preTriggerCut h := State.preTriggerCut_canonical h
  logSample {s} rs first l a h := by
    have r : (s.logSample rs first l a).ren = s.ren := congrArg Still.ren (State.logSample_still ..)
    exact ⟨by rw [State.logSample_cst]; exact h.1, by rw [State.logSample_cst]; exact h.2, by rw [r]; exact h.3⟩

end Sys2Proof.Machine
end

