-- ==== Sys2Proof/Tests/Slice0.lean ====
section
/-! SUPPORT. Sys2Proof/Tests/Slice0.lean: ill-formed commands that the check refuses, small tests of each command against
the manual's rules and worked cases, and for every statement with hypotheses a state that meets them. -/

namespace Sys2Proof.Tests
open Sys2Proof Sys2Proof.Machine

/-! ### States to test on -/

/-- A command gives a next state that satisfies a check. -/
def gives (i : Instr) (s : State) (check : State → Bool) : Bool :=
  match exec i s with
  | .next t => check t
  | .fault _ => false
  | .refused _ => false

/-- A station strapped 0 that has joined the stack, every channel enabled, its panel awake, a frame of another station on
the message line. -/
def live : State :=
  { State.reset with
    sul := { State.reset.sul with imageState := .good, joined := true }
    lnk := { State.reset.lnk with driversEnabled := true, receiver := .receiving, framePosition := some 0 }
    port := { State.reset.port with state := .ready, wakePending := false }
    pfe := { State.reset.pfe with
      enabled := 0xFFFF, groupA := loadGroup defaultGroup 160, groupB := loadGroup defaultGroup 160 } }

/-- A station with some timebase state. -/
def timed (t : Tau) : State := { live with tau := t }

/-- A station with some link state. -/
def linked (l : Lnk) : State := { live with lnk := l }

def queued (m : Message) : QueueEntry := QueueEntry.new m
def onLine (m : Message) : QueueEntry := { QueueEntry.new m with underTransmission := true }

/-- The NOTICE of section 12.4. -/
def theNotice : Message := .notice 0 5000000
def theStatus : Message := .status live.statusContents
def theDone : Done := { collection := 1, sent := 2, reason := .cut }

/-- A station sending a message, which is the only one it holds. -/
def sending (m : Message) (strap : Station) : State :=
  { live with
    sul := { live.sul with strap := strap }
    lnk := { live.lnk with transmitter := .sending, queue := [onLine m], frameOnLine := some (m.frame strap) } }

/-- A station whose transmit queue holds some messages. -/
def holding (ms : List Message) : State := linked { live.lnk with queue := ms.map queued }

/-- A program that never acts. -/
def quiet : Program := #v[restingLevel 0, restingLevel 1, restingLevel 2, restingLevel 3, restingLevel 4, restingLevel 5,
  restingLevel 6, restingLevel 7]

/-- The figures of a run of one segment with D = 10 and q = 8. -/
def figures : RunFigures := { divider := 10, segments := 1, regionSize := 262144, depth := 131072 }

/-- Segment 0 as it opens in such a run, the station LOCKED. -/
def record : SegmentRecord := newRecord figures 0 0 false

/-- Run time at the instant of a sample, at D = 10 and K = 65,536. -/
def timeOf (sample : Nat) : RunTime :=
  { marks := 0, ticks := 10 * sample, base := 0, previousOffset := 0, nextSample := sample }

/-- A run in progress: its state, its open record, its open entry and its next sample, which is due. -/
def running (rs : RunState) (r : SegmentRecord) (o : Option OpenEntry) (program : Program) : State :=
  { live with
    run := { live.run with state := rs, figures := some figures, table := [r] }
    cst := { live.cst with openEntry := o }
    tsq := { Tsq.start program with running := rs.sequencing }
    tau := { live.tau with runTime := some (timeOf r.nextSample) }
    pfe := { live.pfe with lastLevels := some 0 } }

/-- A record with some samples of it taken and some entries committed. -/
def taken (samples entries : Nat) : SegmentRecord := { record with nextSample := samples, retained := entries }

/-- An entry of unchanging levels. -/
def steady (levels : Levels) (count : Nat) : Entry := { data := .levels levels 0, count := count }

/-- The record of the UART character of section 6.8. -/
def character : DecodeRecord :=
  { segment := 0, decoder := 0, kind := .uartChar, value := 0x35, value2 := none, bitCount := 8, startTime := 100000,
    endTime := 108500, flags := RecordFlags.none }

/-- The log of section 10.7. -/
def readout : List LogRecord := [100, 101, 103, 104].map (fun n => { sequence := n, content := character })

/-- A DECODE stream. -/
def stream (key remaining sent : Nat) : Stream :=
  { collection := .decode, segment := 0, nextKey := some key, remaining := remaining, sent := sent, waiting := false,
    formed := false }

/-- A station that answers a READ from that log. -/
def reading (x : Stream) (queue : List Message) : State :=
  { live with
    log := { live.log with records := readout, counter := 105 }
    lnk := { live.lnk with stream := some x, queue := queue.map queued } }

/-! ### Ill-formed commands -/

/-- A frame without a fault is no RECEIVE_FAULT. -/
theorem test_illformed_fault_without_fault :
    (Instr.receiveFault (theNotice.frame 2).toRaw).wellFormed = false := by decide
/-- A length above 28 leaves the payload unread. -/
theorem test_illformed_fault_payload : (Instr.receiveFault
    { kind := 3, source := 2, length := 29, payload := [0], check := 0, end1 := true, end2 := true }).wellFormed = false := by
  decide
theorem test_illformed_reply_length : (Instr.replyFrameReceived .done 1 [0, 0]).wellFormed = false := by decide
theorem test_illformed_unaddressed_length : (Instr.unaddressedFrameReceived .query 1 []).wellFormed = false := by decide

/-- An image that spells one lane where its lane count says two. -/
def laneless : RawImage :=
  { options := defaultOptions, probe := defaultProbe, panel := defaultPanel, setup := defaultSetup
    profiles := Quad.replicate (some { bareProfile with
      lanes := some { count := 2, lanes := [{ source := none, height := 0, colour := 0 }] } }) }
theorem test_illformed_image_lanes : (Instr.imageAttempt [] laneless).wellFormed = false := by decide

/-! ### The commands, against the rules and worked cases of the manual -/

/-- A station in its trial, two or three windows in range so far. -/
def inTrial (run : Nat) : State := timed { live.tau with monitorRunning := true, windowCount := 3, inRangeRun := run }

/-- R3: the fourth window in range, at the highest count in range (R2), switches to the reference. -/
theorem test_windowEnd_trial_switches :
    gives (.windowEnd 1342) (inTrial 3) (fun t => t.tau.clockState == .refActive && t.tau.monitorRunning) = true := by decide
/-- R4, R5: in REF_ACTIVE the first window out of range falls back and unlocks. -/
theorem test_windowEnd_falls_back :
    gives (.windowEnd 1279) (timed { (inTrial 4).tau with clockState := .refActive, locked := true, rateFactor := 66198 })
      (fun t => t.tau.clockState == .refLost && !t.tau.monitorRunning && !t.tau.locked && t.tau.rateFactor == 65536) = true := by
  decide

/-- R6, R7: an expiry with a start pending drives a start mark. -/
theorem test_emissionTimerExpiry_start_mark :
    gives .emissionTimerExpiry (timed { live.tau with emissionTimer := 1048576, startPending := true })
      (fun t => t.tau.markDrive == some 32 && !t.tau.startPending && t.tau.emissionTimer == 0) = true := by decide
/-- R6: one tick earlier nothing is driven. -/
theorem test_emissionTimerExpiry_early :
    gives .emissionTimerExpiry (timed { live.tau with emissionTimer := 1048575 }) (fun t => t.tau.markDrive == none) = true := by
  decide
theorem test_markPulseEnd_releases :
    gives .markPulseEnd (timed { live.tau with markDrive := some 0 }) (fun t => t.tau.markDrive == none) = true := by decide

/-- The history of section 1.6. -/
def slowHistory : List Nat := [1038090, 1038092, 1038089, 1038093]
theorem test_rate_factor_worked : rateFactorOf slowHistory = 66198 := by decide

/-- The slow station of section 1.6 at the mark edge that ends its first interval. -/
def slowStation : State :=
  let tau : Tau := { live.tau with
    history := slowHistory, locked := true, rateFactor := 66198, interval := .measured, emissionTimer := 1038091
    runTime := some { marks := 0, ticks := 1038091, base := 0, previousOffset := 1048575, nextSample := 349526 } }
  { running .pretrig { record with nextSample := 349526 } none quiet with
    tau := tau
    run := { live.run with
      state := .pretrig, figures := some { figures with divider := 3 }, table := [{ record with nextSample := 349526 }] } }

/-- Section 1.6: the history, K, the correction of 1, and no sample taken. -/
theorem test_leadingEdge_worked :
    gives .leadingEdge slowStation (fun t =>
      t.tau.history == [1038092, 1038089, 1038093, 1038091] && t.tau.rateFactor == 66198
        && t.run.table.map SegmentRecord.maxCorrection == [1]
        && t.tau.runTime.map RunTime.marks == some 1 && t.tau.runTime.map RunTime.nextSample == some 349526) = true := by decide
/-- R7: the stretch of a leading edge of another station. -/
theorem test_leadingEdge_stretches :
    gives .leadingEdge (timed { live.tau with startPending := true }) (fun t => t.tau.markDrive == some 32) = true := by decide

/-- A station in WAIT_START whose candidate pulse has lasted some ticks. -/
def waiting (width : Nat) : State :=
  { live with
    run := { live.run with state := .waitStart, figures := some figures }
    tsq := Tsq.start quiet
    tau := { live.tau with markLine := true, pulseWidth := width, candidate := true, startPending := true } }

/-- R9, R15: at the smallest width of a start mark the run starts, and with D = 10 the instants 0, 10 and 20 are taken. -/
theorem test_trailingEdge_starts_the_run :
    gives .trailingEdge (waiting 24) (fun t =>
      t.run.state == .pretrig && t.tau.runTime.map RunTime.nextSample == some 3 && !t.tau.startPending) = true := by decide
/-- R9: a width of 23 is a normal mark, and the station stays in WAIT_START. -/
theorem test_trailingEdge_normal_mark :
    gives .trailingEdge (waiting 23) (fun t => t.run.state == .waitStart && !t.tau.candidate && t.tau.startPending) = true := by
  decide

/-- R10, R16, section 1.6: a stuck pulse 64 ticks after its leading edge, at K = 65,536: b = 64 and d = 0. -/
theorem test_markStuck_rebases :
    gives .markStuck (timed { live.tau with
      markLine := true, pulseWidth := 64
      runTime := some { marks := 1, ticks := 64, base := 0, previousOffset := 63, nextSample := 349526 } }) (fun t =>
        t.tau.markStuck && t.tau.runTime.map RunTime.base == some 64 && t.tau.runTime.map RunTime.ticks == some 0) = true := by
  decide
theorem test_markStuck_not_at_63 :
    gives .markStuck (timed { live.tau with markLine := true, pulseWidth := 63 }) (fun t => !t.tau.markStuck) = true := by decide

/-- R11: a station strapped 7 synthesizes after 2^20 + 2^16 ticks. -/
def receiveOnly (count : Nat) : State :=
  { live with
    sul := { live.sul with strap := 7 }
    tau := { live.tau with history := slowHistory, locked := true, rateFactor := 66198, synthesisCount := count } }
theorem test_synthesizedMark_unlocks :
    gives .synthesizedMark (receiveOnly 1114112) (fun t => !t.tau.locked && t.tau.synthesisCount == 0) = true := by decide
theorem test_synthesizedMark_early :
    gives .synthesizedMark (receiveOnly 1114111) (fun t => t.tau.locked) = true := by decide

/-- Section 2.7: group A with code 160, trim -3 and 100 mV of hysteresis; CH2 settled to 0. -/
def hysteresisCase (raw : Levels) : State :=
  let g : RawGroup := { trim := -3, hysteresis := some .mV100, glitchDetection := false }
  { live with pfe := { live.pfe with groupA := loadGroup g 160, raw := raw } }
/-- 1,420 mV lies inside the band; 1,450 mV above it. -/
theorem test_levelChange_rises :
    (gives (.levelChange 2 (.driven 1420000)) (hysteresisCase 0) (fun t => t.pfe.raw == 0) &&
      gives (.levelChange 2 (.driven 1450000)) (hysteresisCase 0) (fun t => t.pfe.raw == 4)) = true := by decide
/-- 1,344 mV is the lower edge, inside the band; 1,340 mV lies below it. -/
theorem test_levelChange_falls :
    (gives (.levelChange 2 (.driven 1344000)) (hysteresisCase 4) (fun t => t.pfe.raw == 4) &&
      gives (.levelChange 2 (.driven 1340000)) (hysteresisCase 4) (fun t => t.pfe.raw == 0)) = true := by decide

/-- Section 4.7, sample 3: the levels differ from the open entry's. -/
def compressorCase : State :=
  let s := running .pretrig (taken 3 0) (some { start := 0, holding := some (steady 0 3) }) quiet
  { s with pfe := { s.pfe with raw := 1 } }
theorem test_sample_commits :
    gives .sample compressorCase (fun t =>
      Memory.read t.cst.store 0 == some (steady 0 3) && t.cst.openEntry == some { start := 3, holding := some (steady 1 1) }
        && t.cst.checkpoints == [(0, { segment := 0, start := 0 })]
        && t.run.table.map SegmentRecord.nextSample == [4]) = true := by decide
/-- Section 4.7, sample 9: the trigger under the qualifier off, with five entries retained. -/
def triggerCase : State :=
  let o : OpenEntry := { start := 7, holding := some { data := .gap, count := 2 } }
  let s := running .pretrig (taken 9 4) (some o) defaultProgram
  { s with pfe := { s.pfe with raw := 3 }, tsq := { s.tsq with qualifier := false } }
theorem test_sample_triggers :
    gives .sample triggerCase (fun t =>
      t.run.table.map SegmentRecord.triggerPosition == [some 5] && t.run.table.map SegmentRecord.shortPre == [true]
        && t.run.table.map SegmentRecord.reference == [some 90] && t.run.state == .posttrig
        && t.cst.openEntry == some { start := 9, holding := some (steady 3 1) }
        && t.lnk.queue.map (fun e => e.message.kind) == [3, 9].reverse) = true := by decide

theorem test_driverPresent :
    gives .driverPresent (linked { live.lnk with settledDrives := 5 }) (fun t => t.lnk.presented == 5) = true := by decide
theorem test_flagLineChange :
    gives (.flagLineChange 2 false) (linked { live.lnk with observed := 0xF }) (fun t => t.lnk.observed == 0xB) = true := by
  decide

/-- A run in PRETRIG with an entry open. -/
def inRun : State := running .pretrig (taken 3 0) (some { start := 0, holding := some (steady 0 3) }) quiet

/-- R55, R169, section 11.6: the open segment closes RESET and RECOVERED, and the cause is LINK. -/
theorem test_restart_recovers :
    gives (.restart 7 7 4) inRun (fun t =>
      t.run.table.map SegmentRecord.closeReason == [some .reset] && t.run.table.map SegmentRecord.recovered == [true]
        && t.sul.resetCause == .link && t.sul.strap == 4 && !t.sul.joined) = true := by decide
/-- R168: a RESTART for another station is not taken. -/
theorem test_restart_other_station : gives (.restart 7 4 0) inRun (fun t => t.run.state == .pretrig) = true := by decide
/-- R53, R51: the close commits the open entry. -/
theorem test_stop_closes :
    gives (.stop 7) inRun (fun t =>
      t.run.state == .idle && t.run.table.map SegmentRecord.closeReason == [some .stopped]
        && Memory.read t.cst.store 0 == some (steady 0 3) && t.cst.openEntry == none) = true := by decide

/-- R38: an ARM of P1 after a start without an image is refused. -/
theorem test_arm_absent_profile :
    gives (.arm 7 1) live (fun t => t.run.state == .idle && t.lnk.lastRefusal == some (.arm, .noProfile)) = true := by decide
/-- R37 and section 3.9: n = 3 and q = 4. -/
theorem test_arm_figures :
    gives (.arm 7 0) { live with run := { live.run with setup := { defaultSetup with segments := 3, fraction := 4 } } }
      (fun t => t.run.figures == some { divider := 10, segments := 3, regionSize := 87381, depth := 21845 }
        && t.run.state == .waitStart && t.tau.startPending) = true := by decide

/-- Section 3.9: station 4's NOTICE after station 2's own trigger. -/
theorem test_notice_minimum :
    gives (.notice 4 0 4999980) (running .posttrig { record with reference := some 5000000 } none quiet)
      (fun t => t.run.table.map SegmentRecord.reference == [some 4999980] && !t.run.pendingRemote) = true := by decide
/-- Section 3.10: a NOTICE in PRETRIG leaves a remote fire pending. -/
theorem test_notice_fires : gives (.notice 2 0 5000000) inRun (fun t => t.run.pendingRemote) = true := by decide

/-- R36, section 12.1: the clamps, and the option bits. -/
theorem test_setup_clamps :
    gives (.setup 7 1 33 0x1F 159 160) live (fun t =>
      t.run.setup == { divider := 2, segments := 32, fraction := 15, prefillWait := true, followNotice := false,
                       codeA := 159, codeB := 160 }) = true := by decide
/-- Section 2.7: at code 159 the threshold is 1,354 mV, and CH2 at 1,400 mV settles to 1. -/
theorem test_setup_settles :
    gives (.setup 7 10 1 0 159 160)
      { hysteresisCase 0 with
        pfe := { (hysteresisCase 0).pfe with inputs := (Vector.replicate 16 (.driven 0)).set 2 (.driven 1400000) } }
      (fun t => t.pfe.raw == 4) = true := by decide

/-- Section 8.10: VIEW (0, -3,200, k = 4, follow no). -/
theorem test_view_negative_offset :
    gives (.view 7 0 (BitVec.ofInt 48 (-3200)) 4 0) live (fun t =>
      t.ren.view == { segment := 0, offset := -3200, scale := 4, follow := false }) = true := by decide
/-- Section 9.5: PANEL (target 7, PARTIAL, first 130, last 100, inversion off). -/
theorem test_panel_rows :
    gives (.panel 7 7 1 130 100 0) live (fun t =>
      t.port.live == { mode := .partialRows, firstRow := 100, lastRow := 119, inversion := false }) = true := by decide
/-- R153: a mode that names none is left as it was. -/
theorem test_panel_unknown_mode :
    gives (.panel 7 0 4 0 9 1) live (fun t =>
      t.port.live == { mode := .normal, firstRow := 0, lastRow := 9, inversion := true }) = true := by decide
theorem test_query_posts :
    gives (.query 7 0) live (fun t => t.lnk.queue.map (fun e => e.message.kind) == [9]) = true := by decide

/-- Section 10.7: READ (target 3, DECODE, key 101, count 3) makes an active stream. -/
theorem test_read_stream :
    gives (.read 7 7 1 101 3) live (fun t => t.lnk.stream == some (stream 101 3 0)) = true := by decide
/-- Section 10.7: a second READ after the second formation cuts the first with DONE (2, CUT), and waits. -/
theorem test_read_cuts :
    gives (.read 7 0 0 0 1) (reading (stream 104 1 2) []) (fun t =>
      t.lnk.queue.map QueueEntry.message == [.done theDone] && t.lnk.stream.map Stream.waiting == some true) = true := by decide

theorem test_reply_not_taken :
    gives (.replyFrameReceived .done 3 [1, 3, 0]) live (fun t => t.lnk.idleCount == 3 && t.lnk.lastBusError == none) = true := by
  decide
theorem test_unaddressed_not_taken :
    gives (.unaddressedFrameReceived .query 7 [3]) live (fun t => t.lnk.queue == []) = true := by decide
/-- R167: a length of 29 leaves the receiver skipping. -/
theorem test_receiveFault_length :
    gives (.receiveFault { kind := 3, source := 2, length := 29, payload := [], check := 0, end1 := true, end2 := true })
      live (fun t => t.lnk.receiver == .skipping && t.lnk.lastBusError == some .length) = true := by decide
/-- Section 12.4 with a check byte of 0x08 for 0x07. -/
theorem test_receiveFault_check :
    gives (.receiveFault { (theNotice.frame 2).toRaw with check := 0x08 }) live (fun t => t.lnk.lastBusError == some .check)
      = true := by decide
theorem test_lineIdle_ends_skipping :
    (gives .lineIdle (linked { live.lnk with receiver := .skipping, idleCount := 9 }) (fun t => t.lnk.receiver == .waiting) &&
      gives .lineIdle (linked { live.lnk with receiver := .skipping, idleCount := 8 })
        (fun t => t.lnk.receiver == .skipping)) = true := by decide
/-- R163: at the reading tick a dominant bit sets the idle count to 0 and a recessive one raises it; a transition from
recessive to dominant is the first tick of a bit period. -/
theorem test_tick_reads_the_line :
    let l (recessive : Bool) : Lnk :=
      { live.lnk with
        receiver := .skipping, framePosition := none, bitClock := 124, idleCount := 5, lineRecessive := recessive }
    ((l false).tick 0 false).idleCount = 0 ∧ ((l false).tick 0 true).idleCount = 6 ∧
      ((l true).tick 0 false).bitClock = 0 ∧ ((l true).tick 0 false).idleCount = 5 := by decide

/-- R162, R163: where the bit period ends, a sender of a NOTICE (kind 0011) puts its second bit on the line, dominant
whatever the others send, or its fourth, recessive where no other sends dominant. -/
theorem test_tick_puts_the_next_bit :
    let l (n : Nat) : Lnk := { (sending theNotice 2).lnk with bitClock := 249, framePosition := some n }
    (∀ level : Bool, ((l 2).tick 0 level).framePosition = some 3 ∧ ((l 2).tick 0 level).lineRecessive = level ∧
      ((l 0).tick 0 level).lineRecessive = false ∧ ((l 0).tick 0 level).framePosition = some 1) ∧
      State.putsBit { sending theNotice 2 with lnk := (l 2).tick 0 false } = true ∧
      State.putsBit { sending theNotice 2 with lnk := (l 0).tick 0 true } = false := by decide
/-- R163: another station's edge in a bit a sender sends recessive restarts the sender's bit period, before the bit is read in
the same place and after it in the next; the start bit sets the idle count to 0 where it is read. -/
theorem test_tick_resynchronises_a_sender :
    let l (n clock : Nat) : Lnk :=
      { (sending theNotice 2).lnk with bitClock := clock, framePosition := some n, idleCount := 9, lineRecessive := true }
    (((l 3 50).tick 0 false).bitClock = 0 ∧ ((l 3 50).tick 0 false).framePosition = some 3) ∧
      (((l 3 200).tick 0 false).bitClock = 0 ∧ ((l 3 200).tick 0 false).framePosition = some 4) ∧
      ({ l 0 123 with lineRecessive := false }.tick 0 true).idleCount = 9 ∧
      ({ l 0 124 with lineRecessive := false }.tick 0 true).idleCount = 0 := by decide

/-- R170: STATUS (9) is sent before the DATA posted ahead of it (10). -/
theorem test_frameBegin_lowest_kind :
    gives .frameBegin (linked { live.lnk with
      receiver := .waiting, framePosition := none, idleCount := 9, queue := [queued (.data (.entry 0 0 (steady 0 1))), queued theStatus] }) (fun t =>
        t.lnk.frameOnLine.map Frame.kind == some 9 && t.lnk.queue.map QueueEntry.underTransmission == [false, true]) = true := by
  decide
/-- R163, R164, R167: a station without a message receives the frame whose start bit it observes. -/
theorem test_frameBegin_observed :
    gives .frameBegin (linked { live.lnk with
      receiver := .waiting, framePosition := none, idleCount := 9, bitClock := 77 }) (fun t =>
      t.lnk.receiver == .receiving && t.lnk.framePosition == some 0 && t.lnk.idleCount == 9 && t.lnk.bitClock == 0 && t.lnk.transmitter == .idle) = true := by
  decide
/-- Section 10.6: station 5 loses at source bit 2, the sixth bit of its frame. -/
theorem test_arbitrationLost_worked :
    gives (.arbitrationLost 5) (sending (.notice 0 5021660) 5) (fun t =>
      t.lnk.transmitter == .idle && t.lnk.queue == [queued (.notice 0 5021660)] && !t.lnk.lineRecessive
        && t.lnk.idleCount == 0 && t.lnk.framePosition == some 5) = true := by decide
/-- Section 10.6: station 2 sends a dominant source bit 2, which it cannot lose. -/
theorem test_arbitrationLost_not_at_dominant :
    gives (.arbitrationLost 5) (sending theNotice 2) (fun t => t.lnk.transmitter == .sending) = true := by decide
/-- R163, R165: source bit 2 of station 2 read recessive, after the recessive bits 3 and 4. -/
theorem test_bitError_records :
    gives (.bitError 5) (sending theNotice 2) (fun t =>
      t.lnk.transmitter == .idle && t.lnk.lastBusError == some .bit && t.lnk.idleCount == 3) = true := by decide
/-- R166: a NOTICE's length 7 sends its first recessive bit at bit 10. -/
theorem test_duplicateId_drops_the_notice :
    gives (.duplicateId 10) { sending theNotice 2 with run := { live.run with table := [record] } } (fun t =>
      t.lnk.transmitter == .silent && t.lnk.queue == [] && t.run.table.map SegmentRecord.noticeDropped == [true]) = true := by
  decide

/-- R171: a STATUS marked for resending stays. -/
theorem test_transmissionComplete_resends :
    gives .transmissionComplete
      (linked { live.lnk with
        transmitter := .sending, queue := [{ onLine theStatus with resend := true }, queued theNotice] })
      (fun t => t.lnk.queue == [queued theNotice, queued theStatus]) = true := by decide
/-- R173, R175: the stream waits for the DONE of the cut stream, and then becomes active. -/
theorem test_transmissionComplete_activates :
    gives .transmissionComplete
      (linked { live.lnk with
        transmitter := .sending, queue := [onLine (.done theDone)], stream := some { stream 0 1 0 with waiting := true } })
      (fun t => t.lnk.stream.map Stream.waiting == some false) = true := by decide
theorem test_statusOwedJoin_needs_room :
    gives .statusOwedJoin (linked { live.lnk with statusOwed := true, queue := List.replicate 8 (queued theNotice) })
      (fun t => t.lnk.statusOwed) = true := by decide
theorem test_heldDoneJoin_behind_owed_status :
    gives .heldDoneJoin
      (linked { live.lnk with statusOwed := true, heldDones := [theDone], queue := List.replicate 7 (queued theNotice) })
      (fun t => t.lnk.heldDones == [theDone]) = true := by decide

/-- Section 10.7: after record 101 the stream finds record 103. -/
theorem test_dataFormation_skips :
    gives .dataFormation (reading (stream 102 2 1) []) (fun t => t.lnk.stream == some { stream 104 1 2 with formed := true }) = true := by decide
/-- Section 10.7: record 104 is the last, and the DONE (3, COMPLETE) follows it. -/
theorem test_dataFormation_completes :
    gives .dataFormation (reading (stream 104 1 2) [theStatus]) (fun t =>
      t.lnk.stream == none && t.lnk.queue.map (fun e => e.message.kind) == [9, 10, 11]
        && (t.lnk.queue.getLast?.map QueueEntry.message == some (.done { collection := 1, sent := 3, reason := .complete })))
      = true := by decide

/-- Section 8.10, frame start A. -/
def followCase : State :=
  { running .pretrig (taken 1000000 0) none quiet with
    ren := { live.ren with frameTimer := 25000000, view := { segment := 0, offset := 0, scale := 4, follow := true } } }
theorem test_frameStart_follows :
    gives .frameStart followCase (fun t =>
      t.ren.view.offset == 9993600 && t.ren.capture.map FrameCapture.leftEdge == some 9993600
        && t.ren.frameState == .rendering) = true := by decide

/-- The view of section 8.8, one row of it rendered. -/
def panelCase (row : Nat) : FrameCapture :=
  { view := { segment := 0, offset := -105, scale := 4, follow := false }
    lanes := [{ top := 14, lane := { source := .channel 2, height := 7, colour := 1 } }]
    origin := 4999980, reference := some 4999980, leftEdge := 4999875
    panel := { mode := .partialRows, firstRow := row, lastRow := row, inversion := false }, wake := false }

/-- The entries of section 8.8 around the trigger. -/
def drawn (column row : Nat) : State :=
  let glitch : Entry := { data := .levels 0 4, count := 1 }
  let s := running .posttrig
    { record with firstSample := 499990, nextSample := 500021, retained := 4, reference := some 4999980 }
    (some { start := 500005, holding := some (steady 4 16) }) quiet
  { s with
    cst := { s.cst with store := [(0, steady 0 6), (1, steady 4 4), (2, steady 4 4), (3, glitch)] }
    ren := { s.ren with frameState := .rendering, column := column, capture := some (panelCase row), boxRuns := [none] } }
/-- Section 8.8: column 8 carries a glitch tick on row 14 in colour 3. -/
theorem test_columnRender_glitch_tick :
    gives .columnRender (drawn 8 14) (fun t => t.ren.frameStore == [(14 * 320 + 8, 3)] && t.ren.column == 9) = true := by decide
/-- Section 8.8: column 4 is a transition bar, colour 1 on row 17; columns 6 and 7 a high line on row 15 alone. -/
theorem test_columnRender_bar :
    (gives .columnRender (drawn 4 17) (fun t => t.ren.frameStore == [(17 * 320 + 4, 1)]) &&
      gives .columnRender (drawn 6 17) (fun t => t.ren.frameStore == [(17 * 320 + 6, 0)])) = true := by decide

/-- A frame whose columns are rendered. -/
def rendered (state : FrameState) (wake : Bool) : State :=
  { live with
    ren := { live.ren with
      frameState := state, column := 320, capture := some { panelCase 14 with wake := wake }, boxRuns := [none] } }
theorem test_renderComplete_window :
    gives .renderComplete (rendered .rendering false) (fun t =>
      t.port.sending.head? == some (.setWindow 0 319 14 14) && t.ren.frameState == .transferring) = true := by decide
/-- R157, R159: a wake frame sends PANEL_WAKE first and the whole panel. -/
theorem test_renderComplete_wake :
    gives .renderComplete (rendered .rendering true) (fun t =>
      t.port.sending.take 2 == [.panelWake, .setWindow 0 319 0 119]) = true := by decide
theorem test_transferComplete_clears_wake :
    gives .transferComplete
      { rendered .transferring true with port := { live.port with state := .frame, wakePending := true } }
      (fun t => t.port.state == .ready && !t.port.wakePending && t.ren.frameState == .waiting) = true := by decide

/-- A panel in some mode, its port in some state. -/
def panelIn (mode : PanelMode) (state : PortState) : State :=
  { live with port := { live.port with state := state, live := { live.port.live with mode := mode } } }
theorem test_sleepStart_sends :
    gives .sleepStart (panelIn .sleep .ready) (fun t =>
      t.port.state == .sleeping && t.panelAssertions == [[(false, 0x5A)]]) = true := by decide
/-- Section 9.6: a PANEL (NORMAL) taken during PANEL_SLEEP starts the wake frame when the command completes. -/
theorem test_sleepComplete_wakes :
    gives .sleepComplete (panelIn .normal .sleeping) (fun t =>
      t.port.state == .asleep && t.port.wakePending && t.ren.frameState == .rendering) = true := by decide

theorem test_powerUp_forgets :
    gives (.powerUp 3) inRun (fun t => t.run.table == [] && t.sul.strap == 3 && t.sul.resetCause == .power) = true := by decide
/-- R178: held, the part drives nothing. -/
theorem test_resetPinAssert_releases :
    gives .resetPinAssert (timed { live.tau with markDrive := some 8 }) (fun t => !t.drivesMark && !t.active) = true := by decide
/-- R55, R178: at the release the open segment is recovered; the cause is PIN. -/
theorem test_resetPinRelease_recovers :
    gives (.resetPinRelease 2) { inRun with sul := { inRun.sul with resetHeld := true } } (fun t =>
      t.run.table.map SegmentRecord.recovered == [true] && t.sul.resetCause == .pin && t.sul.strap == 2) = true := by decide

def plainImage : RawImage :=
  { options := defaultOptions, probe := defaultProbe, panel := { defaultPanel with framePeriodMs := 300 },
    setup := defaultSetup, profiles := Quad.replicate (some bareProfile) }
/-- R179: an erased flash fails at the marker; the third failure is BAD. -/
theorem test_imageAttempt_erased :
    (gives (.imageAttempt [] plainImage) State.reset (fun t => t.sul.attempt == 2 && t.sul.imageState == .reading) &&
      gives (.imageAttempt [] plainImage) { State.reset with sul := { State.reset.sul with attempt := 3 } }
        (fun t => t.sul.imageState == .bad && t.pfe.enabled == 0xFFFF)) = true := by decide
/-- R186, R181, section 11.6: an image that names the panel settings alone, with a frame period of 300 ms. Its sum is
3 + 12. -/
def panelImage : List Byte := [0xA5, 0x3D, 0, 12, 0, 15, 1, 3, 0, 12, 0, 0]
theorem test_imageAttempt_good :
    gives (.imageAttempt panelImage plainImage) State.reset (fun t =>
      t.sul.imageState == .good && t.ren.framePeriodMs == 250 && t.sul.contents.profiles == none) = true := by decide

/-- R182: the first STATUS. -/
theorem test_join_reports :
    gives (.join { markAsserted := false, messageRecessive := true }) { State.reset with sul := { State.reset.sul with imageState := .bad } } (fun t =>
      t.active && t.sul.imageBad && t.lnk.queue.map QueueEntry.message == [.status t.statusContents]
        && t.ren.frameState == .rendering) = true := by decide

/-! ### Functions that no command test reaches, against the worked cases of the manual -/

/-- R23: the lowest and the highest threshold are clamped. -/
theorem test_threshold_clamps :
    [thresholdMillivolts 160 (-3), thresholdMillivolts 0 (-1), thresholdMillivolts 255 1] = [1394, -5000, 5200] := by decide
/-- Section 12.4: the NOTICE on the line, its check byte and its 79 bits. -/
theorem test_notice_frame :
    (theNotice.frame 2).toRaw.check = 0x07 ∧ (theNotice.frame 2).bits.length = 79 := by decide
/-- R168: the same frame, read back, is the command. -/
theorem test_notice_frame_reads_back :
    decodeFrame 4 4 (theNotice.frame 2).toRaw = .notice 2 0 5000000 := by decide
/-- R132, R133: at width 8, 0x80 against 1 is lower as a signed number and higher as an unsigned one. -/
theorem test_ordering_by_signedness :
    (subtractFlags 8 0x80 1).ordering true = .lower ∧ (subtractFlags 8 0x80 1).ordering false = .higher := by decide
/-- Section 6.8: a character 0x35 has the text 35; with a parity error the mark follows it. -/
theorem test_record_text :
    recordText { character with flags := { RecordFlags.none with parity := true } } = [.digit 3, .digit 5, .mark] := by decide
/-- R142: the seventeenth 7-row lane would end at row 119 and an eighteenth does not fit. -/
theorem test_lanes_clip :
    lanesClipped (defaultLanes ++ defaultLanes.take 1) = false ∧ lanesClipped (defaultLanes ++ defaultLanes.take 2) = true := by
  decide

/-- R104 to R107: a unit with T = 4 and one stop bit at the reading sample of that bit. -/
def uartCase : UartSettings :=
  { channel := 0, bitPeriod := 4, dataBits := 8, parity := .none, stopBits := 1, idle := .high }
theorem test_uart_completes_at_the_stop_bit :
    (uartSample uartCase 0 { index := 138, divider := 10, segment := 0, word := 1, last := 0, glitch := 0 }
      { phase := .stop, first := 100, bits := [true, false, true, false, true, true, false, false], parityBit := false,
        parityError := false, stopsRead := 0 } false).2.2
      = [{ character with startTime := 1000, endTime := 1390 }] := by decide
/-- R112, R113: SDA falls while SCL is high on a free bus. -/
theorem test_i2c_start :
    (i2cSample { scl := 0, sda := 1 } 1 { index := 7, divider := 10, segment := 0, word := 1, last := 3, glitch := 0 }
      { phase := .busFree, first := 0, bits := [] } false).2.2.map DecodeRecord.kind = [.i2cStart] := by decide
/-- R109, R110: the fourth capture edge completes a 4-bit word, most significant bit first. -/
theorem test_spi_word :
    (spiSample { clock := 0, select := none, polarity := .activeLow, dataOut := some 1, dataIn := none, clockIdle := false,
                 capture := .leading, width := 4, order := .msbFirst } 2
      { index := 9, divider := 10, segment := 0, word := 1, last := 0, glitch := 0 }
      { first := 3, bits := [(true, false), (false, false), (true, false)] } false).2.2.map DecodeRecord.value = [10] := by
  decide

/-! ### Witnesses: states and operands that meet the hypotheses of the statements, each clause at its boundary -/

theorem witness_StepRunsFrontCommand : ({ live with pending := [.sample, .lineIdle] } : State).pending = .sample :: [.lineIdle] := by
  decide

theorem witness_EmptyQueueIsOneTick :
    (live.pending = [] ∧ live.active = true) ∧
    ((linked { live.lnk with receiver := .waiting }).lnk.receiver = .waiting ∧ live.lnk.lineRecessive = true) ∧
    (live.lnk.receiver ≠ .waiting ∧ live.lnk.framePosition = some 0) ∧
    (let s : State := linked { (sending theNotice 2).lnk with framePosition := some 1 }
     s.pending = [] ∧ s.active = true ∧ s.lnk.receiver ≠ .waiting ∧ (s.lnk.bitClock + 1) % 250 ≠ 0 ∧
       s.lnk.framePosition = some 1 ∧ s.lnk.sentBit 1 = some false) ∧ (State.reset.pending = [] ∧ State.reset.active = false) := by decide

theorem witness_StepKeepsStoresCanonical :
    StoresCanonical { compressorCase with pending := [.sample] } ∧
      ∃ t, step { compressorCase with pending := [.sample] } = .next t :=
  ⟨⟨by decide, by decide, by decide⟩, _, rfl⟩

theorem witness_StepKeepsQueueLaw :
    QueueLaw (sending theNotice 2).lnk ∧
      ∃ t, step { sending theNotice 2 with pending := [.transmissionComplete] } = .next t :=
  ⟨⟨by decide, by decide, by decide, by decide, by decide, by decide⟩, _, rfl⟩

theorem witness_StepKeepsLockLaw :
    LockLaw slowStation.tau ∧ ∃ t, step { slowStation with pending := [.leadingEdge] } = .next t :=
  ⟨⟨by decide, by decide, by decide, by decide, by decide⟩, _, rfl⟩

theorem witness_StepKeepsSequencerLaw :
    SequencerLaw inRun ∧ ∃ t, step { inRun with pending := [.stop 7] } = .next t :=
  ⟨⟨by decide, by decide, by decide, by decide⟩, _, rfl⟩

/-- A LogLaw state with records, lost counts at their limit, and the counter exhausted. -/
def fullCounts : State :=
  { inRun with log := { records := readout, counter := 4294967296, lost := Quad.replicate 65535 } }
theorem witness_StepKeepsLogLaw :
    LogLaw fullCounts.log ∧ ∃ t, step { fullCounts with pending := [.stop 7] } = .next t :=
  ⟨⟨by decide, by decide, by decide, by decide, by decide⟩, _, rfl⟩

/-- A run in PRETRIG with a record logged. -/
def logging : State := { inRun with log := { inRun.log with records := readout.take 1, counter := 101 } }
theorem witness_StepKeepsCaptureLaw :
    CaptureLaw logging ∧ ∃ t, step { logging with pending := [.stop 7] } = .next t := by
  have fits : ∀ f : RunFigures, logging.run.figures = some f → f = figures := fun f h => (Option.some.inj h).symm
  have only : ∀ r ∈ logging.run.table, r = taken 3 0 := fun r h => List.mem_singleton.mp h
  refine ⟨⟨⟨by decide, ?_, by decide, fun _ => ⟨figures, rfl, by decide⟩, by decide, by decide, ?_, by decide, ?_⟩, ?_, ?_,
    ?_, by decide, ?_⟩, _, rfl⟩
  · intro f h; rw [fits f h]; exact ⟨by decide, by decide, by decide⟩
  · intro _ r h; rw [← Option.some.inj h]; rfl
  · intro r h; rw [← Option.some.inj h]; rfl
  · intro r m f h; rw [only r m, fits f h]; exact ⟨by decide, by decide, by decide, by decide, by decide, by decide⟩
  · intro r m p h; rw [only r m] at h; cases h
  · intro r m; rw [only r m]; unfold State.accounts; decide
  · decide

/-- One command of each target clause. -/
theorem witness_FrameReadsBackAsItsCommand :
    ((Instr.restart 1 3 3).wellFormed = true ∧ (Instr.restart 1 3 3).frame?.isSome = true ∧
      addressed 3 (targetOf 3) = true) ∧
    ((Instr.panel 1 7 0 0 119 0).wellFormed = true ∧ addressed 3 (targetOf 7) = true) ∧
    ((Instr.query 1 0xFF).wellFormed = true ∧ addressed 3 (targetOf 0xFF) = true) ∧
    ((Instr.read 1 3 2 0xFFFFFFFF 255).wellFormed = true ∧ (Instr.read 1 3 2 0xFFFFFFFF 255).frame?.isSome = true) ∧
    ((Instr.unaddressedFrameReceived .query 1 [2]).wellFormed = true ∧
      addressed 3 (targetOf (payloadByte [2] 0)) = false) ∧
    ((Instr.notice 7 255 0xFFFFFFFFFFFF).wellFormed = true ∧
      (Instr.notice 7 255 0xFFFFFFFFFFFF).frame?.isSome = true) ∧
    ((List.replicate 31 (0 : Byte)).length ≤ 31 ∧ (sending theNotice 2).sul.resetHeld = false ∧
      (sending theNotice 2).lnk.frameOnLine = some (theNotice.frame 2) ∧ live.lnk.frameOnLine = none ∧
      (sending theNotice 2).lnk.framePosition = some 0 ∧ (Frame.bits (theNotice.frame 2))[0]? = some false) := by decide

/-- The ends of the ranges of the payload fields. -/
theorem witness_PayloadsFollowTheirLayouts :
    (255 < 2 ^ 8 ∧ 2 ^ 48 - 1 < 2 ^ 48) ∧
    (let c : StatusContents :=
       { live.statusContents with openSegment := some 31, closedCount := 32, rateFactor := 68267, lost := Quad.replicate 65535 }
     (∀ i : Nat, c.openSegment = some i → i < 32) ∧ c.closedCount ≤ 32 ∧ c.rateFactor < 2 ^ 24 ∧
       ∀ d : Fin 4, c.lost.get d ≤ 65535) ∧
    ({ theDone with sent := 64 } : Done).sent ≤ 64 ∧
    (1 ≤ (steady 0 16777216).count ∧ (steady 0 16777216).count ≤ 2 ^ 24) ∧
    (let r : SegmentRecord :=
       { record with index := 31, nextSample := 2 ^ 48 - 1, maxCorrection := 1048576, reference := some (2 ^ 48 - 1) }
     r.index < 32 ∧ r.firstSample < 2 ^ 48 ∧ r.nextSample < 2 ^ 48 ∧ r.maxCorrection ≤ 2 ^ 20 ∧
       ∀ n : Nat, r.reference = some n → n < 2 ^ 48) ∧
    (let x : DecodeRecord := { character with segment := 31, bitCount := 32, endTime := 2 ^ 48 - 1 }
     x.segment < 32 ∧ x.bitCount ≤ 32 ∧ x.startTime < 2 ^ 48 ∧ x.endTime < 2 ^ 48) := by
  refine ⟨by decide, ⟨?_, by decide, by decide, by decide⟩, by decide, by decide, ⟨by decide, by decide, by decide,
    by decide, ?_⟩, by decide⟩
  · intro i h; rw [← Option.some.inj h]; decide
  · intro n h; rw [← Option.some.inj h]; decide

theorem witness_ReferenceWindowEnds :
    ((inTrial 3).active = true ∧ (inTrial 3).tau.monitorRunning = true ∧ (inTrial 3).tau.clockState ≠ .refActive ∧
      ¬((1280 ≤ 1279 ∧ 1279 ≤ 1342) ∧ (inTrial 3).tau.inRangeRun = 3) ∧
      ¬((1280 ≤ 1343 ∧ 1343 ≤ 1342) ∧ (inTrial 3).tau.inRangeRun = 3) ∧
      ((1280 ≤ 1280 ∧ 1280 ≤ 1342) ∧ (inTrial 3).tau.inRangeRun = 3)) ∧
    ((inTrial 2).active = true ∧ (inTrial 2).tau.monitorRunning = true ∧ (inTrial 2).tau.clockState ≠ .refActive ∧
      ¬((1280 ≤ 1280 ∧ 1280 ≤ 1342) ∧ (inTrial 2).tau.inRangeRun = 3)) ∧
    (let s := timed { (inTrial 4).tau with clockState := .refActive }
     s.active = true ∧ s.tau.monitorRunning = true ∧ s.tau.clockState = .refActive ∧ (1280 ≤ 1342 ∧ 1342 ≤ 1342) ∧
       ¬(1280 ≤ 1343 ∧ 1343 ≤ 1342)) := by decide

theorem witness_MarkPulseIsDrivenAndReleased :
    (let s := timed { live.tau with emissionTimer := 1048576 }
     s.active = true ∧ s.emitsMarks = true ∧ 2 ^ 20 ≤ s.tau.emissionTimer ∧ s.tau.markLine = false ∧
       s.tau.runTime = none ∧ s.tau.interval ≠ .measured) ∧
    (∀ m ∈ [1048576, 1048577], let s := timed { live.tau with emissionTimer := m, interval := .measured }
      s.active = true ∧ s.emitsMarks = true ∧ 2 ^ 20 ≤ s.tau.emissionTimer ∧ s.tau.markLine = false ∧
        s.tau.interval = .measured) ∧
    (let s := timed { live.tau with markDrive := some 0 }
     s.active = true ∧ s.tau.markDrive = some 0) ∧
    (let s := timed { live.tau with emissionTimer := 1048576, markStuck := true }
     s.active = true ∧ s.emitsMarks = false) ∧ (receiveOnly 0).emitsMarks = false := by decide

/-- An interval that ends at a leading edge outside a run. -/
def interval (i : IntervalInProgress) (m : Nat) : State := timed { live.tau with interval := i, emissionTimer := m }
theorem witness_LeadingEdgeIsAMarkEdge :
    ((interval .discarded 7).active = true ∧ (interval .discarded 7).tau.markLine = false ∧
      (interval .discarded 7).tau.interval ≠ .measured ∧ (interval .discarded 7).tau.runTime = none) ∧
    (∀ m ∈ [1006633, 1048576], (interval .measured m).tau.interval = .measured ∧
      1006633 ≤ (interval .measured m).tau.emissionTimer ∧ (interval .measured m).tau.emissionTimer ≤ 1048576) ∧
    (∀ m ∈ [1006632, 1048577], (interval .measured m).active = true ∧ (interval .measured m).tau.interval = .measured ∧
      ¬(1006633 ≤ (interval .measured m).tau.emissionTimer ∧ (interval .measured m).tau.emissionTimer ≤ 1048576)) := by
  decide

/-- A run at the mark edge that brings Nm to 2^28 - 1. -/
def lastMark : State :=
  { slowStation with tau := { slowStation.tau with runTime := slowStation.tau.runTime.map (fun r => { r with marks := 2 ^ 28 - 2 }) } }
theorem witness_MarkEdgeAdvancesStackTime :
    (slowStation.active = true ∧ slowStation.tau.markLine = false ∧ slowStation.openIndex? = some 0 ∧
      slowStation.tau.runTime.isSome = true ∧ 0 + 1 < 2 ^ 28 - 1 ∧ (0 + 1) * 2 ^ 20 < 349526 * slowStation.divider ∧
      0 + 1 ≠ 2 ^ 28 - 1) ∧
    (lastMark.tau.runTime.map (fun r => r.marks + 1) = some (2 ^ 28 - 1) ∧ lastMark.openRecord?.isSome = true) ∧
    (slowStation.emitsMarks = true ∧
      2 ^ 20 ≤ (timed { slowStation.tau with emissionTimer := 1048576 }).tau.emissionTimer) ∧
    ((receiveOnly 1114112).active = true ∧ (receiveOnly 1114112).synthesisDue = true) := by decide

theorem witness_TrailingEdgesAndStuckPulses :
    (∀ w ∈ [0, 23, 64], (waiting w).active = true ∧ (waiting w).tau.markLine = true ∧
      (waiting w).tau.markDrive = none ∧ (waiting w).tau.markStuck = false ∧
      ¬((24 ≤ (waiting w).tau.pulseWidth ∧ (waiting w).tau.pulseWidth ≤ 63) ∧ (waiting w).tau.candidate = true ∧
        (waiting w).run.state = .waitStart)) ∧
    (let s := timed { live.tau with markLine := true, pulseWidth := 64, markStuck := true }
     s.active = true ∧ s.tau.markLine = true ∧ s.tau.markDrive = none ∧ s.tau.markStuck = true) ∧
    64 ≤ (waiting 64).tau.pulseWidth := by decide

theorem witness_StartMarkStartsTheRun : ∀ w ∈ [24, 63],
    (waiting w).active = true ∧ (waiting w).tau.markLine = true ∧ (waiting w).tau.markDrive = none ∧
      (waiting w).tau.markStuck = false ∧ 24 ≤ (waiting w).tau.pulseWidth ∧ (waiting w).tau.pulseWidth ≤ 63 ∧
      (waiting w).tau.candidate = true ∧ (waiting w).run.state = .waitStart ∧ (waiting w).run.figures = some figures := by
  decide

theorem witness_SynthesizedMarkUnlocks :
    (let s := timed { live.tau with markStuck := true, synthesisCount := 1048576 }
     s.active = true ∧ s.tau.markStuck = true ∧ 2 ^ 20 ≤ s.tau.synthesisCount ∧ s.tau.runTime = none) ∧
    (let s := receiveOnly 1114112
     s.active = true ∧ s.tau.markStuck = false ∧ s.sul.strap = 7 ∧ 2 ^ 20 + 2 ^ 16 ≤ s.tau.synthesisCount) := by decide

theorem witness_LevelFollowsTheInput :
    (hysteresisCase 0).sul.resetHeld = false ∧ levelOf (hysteresisCase 0).pfe.enabled 15 = true ∧
      levelOf State.reset.pfe.enabled 15 = false := by decide

/-- A sample due at its very instant, and stack time two instants past the next sample. -/
theorem witness_DueSamplesAreTaken :
    (compressorCase.active = true ∧ compressorCase.tau.runTime = some (timeOf 3) ∧
      (timeOf 3).nextSample * compressorCase.divider = (timeOf 3).stackTime compressorCase.tau.rateFactor) ∧
    (let s := { inRun with tau := { inRun.tau with runTime := some { timeOf 3 with ticks := 50 } } }
     0 < s.divider ∧ s.dueCount = 3) := by decide

/-- A run of two segments, with a region of 131,072 entries and a depth of half of it. -/
def twoSegments : RunFigures := { divider := 10, segments := 2, regionSize := 131072, depth := 65536 }

/-- Sample 3 of segment `i` of that run arrives at an open entry of zeros, with so many entries retained. -/
def arriving (rs : RunState) (i retained count : Nat) (levels glitches : Levels) : State :=
  let r : SegmentRecord := { newRecord twoSegments i 0 false with nextSample := 3, retained := retained }
  let s := running rs r (some { start := 0, holding := some (steady 0 count) }) quiet
  { s with run := { s.run with figures := some twoSegments }, pfe := { s.pfe with glitchSeen := glitches, raw := levels } }

/-- An open entry one below the count limit and at it; sample levels and glitches that part; a ring that fills to its depth,
that has room, that is full; the last commit of a region, with a segment left and without. -/
theorem witness_SampleJoinsOrCommits :
    (∀ s ∈ [arriving .prefill 0 1 16777215 0 0, arriving .prefill 0 65535 3 1 0, arriving .pretrig 0 131072 16777216 0 0,
        arriving .posttrig 0 131071 3 0 4, arriving .posttrig 1 131071 3 1 0],
      s.active = true ∧ s.tau.runTime = some (timeOf 3) ∧ 3 * s.divider ≤ (timeOf 3).stackTime s.tau.rateFactor ∧
        s.openRecord?.isSome = true ∧ s.run.figures = some twoSegments ∧ s.tsq.qualifier = true) ∧
    ((steady 0 16777215).count < 16777216 ∧
      (steady 0 16777215).data = .levels (arriving .prefill 0 1 16777215 0 0).pfe.currentLevels 0) ∧
    ((steady 0 3).data ≠ .levels (arriving .prefill 0 65535 3 1 0).pfe.currentLevels 0 ∧
      65535 + 1 = twoSegments.depth ∧ 65535 < twoSegments.regionSize ∧ 65534 + 1 ≠ twoSegments.depth) ∧
    (¬((steady 0 16777216).count < 16777216) ∧ twoSegments.regionSize ≤ 131072) ∧
    ((arriving .posttrig 0 131071 3 0 4).pfe.glitchSeen ≠ 0 ∧ 131071 + 1 = twoSegments.regionSize ∧
      0 + 1 < twoSegments.segments ∧ (∀ x ∈ (arriving .posttrig 0 131071 3 0 4).run.table, x.index ≠ 0 + 1)) ∧
    (twoSegments.segments ≤ 1 + 1 ∧ 131070 + 1 ≠ twoSegments.regionSize) ∧
    ((arriving .posttrig 0 131071 3 0 4).run.setup.prefillWait = false ∧ 0 < twoSegments.depth ∧
      ({ defaultSetup with prefillWait := true } : RunSetup).prefillWait = true) ∧
    (let s := running .posttrig record (some { start := 0, holding := none }) quiet
     s.active = true ∧ s.tau.runTime = some (timeOf 0) ∧ 0 * s.divider ≤ (timeOf 0).stackTime s.tau.rateFactor ∧
       s.openRecord? = some record ∧ s.cst.openEntry = some { start := 0, holding := none } ∧ s.run.state ≠ .pretrig) := by
  decide

/-- A trigger with the open entry holding, at a full ring deeper than the cut, and one with it empty. -/
theorem witness_TriggerIsTaken :
    (let s := arriving .pretrig 0 131072 3 0 0
     s.openRecord?.isSome = true ∧ s.run.figures = some twoSegments ∧
       s.cst.openEntry = some { start := 0, holding := some (steady 0 3) } ∧
       (∀ x ∈ s.run.table, x.index = 0 → s.openRecord? = some x)) ∧
    (let s := running .pretrig (taken 9 4) (some { start := 9, holding := none }) quiet
     s.openRecord? = some (taken 9 4) ∧ s.run.figures = some figures ∧
       s.cst.openEntry = some { start := 9, holding := none } ∧
       (∀ x ∈ s.run.table, x.index = (taken 9 4).index → x = taken 9 4)) ∧
    ((linked { live.lnk with transmitter := .silent }).lnk.transmitter = .silent ∧
      (holding (List.replicate 7 theNotice)).lnk.queue.length < 8 ∧
      8 ≤ (holding (List.replicate 8 theNotice)).lnk.queue.length ∧
      ∀ e ∈ (holding (List.replicate 8 theNotice)).lnk.queue, e.tookFreedEntry = false) ∧
    (let freed (m : Message) : QueueEntry := { queued m with tookFreedEntry := true }
     let notices : List QueueEntry := List.replicate 6 (queued theNotice)
     8 ≤ (notices ++ freed (.done theDone) :: [freed theStatus]).length ∧ (freed (.done theDone)).message.kind = 11 ∧
       (freed theStatus).message.kind = 9 ∧ (freed theStatus).tookFreedEntry = true ∧
       (freed theStatus).underTransmission = false ∧ 8 ≤ (notices ++ freed theStatus :: [queued theNotice]).length ∧
       (queued theNotice).tookFreedEntry = false) ∧
    (let i : SequencerInputs := { word := 3, last := 0, hits := 0, observed := 0 }
     triggerCase.active = true ∧ triggerCase.tau.runTime = some (timeOf 9) ∧
       9 * triggerCase.divider ≤ (timeOf 9).stackTime triggerCase.tau.rateFactor ∧
       triggerCase.sampleBreaks .gap = false ∧ triggerCase.formWord.run.state = .pretrig ∧
       triggerCase.formWord.tsq.fires i = true ∧ inRun.tsq.fires i = false) := by decide

theorem witness_ConditionsTestTheirTerms : alwaysHolds.combine = .all ∧ neverHolds.combine = .any := by decide

/-- A level that its proceed condition, its dwell limit, or neither, leaves. -/
def levelCase (proceed : Condition) (count : BitVec 16) (dwellLimit : Nat) : Tsq :=
  let r : LevelRecord := { restingLevel 0 with proceed := proceed, count := count, dwellLimit := dwellLimit }
  { Tsq.start (quiet.set 0 r) with running := true }
theorem witness_SequencerEvaluates :
    let i : SequencerInputs := { word := 0, last := 0, hits := 0, observed := 0 }
    (let t := levelCase alwaysHolds 1 0
     t.running = true ∧ conditionHolds t.program[t.level].proceed i = true ∧ t.counter - 1 = 0) ∧
    (let t := levelCase alwaysHolds 2 1
     t.running = true ∧ t.counter - 1 ≠ 0 ∧ 0 < t.program[t.level].dwellLimit ∧
       t.dwell + 1 = t.program[t.level].dwellLimit) ∧
    (let t := levelCase neverHolds 1 2
     t.running = true ∧ conditionHolds t.program[t.level].proceed i = false ∧
       conditionHolds t.program[t.level].escape i = false ∧ t.dwell + 1 ≠ t.program[t.level].dwellLimit) ∧
    (Tsq.start quiet).running = false := by decide

/-- A UART unit with T = 4 in some phase, its line at some level, at the reading sample of some bit of the character that
began at sample 100. -/
def uartAt (phase : UartPhase) (bits : List Bool) (stopsRead bit : Nat) (level : Levels) : SampleContext × UartFraming :=
  ({ index := 100 + (2 * bit + 1) * 4 / 2, divider := 10, segment := 0, word := level, last := 0, glitch := 0 },
    { phase := phase, first := 100, bits := bits, parityBit := false, parityError := false, stopsRead := stopsRead })
theorem witness_UartFramesItsCharacters :
    ((uartAt .hunt [] 0 0 1).2.phase = .hunt ∧ (uartAt .idleLine [] 0 0 0).2.phase = .idleLine ∧
      (uartAt .startCheck [] 0 0 0).2.phase = .startCheck ∧ (uartAt .breakWait [] 0 0 1).2.phase = .breakWait) ∧
    ((uartAt .data (List.replicate 7 true) 0 8 1).2.phase = .data ∧
      (uartAt .data (List.replicate 7 true) 0 8 1).1.index = 100 + (2 * (7 + 1) + 1) * uartCase.bitPeriod / 2 ∧
      7 + 1 = uartCase.dataBits) ∧
    ((uartAt .parity (List.replicate 8 true) 0 9 1).2.phase = .parity ∧
      (uartAt .parity (List.replicate 8 true) 0 9 1).1.index = 100 + (2 * (8 + 1) + 1) * 4 / 2) ∧
    ((uartAt .stop (List.replicate 8 true) 1 10 1).2.phase = .stop ∧
      (uartAt .stop (List.replicate 8 true) 1 10 1).1.index = 100 + (2 * (8 + 0 + 1 + 1) + 1) * 4 / 2 ∧ 2 ≤ 1 + 1 ∧
      0 + 1 < 2 ∧ (∀ b ∈ List.replicate 8 false, b = false) ∧ ¬(∀ b ∈ List.replicate 8 true, b = false)) := by decide

/-- An SPI unit with an active-low select, and a context whose last sample and whose sample have some levels. -/
def spiCase : SpiSettings :=
  { clock := 0, select := some 3, polarity := .activeLow, dataOut := some 1, dataIn := none, clockIdle := false,
    capture := .leading, width := 4, order := .msbFirst }
def between (last word : Levels) : SampleContext :=
  { index := 9, divider := 10, segment := 0, word := word, last := last, glitch := 0 }
theorem witness_SpiAndI2cFrameTheirWords :
    ((levelOf (between 0 8).word 3 == (spiCase.polarity == .activeHigh)) = false ∧
      (levelOf (between 0 0).word 3 == (spiCase.polarity == .activeHigh)) = true) ∧
    ((levelOf (between 0 1).last 0 = spiCase.clockIdle ∧ levelOf (between 0 1).word 0 ≠ spiCase.clockIdle) ∧
      levelOf (between 1 1).last 0 ≠ spiCase.clockIdle ∧ 2 + 1 < spiCase.width ∧ spiCase.width ≤ 3 + 1) ∧
    (let u : I2cSettings := { scl := 0, sda := 1 }
     (levelOf (between 3 1).last u.scl = true ∧ levelOf (between 3 1).word u.scl = true ∧
       levelOf (between 3 1).last u.sda = true ∧ levelOf (between 3 1).word u.sda = false) ∧
     (levelOf (between 1 3).last u.scl = true ∧ levelOf (between 1 3).word u.scl = true ∧
       levelOf (between 1 3).last u.sda = false ∧ levelOf (between 1 3).word u.sda = true) ∧
     (levelOf (between 1 2).word u.scl = false ∧ levelOf (between 1 1).word u.sda = levelOf (between 1 1).last u.sda) ∧
     (levelOf (between 2 3).last u.scl = false ∧ levelOf (between 2 3).word u.scl = true)) ∧
    ((List.replicate 7 true).length < 8 ∧ 8 ≤ (List.replicate 8 true).length ∧ (List.replicate 1 true) ≠ []) := by decide

theorem witness_ParallelWordAtAQualifyingEdge :
    let u : ParallelSettings := { clock := 0, edge := .rise, data := [1, 2], qualifier := some 3, qualifyingLevel := true }
    (levelOf 0 u.clock = false ∧ levelOf 9 u.clock = true ∧ levelOf 9 3 = u.qualifyingLevel) ∧
      ¬(levelOf 1 3 = u.qualifyingLevel) := by decide

/-- A log of so many records of segment 0, in a run state. -/
def logged (rs : RunState) (n : Nat) : State :=
  { running rs record none quiet with
    log := { Log.powerStart with records := List.replicate n { sequence := 0, content := character } } }
theorem logged_length (rs : RunState) (n : Nat) : (logged rs n).log.records.length = n := List.length_replicate
theorem logged_oldest (rs : RunState) (n : Nat) :
    (logged rs (n + 1)).log.records =
      [] ++ { sequence := 0, content := character } :: List.replicate n { sequence := 0, content := character } := rfl
theorem witness_LogPlacesAndTrims :
    (fullCounts.log.counter = 2 ^ 32 ∧ logging.log.counter < 2 ^ 32) ∧
    (logged .pretrig 4095).log.records.length < 4096 ∧
    (4096 ≤ (logged .pretrig 4096).log.records.length ∧
      (logged .pretrig 4096).log.records =
        [] ++ { sequence := 0, content := character } :: List.replicate 4095 { sequence := 0, content := character } ∧
      (logged .pretrig 4096).openIndex? = some character.segment) ∧
    (4096 ≤ (logged .posttrig 4096).log.records.length ∧
      ¬((logged .posttrig 4096).run.state = .prefill ∨ (logged .posttrig 4096).run.state = .pretrig)) := by
  refine ⟨by decide, ?_, ⟨?_, logged_oldest .pretrig 4095, by decide⟩, ?_, by decide⟩
  · exact (logged_length .pretrig 4095).trans_lt (by decide)
  · exact Nat.le_of_eq (logged_length .pretrig 4096).symm
  · exact Nat.le_of_eq (logged_length .posttrig 4096).symm

/-- A comparator of DU0's UART characters at some width. -/
def comparatorCase (width : Nat) : Comparator := { defaultComparator with kinds := 1, width := width }
theorem witness_ComparatorFlagsOrderingAndHit : ∀ w ∈ [1, 32],
    1 ≤ (comparatorCase w).width ∧ (comparatorCase w).width ≤ 32 ∧ testedField (comparatorCase w) character = some 0x35 ∧
      (character.decoder = (comparatorCase w).source ∧ (comparatorCase w).kinds.getLsbD 0 = true) ∧
      ¬(defaultComparator.kinds.getLsbD 0 = true) ∧ testedField defaultComparator character = none := by
  decide

theorem witness_FlagLinesArePresentedAndObserved :
    live.active = true ∧ live.lnk.driversEnabled = true ∧ live.sul.resetHeld = false := by decide

theorem witness_StopEndsTheRun :
    (live.receives = true ∧ live.run.state = .idle) ∧
      ((waiting 0).receives = true ∧ (waiting 0).run.state = .waitStart) ∧
      (inRun.receives = true ∧ inRun.openRecord? = some (taken 3 0) ∧
        inRun.cst.openEntry = some { start := 0, holding := some (steady 0 3) } ∧
        ∀ x ∈ inRun.run.table, x.index = (taken 3 0).index → x = taken 3 0) := by decide

theorem witness_ArmIsTaken :
    (live.receives = true ∧ live.run.state = .idle ∧ (0 : Byte).toNat = (0 : Fin 4).val ∧
      profileOf live.sul.contents 0 = some bareProfile) ∧
    (let s := { live with sul := { live.sul with
      contents := { ImageContents.empty with profiles := some (Quad.replicate (some bareProfile)) } } }
     s.receives = true ∧ s.run.state = .idle ∧ (3 : Byte).toNat = (3 : Fin 4).val ∧
       profileOf s.sul.contents 3 = some bareProfile) := by decide

theorem witness_RefusalsChangeNothingElse :
    (inRun.receives = true ∧ inRun.run.state ≠ .idle) ∧
      (live.receives = true ∧ live.run.state = .idle ∧ live.armedProfile 3 = none ∧ live.armedProfile 4 = none) := by
  decide

theorem witness_SetupIsTakenInIdle :
    let s := hysteresisCase 0
    let floating := { s with pfe := { s.pfe with inputs := s.pfe.inputs.set 7 (.undriven 0), keeper := 128 } }
    s.receives = true ∧ s.run.state = .idle ∧ s.pfe.groupB.code = some 160 ∧ levelOf s.pfe.enabled 7 = true ∧
      s.pfe.inputs[(7 : Fin 16)] = .driven 0 ∧ ¬(s.pfe.groupA.code = some 159) ∧
      floating.pfe.inputs[(7 : Fin 16)] = .undriven 0 ∧ levelOf floating.pfe.keeper 7 = true := by decide

/-- A following station in PRETRIG on the segment that the NOTICE names. -/
theorem witness_NoticeAndViewAreTaken :
    inRun.receives = true ∧ inRun.run.setup.followNotice = true ∧ (2 : Station) ≠ inRun.sul.strap ∧
      inRun.openIndex? = some (0 : Byte).toNat ∧ inRun.run.state = .pretrig := by decide

theorem witness_PanelReplacesLiveSettings :
    (live.receives = true ∧ addressed live.sul.strap (targetOf 7) = true ∧ live.port.state ≠ .asleep) ∧
    (let s := panelIn .sleep .asleep
     s.receives = true ∧ addressed s.sul.strap (targetOf 0) = true ∧ s.port.state = .asleep ∧
       s.ren.frameState = .waiting) := by decide

theorem witness_QueryPostsStatus :
    addressed live.sul.strap (targetOf 0) = true ∧
    (let s := linked { live.lnk with transmitter := .silent }
     s.receives = true ∧ s.lnk.transmitter = .silent) ∧
    (let s := holding [theStatus]
     s.receives = true ∧ s.lnk.transmitter ≠ .silent ∧ s.lnk.queue.any QueueEntry.isStatus = true) ∧
    (let s := holding (List.replicate 7 theNotice)
     s.receives = true ∧ s.lnk.transmitter ≠ .silent ∧ s.lnk.queue.any QueueEntry.isStatus = false ∧
       s.lnk.queue.length = 7) ∧
    (let s := holding (List.replicate 8 theNotice)
     s.receives = true ∧ s.lnk.transmitter ≠ .silent ∧ s.lnk.queue.any QueueEntry.isStatus = false ∧
       s.lnk.queue.length = 8 ∧ s.lnk.queue.all (fun e => !e.tookFreedEntry) = true) ∧
    (let e : QueueEntry := { queued (.done theDone) with tookFreedEntry := true }
     let s := linked { live.lnk with queue := List.replicate 7 (queued theNotice) ++ e :: [] }
     s.receives = true ∧ s.lnk.transmitter ≠ .silent ∧ s.lnk.queue.any QueueEntry.isStatus = false ∧
       8 ≤ s.lnk.queue.length ∧ e.tookFreedEntry = true ∧ e.underTransmission = false ∧ e.message.kind = 11) := by decide

theorem witness_ReadMakesAStream :
    (live.receives = true ∧ addressed live.sul.strap (targetOf 7) = true ∧ live.sul.strap ≠ 7 ∧
      live.lnk.stream = none ∧ 3 ≤ (3 : Byte).toNat ∧ (2 : Byte).toNat < 3 ∧ (1 : Byte) ≠ 0) ∧
    (let s := reading (stream 104 1 2) (List.replicate 7 theNotice)
     s.receives = true ∧ s.sul.strap ≠ 7 ∧ s.lnk.stream = some (stream 104 1 2) ∧ s.lnk.transmitter ≠ .silent ∧
       s.lnk.queue.length < 8 ∧ s.lnk.statusOwed = false ∧ s.lnk.heldDones = []) ∧
    ((receiveOnly 0).receives = true ∧ (receiveOnly 0).sul.strap = 7 ∧
      addressed (receiveOnly 0).sul.strap (targetOf 7) = true) ∧
    ((linked { live.lnk with transmitter := .silent }).lnk.transmitter = .silent ∧
      (holding (List.replicate 7 theNotice)).lnk.queue.length + 0 + 0 < 8 ∧
      8 ≤ (holding (List.replicate 7 theNotice)).lnk.queue.length + 1 + 0) ∧
    (let s := { inRun with cst := { inRun.cst with store := [(0, steady 0 3)] }, run := { inRun.run with table := [taken 3 1] } }
     s.receives = true ∧ s.record? 0 = some (taken 3 1) ∧ s.record? 255 = none ∧ 0 < (taken 3 1).retained ∧
       (taken 3 1).retained ≤ 1 ∧ ∀ p ∈ (taken 3 1).oldestPositions 1, (Memory.read s.cst.store p).isSome = true) := by
  decide

theorem witness_FramesNotTakenAreReceived :
    (State.reset.receives = false ∧ (Instr.query 7 0).frame?.isSome = true) ∧
    (live.receives = true ∧ (Instr.replyFrameReceived .status 1 (List.replicate 21 0)).frame?.isSome = true) ∧
    (addressed live.sul.strap (targetOf (payloadByte [3] 0)) = false ∧ addressed live.sul.strap (targetOf 6) = false) := by
  decide

/-- A frame of some kind whose payload is zeros, with some check byte. -/
def rawZeros (kind : BitVec 4) (n : Nat) (check : Byte) : RawFrame :=
  { kind := kind, source := 2, length := BitVec.ofNat 5 n, payload := List.replicate n 0, check := check, end1 := true,
    end2 := true }
theorem witness_BadFrameIsDropped :
    (live.receives = true ∧ (rawZeros 3 29 0).fault = some .length ∧ 28 < (rawZeros 3 29 0).length.toNat) ∧
    (let f : RawFrame := { (theNotice.frame 2).toRaw with end2 := false }
     f.fault = some .endBit ∧ f.length.toNat ≤ 28 ∧ f.end1 = true) ∧
    (let f : RawFrame := { rawZeros 12 28 0 with end1 := false }
     f.length.toNat ≤ 28 ∧ f.end1 = false) ∧
    ((rawZeros 12 28 0).end1 = true ∧ 12 ≤ (rawZeros 12 28 0).kind.toNat) ∧
    ((rawZeros 3 28 0).fault = some .length ∧ (rawZeros 3 28 0).length.toNat ≤ 28 ∧ (rawZeros 11 28 0).kind.toNat < 12) ∧
    ((theNotice.frame 2).toRaw.end1 = true ∧ (theNotice.frame 2).toRaw.fault = none ∧
      ({ (theNotice.frame 2).toRaw with check := 0x08 } : RawFrame).fault = some .check) ∧
    (let s := linked { live.lnk with receiver := .skipping, idleCount := 9 }
     s.active = true ∧ s.lnk.idleCount = 9 ∧ s.lnk.receiver = .skipping ∧ live.lnk.idleCount ≠ 9 ∧
       live.lnk.receiver ≠ .skipping) := by decide

theorem witness_FrameBeginSelectsTheLowestKind :
    (let s := linked { live.lnk with
       receiver := .waiting, framePosition := none, idleCount := 9, queue := [queued theStatus, queued theNotice] }
     s.active = true ∧ s.lnk.transmitter = .idle ∧ s.lnk.idleCount = 9 ∧ s.lnk.framePosition ≠ some 0 ∧
       s.lnk.queue ≠ []) ∧
    (let s := linked { live.lnk with idleCount := 9, queue := [queued theStatus] }
     s.active = true ∧ s.lnk.framePosition = some 0) ∧
    (let s := linked { live.lnk with idleCount := 8, queue := [queued theStatus] }
     s.active = true ∧ s.lnk.idleCount ≠ 9) ∧
    (live.active = true ∧ live.lnk.queue = []) := by decide

/-- Bits 1 and 7 of frames whose kind and source begin and end recessive; bit 1 of a NOTICE is dominant. -/
theorem witness_StoppedSenderKeepsItsMessages :
    ((sending theStatus 2).active = true ∧ (sending theStatus 2).lnk.transmitter = .sending ∧
      (sending theStatus 2).lnk.sentBit 1 = some true) ∧
    ((sending theNotice 5).active = true ∧ (sending theNotice 5).lnk.transmitter = .sending ∧
      (sending theNotice 5).lnk.sentBit 7 = some true ∧ (sending theNotice 5).lnk.sentBit 1 = some false) := by decide

/-- A STATUS has length 21, whose first bit, bit 8, is recessive. -/
theorem witness_DuplicateIdSilencesTheStation :
    (sending theStatus 2).active = true ∧ (sending theStatus 2).lnk.transmitter = .sending ∧
      (sending theStatus 2).lnk.sentBit 8 = some true := by decide

theorem witness_FreedEntriesAreTaken :
    (let s := linked { live.lnk with
       transmitter := .sending
       queue := [queued theNotice] ++ { onLine theStatus with resend := true } :: [queued (.done theDone)] }
     s.active = true ∧ s.lnk.transmitter = .sending ∧ (onLine theStatus).underTransmission = true ∧
       (∀ x ∈ [queued theNotice] ++ [queued (.done theDone)], x.underTransmission = false)) ∧
    (let s := linked { live.lnk with statusOwed := true, queue := List.replicate 7 (queued theNotice) }
     s.active = true ∧ s.lnk.statusOwed = true ∧ s.lnk.queue.length < 8) ∧
    (let s := linked { live.lnk with statusOwed := true, heldDones := [theDone], queue := List.replicate 6 (queued theNotice) }
     s.active = true ∧ s.lnk.heldDones = theDone :: [] ∧
       s.lnk.queue.length + (if s.lnk.statusOwed then 1 else 0) < 8) := by decide

/-- A stream that has read all the log's keys, one that has formed at this tick, one of the segments, one of the entries. -/
theorem witness_StreamFormsData :
    (let s := reading (stream 100 2 0) (List.replicate 4 theNotice)
     4 ≤ s.lnk.queue.length) ∧
    (let s := reading { stream 100 2 0 with formed := true } []
     s.lnk.stream.map Stream.formed = some true) ∧
    (∀ x ∈ [stream 102 2 1, stream 104 1 2], let s := reading x (List.replicate 3 theNotice)
      s.active = true ∧ s.lnk.transmitter ≠ .silent ∧ s.lnk.stream = some x ∧ x.waiting = false ∧ x.formed = false ∧
        1 ≤ x.remaining ∧ s.lnk.queue.length < 4 ∧ (s.nextRecord x).isSome = true) ∧
    (let s := reading (stream 105 1 2) []
     s.active = true ∧ s.nextRecord (stream 105 1 2) = none ∧ ∀ y ∈ s.log.records, y.sequence < 105) ∧
    (readout = readout.take 2 ++ { sequence := 103, content := character } :: readout.drop 3 ∧
      ∀ y ∈ readout.take 2, y.sequence < 102) ∧
    (inRun.run.table = [] ++ taken 3 0 :: [] ∧ 0 ≤ (taken 3 0).index ∧ ∀ y ∈ inRun.run.table, y.index < 1) ∧
    (let s := { inRun with cst := { inRun.cst with store := [(0, steady 0 3)] }, run := { inRun.run with table := [taken 3 1] } }
     s.record? 1 = none ∧ s.record? 0 = some (taken 3 1) ∧
       retainedFrom s (taken 3 1) 0 = [] ++ (0, steady 0 3) :: [] ∧ ∀ y ∈ retainedFrom s (taken 3 1) 3, y.1 < 3) ∧
    ({ stream 0 1 0 with nextKey := none } : Stream).nextKey = none ∧
    (let s := { inRun with cst := { inRun.cst with store := [(0, steady 0 3)] }, run := { inRun.run with table := [taken 3 1] } }
     (retainedFrom s (taken 3 1) 0)[0]? = some (0, steady 0 3) ∧ 0 + 0 < (taken 3 1).retained ∧
       (Memory.read s.cst.store ((taken 3 1).positionAfter 0)).isSome = true) := by decide

theorem witness_FrameStartsFromItsCapture :
    (followCase.active = true ∧ followCase.ren.framePeriodMs * 500000 ≤ followCase.ren.frameTimer ∧
      followCase.ren.frameState = .waiting ∧ followCase.port.state = .ready ∧ followCase.port.live.mode ≠ .sleep ∧
      followCase.ren.view.follow = true ∧ followCase.openRecord? = some (taken 1000000 0) ∧
      (taken 1000000 0).index = followCase.ren.view.segment) ∧
    (followCase.record? 0 = some (taken 1000000 0) ∧ followCase.record? 1 = none ∧
      (taken 1000000 0).reference = none) := by decide

theorem witness_ChannelLanePixels :
    let x (tick : Bool) : ChannelColumn := { low := true, high := false, tick := tick }
    (4 ≤ 4 ∧ 3 < 4 ∧ (x true).tick = true ∧ (x false).tick = false ∧ (x false).low = true ∧ (x false).high = false) ∧
    (∀ l ∈ (panelCase 14).lanes, l.lane.source = .channel 2) ∧ levelOf (drawn 8 14).pfe.enabled 2 = true ∧
    (drawn 8 14).record? (panelCase 14).view.segment = (drawn 8 14).openRecord? ∧
    (drawn 8 14).openRecord?.isSome = true ∧ 0 < (drawn 8 14).divider ∧
    levelOf State.reset.pfe.enabled 2 = false ∧ live.record? 0 = none := by
  decide

/-- A band of one decoder lane of DU0 and one channel lane below it, and the box run of a record in it. -/
def decoderLane : PlacedLane := { top := 0, lane := { source := .decoder 0, height := 9, colour := 2 } }
def readoutRun : BoxRun := { record := { sequence := 100, content := character }, firstColumn := 3 }
theorem witness_DecodeLanesTextAndMarker :
    (decoderLane.lane.source = .decoder 0 ∧ 4 ≤ decoderLane.lane.height ∧ 8 < decoderLane.lane.height) ∧
    ((panelCase 14).reference = some 4999980 ∧ ({ panelCase 14 with reference := none } : FrameCapture).reference = none) ∧
    ((panelCase 14).markerColumn = some 5 ∧ 6 < ((panelCase 14).lanes.map (fun l => l.lane.height)).sum) ∧
    (let shown : List (PlacedLane × LaneColumn) := (panelCase 14).lanes.map (fun l => (l, .decoder []))
     shown = [] ++ ({ top := 14, lane := { source := .channel 2, height := 7, colour := 1 } }, .decoder []) :: [] ∧
       (14 ≤ 14 ∧ 20 < 14 + 7) ∧ ∀ e ∈ shown, ¬(e.1.top ≤ 21 ∧ 21 < e.1.top + e.1.lane.height)) ∧
    (boxRunEnds (some readoutRun) (.decoder []) = some readoutRun ∧ boxRunEnds none (.decoder []) = none ∧
      boxRunEnds (some readoutRun) (.decoder [readoutRun.record]) = none) ∧
    ((∀ r : LogRecord, (.decoder [] : LaneColumn) ≠ .decoder [r]) ∧
      (.decoder [{ sequence := 101, content := character }] : LaneColumn) ≠ .decoder [readoutRun.record]) ∧
    (let text := recordText character
     6 * text.length + 2 ≤ 14 ∧ 9 ≤ decoderLane.lane.height ∧ text[0]? = some (.digit 3) ∧
       ((Glyph.digit 3).rows.getD 0 0).getLsbD (4 - 4) = true ∧
       ({ panelCase 1 with lanes := [decoderLane] } : FrameCapture).renders false 1 = true) := by
  refine ⟨by decide, by decide, by decide, by decide, by decide, ⟨?_, by decide⟩, by decide⟩
  intro r h; cases h

theorem witness_ColumnIsRendered : ∀ c ∈ [0, 319],
    (drawn c 14).active = true ∧ (drawn c 14).ren.frameState = .rendering ∧
      (drawn c 14).ren.capture = some (panelCase 14) ∧ (drawn c 14).ren.column < 320 ∧
      (drawn c 14).ren.boxRuns.all Option.isNone = true ∧ (panelCase 14).renders false 14 = true := by decide

theorem witness_RenderedFrameIsSent :
    (let s := rendered .rendering true
     s.active = true ∧ s.ren.capture = some { panelCase 14 with wake := true } ∧ s.ren.frameState = .rendering ∧
       s.ren.column = 320) ∧
    (let s := rendered .transferring false
     s.active = true ∧ s.ren.frameState = .transferring) := by decide

/-- The lanes of a band of two lanes of 7 rows, and the rows at their edges and below them. -/
theorem witness_PanelPixelsAndBytes :
    (let lanes := defaultLanes.take 2
     (placeLanes lanes).map PlacedLane.top = [0, 7] ∧
       (∀ l ∈ (placeLanes lanes).drop 1, l.top ≤ 7 ∧ 13 < l.top + l.lane.height) ∧
       ((placeLanes lanes).map (fun l => l.lane.height)).sum ≤ 14 ∧
       ({ panelCase 14 with lanes := placeLanes lanes } : FrameCapture).lanes = placeLanes lanes) ∧
    (({ panelCase 14 with wake := false } : FrameCapture).panel.mode = .partialRows ∧
      (panelCase 14).rows.2 + 1 - (panelCase 14).rows.1 = 1) ∧ 319 < 320 ∧ 119 < 120 := by decide

theorem witness_PanelSleeps :
    (let s := panelIn .sleep .ready
     s.active = true ∧ s.port.live.mode = .sleep ∧ s.port.state = .ready ∧ s.ren.frameState = .waiting) ∧
    (let s := panelIn .sleep .sleeping
     s.port.state = .sleeping ∧ s.port.live.mode = .sleep) ∧
    (let s := panelIn .normal .sleeping
     s.active = true ∧ s.port.state = .sleeping ∧ s.port.live.mode ≠ .sleep ∧ s.ren.frameState = .waiting) := by decide

/-- The ends of the ranges at the loads: a channel that exists and is enabled, one that does not exist, one that is off; all
channels of a unit told apart, and two the same; lanes that fit and one that does not. -/
theorem witness_LoadsClampAndCheck :
    ((15 : Nat) = (15 : Fin 16).val ∧ (0xFFFF : Levels).getLsbD 15 = true ∧ 16 ≤ 16 ∧
      (0x7FFF : Levels).getLsbD 15 = false) ∧
    (let on (l : List Nat) : Bool := decide l.Nodup && l.all (fun n => (0xFFFF : Levels).getLsbD n)
     on ([0, 16, 1, 16].filter (· < 16)) = true ∧ on [0, 0] = false ∧ on [0, 1] = true) ∧
    (([0, 1, 2, 3, 4, 5, 6, 7, 8, 16].filter (· < 16)).take 8 ≠ [] ∧ ([16].filter (· < 16)).take 8 = ([] : List Nat)) ∧
    (let lanes := defaultLanes ++ defaultLanes.take 2
     (placeLanes lanes).length < lanes.length ∧ (placeLanes defaultLanes).length = defaultLanes.length) ∧
    (bareProfile.decoders = none ∧ bareProfile.comparators = none ∧ bareProfile.sequencer = none ∧ bareProfile.lanes = none) ∧
    (let r : RawProfile := { bareProfile with sequencer := some quiet, lanes := some { count := 0, lanes := [] } }
     r.sequencer = some quiet ∧ r.lanes = some { count := 0, lanes := [] }) := by decide

/-- A part whose reset pin is held, in a run or out of one. -/
def held (s : State) : State := { s with sul := { s.sul with resetHeld := true } }
theorem witness_HeldPartHolds : (held inRun).sul.resetHeld = true := by decide

theorem witness_PinStartKeepsTheRecords :
    ((held live).sul.resetHeld = true ∧ (held live).openRecord? = none) ∧
      ((held inRun).sul.resetHeld = true ∧ (held inRun).openRecord? = some (taken 3 0) ∧
        (held inRun).cst.openEntry = some { start := 0, holding := some (steady 0 3) } ∧
        ∀ x ∈ (held inRun).run.table, x.index = (taken 3 0).index → x = taken 3 0) := by decide

theorem witness_RestartIsALinkStart :
    inRun.receives = true ∧ addressed inRun.sul.strap (targetOf 0) = true ∧ addressed inRun.sul.strap (targetOf 7) = true ∧
      inRun.openRecord? = some (taken 3 0) ∧ inRun.cst.openEntry = some { start := 0, holding := some (steady 0 3) } ∧
      (∀ x ∈ inRun.run.table, x.index = (taken 3 0).index → x = taken 3 0) ∧
      (live.receives = true ∧ live.openRecord? = none ∧ ∀ d : Fin 4, (live.dec.units.get d).running = false) := by decide

/-- A station reading its image, in some attempt. -/
def attempting (n : Nat) : State := { State.reset with sul := { State.reset.sul with attempt := n } }
theorem witness_ImageAttemptEnds :
    (∀ n ∈ [1, 2, 3], (attempting n).sul.imageState = .reading ∧ (attempting n).sul.resetHeld = false ∧
      (attempting n).sul.attempt = n) ∧ imageGood [] = false ∧ imageGood panelImage = true ∧
    (ImageContents.empty.profiles = none ∧
      ({ ImageContents.empty with profiles := some plainImage.profiles } : ImageContents).profiles = some plainImage.profiles) ∧
    levelOf defaultProbe.enabled 15 = true ∧ (attempting 1).pfe.inputs[(15 : Fin 16)] = .driven 0 := by decide

/-- A station that has read its image and not joined, in some panel mode. -/
def joining (mode : PanelMode) : State :=
  { State.reset with
    sul := { State.reset.sul with imageState := .bad }
    port := { State.reset.port with live := { State.reset.port.live with mode := mode } } }
theorem witness_JoinCompletesTheStart : ∀ mode ∈ [.normal, .sleep],
    (joining mode).sul.imageState ≠ .reading ∧ (joining mode).sul.joined = false ∧
      (joining mode).sul.resetHeld = false ∧ (joining mode).port.state = .asleep ∧
      (joining mode).ren.frameState = .waiting ∧ (joining mode).lnk.transmitter = .idle ∧
      (joining mode).lnk.queue = [] := by decide

end Sys2Proof.Tests
end

