-- ==== Sys2Proof/Proofs/Comparators.lean ====
section
/-! PROOF. The field comparators: the hits of some records, the flags of a comparison at a width, and the ordering and the
hit they give (R80, R131 to R133). -/

namespace Sys2Proof.Machine

/-! ### The hits of some records (R80) -/

theorem Quad.get_map {α β : Type} (f : α → β) (q : Quad α) (i : Fin 4) : (q.map f).get i = f (q.get i) := by
  fin_cases i <;> rfl

/-- Four marks gathered into four bits, the mark of i at bit i. -/
theorem marks_getLsbD : ∀ (b0 b1 b2 b3 : Bool) (i : Fin 4),
    ((if b0 then (1 : BitVec 4) else 0) ||| (if b1 then 2 else 0) ||| (if b2 then 4 else 0) |||
      (if b3 then 8 else 0)).getLsbD i.val = (Quad.mk b0 b1 b2 b3).get i := by decide

theorem recordHits_getLsbD (q : Quad Comparator) (r : DecodeRecord) (i : Fin 4) :
    (recordHits q r).getLsbD i.val = comparatorHit (q.get i) r :=
  (marks_getLsbD _ _ _ _ i).trans (Quad.get_map (comparatorHit · r) q i)

/-- The hits gathered over some records are those there were before and those of each record. -/
theorem foldl_recordHits_getLsbD (q : Quad Comparator) (i : Nat) (rs : List DecodeRecord) (before : BitVec 4) :
    (rs.foldl (fun h r => h ||| recordHits q r) before).getLsbD i = true ↔
      before.getLsbD i = true ∨ ∃ r ∈ rs, (recordHits q r).getLsbD i = true := by
  induction rs generalizing before with
  | nil => simp
  | cons r rs ih => simp [ih, or_assoc]

theorem hitsOf_getLsbD_iff (q : Quad Comparator) (rs : List DecodeRecord) (i : Fin 4) :
    (hitsOf q rs).getLsbD i.val = true ↔ ∃ r ∈ rs, comparatorHit (q.get i) r = true := by
  simp only [hitsOf, foldl_recordHits_getLsbD, recordHits_getLsbD, BitVec.ofNat_eq_ofNat, BitVec.getLsbD_zero,
    Bool.false_eq_true, false_or]

/-! ### Which records a comparator tests (R131) -/

theorem testedField_of_listens {k : Comparator} {r : DecodeRecord}
    (h : r.decoder = k.source ∧ k.kinds.getLsbD (recordKindCode r.kind) = true) :
    testedField k r = selectedField k.field r := if_pos h

theorem testedField_of_not_listens {k : Comparator} {r : DecodeRecord}
    (h : ¬(r.decoder = k.source ∧ k.kinds.getLsbD (recordKindCode r.kind) = true)) : testedField k r = none := if_neg h

theorem comparatorHit_of_none {k : Comparator} {r : DecodeRecord} (h : testedField k r = none) :
    comparatorHit k r = false := by rw [comparatorHit, h]

theorem comparatorHit_of_some {k : Comparator} {r : DecodeRecord} {x : Word} (h : testedField k r = some x) :
    comparatorHit k r = AcceptSet.admits k.accept (fieldOrdering k x) := by rw [comparatorHit, h]

/-! ### The ordering of two numbers, and an accept set (R133) -/

/-- The ordering of two numbers as a comparator names it. -/
def numberOrdering (x y : Int) : FieldOrdering := if x < y then .lower else if x = y then .equal else .higher

theorem numberOrdering_eq_lower {x y : Int} : numberOrdering x y = .lower ↔ x < y := by grind [numberOrdering]

theorem numberOrdering_eq_equal {x y : Int} : numberOrdering x y = .equal ↔ x = y := by grind [numberOrdering]

theorem numberOrdering_eq_higher {x y : Int} : numberOrdering x y = .higher ↔ y < x := by grind [numberOrdering]

/-- The accept set admits an ordering that it lists. -/
theorem AcceptSet.admits_iff (s : AcceptSet) (o : FieldOrdering) : AcceptSet.admits s o = true ↔
    (o = .lower ∧ s.lower = true) ∨ (o = .equal ∧ s.equal = true) ∨ (o = .higher ∧ s.higher = true) := by
  cases o <;> simp [AcceptSet.admits]

/-! ### Numbers of w bits -/

/-- The number that w bits spell in two's complement. -/
def signedNumber (w n : Nat) : Int := if n.testBit (w - 1) then (n : Int) - 2 ^ w else (n : Int)

/-- R133: the number compared, by signedness. -/
def comparedNumber (isSigned : Bool) (w n : Nat) : Int := if isSigned then signedNumber w n else (n : Int)

theorem maskedOperand_lt (w : Nat) (mask x : Word) : maskedOperand w mask x < 2 ^ w :=
  Nat.lt_of_le_of_lt Nat.and_le_left (Nat.mod_lt _ (Nat.two_pow_pos w))

/-- The top bit of m + 1 bits is set from 2^m on. -/
theorem testBit_top {m n : Nat} (hn : n < 2 ^ (m + 1)) : n.testBit m = decide (2 ^ m ≤ n) := by
  by_cases h : 2 ^ m ≤ n
  · have := Nat.testBit_of_two_pow_le_and_two_pow_add_one_gt h hn
    simp [this, h]
  · rw [Nat.testBit_lt_two_pow (Nat.lt_of_not_le h)]
    simp [h]

theorem signedNumber_eq {m n : Nat} (hn : n < 2 ^ (m + 1)) :
    signedNumber (m + 1) n = if 2 ^ m ≤ n then (n : Int) - (2 * 2 ^ m : Nat) else (n : Int) := by
  simp [signedNumber, testBit_top hn, pow_succ']

/-! ### The flags (R132) -/

/-- R132: the result of the subtraction a - b at width w. -/
def subtractResult (w a b : Nat) : Nat := (a + 2 ^ w - b) % 2 ^ w

theorem subtractFlags_eq (w a b : Nat) : subtractFlags w a b =
    { z := subtractResult w a b == 0
      n := (subtractResult w a b).testBit (w - 1)
      c := a < b
      v := a.testBit (w - 1) != b.testBit (w - 1) && (subtractResult w a b).testBit (w - 1) != a.testBit (w - 1) } := rfl

theorem subtractResult_lt (w a b : Nat) : subtractResult w a b < 2 ^ w := Nat.mod_lt _ (Nat.two_pow_pos w)

section
variable {w a b m : Nat}

/-- The result is the difference, and 2^w more where that is negative. -/
theorem subtractResult_eq (ha : a < 2 ^ w) (hb : b < 2 ^ w) :
    subtractResult w a b = if a < b then a + 2 ^ w - b else a - b := by
  unfold subtractResult
  split
  · exact Nat.mod_eq_of_lt (by omega)
  · rw [show a + 2 ^ w - b = a - b + 2 ^ w by omega, Nat.add_mod_right, Nat.mod_eq_of_lt (by omega)]

/-- The result is the difference modulo 2^w. -/
theorem toNat_sub_emod (a : Nat) (hb : b < 2 ^ w) :
    (((a : Int) - (b : Int)) % 2 ^ w).toNat = subtractResult w a b := by
  have wrap : ((a : Int) - b) % 2 ^ w = ((a + 2 ^ w - b : Nat) : Int) % ((2 ^ w : Nat) : Int) := by
    rw [Nat.cast_sub (by omega)]
    push_cast
    rw [add_sub_right_comm, Int.add_emod_right]
  rw [wrap, ← Int.natCast_emod, Int.toNat_natCast, subtractResult]

theorem subtractFlags_z_iff_emod (a : Nat) (hb : b < 2 ^ w) :
    (subtractFlags w a b).z = true ↔ (((a : Int) - (b : Int)) % 2 ^ w).toNat = 0 := by
  rw [toNat_sub_emod a hb, subtractFlags_eq, beq_iff_eq]

theorem subtractFlags_n_eq_emod (a : Nat) (hb : b < 2 ^ w) :
    (subtractFlags w a b).n = (((a : Int) - (b : Int)) % 2 ^ w).toNat.testBit (w - 1) := by
  rw [toNat_sub_emod a hb, subtractFlags_eq]

theorem subtractFlags_z_iff_eq (ha : a < 2 ^ w) (hb : b < 2 ^ w) : (subtractFlags w a b).z = true ↔ a = b := by
  rw [subtractFlags_eq, subtractResult_eq ha hb, beq_iff_eq]
  split <;> omega

/-- N is set exactly when the result shows a negative number: 2^m or more of m + 1 bits. -/
theorem subtractFlags_n_iff : (subtractFlags (m + 1) a b).n = true ↔ 2 ^ m ≤ subtractResult (m + 1) a b := by
  rw [subtractFlags_eq, Nat.add_sub_cancel, testBit_top (subtractResult_lt _ _ _), decide_eq_true_iff]

theorem subtractFlags_c_iff : (subtractFlags w a b).c = true ↔ a < b := decide_eq_true_iff

/-- V is set exactly when the operands have different signs and the result not the first operand's. -/
theorem subtractFlags_v_iff_signs (ha : a < 2 ^ (m + 1)) (hb : b < 2 ^ (m + 1)) : (subtractFlags (m + 1) a b).v = true ↔
    ¬(2 ^ m ≤ a ↔ 2 ^ m ≤ b) ∧ ¬(2 ^ m ≤ subtractResult (m + 1) a b ↔ 2 ^ m ≤ a) := by
  rw [subtractFlags_eq]
  simp [testBit_top ha, testBit_top hb, testBit_top (subtractResult_lt _ _ _)]

/-- R132: V is set exactly when the signed difference does not fit in w bits. -/
theorem subtractFlags_v_iff_overflow (hw : 1 ≤ w) (ha : a < 2 ^ w) (hb : b < 2 ^ w) : (subtractFlags w a b).v = true ↔
    ¬(-(2 ^ (w - 1) : Int) ≤ signedNumber w a - signedNumber w b ∧
      signedNumber w a - signedNumber w b ≤ 2 ^ (w - 1) - 1) := by
  obtain ⟨m, rfl⟩ := Nat.exists_eq_add_of_le' hw
  have half : (2 : Int) ^ m = (2 ^ m : Nat) := by simp
  rw [subtractFlags_v_iff_signs ha hb, subtractResult_eq ha hb, signedNumber_eq ha, signedNumber_eq hb,
    Nat.add_sub_cancel, half]
  rw [Nat.pow_succ'] at *
  generalize 2 ^ m = h at *
  split <;> split <;> split <;> omega

/-- N and V differ exactly when the signed difference is negative: N is its sign where it fits in w bits, and the opposite
where it does not, which V shows. -/
theorem subtractFlags_n_ne_v (hw : 1 ≤ w) (ha : a < 2 ^ w) (hb : b < 2 ^ w) :
    ((subtractFlags w a b).n != (subtractFlags w a b).v) = true ↔ signedNumber w a < signedNumber w b := by
  obtain ⟨m, rfl⟩ := Nat.exists_eq_add_of_le' hw
  rw [bne_iff_ne, ne_eq, Bool.eq_iff_iff, subtractFlags_v_iff_signs ha hb, subtractFlags_n_iff, subtractResult_eq ha hb,
    signedNumber_eq ha, signedNumber_eq hb]
  rw [Nat.pow_succ'] at *
  generalize 2 ^ m = h at *
  split <;> split <;> split <;> omega

/-- Two numbers of w bits are equal exactly when they spell the same signed number. -/
theorem signedNumber_inj (hw : 1 ≤ w) (ha : a < 2 ^ w) (hb : b < 2 ^ w) :
    signedNumber w a = signedNumber w b ↔ a = b := by
  obtain ⟨m, rfl⟩ := Nat.exists_eq_add_of_le' hw
  rw [signedNumber_eq ha, signedNumber_eq hb]
  rw [Nat.pow_succ'] at *
  split <;> split <;> omega

/-- R133: the ordering that the flags of a subtraction give is that of the numbers compared. -/
theorem subtractFlags_ordering (hw : 1 ≤ w) (ha : a < 2 ^ w) (hb : b < 2 ^ w) (isSigned : Bool) :
    (subtractFlags w a b).ordering isSigned =
      numberOrdering (comparedNumber isSigned w a) (comparedNumber isSigned w b) := by
  cases isSigned with
  | false =>
    simp only [CompareFlags.ordering, numberOrdering, comparedNumber, subtractFlags_c_iff, subtractFlags_z_iff_eq ha hb,
      Bool.false_eq_true, if_false, Nat.cast_lt, Nat.cast_inj]
  | true =>
    simp only [CompareFlags.ordering, numberOrdering, comparedNumber, subtractFlags_n_ne_v hw ha hb,
      subtractFlags_z_iff_eq ha hb, signedNumber_inj hw ha hb, if_true]

end

theorem fieldOrdering_eq {k : Comparator} (hw : 1 ≤ k.width) (x : Word) :
    fieldOrdering k x =
      numberOrdering (comparedNumber k.isSigned k.width (maskedOperand k.width k.mask x))
        (comparedNumber k.isSigned k.width (maskedOperand k.width k.mask k.constant)) :=
  subtractFlags_ordering hw (maskedOperand_lt _ _ _) (maskedOperand_lt _ _ _) _

end Sys2Proof.Machine

namespace Sys2Proof.Proofs
open Sys2Proof Sys2Proof.Machine

/-- Settles O29: the flags of a subtraction order the numbers compared (`subtractFlags_ordering`), V being the overflow of
the signed difference. -/
theorem comparatorFlagsOrderingAndHit : Obligations.ComparatorFlagsOrderingAndHit := by
  refine ⟨fun k r => ?_, hitsOf_getLsbD_iff, fun k r x hw _ hx => ?_⟩
  · exact ⟨testedField_of_listens, testedField_of_not_listens, comparatorHit_of_none⟩
  · have ha := maskedOperand_lt k.width k.mask x
    have hb := maskedOperand_lt k.width k.mask k.constant
    have ordering := fieldOrdering_eq hw x
    refine ⟨subtractFlags_z_iff_emod _ hb, subtractFlags_n_eq_emod _ hb, subtractFlags_c_iff,
      subtractFlags_v_iff_overflow hw ha hb, ?_, ?_, ?_, ?_⟩
    · exact ordering ▸ numberOrdering_eq_lower
    · exact ordering ▸ numberOrdering_eq_equal
    · exact ordering ▸ numberOrdering_eq_higher
    · rw [comparatorHit_of_some hx, AcceptSet.admits_iff, ordering, numberOrdering_eq_lower, numberOrdering_eq_equal,
        numberOrdering_eq_higher]
      rfl

end Sys2Proof.Proofs
end

