-- ==== Sys2Proof/Proofs/PanelColours.lean ====
section
/-! PROOF. The colour of a pixel: one lemma for each step of R154, in the order of the rule, and the statement about the
three of them together. -/

namespace Sys2Proof.Machine

/-- R154 step 1, at a frame's mode: the mode and the index decide together whether the index changes. -/
theorem reduceIndex_of_mode (m : PanelMode) (i : BitVec 2) :
    (if m = .reduced then reduceIndex i else i) = if m = .reduced ∧ (i = 2 ∨ i = 3) then 1 else i := by
  rw [ite_and]
  rfl

/-- R154 step 2: flipping the low bit of an index is the exchange that the rule's table shows. -/
theorem invertIndex_eq_exchange :
    ∀ i : BitVec 2, invertIndex i = if i = 0 then 1 else if i = 1 then 0 else if i = 2 then 3 else 2 := by
  decide

theorem colourIndex_cases : ∀ i : BitVec 2, i = 0 ∨ i = 1 ∨ i = 2 ∨ i = 3 := by decide

/-- R154 step 3: which palette entry each index names. -/
theorem paletteEntry_eq (q : Quad (BitVec 16)) (i : BitVec 2) :
    paletteEntry q i = if i = 0 then q.e0 else if i = 1 then q.e1 else if i = 2 then q.e2 else q.e3 := by
  obtain rfl | rfl | rfl | rfl := colourIndex_cases i
  · rfl
  · rfl
  · rfl
  · rfl

end Sys2Proof.Machine

namespace Sys2Proof.Proofs
open Sys2Proof Sys2Proof.Machine

/-- Settles O51: the three steps of R154 one after the other, `reduceIndex_of_mode`, `invertIndex_eq_exchange` and
`paletteEntry_eq`. -/
theorem pixelColourPipeline : Obligations.PixelColourPipeline := by
  intro q p i a b
  have reduced : (if p.mode = .reduced then reduceIndex i else i) = a := reduceIndex_of_mode p.mode i
  have inverted : (if p.inversion then invertIndex a else a) = b := by rw [invertIndex_eq_exchange]
  calc pixelColour q p i = paletteEntry q (if p.inversion then invertIndex a else a) := by rw [← reduced]; rfl
    _ = paletteEntry q b := by rw [inverted]
    _ = if b = 0 then q.e0 else if b = 1 then q.e1 else if b = 2 then q.e2 else q.e3 := paletteEntry_eq q b

end Sys2Proof.Proofs
end

