-- ==== Sys2Proof/Proofs/Commands.lean ====
section
/-! PROOF. Steps and commands: an invariant of a step is one of a tick and of each command; and what each command leaves
alone of the blocks that the invariants look at. -/

namespace Sys2Proof.Machine

/-- An invariant that a tick and every command keep, and that does not look at the commands waiting, is kept by every step. -/
theorem step_keeps {P : State → Prop} (pending : ∀ {s : State} (rest : List Instr), P s → P { s with pending := rest })
    (tick : ∀ {s : State}, P s → P s.tick) (command : ∀ (i : Instr) {s t : State}, exec i s = .next t → P s → P t)
    {s t : State} (h : P s) (e : step s = .next t) : P t := by
  unfold step at e
  split at e
  · cases e; exact tick h
  · exact command _ e (pending _ h)

/-! ### The fields after a STATUS is posted -/

@[simp] theorem State.postStatus_tau (s : State) : s.postStatus.tau = s.tau := by rw [State.postStatus_eq]
@[simp] theorem State.postStatus_pfe (s : State) : s.postStatus.pfe = s.pfe := by rw [State.postStatus_eq]
@[simp] theorem State.postStatus_cst (s : State) : s.postStatus.cst = s.cst := by rw [State.postStatus_eq]
@[simp] theorem State.postStatus_tsq (s : State) : s.postStatus.tsq = s.tsq := by rw [State.postStatus_eq]
@[simp] theorem State.postStatus_dec (s : State) : s.postStatus.dec = s.dec := by rw [State.postStatus_eq]
@[simp] theorem State.postStatus_log (s : State) : s.postStatus.log = s.log := by rw [State.postStatus_eq]
@[simp] theorem State.postStatus_fc (s : State) : s.postStatus.fc = s.fc := by rw [State.postStatus_eq]
@[simp] theorem State.postStatus_ren (s : State) : s.postStatus.ren = s.ren := by rw [State.postStatus_eq]
@[simp] theorem State.postStatus_port (s : State) : s.postStatus.port = s.port := by rw [State.postStatus_eq]
@[simp] theorem State.postStatus_sul (s : State) : s.postStatus.sul = s.sul := by rw [State.postStatus_eq]
@[simp] theorem State.postStatus_pending (s : State) : s.postStatus.pending = s.pending := by rw [State.postStatus_eq]
@[simp] theorem State.postStatus_freeCount (s : State) : s.postStatus.freeCount = s.freeCount := by rw [State.postStatus_eq]

/-! ### Frames -/

/-- A property that the reading of a frame and the taking of it keep is kept by a frame command. -/
theorem State.onFrame_keeps {P : State → Prop} {s : State} {i : Instr} {taken : State → State}
    (read : ∀ bits, P (s.setLnk (s.lnk.readFrame bits))) (take : ∀ t, P t → P (taken t)) (h : P s) :
    P (s.onFrame i taken) := by
  unfold State.onFrame
  split
  · split
    · exact take _ (read _)
    · exact h
  · exact h

/-! ### What the commands of the message line leave alone -/

/-- A state with its link controller left out. -/
def State.besidesLnk (s : State) : State := s.setLnk State.reset.lnk

@[simp] theorem State.setLnk_besidesLnk (s : State) (l : Lnk) : (s.setLnk l).besidesLnk = s.besidesLnk := rfl
@[simp] theorem State.enqueue_besidesLnk (s : State) (e : QueueEntry) : (s.enqueue e).besidesLnk = s.besidesLnk := rfl

@[simp] theorem State.postStatus_besidesLnk (s : State) : s.postStatus.besidesLnk = s.besidesLnk := by
  rw [State.postStatus_eq]; rfl

@[simp] theorem State.postDone_besidesLnk (s : State) (d : Done) : (s.postDone d).besidesLnk = s.besidesLnk := by
  rw [State.postDone_eq]; rfl

@[simp] theorem State.postData_besidesLnk (s : State) (r : DataRecord) : (s.postData r).besidesLnk = s.besidesLnk := by
  unfold State.postData; split <;> rfl

@[simp] theorem State.cutStream_besidesLnk (s : State) : s.cutStream.besidesLnk = s.besidesLnk := by
  unfold State.cutStream; split <;> simp

@[simp] theorem State.makeStream_besidesLnk (s : State) (c : Byte) (key : Word) (n : Nat) :
    (s.makeStream c key n).besidesLnk = s.besidesLnk := by
  unfold State.makeStream
  split
  · simp
  · split <;> simp

@[simp] theorem State.read_besidesLnk (s : State) (c : Byte) (key : Word) (n : Nat) :
    (s.read c key n).besidesLnk = s.besidesLnk := by
  unfold State.read; split <;> simp

@[simp] theorem State.keepStream_besidesLnk (s : State) (t : Stream) : (s.keepStream t).besidesLnk = s.besidesLnk := by
  unfold State.keepStream; split <;> simp

@[simp] theorem State.formData_besidesLnk (s : State) (t : Stream) : (s.formData t).besidesLnk = s.besidesLnk := by
  unfold State.formData; split <;> simp

/-- A frame that a block takes without changing more than the link controller changes no more than that. -/
theorem State.onFrame_besidesLnk (s : State) (i : Instr) {taken : State → State}
    (h : ∀ t, (taken t).besidesLnk = t.besidesLnk) : (s.onFrame i taken).besidesLnk = s.besidesLnk :=
  State.onFrame_keeps (P := fun t => t.besidesLnk = s.besidesLnk) (fun _ => rfl) (fun t e => (h t).trans e) rfl

/-- The commands that change the link controller alone. -/
def changesLnkAlone : Instr → Bool
  | .driverPresent | .flagLineChange _ _ | .query _ _ | .read _ _ _ _ _ | .replyFrameReceived _ _ _
  | .unaddressedFrameReceived _ _ _ | .receiveFault _ | .lineIdle | .frameBegin | .arbitrationLost _ | .bitError _
  | .transmissionComplete | .statusOwedJoin | .heldDoneJoin | .dataFormation => true
  | _ => false

/-- All but the link controller stands under every such command. -/
theorem exec_besidesLnk {i : Instr} {s t : State} (alone : changesLnkAlone i = true) (e : exec i s = .next t) :
    t.besidesLnk = s.besidesLnk := by
  cases i with
  | driverPresent => cases e; unfold State.driverPresent; split <;> rfl
  | flagLineChange line asserted => cases e; unfold State.flagLineChange; split <;> rfl
  | query source target => cases e; exact State.onFrame_besidesLnk _ _ (fun t => by split <;> simp)
  | read source target collection key count =>
    cases e; exact State.onFrame_besidesLnk _ _ (fun t => by split <;> simp)
  | replyFrameReceived kind source payload => cases e; exact State.onFrame_besidesLnk _ _ (fun _ => rfl)
  | unaddressedFrameReceived kind source payload =>
    cases e; split
    · rfl
    · exact State.onFrame_besidesLnk _ _ (fun _ => rfl)
  | receiveFault f => cases e; unfold State.receiveFault; split <;> [(split <;> rfl); rfl]
  | lineIdle => cases e; unfold State.lineIdle; split <;> rfl
  | frameBegin => cases e; unfold State.frameBegin; split <;> [(split <;> rfl); rfl]
  | arbitrationLost bit => cases e; unfold State.arbitrationLost; split <;> rfl
  | bitError bit => cases e; unfold State.bitError; split <;> rfl
  | transmissionComplete => cases e; unfold State.transmissionComplete; split <;> rfl
  | statusOwedJoin => cases e; unfold State.statusOwedJoin; split <;> rfl
  | heldDoneJoin => cases e; unfold State.heldDoneJoin; split <;> [rfl; (split <;> rfl)]
  | dataFormation =>
    cases e; unfold State.dataFormation; split
    · split
      · exact State.formData_besidesLnk _ _
      · rfl
    · rfl
  | _ => cases alone

theorem ren_of_besidesLnk {s t : State} (h : t.besidesLnk = s.besidesLnk) : t.ren = s.ren := by have e := congrArg State.ren h; exact e

/-! ### What the commands of the panel and of the pins leave alone -/

/-- A state with the probe front end, the render engine, the panel port and the link controller left out. -/
def State.inner (s : State) : State :=
  { s with pfe := State.reset.pfe, ren := State.reset.ren, port := State.reset.port, lnk := State.reset.lnk }

theorem inner_of_besidesLnk {s t : State} (h : t.besidesLnk = s.besidesLnk) : t.inner = s.inner :=
  by have e := congrArg State.inner h; exact e

theorem State.wakeIfAsleep_inner (s : State) : s.wakeIfAsleep.inner = s.inner := by
  unfold State.wakeIfAsleep; split <;> rfl

/-- The commands that change at most the probe front end, the render engine, the panel port and the link controller. -/
def sparesInner : Instr → Bool
  | .levelChange _ _ | .view _ _ _ _ _ | .panel _ _ _ _ _ _ | .frameStart | .columnRender | .renderComplete
  | .transferComplete | .sleepStart | .sleepComplete => true
  | i => changesLnkAlone i

/-- The inner blocks stand under every such command. -/
theorem exec_inner {i : Instr} {s t : State} (spares : sparesInner i = true) (e : exec i s = .next t) :
    t.inner = s.inner := by
  cases i with
  | levelChange c input => cases e; unfold State.levelChange; dsimp only; split <;> rfl
  | view source segment offset scale follow =>
    cases e; exact State.onFrame_keeps (P := fun t => t.inner = s.inner) (fun _ => rfl) (fun _ e => e) rfl
  | panel source target mode first last inversion =>
    cases e
    refine State.onFrame_keeps (P := fun t => t.inner = s.inner) (fun _ => rfl) (fun t e => ?_) rfl
    split
    · exact (State.wakeIfAsleep_inner _).trans e
    · exact e
  | frameStart => cases e; unfold State.frameStart; split <;> rfl
  | columnRender => cases e; unfold State.columnRender; split <;> [(split <;> rfl); rfl]
  | renderComplete => cases e; unfold State.renderComplete; split <;> [(split <;> rfl); rfl]
  | transferComplete => cases e; unfold State.transferComplete; split <;> [(split <;> rfl); rfl]
  | sleepStart => cases e; unfold State.sleepStart; split <;> rfl
  | sleepComplete => cases e; unfold State.sleepComplete; split <;> [exact State.wakeIfAsleep_inner _; rfl]
  | _ => first | exact inner_of_besidesLnk (exec_besidesLnk rfl e) | cases spares

section
variable {s t : State} (h : t.inner = s.inner)
include h

theorem tau_of_inner : t.tau = s.tau := by have e := congrArg State.tau h; exact e
theorem run_of_inner : t.run = s.run := by have e := congrArg State.run h; exact e
theorem cst_of_inner : t.cst = s.cst := by have e := congrArg State.cst h; exact e
theorem tsq_of_inner : t.tsq = s.tsq := by have e := congrArg State.tsq h; exact e
theorem log_of_inner : t.log = s.log := by have e := congrArg State.log h; exact e
theorem sul_of_inner : t.sul = s.sul := by have e := congrArg State.sul h; exact e

end

/-! ### The join (R178) -/

/-- A state as the join tick leaves it before its STATUS is posted and the panel starts. -/
def State.joining (s : State) (levels : JoinLevels) : State :=
  { s with
    sul := { s.sul with joined := true, imageBad := s.sul.imageState == .bad }
    tau := { s.tau with monitorRunning := s.options.referenceClock, markLine := levels.markAsserted, pulseWidth := 0 }
    lnk := { s.lnk with
      receiver := .waiting, idleCount := 0, framePosition := none, lineRecessive := levels.messageRecessive,
      driversEnabled := s.sul.strap != 7 }
    ren := { s.ren with frameTimer := 0 } }

theorem State.join_eq (s : State) (levels : JoinLevels) : s.join levels =
    if s.sul.imageState ≠ .reading ∧ s.sul.joined = false ∧ s.sul.resetHeld = false then
      (s.joining levels).postStatus.startPanel
    else s := rfl

@[simp] theorem State.startPanel_inner (s : State) : s.startPanel.inner = s.inner := by
  unfold State.startPanel
  split
  · rfl
  · exact State.wakeIfAsleep_inner s

/-! ### The commands of the timebase and of samples -/

namespace SamplingKeeps
variable {P : State → Prop} (k : SamplingKeeps P) {s : State}
include k

theorem trialWindow (inRange : Bool) (h : P s) : P (s.trialWindow inRange) := by
  unfold State.trialWindow
  extract_lets run count t
  split
  · exact k.switchClock _ (k.setTau _ h)
  · split <;> exact k.setTau _ h

theorem watchWindow (inRange : Bool) (h : P s) : P (s.watchWindow inRange) := by
  unfold State.watchWindow
  split
  · exact k.setTau _ h
  · exact k.switchClock _ (k.setTau _ h)

theorem windowEnd (edges : Nat) (h : P s) : P (s.windowEnd edges) := by
  unfold State.windowEnd
  split
  · split
    · exact k.watchWindow _ h
    · exact k.trialWindow _ h
  · exact h

theorem emissionTimerExpiry (h : P s) : P s.emissionTimerExpiry := by
  unfold State.emissionTimerExpiry State.driveStartMark
  dsimp only
  split
  · split <;> split
    · exact k.setTau _ h
    · exact k.setTau _ h
    · exact k.observeLeadingEdge (k.setTau _ h)
    · exact k.observeLeadingEdge (k.setTau _ h)
  · exact h

theorem markPulseEnd (h : P s) : P s.markPulseEnd := by
  unfold State.markPulseEnd
  split
  · exact k.setTau _ h
  · exact h

theorem leadingEdge (h : P s) : P s.leadingEdge := by
  unfold State.leadingEdge State.driveStartMark
  dsimp only
  split
  · split
    · exact k.setTau _ (k.observeLeadingEdge h)
    · exact k.observeLeadingEdge h
  · exact h

theorem trailingEdge (h : P s) : P s.trailingEdge := by
  unfold State.trailingEdge
  dsimp only
  split
  · split
    · exact k.postStatus (k.setTau _ (k.setTau _ h))
    · split
      · exact k.startRun (k.setTau _ h)
      · exact k.setTau _ (k.setTau _ h)
  · exact h

theorem markStuck (h : P s) : P s.markStuck := by
  unfold State.markStuck
  split
  · exact k.postStatus (k.setTau _ h)
  · exact h

theorem synthesizedMark (h : P s) : P s.synthesizedMark := by
  unfold State.synthesizedMark
  split
  · exact k.setTau _ (k.markEdgeStep (k.setTau _ h))
  · exact h

theorem sample (h : P s) : P s.sample := by
  unfold State.sample
  split
  · exact k.takeSample h
  · exact h

theorem stop (h : P s) : P s.stop := by
  unfold State.stop
  split
  · exact h
  · exact k.postStatus (k.elsewhere h rfl rfl rfl rfl rfl)
  · exact k.closeAndEnd _ h
  · exact k.closeAndEnd _ h
  · exact k.closeAndEnd _ h

end SamplingKeeps

end Sys2Proof.Machine
end

