-- ==== Sys2Proof/Proofs/StoreInv.lean ====
section
/-! PROOF. Every step keeps the law of the decode log (R121, R122, R125) and the canonical form of the stores. Both look at
nothing that a sample changes but through the six shared operations of `SamplingKeeps`. -/

namespace Sys2Proof.Machine

/-! ### The decode log -/

theorem LogLaw.powerStart : LogLaw Log.powerStart :=
  ⟨by decide, List.Pairwise.nil, fun _ hr => (by cases hr), by decide, by decide⟩

theorem LogLaw.arm {s : State} (h : LogLaw s.log) (b : Byte) : LogLaw (s.arm b).log := by
  unfold State.arm State.takeArm State.refuse
  split
  · split
    · rw [State.postStatus_log]; exact LogLaw.powerStart
    · rw [State.postStatus_log]; exact h
  · rw [State.postStatus_log]; exact h

theorem LogLaw.setup {s : State} (h : LogLaw s.log) (u : RunSetup) : LogLaw (s.setup u).log := by
  unfold State.setup State.refuse
  split
  · exact h
  · rw [State.postStatus_log]; exact h

theorem LogLaw.notice {s : State} (h : LogLaw s.log) (source : Station) (i time : Nat) :
    LogLaw (s.notice source i time).log := by
  unfold State.notice; dsimp only; split <;> exact h

theorem LogLaw.linkStart {s : State} (h : LogLaw s.log) (strap : Station) : LogLaw (s.linkStart strap).log :=
  samplingKeeps_logLaw.flushDecoders (samplingKeeps_logLaw.endRunTime (samplingKeeps_logLaw.recover h))

@[simp] theorem State.foldl_markNoticeDropped_log (l : List Nat) (s : State) :
    (l.foldl State.markNoticeDropped s).log = s.log := by
  induction l generalizing s with
  | nil => rfl
  | cons i rest ih => exact ih _

theorem LogLaw.duplicateId {s : State} (h : LogLaw s.log) (bit : Nat) : LogLaw (s.duplicateId bit).log := by
  unfold State.duplicateId
  split
  · rw [State.postStatus_log, State.foldl_markNoticeDropped_log]; exact h
  · exact h

theorem LogLaw.imageAttempt {s : State} (h : LogLaw s.log) (bytes : List Byte) (im : RawImage) :
    LogLaw (s.imageAttempt bytes im).log := by
  unfold State.imageAttempt
  split
  · split
    · exact h
    · split <;> exact h
  · exact h

theorem LogLaw.joinTick {s : State} (h : LogLaw s.log) (levels : JoinLevels) : LogLaw (s.join levels).log := by
  rw [State.join_eq]
  split
  · rw [log_of_inner (State.startPanel_inner _), State.postStatus_log]; exact h
  · exact h

theorem LogLaw.command (i : Instr) {s t : State} (e : exec i s = .next t) (h : LogLaw s.log) : LogLaw t.log := by
  have frame {i : Instr} {taken : State → State} (take : ∀ t : State, LogLaw t.log → LogLaw (taken t).log) :
      LogLaw (s.onFrame i taken).log := State.onFrame_keeps (P := fun t => LogLaw t.log) (fun _ => h) take h
  cases i with
  | windowEnd edges => cases e; exact samplingKeeps_logLaw.windowEnd edges h
  | emissionTimerExpiry => cases e; exact samplingKeeps_logLaw.emissionTimerExpiry h
  | markPulseEnd => cases e; exact samplingKeeps_logLaw.markPulseEnd h
  | leadingEdge => cases e; exact samplingKeeps_logLaw.leadingEdge h
  | trailingEdge => cases e; exact samplingKeeps_logLaw.trailingEdge h
  | markStuck => cases e; exact samplingKeeps_logLaw.markStuck h
  | synthesizedMark => cases e; exact samplingKeeps_logLaw.synthesizedMark h
  | sample => cases e; exact samplingKeeps_logLaw.sample h
  | restart source target straps =>
    cases e; exact frame (fun t ht => by split <;> [exact LogLaw.linkStart ht straps; exact ht])
  | stop source => cases e; exact frame (fun t ht => samplingKeeps_logLaw.stop ht)
  | arm source profile => cases e; exact frame (fun t ht => LogLaw.arm ht profile)
  | notice source segment time => cases e; exact frame (fun t ht => LogLaw.notice ht ..)
  | setup source divider segments options codeA codeB => cases e; exact frame (fun t ht => LogLaw.setup ht _)
  | duplicateId bit => cases e; exact LogLaw.duplicateId h bit
  | powerUp straps => cases e; exact LogLaw.powerStart
  | resetPinAssert => cases e; exact h
  | resetPinRelease straps =>
    cases e; unfold State.resetPinRelease; split <;> [exact samplingKeeps_logLaw.recover h; exact h]
  | imageAttempt bytes image => cases e; exact LogLaw.imageAttempt h bytes image
  | join levels => cases e; exact LogLaw.joinTick h levels
  | _ => rw [log_of_inner (exec_inner rfl e)]; exact h

theorem LogLaw.tick {s : State} (h : LogLaw s.log) : LogLaw s.tick.log := by
  unfold State.tick; split <;> exact h

/-! ### The stores -/

/-- The form looks at the two stores of CST and at the frame store alone. -/
theorem StoresCanonical.congr {s t : State} (h : StoresCanonical s) (cst : t.cst = s.cst) (ren : t.ren = s.ren) :
    StoresCanonical t := ⟨cst ▸ h.store, cst ▸ h.checkpoints, ren ▸ h.frameStore⟩

theorem StoresCanonical.postStatus {s : State} (h : StoresCanonical s) : StoresCanonical s.postStatus :=
  samplingKeeps_storesCanonical.postStatus h

theorem StoresCanonical.arm {s : State} (h : StoresCanonical s) (b : Byte) : StoresCanonical (s.arm b) := by
  unfold State.arm State.takeArm State.refuse
  split
  · split
    · exact StoresCanonical.postStatus ⟨h.store, rfl, h.frameStore⟩
    · exact StoresCanonical.postStatus (h.congr rfl rfl)
  · exact StoresCanonical.postStatus (h.congr rfl rfl)

theorem StoresCanonical.setup {s : State} (h : StoresCanonical s) (u : RunSetup) : StoresCanonical (s.setup u) := by
  unfold State.setup State.refuse
  split
  · exact h.congr rfl rfl
  · exact StoresCanonical.postStatus (h.congr rfl rfl)

theorem StoresCanonical.notice {s : State} (h : StoresCanonical s) (source : Station) (i time : Nat) :
    StoresCanonical (s.notice source i time) := by
  unfold State.notice; dsimp only; split <;> exact h.congr rfl rfl

theorem StoresCanonical.linkStart {s : State} (h : StoresCanonical s) (strap : Station) :
    StoresCanonical (s.linkStart strap) :=
  have k := samplingKeeps_storesCanonical
  have f := k.flushDecoders (k.endRunTime (k.recover h))
  ⟨f.store, f.checkpoints, f.frameStore⟩

theorem StoresCanonical.pinStart {s : State} (h : StoresCanonical s) (strap : Station) :
    StoresCanonical (s.pinStart strap) :=
  have r := samplingKeeps_storesCanonical.recover h
  ⟨r.store, r.checkpoints, r.frameStore⟩

theorem StoresCanonical.duplicateId {s : State} (h : StoresCanonical s) (bit : Nat) :
    StoresCanonical (s.duplicateId bit) := by
  have drops (l : List Nat) : ∀ s : State, StoresCanonical s → StoresCanonical (l.foldl State.markNoticeDropped s) := by
    induction l with
    | nil => exact fun _ hs => hs
    | cons i rest ih => exact fun s hs => ih _ (hs.congr rfl rfl)
  unfold State.duplicateId
  split
  · exact StoresCanonical.postStatus (drops _ _ (h.congr rfl rfl))
  · exact h

theorem StoresCanonical.imageAttempt {s : State} (h : StoresCanonical s) (bytes : List Byte) (im : RawImage) :
    StoresCanonical (s.imageAttempt bytes im) := by
  unfold State.imageAttempt
  split
  · split
    · exact ⟨h.store, h.checkpoints, h.frameStore⟩
    · split <;> exact ⟨h.store, h.checkpoints, h.frameStore⟩
  · exact h

theorem StoresCanonical.wakeIfAsleep {s : State} (h : StoresCanonical s) : StoresCanonical s.wakeIfAsleep := by
  unfold State.wakeIfAsleep
  split
  · exact ⟨h.store, h.checkpoints, h.frameStore⟩
  · exact h

theorem StoresCanonical.startPanel {s : State} (h : StoresCanonical s) : StoresCanonical s.startPanel := by
  unfold State.startPanel
  split
  · exact h.congr rfl rfl
  · exact h.wakeIfAsleep

theorem StoresCanonical.join {s : State} (h : StoresCanonical s) (levels : JoinLevels) :
    StoresCanonical (s.join levels) := by
  rw [State.join_eq]
  split
  · exact StoresCanonical.startPanel (StoresCanonical.postStatus ⟨h.store, h.checkpoints, h.frameStore⟩)
  · exact h

theorem StoresCanonical.columnRender {s : State} (h : StoresCanonical s) : StoresCanonical s.columnRender := by
  unfold State.columnRender
  split
  · split
    · exact ⟨h.store, h.checkpoints, writeEnded_wf _ _ (writeColumn_wf _ _ h.frameStore ..) ..⟩
    · exact h
  · exact h

theorem StoresCanonical.renderComplete {s : State} (h : StoresCanonical s) : StoresCanonical s.renderComplete := by
  unfold State.renderComplete
  split
  · split
    · exact ⟨h.store, h.checkpoints, finishRuns_wf _ _ h.frameStore _⟩
    · exact h
  · exact h

theorem StoresCanonical.command (i : Instr) {s t : State} (e : exec i s = .next t) (h : StoresCanonical s) :
    StoresCanonical t := by
  have frame {i : Instr} {taken : State → State} (take : ∀ t : State, StoresCanonical t → StoresCanonical (taken t)) :
      StoresCanonical (s.onFrame i taken) := State.onFrame_keeps (fun _ => h.congr rfl rfl) take h
  have k := samplingKeeps_storesCanonical
  cases i with
  | windowEnd edges => cases e; exact k.windowEnd edges h
  | emissionTimerExpiry => cases e; exact k.emissionTimerExpiry h
  | markPulseEnd => cases e; exact k.markPulseEnd h
  | leadingEdge => cases e; exact k.leadingEdge h
  | trailingEdge => cases e; exact k.trailingEdge h
  | markStuck => cases e; exact k.markStuck h
  | synthesizedMark => cases e; exact k.synthesizedMark h
  | sample => cases e; exact k.sample h
  | levelChange c input =>
    cases e; unfold State.levelChange; dsimp only; split <;> exact h.congr rfl rfl
  | restart source target straps => cases e; exact frame (fun t ht => by split <;> [exact ht.linkStart straps; exact ht])
  | stop source => cases e; exact frame (fun t ht => k.stop ht)
  | arm source profile => cases e; exact frame (fun t ht => ht.arm profile)
  | notice source segment time => cases e; exact frame (fun t ht => ht.notice ..)
  | setup source divider segments options codeA codeB => cases e; exact frame (fun t ht => ht.setup _)
  | view source segment offset scale follow => cases e; exact frame (fun t ht => ⟨ht.store, ht.checkpoints, ht.frameStore⟩)
  | panel source target mode first last inversion =>
    cases e
    exact frame (fun t ht => by split <;> [exact StoresCanonical.wakeIfAsleep (ht.congr rfl rfl); exact ht])
  | duplicateId bit => cases e; exact h.duplicateId bit
  | frameStart =>
    cases e; unfold State.frameStart; split <;> [exact ⟨h.store, h.checkpoints, h.frameStore⟩; exact h]
  | columnRender => cases e; exact h.columnRender
  | renderComplete => cases e; exact h.renderComplete
  | transferComplete =>
    cases e; unfold State.transferComplete
    split
    · split <;> exact ⟨h.store, h.checkpoints, h.frameStore⟩
    · exact h
  | sleepStart => cases e; unfold State.sleepStart; split <;> exact h.congr rfl rfl
  | sleepComplete =>
    cases e; unfold State.sleepComplete
    split <;> [exact StoresCanonical.wakeIfAsleep (h.congr rfl rfl); exact h]
  | powerUp straps => cases e; exact ⟨rfl, rfl, rfl⟩
  | resetPinAssert => cases e; exact h.congr rfl rfl
  | resetPinRelease straps =>
    cases e; unfold State.resetPinRelease; split <;> [exact h.pinStart straps; exact h]
  | imageAttempt bytes image => cases e; exact h.imageAttempt bytes image
  | join levels => cases e; exact h.join levels
  | _ =>
    have b := exec_besidesLnk rfl e
    exact h.congr (cst_of_inner (inner_of_besidesLnk b)) (ren_of_besidesLnk b)

theorem StoresCanonical.tick {s : State} (h : StoresCanonical s) : StoresCanonical s.tick := by
  unfold State.tick
  split
  · exact ⟨h.store, h.checkpoints, h.frameStore⟩
  · exact h

end Sys2Proof.Machine

namespace Sys2Proof.Proofs
open Sys2Proof Sys2Proof.Machine

/-- Settles O8: `LogLaw.tick` and, command by command, `LogLaw.command`. -/
theorem stepKeepsLogLaw : Obligations.StepKeepsLogLaw :=
  fun _ _ h e => step_keeps (P := fun s => LogLaw s.log) (fun _ h => h) LogLaw.tick LogLaw.command h e

/-- Settles O4: `StoresCanonical.tick` and, command by command, `StoresCanonical.command`. -/
theorem stepKeepsStoresCanonical : Obligations.StepKeepsStoresCanonical :=
  fun _ _ h e => step_keeps (P := StoresCanonical) (fun _ h => h.congr rfl rfl) StoresCanonical.tick StoresCanonical.command h e

end Sys2Proof.Proofs
end

