-- ==== Sys2Proof/Proofs/LockInv.lean ====
section
/-! PROOF. Every step keeps the law of lock (R12 to R14): K and the lock state come from the history wherever an interval is
measured, and everything else leaves the three of them as they were or unlocks. -/

namespace Sys2Proof.Machine

theorem LockLaw.start : LockLaw Tau.start :=
  ⟨by decide, fun _ hm => (by cases hm), by decide, rfl, by decide⟩

theorem LockLaw.trialWindow {s : State} (h : LockLaw s.tau) (inRange : Bool) : LockLaw (s.trialWindow inRange).tau := by
  unfold State.trialWindow
  extract_lets run count t
  split
  · exact State.switchClock_lockLaw _ _
  · split <;> exact h.congr rfl rfl rfl

theorem LockLaw.windowEnd {s : State} (h : LockLaw s.tau) (edges : Nat) : LockLaw (s.windowEnd edges).tau := by
  unfold State.windowEnd State.watchWindow
  split
  · split
    · split
      · exact h.congr rfl rfl rfl
      · exact State.switchClock_lockLaw _ _
    · exact h.trialWindow _
  · exact h

theorem LockLaw.driveStartMark {s : State} (h : LockLaw s.tau) : LockLaw s.driveStartMark.tau := h.congr rfl rfl rfl

theorem LockLaw.emissionTimerExpiry {s : State} (h : LockLaw s.tau) : LockLaw s.emissionTimerExpiry.tau := by
  have driven : LockLaw (if s.tau.startPending then s.driveStartMark else s.setTau { s.tau with markDrive := some 8 }).tau := by
    split
    · exact h.driveStartMark
    · exact h.congr rfl rfl rfl
  unfold State.emissionTimerExpiry
  split
  · dsimp only
    split
    · exact driven
    · exact State.observeLeadingEdge_lockLaw driven
  · exact h

theorem LockLaw.leadingEdge' {s : State} (h : LockLaw s.tau) : LockLaw s.leadingEdge.tau := by
  unfold State.leadingEdge
  split
  · dsimp only
    split
    · exact (State.observeLeadingEdge_lockLaw h).driveStartMark
    · exact State.observeLeadingEdge_lockLaw h
  · exact h

theorem LockLaw.startRun {s : State} (h : LockLaw s.tau) : LockLaw s.startRun.tau := by
  unfold State.startRun
  extract_lets _src t u
  refine LockLaw.of_still (s := u) (h.congr rfl rfl rfl) (congrArg Still.tau ?_)
  rw [State.takeAllDue_still, State.openSegment_still]

theorem LockLaw.trailingEdge {s : State} (h : LockLaw s.tau) : LockLaw s.trailingEdge.tau := by
  unfold State.trailingEdge
  split
  · extract_lets _src released
    have hr : LockLaw released.tau := h.congr rfl rfl rfl
    split
    · rw [State.postStatus_tau]; exact hr.congr rfl rfl rfl
    · split
      · exact hr.startRun
      · exact hr.congr rfl rfl rfl
  · exact h

theorem LockLaw.markStuck {s : State} (h : LockLaw s.tau) : LockLaw s.markStuck.tau := by
  unfold State.markStuck
  split
  · rw [State.postStatus_tau]; exact (LockLaw.unlock s.tau.rebase).congr rfl rfl rfl
  · exact h

theorem LockLaw.synthesizedMark {s : State} (h : LockLaw s.tau) : LockLaw s.synthesizedMark.tau := by
  unfold State.synthesizedMark
  split
  · exact LockLaw.unlock _
  · exact h

theorem LockLaw.sample {s : State} (h : LockLaw s.tau) : LockLaw s.sample.tau := by
  unfold State.sample
  split
  · exact h.of_still (congrArg Still.tau (State.takeSample_still s))
  · exact h

theorem LockLaw.stop {s : State} (h : LockLaw s.tau) : LockLaw s.stop.tau := by
  have ended : LockLaw (s.closeAndEnd .stopped).tau :=
    h.of_still (congrArg Still.tau (State.closeAndEnd_still s .stopped))
  unfold State.stop State.abandonStart
  split
  · exact h
  · rw [State.postStatus_tau]; exact h.congr rfl rfl rfl
  · exact ended
  · exact ended
  · exact ended

theorem LockLaw.arm {s : State} (h : LockLaw s.tau) (b : Byte) : LockLaw (s.arm b).tau := by
  unfold State.arm State.takeArm State.refuse
  split
  · split
    · rw [State.postStatus_tau]; exact h.congr rfl rfl rfl
    · rw [State.postStatus_tau]; exact h
  · rw [State.postStatus_tau]; exact h

theorem LockLaw.setup {s : State} (h : LockLaw s.tau) (u : RunSetup) : LockLaw (s.setup u).tau := by
  unfold State.setup State.refuse
  split
  · exact h
  · rw [State.postStatus_tau]; exact h

theorem LockLaw.notice {s : State} (h : LockLaw s.tau) (source : Station) (i time : Nat) :
    LockLaw (s.notice source i time).tau := by
  unfold State.notice; dsimp only; split <;> exact h

theorem State.foldl_markNoticeDropped_tau (l : List Nat) (s : State) : (l.foldl State.markNoticeDropped s).tau = s.tau := by
  induction l generalizing s with
  | nil => rfl
  | cons i rest ih => exact ih _

theorem LockLaw.duplicateId {s : State} (h : LockLaw s.tau) (bit : Nat) : LockLaw (s.duplicateId bit).tau := by
  unfold State.duplicateId
  split
  · rw [State.postStatus_tau, State.foldl_markNoticeDropped_tau]; exact h
  · exact h

theorem LockLaw.imageAttempt {s : State} (h : LockLaw s.tau) (bytes : List Byte) (im : RawImage) :
    LockLaw (s.imageAttempt bytes im).tau := by
  unfold State.imageAttempt
  split
  · split
    · exact h
    · split <;> exact h
  · exact h

theorem LockLaw.join {s : State} (h : LockLaw s.tau) (levels : JoinLevels) : LockLaw (s.join levels).tau := by
  rw [State.join_eq]
  split
  · rw [tau_of_inner (State.startPanel_inner _), State.postStatus_tau]; exact h.congr rfl rfl rfl
  · exact h

theorem LockLaw.command (i : Instr) {s t : State} (e : exec i s = .next t) (h : LockLaw s.tau) : LockLaw t.tau := by
  have frame {i : Instr} {taken : State → State} (take : ∀ t : State, LockLaw t.tau → LockLaw (taken t).tau) :
      LockLaw (s.onFrame i taken).tau := State.onFrame_keeps (P := fun t => LockLaw t.tau) (fun _ => h) take h
  cases i with
  | windowEnd edges => cases e; exact h.windowEnd edges
  | emissionTimerExpiry => cases e; exact h.emissionTimerExpiry
  | markPulseEnd => cases e; unfold State.markPulseEnd; split <;> [exact h.congr rfl rfl rfl; exact h]
  | leadingEdge => cases e; exact h.leadingEdge'
  | trailingEdge => cases e; exact h.trailingEdge
  | markStuck => cases e; exact h.markStuck
  | synthesizedMark => cases e; exact h.synthesizedMark
  | sample => cases e; exact h.sample
  | restart source target straps => cases e; exact frame (fun t ht => by split <;> [exact LockLaw.start; exact ht])
  | stop source => cases e; exact frame (fun t ht => ht.stop)
  | arm source profile => cases e; exact frame (fun t ht => ht.arm profile)
  | notice source segment time => cases e; exact frame (fun t ht => ht.notice ..)
  | setup source divider segments options codeA codeB => cases e; exact frame (fun t ht => ht.setup _)
  | duplicateId bit => cases e; exact h.duplicateId bit
  | powerUp straps => cases e; exact LockLaw.start
  | resetPinAssert => cases e; exact h
  | resetPinRelease straps => cases e; unfold State.resetPinRelease; split <;> [exact LockLaw.start; exact h]
  | imageAttempt bytes image => cases e; exact h.imageAttempt bytes image
  | join levels => cases e; exact h.join levels
  | _ => rw [tau_of_inner (exec_inner rfl e)]; exact h

theorem LockLaw.tick {s : State} (h : LockLaw s.tau) : LockLaw s.tick.tau := by
  unfold State.tick
  split
  · exact h.congr rfl rfl rfl
  · exact h

end Sys2Proof.Machine

namespace Sys2Proof.Proofs
open Sys2Proof Sys2Proof.Machine

/-- Settles O6: `LockLaw.tick` and, command by command, `LockLaw.command`. -/
theorem stepKeepsLockLaw : Obligations.StepKeepsLockLaw :=
  fun _ _ h e => step_keeps (P := fun s => LockLaw s.tau) (fun _ h => h) LockLaw.tick LockLaw.command h e

end Sys2Proof.Proofs
end

