-- ==== Sys2Proof/Proofs/QueueInv.lean ====
section
/-! PROOF. Every step keeps the law of the transmit queue (R166, R170, R171, R176). -/

namespace Sys2Proof.Machine

/-! ### What LOG and the capture store leave alone of the link controller -/

theorem State.updateOpen_lnk (s : State) (f : SegmentRecord → SegmentRecord) : (s.updateOpen f).lnk = s.lnk := by
  rw [State.updateOpen_eq]

theorem State.commitOpen_lnk (s : State) : s.commitOpen.1.lnk = s.lnk := by
  unfold State.commitOpen
  split
  · split
    · unfold State.commitEntry; dsimp only; split <;> rfl
    · rfl
  · rfl
  · rfl

theorem State.preTriggerCut_lnk (s : State) : s.preTriggerCut.1.lnk = s.lnk := by
  unfold State.preTriggerCut
  split
  · split
    · rfl
    · split <;> rfl
  · rfl
  · rfl

theorem State.dropRecord_lnk (s : State) (r : DecodeRecord) : (s.dropRecord r).lnk = s.lnk := by
  unfold State.dropRecord; dsimp only; split
  · exact State.updateOpen_lnk _ _
  · rfl

theorem State.logRecord_lnk (s : State) (rs : RunState) (n : Nat) (r : DecodeRecord) :
    (s.logRecord rs n r).lnk = s.lnk := by
  unfold State.logRecord State.placeRecord
  dsimp only
  split
  · exact State.dropRecord_lnk _ _
  split
  · rfl
  split
  · rfl
  · exact State.dropRecord_lnk _ _

theorem State.foldl_trimLog_lnk (s : State) (l : List Advance) : (l.foldl State.trimLog s).lnk = s.lnk := by
  induction l generalizing s with
  | nil => rfl
  | cons a rest ih => exact ih _

theorem State.logSample_lnk (s : State) (rs : RunState) (n : Nat) (l : List DecodeRecord) (a : List Advance) :
    (s.logSample rs n l a).lnk = s.lnk := by
  induction l generalizing s rs n a with
  | nil => exact State.foldl_trimLog_lnk s a
  | cons r rest ih =>
    cases a with
    | nil => rw [State.logSample, ih, State.logRecord_lnk]
    | cons x more =>
      simp only [State.logSample]
      rw [ih, State.logRecord_lnk, State.foldl_trimLog_lnk, State.fresh_lnk]

/-! ### Samples, starts and requests -/

/-- Samples, mark edges and ends of a run change the queue by postings alone. -/
theorem samplingKeeps_queueLaw : SamplingKeeps (fun s => QueueLaw s.lnk) where
  elsewhere h _ _ _ _ e := e ▸ h
  postStatus h := h.postStatus
  postNotice i time h := h.postNotice i time
  commitOpen {s} h := by rw [State.commitOpen_lnk]; exact h
  preTriggerCut {s} h := by rw [State.preTriggerCut_lnk]; exact h
  logSample {s} rs first l a h := by rw [State.logSample_lnk]; exact h

theorem QueueLaw.start (strap : Station) (observed : FlagLines) : QueueLaw (Lnk.start strap observed) := by
  refine ⟨by simp [Lnk.start], by simp [Lnk.start, statusCount], by simp [Lnk.start], fun h => ?_, fun _ => rfl, fun _ => ⟨rfl, rfl, rfl⟩⟩
  simp only [Lnk.start] at h
  split at h <;> cases h

theorem QueueLaw.readFrame {l : Lnk} (h : QueueLaw l) (bits : List Bool) : QueueLaw (l.readFrame bits) :=
  h.congr rfl rfl rfl rfl

theorem QueueLaw.readSent {l : Lnk} (h : QueueLaw l) (bit : Nat) (recessive : Bool) :
    QueueLaw (l.readSent bit recessive) := h.congr rfl rfl rfl rfl

theorem QueueLaw.fallSilent (l : Lnk) : QueueLaw l.fallSilent :=
  ⟨Nat.zero_le _, Nat.zero_le _, fun _ => rfl, fun h => (by cases h), fun _ => rfl, fun _ => ⟨rfl, rfl, rfl⟩⟩

theorem QueueLaw.arm {s : State} (h : QueueLaw s.lnk) (b : Byte) : QueueLaw (s.arm b).lnk := by
  unfold State.arm State.takeArm State.refuse
  split
  · split
    · exact QueueLaw.postStatus h
    · exact QueueLaw.postStatus (h.congr rfl rfl rfl rfl)
  · exact QueueLaw.postStatus (h.congr rfl rfl rfl rfl)

theorem QueueLaw.setup {s : State} (h : QueueLaw s.lnk) (u : RunSetup) : QueueLaw (s.setup u).lnk := by
  unfold State.setup State.refuse
  split
  · exact h
  · exact QueueLaw.postStatus (h.congr rfl rfl rfl rfl)

theorem QueueLaw.notice {s : State} (h : QueueLaw s.lnk) (source : Station) (i time : Nat) :
    QueueLaw (s.notice source i time).lnk := by
  unfold State.notice; dsimp only; split <;> exact h

/-! ### Sending -/

theorem State.foldl_markNoticeDropped_lnk (l : List Nat) (s : State) : (l.foldl State.markNoticeDropped s).lnk = s.lnk := by
  induction l generalizing s with
  | nil => rfl
  | cons i rest ih => exact ih _

theorem QueueLaw.duplicateId {s : State} (h : QueueLaw s.lnk) (bit : Nat) : QueueLaw (s.duplicateId bit).lnk := by
  unfold State.duplicateId
  split
  · refine QueueLaw.postStatus ?_
    rw [State.foldl_markNoticeDropped_lnk]; exact QueueLaw.fallSilent _
  · exact h

/-- An entry is free, so the station is not SILENT with an entry owed or held (R176). -/
theorem QueueLaw.speaks_of_owed {l : Lnk} (h : QueueLaw l) (owed : l.statusOwed = true) : l.transmitter ≠ .silent :=
  fun silent => by rw [(h.silent silent).2.1] at owed; cases owed

theorem QueueLaw.speaks_of_held {l : Lnk} (h : QueueLaw l) {d : Done} {rest : List Done} (held : l.heldDones = d :: rest) :
    l.transmitter ≠ .silent :=
  fun silent => by rw [(h.silent silent).2.2] at held; cases held

theorem QueueLaw.statusOwedJoin {s : State} (h : QueueLaw s.lnk) : QueueLaw s.statusOwedJoin.lnk := by
  unfold State.statusOwedJoin
  split
  · next c =>
    simp only [Bool.and_eq_true] at c
    obtain ⟨⟨-, owed⟩, room⟩ := c
    exact h.enqueueStatus (h.speaks_of_owed owed) (State.room_lt room) _ true (h.owed owed)
  · exact h

theorem QueueLaw.heldDoneJoin {s : State} (h : QueueLaw s.lnk) : QueueLaw s.heldDoneJoin.lnk := by
  unfold State.heldDoneJoin
  split
  · exact h
  · next d rest held =>
    split
    · next c =>
      have room := of_decide_eq_true (Bool.and_eq_true_iff.mp c).2
      simp only [Config.queueCapacity] at room
      exact h.enqueueOther (h.speaks_of_held held) (by omega) (.done d) true rfl rest
    · exact h

/-! ### Streams -/

/-- The law does not look at the stream. -/
theorem QueueLaw.withStream {l : Lnk} (h : QueueLaw l) (x : Option Stream) : QueueLaw { l with stream := x } :=
  h.congr rfl rfl rfl rfl

theorem QueueLaw.read {s : State} (h : QueueLaw s.lnk) (collection : Byte) (key : Word) (count : Nat) :
    QueueLaw (s.read collection key count).lnk := by
  have cut : QueueLaw s.cutStream.lnk := by
    unfold State.cutStream
    split
    · exact QueueLaw.postDone (h.withStream none) _
    · exact h
  unfold State.read State.makeStream
  split
  · exact h
  · split
    · exact cut.postDone _
    · split
      · exact cut.postDone _
      · exact cut.withStream _

theorem QueueLaw.postData {s : State} (h : QueueLaw s.lnk) (room : s.lnk.queue.length < 8) (r : DataRecord) :
    QueueLaw (s.postData r).lnk := by
  unfold State.postData
  split
  · exact h
  · next silent => exact h.enqueueOther (by simpa using silent) room (.data r) false rfl _

theorem QueueLaw.dataFormation {s : State} (h : QueueLaw s.lnk) : QueueLaw s.dataFormation.lnk := by
  unfold State.dataFormation State.formData State.keepStream
  split
  · next x _ =>
    split
    · next c =>
      have few := of_decide_eq_true (Bool.and_eq_true_iff.mp c).2
      simp only [Config.dataRoom] at few
      split
      · have posted := h.postData (by omega)
        split
        · exact QueueLaw.postDone ((posted _).withStream none) _
        · exact (posted _).withStream _
      · exact QueueLaw.postDone (h.withStream none) _
    · exact h
  · exact h

theorem State.wakeIfAsleep_lnk (s : State) : s.wakeIfAsleep.lnk = s.lnk := by
  unfold State.wakeIfAsleep; split <;> rfl

theorem QueueLaw.join {s : State} (h : QueueLaw s.lnk) (levels : JoinLevels) : QueueLaw (s.join levels).lnk := by
  have joined : QueueLaw (s.joining levels).postStatus.lnk := QueueLaw.postStatus (h.congr rfl rfl rfl rfl)
  rw [State.join_eq]
  split
  · unfold State.startPanel
    split
    · exact joined
    · rw [State.wakeIfAsleep_lnk]; exact joined
  · exact h

/-! ### Commands -/

theorem QueueLaw.command (i : Instr) {s t : State} (e : exec i s = .next t) (h : QueueLaw s.lnk) : QueueLaw t.lnk := by
  have k := samplingKeeps_queueLaw
  have frame {i : Instr} {taken : State → State} (take : ∀ t : State, QueueLaw t.lnk → QueueLaw (taken t).lnk) :
      QueueLaw (s.onFrame i taken).lnk :=
    State.onFrame_keeps (P := fun t => QueueLaw t.lnk) (fun _ => h.readFrame _) take h
  cases i with
  | windowEnd edges => cases e; exact k.windowEnd edges h
  | emissionTimerExpiry => cases e; exact k.emissionTimerExpiry h
  | markPulseEnd => cases e; exact k.markPulseEnd h
  | leadingEdge => cases e; exact k.leadingEdge h
  | trailingEdge => cases e; exact k.trailingEdge h
  | markStuck => cases e; exact k.markStuck h
  | synthesizedMark => cases e; exact k.synthesizedMark h
  | levelChange c input => cases e; unfold State.levelChange; dsimp only; split <;> exact h
  | sample => cases e; exact k.sample h
  | driverPresent => cases e; unfold State.driverPresent; split <;> [exact h.congr rfl rfl rfl rfl; exact h]
  | flagLineChange line asserted =>
    cases e; unfold State.flagLineChange; split <;> [exact h; exact h.congr rfl rfl rfl rfl]
  | restart source target straps => cases e; exact frame (fun t ht => by split <;> [exact QueueLaw.start _ _; exact ht])
  | stop source => cases e; exact frame (fun t ht => k.stop ht)
  | arm source profile => cases e; exact frame (fun t ht => QueueLaw.arm ht profile)
  | notice source segment time => cases e; exact frame (fun t ht => QueueLaw.notice ht ..)
  | setup source divider segments options codeA codeB => cases e; exact frame (fun t ht => QueueLaw.setup ht _)
  | view source segment offset scale follow => cases e; exact frame (fun t ht => ht)
  | panel source target mode first last inversion =>
    cases e
    exact frame (fun t ht => by split <;> [(rw [State.panel, State.wakeIfAsleep_lnk]; exact ht); exact ht])
  | query source target => cases e; exact frame (fun t ht => by split <;> [exact ht.postStatus; exact ht])
  | read source target collection key count =>
    cases e; exact frame (fun t ht => by split <;> [exact QueueLaw.read ht ..; exact ht])
  | replyFrameReceived kind source payload => cases e; exact frame (fun t ht => ht)
  | unaddressedFrameReceived kind source payload => cases e; split <;> [exact h; exact frame (fun t ht => ht)]
  | receiveFault f =>
    cases e; unfold State.receiveFault
    split
    · split <;> [exact h.congr rfl rfl rfl rfl; exact h]
    · exact h
  | lineIdle => cases e; unfold State.lineIdle; split <;> [exact h.congr rfl rfl rfl rfl; exact h]
  | frameBegin => cases e; exact h.frameBegin
  | arbitrationLost bit =>
    cases e; unfold State.arbitrationLost; split <;> [exact (h.readSent _ _).stopSending; exact h]
  | bitError bit =>
    cases e; unfold State.bitError; split <;> [exact (h.readSent _ _).stopSending.congr rfl rfl rfl rfl; exact h]
  | duplicateId bit => cases e; exact h.duplicateId bit
  | transmissionComplete => cases e; exact h.transmissionComplete
  | statusOwedJoin => cases e; exact h.statusOwedJoin
  | heldDoneJoin => cases e; exact h.heldDoneJoin
  | dataFormation => cases e; exact h.dataFormation
  | frameStart => cases e; unfold State.frameStart; split <;> exact h
  | columnRender => cases e; unfold State.columnRender; split <;> [(split <;> exact h); exact h]
  | renderComplete => cases e; unfold State.renderComplete; split <;> [(split <;> exact h); exact h]
  | transferComplete => cases e; unfold State.transferComplete; split <;> [(split <;> exact h); exact h]
  | sleepStart => cases e; unfold State.sleepStart; split <;> exact h
  | sleepComplete =>
    cases e; unfold State.sleepComplete; split <;> [(rw [State.wakeIfAsleep_lnk]; exact h); exact h]
  | powerUp straps => cases e; exact QueueLaw.start _ _
  | resetPinAssert => cases e; exact h
  | resetPinRelease straps => cases e; unfold State.resetPinRelease; split <;> [exact QueueLaw.start _ _; exact h]
  | imageAttempt bytes image =>
    cases e; unfold State.imageAttempt
    split
    · split
      · exact h
      · split <;> exact h
    · exact h
  | join levels => cases e; exact h.join levels

theorem QueueLaw.tick' {s : State} (h : QueueLaw s.lnk) : QueueLaw s.tick.lnk := by
  unfold State.tick
  split
  · exact h.tick _ _
  · exact h

end Sys2Proof.Machine

namespace Sys2Proof.Proofs
open Sys2Proof Sys2Proof.Machine

/-- Settles O5: `QueueLaw.tick` and, command by command, `QueueLaw.command`. -/
theorem stepKeepsQueueLaw : Obligations.StepKeepsQueueLaw :=
  fun _ _ h e => step_keeps (P := fun s => QueueLaw s.lnk) (fun _ h => h) QueueLaw.tick' QueueLaw.command h e

end Sys2Proof.Proofs
end

