-- ==== Sys2Proof/Proofs/SequencerInv.lean ====
section
/-! PROOF. Every step keeps the law of the sequencer (R91, R92, R178): while samples are taken the sequencer's `running` goes
with the run state and its drives with `running`, and only a part that has joined leaves IDLE. -/

namespace Sys2Proof.Machine

/-- The sequencer's part of the law, with the start-up block that sampling leaves alone. -/
structure Sequenced (x : Sul) (s : State) : Prop where
  running : s.tsq.running = s.run.state.sequencing
  released : s.tsq.running = false → s.tsq.drives = 0
  sul : s.sul = x

/-! ### The sequencer itself -/

theorem Tsq.evaluate_running (t : Tsq) (i : SequencerInputs) : (t.evaluate i).running = t.running := by
  unfold Tsq.evaluate
  split
  · rfl
  · dsimp only; split <;> rfl

theorem Tsq.evaluate_of_stopped {t : Tsq} (h : t.running = false) (i : SequencerInputs) : t.evaluate i = t := by
  simp [Tsq.evaluate, h]

theorem Tsq.openSegment_running (t : Tsq) (rs : RunState) (h : rs = .prefill ∨ rs = .pretrig) :
    (t.openSegment rs).running = rs.sequencing ∧ (t.openSegment rs).drives = 0 := by
  obtain rfl | rfl := h <;> exact ⟨rfl, rfl⟩

theorem openingState_cases (prefillWait : Bool) (depth : Nat) :
    openingState prefillWait depth = .prefill ∨ openingState prefillWait depth = .pretrig := by
  unfold openingState; split
  · exact .inl rfl
  · exact .inr rfl

namespace Sequenced
variable {x : Sul} {s t : State}

theorem congr (h : Sequenced x s) (tsq : t.tsq = s.tsq) (state : t.run.state = s.run.state) (sul : t.sul = s.sul) :
    Sequenced x t where
  running := by rw [tsq, state]; exact h.running
  released := by rw [tsq]; exact h.released
  sul := sul.trans h.sul

/-- A sequencer that drives nothing, running as the run state says. -/
theorem ofReleased (running : t.tsq.running = t.run.state.sequencing) (drives : t.tsq.drives = 0) (sul : t.sul = x) :
    Sequenced x t :=
  ⟨running, fun _ => drives, sul⟩

/-! ### The shared operations -/

theorem postStatus (h : Sequenced x s) : Sequenced x s.postStatus :=
  h.congr (State.postStatus_tsq s) (congrArg Run.state (State.postStatus_run s)) (State.postStatus_sul s)

theorem updateOpen (h : Sequenced x s) (f : SegmentRecord → SegmentRecord) : Sequenced x (s.updateOpen f) := by
  refine h.congr ?_ (State.updateOpen_state s f) ?_
  · rw [State.updateOpen_eq]
  · rw [State.updateOpen_eq]

theorem postNotice (h : Sequenced x s) (i time : Nat) : Sequenced x (s.postNotice i time) := by
  refine h.congr ?_ (State.postNotice_state s i time) (congrArg Still.sul (State.postNotice_still s i time))
  rw [State.postNotice_eq]

theorem commitOpen (h : Sequenced x s) : Sequenced x s.commitOpen.1 := by
  refine h.congr ?_ (State.commitOpen_state s) (congrArg Still.sul (State.commitOpen_still s))
  unfold State.commitOpen State.commitEntry
  split
  · split
    · dsimp only; split <;> rfl
    · rfl
  · rfl
  · rfl

theorem preTriggerCut (h : Sequenced x s) : Sequenced x s.preTriggerCut.1 := by
  unfold State.preTriggerCut
  split
  · split
    · exact h.congr rfl rfl rfl
    · split <;> exact h.congr rfl rfl rfl
  · exact h
  · exact h

theorem logSample (h : Sequenced x s) (rs : RunState) (first : Nat) (l : List DecodeRecord) (a : List Advance) :
    Sequenced x (s.logSample rs first l a) :=
  h.congr (State.logSample_tsq_dec ..).1 (State.logSample_state ..) (congrArg Still.sul (State.logSample_still ..))

theorem trims (h : Sequenced x s) (l : List Advance) : Sequenced x (l.foldl State.trimLog s) := h.logSample .idle 0 [] l

theorem flushDecoders (h : Sequenced x s) : Sequenced x s.flushDecoders := by
  unfold State.flushDecoders
  dsimp only
  split
  · next r _ =>
    have compared : Sequenced x (s.compareRecords (s.dec.flushRecords (flushContext s r))) := h.congr rfl rfl rfl
    exact (compared.logSample _ _ _ _).congr rfl rfl rfl
  · exact h.congr rfl rfl rfl

/-! ### Segments open and close, and the run ends -/

theorem closeSegment (h : Sequenced x s) (c : CloseReason) : Sequenced x (s.closeSegment c) :=
  have closed := (h.commitOpen.trims s.commitOpen.2).updateOpen (fun r => { r with state := .closed, closeReason := some c })
  ⟨closed.running, fun _ => rfl, closed.sul⟩

/-- R92: whatever stood before, a run that has ended has its sequencer stopped and its lines released. -/
theorem endRun (h : s.sul = x) : Sequenced x s.endRun :=
  (ofReleased (t := s.endRunTime) rfl rfl h).flushDecoders.postStatus

theorem closeAndEnd (h : Sequenced x s) (c : CloseReason) : Sequenced x (s.closeAndEnd c) := endRun (h.closeSegment c).sul

theorem openSegment (h : Sequenced x s) (i m : Nat) : Sequenced x (s.openSegment i m) := by
  unfold State.openSegment
  split
  · next f _ =>
    obtain ⟨running, drives⟩ := s.tsq.openSegment_running _ (openingState_cases s.run.setup.prefillWait f.depth)
    refine Sequenced.postStatus ?_
    exact ofReleased running drives h.sul
  · exact h

theorem recover (h : Sequenced x s) : Sequenced x s.recover := by
  unfold State.recover
  split
  · exact (h.closeSegment _).updateOpen _
  · exact h

/-! ### A sample -/

/-- R41: in PREFILL the sequencer is stopped and drives nothing, so it starts from there. -/
theorem enterPretrigIfFilled (h : Sequenced x s) : Sequenced x s.enterPretrigIfFilled := by
  unfold State.enterPretrigIfFilled
  split
  · split
    · next c =>
      have stopped : s.tsq.running = false := by rw [h.running, c.1]; rfl
      refine Sequenced.postStatus ?_
      exact ofReleased rfl (h.released stopped) h.sul
    · exact h
  · exact h
  · exact h

theorem closeIfFilled (h : Sequenced x s) (m : Nat) : Sequenced x (s.closeIfFilled m) := by
  unfold State.closeIfFilled
  split
  · split
    · dsimp only
      split
      · exact (h.closeSegment _).openSegment _ _
      · exact endRun (h.closeSegment _).sul
    · exact h
  · exact h
  · exact h

theorem arrive (h : Sequenced x s) (m : Nat) (w g : Levels) : Sequenced x (s.arrive m w g).1 := by
  unfold State.arrive
  split
  · exact h.commitOpen.enterPretrigIfFilled.closeIfFilled m
  · exact h

theorem enterSample (h : Sequenced x s) (m : Nat) (d : EntryData) : Sequenced x (s.enterSample m d) := by
  unfold State.enterSample
  split
  · refine Sequenced.updateOpen ?_ _
    exact h.congr rfl rfl rfl
  · exact h

theorem sequence (h : Sequenced x s) (i : SequencerInputs) : Sequenced x (s.sequence i) where
  running := (Tsq.evaluate_running ..).trans h.running
  released stopped := by
    have before : s.tsq.running = false := (Tsq.evaluate_running s.tsq i).symm.trans stopped
    rw [State.sequence, State.setTsq, Tsq.evaluate_of_stopped before]
    exact h.released before
  sul := h.sul

/-- A trigger leaves a running sequencer running, whatever it drives. -/
theorem takeTrigger (h : Sequenced x s) (pretrig : s.run.state = .pretrig) (t : Nat) (w g : Levels)
    (src : TriggerSource) : Sequenced x (s.takeTrigger t w g src).1 := by
  have cut := h.commitOpen.preTriggerCut.updateOpen (fun r => r.triggered t s.divider src)
  have state : s.commitOpen.1.preTriggerCut.1.run.state = .pretrig := by
    rw [← pretrig, ← State.commitOpen_state s]
    unfold State.preTriggerCut
    split
    · split
      · rfl
      · split <;> rfl
    · rfl
    · rfl
  have running := cut.running.trans (congrArg RunState.sequencing ((State.updateOpen_state _ _).trans state))
  have posted : ∀ {u : State}, u.tsq.running = true → u.run.state = .posttrig → u.sul = x → Sequenced x u.postStatus :=
    fun runs posttrig sul => Sequenced.postStatus
      ⟨by rw [runs, posttrig]; rfl, fun n => (by rw [runs] at n; cases n), sul⟩
  unfold State.takeTrigger
  dsimp only
  split
  · refine Sequenced.postNotice ?_ _ _
    exact posted running rfl cut.sul
  all_goals exact posted running rfl cut.sul

theorem compress (h : Sequenced x s) (m : Nat) (w g : Levels) (q f p : Bool) :
    Sequenced x (s.compress m w g q (triggerAt s.run.state f p)).1 := by
  unfold State.compress
  split
  · next e =>
    have pretrig : s.run.state = .pretrig := by
      unfold triggerAt at e; split at e <;> [assumption; cases e]
    exact h.takeTrigger pretrig _ _ _ _
  · exact h.enterSample _ _

theorem takeArrived (h : Sequenced x s) (b : State) (m : Nat) (w g l : Levels) (a : List Advance) :
    Sequenced x (s.takeArrived b m w g l a) := by
  unfold State.takeArrived
  dsimp only
  generalize sampleContext s m w g l = c
  have decoded : Sequenced x ((s.setDec (s.dec.afterSample c)).compareRecords (s.dec.sampleRecords c)) :=
    h.congr rfl rfl rfl
  exact (((decoded.sequence _).compress ..).logSample _ _ _ _).congr rfl rfl rfl

theorem takeSample (h : Sequenced x s) : Sequenced x s.takeSample := by
  unfold State.takeSample
  split
  · have formed : Sequenced x s.formWord := h.congr rfl rfl rfl
    dsimp only
    split
    · exact (formed.arrive _ _ _).takeArrived _ _ _ _ _ _
    · exact formed.arrive _ _ _
  · exact h

theorem takeDue (n : Nat) (h : Sequenced x s) : Sequenced x (State.takeDue n s) := by
  induction n generalizing s with
  | zero => exact h
  | succ n ih =>
    unfold State.takeDue
    split
    · exact ih h.takeSample
    · exact h

/-! ### The timebase -/

theorem markEdgeStep (h : Sequenced x s) : Sequenced x s.markEdgeStep := by
  unfold State.markEdgeStep
  split
  · exact h
  · next r _ =>
    have jumped : Sequenced x (s.setTau { s.tau with runTime := some r.atMarkEdge }) := h.congr rfl rfl rfl
    have sampled : Sequenced x ((s.setTau { s.tau with runTime := some r.atMarkEdge }).takeAllDue.reportCorrection
        r.correction) := (takeDue _ jumped).updateOpen _
    dsimp only
    split
    · exact sampled.closeAndEnd _
    · exact sampled

theorem observeLeadingEdge (h : Sequenced x s) : Sequenced x s.observeLeadingEdge :=
  markEdgeStep (h.congr rfl rfl rfl)

theorem startRun (h : Sequenced x s) : Sequenced x s.startRun := by
  unfold State.startRun
  extract_lets _src t u
  have begun : Sequenced x u := h.congr rfl rfl rfl
  exact takeDue _ (begun.openSegment 0 0)

theorem switchClock (h : Sequenced x s) (c : ClockState) : Sequenced x (s.switchClock c) := by
  refine Sequenced.updateOpen ?_ _
  exact h.congr rfl rfl rfl

/-! ### Commands of the timebase and of samples -/

theorem setTau (h : Sequenced x s) (t : Tau) : Sequenced x (s.setTau t) := h.congr rfl rfl rfl

theorem trialWindow (h : Sequenced x s) (inRange : Bool) : Sequenced x (s.trialWindow inRange) := by
  unfold State.trialWindow
  extract_lets run count _src t
  split
  · exact (h.setTau t).switchClock _
  · split <;> exact h.setTau _

theorem windowEnd (h : Sequenced x s) (edges : Nat) : Sequenced x (s.windowEnd edges) := by
  unfold State.windowEnd State.watchWindow
  split
  · split
    · split
      · exact h.setTau _
      · exact (h.setTau _).switchClock _
    · exact h.trialWindow _
  · exact h

theorem emissionTimerExpiry (h : Sequenced x s) : Sequenced x s.emissionTimerExpiry := by
  unfold State.emissionTimerExpiry State.driveStartMark
  dsimp only
  split
  · split <;> split
    · exact h.setTau _
    · exact h.setTau _
    · exact (h.setTau _).observeLeadingEdge
    · exact (h.setTau _).observeLeadingEdge
  · exact h

theorem markPulseEnd (h : Sequenced x s) : Sequenced x s.markPulseEnd := by
  unfold State.markPulseEnd
  split
  · exact h.setTau _
  · exact h

theorem leadingEdge (h : Sequenced x s) : Sequenced x s.leadingEdge := by
  unfold State.leadingEdge
  dsimp only
  split
  · split
    · exact h.observeLeadingEdge.setTau _
    · exact h.observeLeadingEdge
  · exact h

theorem trailingEdge (h : Sequenced x s) : Sequenced x s.trailingEdge := by
  unfold State.trailingEdge
  split
  · extract_lets _src released
    have ended : Sequenced x released := h.setTau _
    split
    · exact (ended.setTau _).postStatus
    · split
      · exact ended.startRun
      · exact ended.setTau _
  · exact h

theorem markStuck (h : Sequenced x s) : Sequenced x s.markStuck := by
  unfold State.markStuck
  split
  · exact (h.setTau _).postStatus
  · exact h

theorem synthesizedMark (h : Sequenced x s) : Sequenced x s.synthesizedMark := by
  unfold State.synthesizedMark
  split
  · exact (h.setTau _).markEdgeStep.setTau _
  · exact h

theorem sample (h : Sequenced x s) : Sequenced x s.sample := by
  unfold State.sample
  split
  · exact h.takeSample
  · exact h

/-! ### Requests -/

theorem stop (h : Sequenced x s) : Sequenced x s.stop := by
  unfold State.stop
  split
  · exact h
  · next waiting =>
    have stopped : s.tsq.running = false := by rw [h.running, waiting]; rfl
    unfold State.abandonStart
    refine Sequenced.postStatus ?_
    exact ofReleased stopped rfl h.sul
  · exact h.closeAndEnd _
  · exact h.closeAndEnd _
  · exact h.closeAndEnd _

theorem refuse (h : Sequenced x s) (k : RefusedKind) (r : RefusalReason) : Sequenced x (s.refuse k r) := by
  unfold State.refuse
  refine Sequenced.postStatus ?_
  exact h.congr rfl rfl rfl

theorem arm (h : Sequenced x s) (b : Byte) : Sequenced x (s.arm b) := by
  unfold State.arm State.takeArm
  split
  · split
    · refine Sequenced.postStatus ?_
      exact ofReleased rfl rfl h.sul
    · exact h.refuse _ _
  · exact h.refuse _ _

theorem setup (h : Sequenced x s) (u : RunSetup) : Sequenced x (s.setup u) := by
  unfold State.setup
  split
  · exact h.congr rfl rfl rfl
  · exact h.refuse _ _

theorem notice (h : Sequenced x s) (source : Station) (i time : Nat) : Sequenced x (s.notice source i time) := by
  unfold State.notice
  dsimp only
  split <;> exact h.congr rfl rfl rfl

theorem markNoticesDropped (l : List Nat) (h : Sequenced x s) : Sequenced x (l.foldl State.markNoticeDropped s) := by
  induction l generalizing s with
  | nil => exact h
  | cons i rest ih => exact ih (h.congr rfl rfl rfl)

theorem duplicateId (h : Sequenced x s) (bit : Nat) : Sequenced x (s.duplicateId bit) := by
  unfold State.duplicateId
  split
  · refine Sequenced.postStatus (markNoticesDropped _ ?_)
    exact h.congr rfl rfl rfl
  · exact h

/-! ### The law of the whole state -/

theorem ofLaw (h : SequencerLaw s) : Sequenced s.sul s := ⟨h.running, h.released, rfl⟩

/-- What was shown of the sequencer gives the law again, where the part had joined or is IDLE. -/
theorem law (h : Sequenced x s) (idle : x.joined = false → s.run.state = .idle)
    (read : x.joined = true → x.imageState ≠ .reading) : SequencerLaw s :=
  ⟨h.running, h.released, fun j => idle (by rwa [h.sul] at j), fun j => by rw [h.sul] at j ⊢; exact read j⟩

end Sequenced

/-! ### The law over commands -/

theorem State.joined_of_active {s : State} (h : s.active = true) : s.sul.joined = true := (Bool.and_eq_true_iff.mp h).1

theorem State.active_of_receives {s : State} (h : s.receives = true) : s.active = true := (Bool.and_eq_true_iff.mp h).1

/-- A frame command keeps what the taking of the frame keeps in an active part. -/
theorem State.onFrame_active {P : State → Prop} {s : State} {i : Instr} {taken : State → State}
    (take : s.active = true → ∀ bits, P (taken (s.setLnk (s.lnk.readFrame bits)))) (h : P s) : P (s.onFrame i taken) := by
  unfold State.onFrame
  split
  · split
    · next r => exact take (State.active_of_receives r) _
    · exact h
  · exact h

namespace SequencerLaw
variable {s t : State}

theorem congr (h : SequencerLaw s) (tsq : t.tsq = s.tsq) (state : t.run.state = s.run.state) (sul : t.sul = s.sul) :
    SequencerLaw t :=
  ((Sequenced.ofLaw h).congr tsq state sul).law (fun j => state.trans (h.startingIdle j)) h.joinedRead

/-- In a part that has joined, the law follows from the sequencer's part of it. -/
theorem ofJoined (h : SequencerLaw s) (joined : s.sul.joined = true) (seq : Sequenced s.sul t) : SequencerLaw t :=
  seq.law (fun j => by rw [joined] at j; cases j) h.joinedRead

theorem startBlocks (s : State) (strap : Station) (cause : ResetCause) (m : Mem (BitVec 2)) (held : Bool)
    (idle : s.run.state = .idle) : SequencerLaw (s.startBlocks strap cause m held) :=
  ⟨by rw [show (s.startBlocks strap cause m held).run.state = .idle from idle]; rfl, fun _ => rfl, fun _ => idle,
    fun j => (by cases j)⟩

theorem imageAttempt (h : SequencerLaw s) (bytes : List Byte) (im : RawImage) : SequencerLaw (s.imageAttempt bytes im) := by
  have unjoined (reading : s.sul.imageState = .reading) : s.sul.joined = false :=
    Bool.eq_false_iff.mpr fun j => h.joinedRead j reading
  have loaded (x : ImageState) (reading : s.sul.imageState = .reading) (c : ImageContents) :
      SequencerLaw ((s.setImageState x).load c) := by
    have idle : ((s.setImageState x).load c).run.state = .idle := h.startingIdle (unjoined reading)
    exact ⟨by rw [idle]; rfl, fun _ => rfl, fun _ => idle, fun j => absurd ((unjoined reading).symm.trans j) nofun⟩
  unfold State.imageAttempt
  split
  · next c =>
    split
    · exact loaded .good c.1 _
    · split
      · exact ⟨h.running, h.released, h.startingIdle, h.joinedRead⟩
      · exact loaded .bad c.1 _
  · exact h

theorem join (h : SequencerLaw s) (levels : JoinLevels) : SequencerLaw (s.join levels) := by
  rw [State.join_eq]
  split
  · next c =>
    have same := State.startPanel_inner (s.joining levels).postStatus
    refine ⟨?_, ?_, fun j => ?_, fun _ => ?_⟩
    · rw [tsq_of_inner same, run_of_inner same, State.postStatus_tsq, State.postStatus_run]; exact h.running
    · rw [tsq_of_inner same, State.postStatus_tsq]; exact h.released
    · rw [run_of_inner same, State.postStatus_run]; exact h.startingIdle c.2.1
    · rw [sul_of_inner same, State.postStatus_sul]; exact c.1
  · exact h

theorem command (i : Instr) {s t : State} (e : exec i s = .next t) (h : SequencerLaw s) : SequencerLaw t := by
  have seq := Sequenced.ofLaw h
  have guarded {u : State} (idle : s.active = false → u = s) (w : Sequenced s.sul u) : SequencerLaw u := by
    cases a : s.active with
    | false => rw [idle a]; exact h
    | true => exact h.ofJoined (State.joined_of_active a) w
  have frame {i : Instr} {taken : State → State} (take : ∀ u, Sequenced s.sul u → Sequenced s.sul (taken u)) :
      SequencerLaw (s.onFrame i taken) :=
    State.onFrame_active (fun a _ => h.ofJoined (State.joined_of_active a) (take _ (seq.congr rfl rfl rfl))) h
  cases i with
  | windowEnd edges => cases e; exact guarded (fun a => by simp [State.windowEnd, a]) (seq.windowEnd edges)
  | emissionTimerExpiry =>
    cases e; exact guarded (fun a => by simp [State.emissionTimerExpiry, a]) seq.emissionTimerExpiry
  | markPulseEnd => cases e; exact guarded (fun a => by simp [State.markPulseEnd, a]) seq.markPulseEnd
  | leadingEdge => cases e; exact guarded (fun a => by simp [State.leadingEdge, a]) seq.leadingEdge
  | trailingEdge => cases e; exact guarded (fun a => by simp [State.trailingEdge, a]) seq.trailingEdge
  | markStuck => cases e; exact guarded (fun a => by simp [State.markStuck, a]) seq.markStuck
  | synthesizedMark => cases e; exact guarded (fun a => by simp [State.synthesizedMark, a]) seq.synthesizedMark
  | sample => cases e; exact guarded (fun a => by simp [State.sample, a]) seq.sample
  | restart source target straps =>
    cases e
    refine State.onFrame_keeps (P := SequencerLaw) (fun _ => h.congr rfl rfl rfl) (fun u hu => ?_) h
    split
    · exact startBlocks _ _ _ _ _ rfl
    · exact hu
  | stop source => cases e; exact frame (fun _ hu => hu.stop)
  | arm source profile => cases e; exact frame (fun _ hu => hu.arm profile)
  | notice source segment time => cases e; exact frame (fun _ hu => hu.notice ..)
  | setup source divider segments options codeA codeB => cases e; exact frame (fun _ hu => hu.setup _)
  | duplicateId bit => cases e; exact guarded (fun a => by simp [State.duplicateId, a]) (seq.duplicateId bit)
  | powerUp straps => cases e; exact startBlocks _ _ _ _ _ rfl
  | resetPinAssert => cases e; exact ⟨h.running, h.released, h.startingIdle, h.joinedRead⟩
  | resetPinRelease straps =>
    cases e; unfold State.resetPinRelease
    split
    · exact startBlocks _ _ _ _ _ rfl
    · exact h
  | imageAttempt bytes image => cases e; exact h.imageAttempt bytes image
  | join levels => cases e; exact h.join levels
  | _ =>
    have same := exec_inner rfl e
    exact h.congr (tsq_of_inner same) (congrArg Run.state (run_of_inner same)) (sul_of_inner same)

theorem tick (h : SequencerLaw s) : SequencerLaw s.tick := by
  unfold State.tick
  split
  · exact h.congr rfl rfl rfl
  · exact h

end SequencerLaw
end Sys2Proof.Machine

namespace Sys2Proof.Proofs
open Sys2Proof Sys2Proof.Machine

/-- Settles O7: `SequencerLaw.tick` and, command by command, `SequencerLaw.command`. -/
theorem stepKeepsSequencerLaw : Obligations.StepKeepsSequencerLaw :=
  fun _ _ h e => step_keeps (P := SequencerLaw) (fun _ h => h.congr rfl rfl rfl) SequencerLaw.tick SequencerLaw.command h e

end Sys2Proof.Proofs
end

