-- ==== Sys2Proof/Proofs/CaptureInv.lean ====
section
/-! PROOF. Every step keeps the law of the capture store and of the log over the segments (R36, R37, R40, R59, R65, R68, R69,
R121). What samples do to it is in Laws/Segments; here come the requests, the starts and the load, at which no segment is
open and the law speaks of the records of the last run alone. -/

namespace Sys2Proof.Machine

/-- The bounds of a run setup that the law asks for. -/
def setupInBounds (u : RunSetup) : Prop := 1 ≤ u.segments ∧ u.fraction ≤ 15 ∧ u.segments ≤ Config.storeEntries

/-- The law while no segment is open: the setup, and the records of the last run over the store and the log. -/
structure RecordsLaw (s : State) : Prop where
  setup : setupInBounds s.run.setup
  segments : SegmentLaw s.run.figures s.run.table s.cst.store none 0
  logged : ∀ x ∈ s.log.records, x.content.segment < s.run.table.length
  starts : ∀ x ∈ s.log.records, ∀ r ∈ s.run.table, r.index = x.content.segment →
    r.firstSample * s.divider ≤ x.content.startTime

theorem RunState.of_noSegment {x : RunState} (h : x.hasSegment = false) : x = .idle ∨ x = .waitStart := by
  cases x with
  | idle => exact .inl rfl
  | waitStart => exact .inr rfl
  | prefill => cases h
  | pretrig => cases h
  | posttrig => cases h

theorem State.openRecord?_of_noSegment {s : State} (h : s.run.state.hasSegment = false) : s.openRecord? = none := by
  simp [State.openRecord?, h]

theorem clampSetup_inBounds (u : RunSetup) : setupInBounds (clampSetup u) := by
  unfold setupInBounds clampSetup clampNat Config.storeEntries
  dsimp only
  omega

theorem defaultSetup_inBounds : setupInBounds defaultSetup := by unfold setupInBounds; decide

/-- R37: the figures of a setup within its bounds fit the store. -/
theorem runFigures_fit {u : RunSetup} (h : setupInBounds u) : (runFigures u).Fit := by
  obtain ⟨one, frac, few⟩ := h
  have size : 0 < Config.storeEntries / u.segments := Nat.div_pos few one
  refine ⟨size, ?_, Nat.mul_div_le _ _⟩
  show Config.storeEntries / u.segments * u.fraction / 16 < Config.storeEntries / u.segments
  rw [Nat.div_lt_iff_lt_mul (by decide)]
  exact Nat.mul_lt_mul_of_pos_left (by omega) size

/-! ### To the law of the records, and back -/

section
variable {n : Option Nat} {s t : State}

theorem CaptureCore.records (h : CaptureCore n s) (b : LogBehind s []) (z : s.openIndex? = none ∨ s.held = 0) :
    RecordsLaw s where
  setup := h.setup
  segments := by
    have seg := h.segments
    obtain none | zero := z
    · exact ⟨seg.figures, seg.indices, seg.fits, fun r hr => by have := seg.records r hr; simpa [none] using this⟩
    · rw [zero] at seg; exact seg.noneOpen 0
  logged := h.logged
  starts x hx r hr e := (b.starts x hx r hr e).resolve_left (fun c => c.1 rfl)

theorem CaptureLaw.records (h : CaptureLaw s) (noSegment : s.run.state.hasSegment = false) : RecordsLaw s := by
  obtain ⟨core, -, -, b⟩ := (captureLaw_iff s).mp h
  exact core.records b (.inl (State.openIndex?_of_noSegment noSegment))

namespace RecordsLaw

theorem congr (h : RecordsLaw s) (setup : setupInBounds t.run.setup) (figures : t.run.figures = s.run.figures)
    (table : t.run.table = s.run.table) (store : t.cst.store = s.cst.store) (log : t.log = s.log) : RecordsLaw t where
  setup := setup
  segments := by rw [figures, table, store]; exact h.segments
  logged := by rw [table, log]; exact h.logged
  starts := by
    rw [table, log, show t.divider = s.divider by simp [State.divider, figures]]
    exact h.starts

/-- With an empty table and an empty log only the setup and the figures matter. -/
theorem empty (setup : setupInBounds t.run.setup) (figures : ∀ f : RunFigures, t.run.figures = some f → f.Fit)
    (table : t.run.table = []) (log : t.log.records = []) : RecordsLaw t where
  setup := setup
  segments := by
    rw [table]
    exact ⟨figures, rfl, fun c => absurd rfl c, fun _ hr => (by cases hr)⟩
  logged := by rw [log]; exact fun _ hx => (by cases hx)
  starts := by rw [log]; exact fun _ hx => (by cases hx)

theorem core (h : RecordsLaw s) (noSegment : s.run.state.hasSegment = false)
    (waiting : s.run.state = .waitStart → s.run.table = [] ∧ ∃ f : RunFigures, s.run.figures = some f ∧ 1 ≤ f.segments) :
    CaptureCore n s where
  setup := h.setup
  segments := by rw [State.openIndex?_of_noSegment noSegment]; exact h.segments.noneOpen _
  waiting := waiting
  opened c := by rw [noSegment] at c; cases c
  untriggered _ r hr := by rw [State.openRecord?_of_noSegment noSegment] at hr; cases hr
  next r hr := by rw [State.openRecord?_of_noSegment noSegment] at hr; cases hr
  logged := h.logged

theorem behind (h : RecordsLaw s) : LogBehind s [] :=
  ⟨by simp, by simp, fun x hx r hr e => .inr (h.starts x hx r hr e)⟩

theorem capture (h : RecordsLaw s) (noSegment : s.run.state.hasSegment = false)
    (waiting : s.run.state = .waitStart → s.run.table = [] ∧ ∃ f : RunFigures, s.run.figures = some f ∧ 1 ≤ f.segments) :
    CaptureLaw s :=
  (captureLaw_iff s).mpr ⟨h.core noSegment waiting, fun c => (by rw [noSegment] at c; cases c),
    fun c => (by rw [c] at noSegment; cases noSegment), h.behind⟩

theorem captureIdle (h : RecordsLaw s) (idle : s.run.state = .idle) : CaptureLaw s :=
  h.capture (by rw [idle]; rfl) (fun c => (by rw [idle] at c; cases c))

/-- R118: the flush of an idle part's decoders keeps the law. -/
theorem flushDecoders (h : RecordsLaw s) (idle : s.run.state = .idle) : RecordsLaw s.flushDecoders := by
  have waiting : s.run.state = .waitStart → s.run.table = [] ∧ ∃ f : RunFigures, s.run.figures = some f ∧ 1 ≤ f.segments :=
    fun c => (by rw [idle] at c; cases c)
  have noSegment : s.flushDecoders.run.state.hasSegment = false := by rw [State.flushDecoders_state, idle]; rfl
  have flushed : CaptureCore none s.flushDecoders ∧ LogBehind s.flushDecoders [] := by
    have core : CaptureCore none s := h.core (by rw [idle]; rfl) waiting
    unfold State.flushDecoders
    dsimp only
    split
    · next r last =>
      generalize hrec : s.dec.flushRecords (flushContext s r) = records
      have compared : CaptureCore none (s.compareRecords records) := core.congr rfl
      have behind : LogBehind (s.compareRecords records) [] := h.behind.congr rfl
      have logged := compared.logSample behind (r := r) last (fun c => absurd rfl c) (rs := s.run.state)
        (first := r.firstSample) (records := records)
        (fun q hq => by rw [← hrec] at hq; exact Dec.flushRecords_segment hq) (fun _ => rfl)
      exact ⟨CaptureCore.congr logged.1 rfl, LogBehind.congr logged.2 rfl⟩
    · exact ⟨CaptureCore.congr core rfl, LogBehind.congr h.behind rfl⟩
  exact flushed.1.records flushed.2 (.inl (State.openIndex?_of_noSegment noSegment))

theorem keepingStart (h : RecordsLaw s) (strap : Station) (cause : ResetCause) : CaptureLaw (s.keepingStart strap cause) := by
  have kept : RecordsLaw (s.keepingStart strap cause) := h.congr defaultSetup_inBounds rfl rfl rfl rfl
  exact kept.captureIdle rfl

end RecordsLaw

/-! ### Starts -/

/-- R55: after the recovery no sample stands in an open entry. -/
theorem CaptureLaw.recover (h : CaptureLaw s) : RecordsLaw s.recover := by
  unfold State.recover
  split
  · next segment =>
    obtain ⟨core, -, room, b⟩ := (captureLaw_iff s).mp h
    obtain ⟨r, o⟩ := h.openRecord segment
    obtain ⟨core', held, b', -, -, -⟩ := core.closeSegment o (core.fullUntriggered room o) b .reset
    have view := (s.closeSegment .reset).updateOpen_view (f := fun r => { r with recovered := true }) (fun _ => rfl)
    have entry : ((s.closeSegment .reset).updateOpen (fun r => { r with recovered := true })).held = 0 := by
      unfold State.held; rw [State.updateOpen_cst]; exact held
    exact (core'.congr view).records (b'.congr view) (.inr entry)
  · next noSegment => exact h.records (by simpa using noSegment)

theorem CaptureLaw.pinStart (h : CaptureLaw s) (strap : Station) : CaptureLaw (s.pinStart strap) :=
  h.recover.keepingStart strap .pin

theorem CaptureLaw.linkStart (h : CaptureLaw s) (strap : Station) : CaptureLaw (s.linkStart strap) := by
  have recovered := h.recover
  have ended : RecordsLaw s.recover.endRunTime := recovered.congr recovered.setup rfl rfl rfl rfl
  exact (ended.flushDecoders rfl).keepingStart strap .link

theorem CaptureLaw.powerStart (s : State) (strap : Station) : CaptureLaw (s.powerStart strap) := by
  have law : RecordsLaw (s.powerStart strap) := RecordsLaw.empty defaultSetup_inBounds (fun _ hf => (by cases hf)) rfl rfl
  exact law.captureIdle rfl

/-! ### The run's start -/

/-- An opening does not look at the open entry that stood before. -/
theorem State.openSegment_withoutEntry {s : State} {f : RunFigures} (hf : s.run.figures = some f) (i m : Nat) :
    (s.setCst { s.cst with openEntry := none }).openSegment i m = s.openSegment i m := by
  have same : (s.setCst { s.cst with openEntry := none }).run.figures = some f := hf
  simp only [State.openSegment, hf, same]
  rfl

theorem CaptureLaw.startRun (h : CaptureLaw s) (waiting : s.run.state = .waitStart) : CaptureLaw s.startRun := by
  unfold State.startRun
  extract_lets _src t u
  obtain ⟨nil, f, hf, one⟩ := h.table.waiting waiting
  have noSegment : s.run.state.hasSegment = false := by rw [waiting]; rfl
  have records : RecordsLaw (u.setCst { u.cst with openEntry := none }) :=
    (h.records noSegment).congr (h.records noSegment).setup rfl rfl rfl rfl
  have core : CaptureCore none (u.setCst { u.cst with openEntry := none }) :=
    records.core noSegment (fun _ => ⟨nil, f, hf, one⟩)
  have opened := core.openSegment rfl records.behind hf (i := 0) (congrArg List.length nil).symm one 0
  rw [State.openSegment_withoutEntry (s := u) hf] at opened
  obtain ⟨core', entry, room, behind, -, -⟩ := opened
  have time : (u.openSegment 0 0).tau.runTime.map RunTime.nextSample = some 0 := by
    rw [front_tau (State.openSegment_front u 0 0)]; rfl
  exact CaptureLaw.takeAllDue ((captureLaw_iff _).mpr ⟨by rw [time]; exact core', fun _ => entry, room, behind⟩)

/-! ### The timebase and samples -/

theorem Tau.rebase_nextSample (t : Tau) : t.rebase.runTime.map RunTime.nextSample = t.runTime.map RunTime.nextSample := by
  simp [Tau.rebase, Function.comp_def]

theorem Tau.leadingEdge_runTime (t : Tau) (rs : RunState) : (t.leadingEdge rs).runTime = t.runTime := by
  have accepted (m : Nat) : (t.acceptInterval m).runTime = t.runTime := by
    unfold Tau.acceptInterval; dsimp only; split <;> rfl
  have measured : t.measureInterval.runTime = t.runTime := by
    unfold Tau.measureInterval
    split
    · rfl
    · rfl
    · split
      · exact accepted _
      · rfl
  exact measured

namespace CaptureLaw

theorem setTau (h : CaptureLaw s) (t : Tau)
    (same : t.runTime.map RunTime.nextSample = s.tau.runTime.map RunTime.nextSample := by rfl) : CaptureLaw (s.setTau t) := h.congr rfl same

theorem postStatus (h : CaptureLaw s) : CaptureLaw s.postStatus :=
  h.congr (State.postStatus_view s) (by rw [State.postStatus_tau])

theorem observeLeadingEdge (h : CaptureLaw s) : CaptureLaw s.observeLeadingEdge :=
  markEdgeStep (h.setTau _ (by rw [Tau.leadingEdge_runTime]))

theorem switchClock (h : CaptureLaw s) (c : ClockState) : CaptureLaw (s.switchClock c) := by
  unfold State.switchClock
  exact updateOpen (h.setTau _ (by exact Tau.rebase_nextSample s.tau)) (fun _ => rfl)

theorem windowEnd (h : CaptureLaw s) (edges : Nat) : CaptureLaw (s.windowEnd edges) := by
  unfold State.windowEnd State.watchWindow
  split
  · split
    · split
      · exact h.setTau _
      · exact (h.setTau _).switchClock _
    · unfold State.trialWindow
      extract_lets run count _src t
      split
      · exact (h.setTau t).switchClock _
      · split <;> exact h.setTau _
  · exact h

theorem emissionTimerExpiry (h : CaptureLaw s) : CaptureLaw s.emissionTimerExpiry := by
  unfold State.emissionTimerExpiry State.driveStartMark
  dsimp only
  split
  · split <;> split
    · exact h.setTau _
    · exact h.setTau _
    · exact (h.setTau _).observeLeadingEdge
    · exact (h.setTau _).observeLeadingEdge
  · exact h

theorem leadingEdge (h : CaptureLaw s) : CaptureLaw s.leadingEdge := by
  unfold State.leadingEdge
  dsimp only
  split
  · split
    · exact h.observeLeadingEdge.setTau _
    · exact h.observeLeadingEdge
  · exact h

theorem trailingEdge (h : CaptureLaw s) : CaptureLaw s.trailingEdge := by
  unfold State.trailingEdge
  split
  · extract_lets _src released
    have ended : CaptureLaw released := h.setTau _
    split
    · exact (ended.setTau _).postStatus
    · split
      · next c => exact ended.startRun (beq_iff_eq.mp (Bool.and_eq_true_iff.mp c).2)
      · exact ended.setTau _
  · exact h

theorem markStuck (h : CaptureLaw s) : CaptureLaw s.markStuck := by
  unfold State.markStuck
  split
  · exact (h.setTau _ (by exact Tau.rebase_nextSample s.tau)).postStatus
  · exact h

theorem synthesizedMark (h : CaptureLaw s) : CaptureLaw s.synthesizedMark := by
  unfold State.synthesizedMark
  split
  · exact (markEdgeStep (h.setTau _)).setTau _
  · exact h

theorem sample (h : CaptureLaw s) : CaptureLaw s.sample := by
  unfold State.sample
  split
  · exact h.takeSample
  · exact h

/-! ### Requests -/

theorem stop (h : CaptureLaw s) : CaptureLaw s.stop := by
  have ended (segment : s.run.state.hasSegment = true) : CaptureLaw (s.closeAndEnd .stopped) := by
    obtain ⟨r, o⟩ := h.openRecord segment
    exact h.closeAndEnd o _
  unfold State.stop
  split
  · exact h
  · next waiting =>
    have records := h.records (by rw [waiting]; rfl)
    unfold State.abandonStart
    refine postStatus (RecordsLaw.captureIdle ?_ rfl)
    exact records.congr records.setup rfl rfl rfl rfl
  · next c => exact ended (by rw [c]; rfl)
  · next c => exact ended (by rw [c]; rfl)
  · next c => exact ended (by rw [c]; rfl)

theorem refuse (h : CaptureLaw s) (k : RefusedKind) (r : RefusalReason) : CaptureLaw (s.refuse k r) := by
  unfold State.refuse
  refine postStatus ?_
  exact h.congr rfl rfl

theorem takeArm (h : CaptureLaw s) (p : Fin 4) (r : RawProfile) : CaptureLaw (s.takeArm p r) := by
  have setup : setupInBounds s.run.setup := h.table.setup
  have fit := runFigures_fit setup
  unfold State.takeArm
  refine postStatus ?_
  exact RecordsLaw.capture (RecordsLaw.empty setup (fun f hf => by cases hf; exact fit) rfl rfl) rfl
    (fun _ => ⟨rfl, _, rfl, setup.1⟩)

theorem arm (h : CaptureLaw s) (b : Byte) : CaptureLaw (s.arm b) := by
  unfold State.arm
  split
  · split
    · exact h.takeArm _ _
    · exact h.refuse _ _
  · exact h.refuse _ _

/-- The law asks no more of a setup than its bounds. -/
theorem withSetup (h : CaptureLaw s) (setup : setupInBounds t.run.setup) (run : t.run.figures = s.run.figures)
    (table : t.run.table = s.run.table) (state : t.run.state = s.run.state) (cst : t.cst = s.cst) (log : t.log = s.log)
    (tau : t.tau = s.tau) : CaptureLaw t := by
  have same : CaptureLaw (t.setRun { t.run with setup := s.run.setup }) := by
    refine h.congr ?_ (by rw [State.setRun, tau])
    simp only [State.captureView, State.setRun, run, table, state, cst, log]
  have g := same.table
  exact ⟨⟨setup, g.figures, g.indices, g.fits, g.waiting, g.opened, g.untriggered, g.room, g.next⟩, same.regions,
    same.triggers, same.accounts, same.logged, same.starts⟩

theorem setup (h : CaptureLaw s) (u : RunSetup) : CaptureLaw (s.setup u) := by
  unfold State.setup
  split
  · exact h.withSetup (clampSetup_inBounds u) rfl rfl rfl rfl rfl rfl
  · exact h.refuse _ _

theorem notice (h : CaptureLaw s) (source : Station) (i time : Nat) : CaptureLaw (s.notice source i time) := by
  have noted : CaptureLaw (s.updateRecord i (fun r => r.notice time)) :=
    h.congr (State.updateRecord_view s i (fun _ => rfl)) (by rw [State.updateRecord_eq])
  unfold State.notice
  dsimp only
  split
  · exact noted.congr rfl rfl
  · exact noted

theorem markNoticesDropped (l : List Nat) (h : CaptureLaw s) : CaptureLaw (l.foldl State.markNoticeDropped s) := by
  induction l generalizing s with
  | nil => exact h
  | cons i rest ih => exact ih (h.congr (State.updateRecord_view s i (fun _ => rfl)) rfl)

theorem duplicateId (h : CaptureLaw s) (bit : Nat) : CaptureLaw (s.duplicateId bit) := by
  unfold State.duplicateId
  split
  · refine postStatus (markNoticesDropped _ ?_)
    exact h.congr rfl rfl
  · exact h

/-! ### The load and the join -/

theorem imageAttempt (h : CaptureLaw s) (bytes : List Byte) (im : RawImage) : CaptureLaw (s.imageAttempt bytes im) := by
  have loaded (x : ImageState) (c : ImageContents) : CaptureLaw ((s.setImageState x).load c) :=
    h.withSetup (clampSetup_inBounds _) rfl rfl rfl rfl rfl rfl
  unfold State.imageAttempt
  split
  · split
    · exact loaded _ _
    · split
      · exact h.congr rfl rfl
      · exact loaded _ _
  · exact h

theorem of_inner (h : CaptureLaw s) (same : t.inner = s.inner) : CaptureLaw t :=
  h.congr (by have e := congrArg State.captureView same; exact e) (by rw [tau_of_inner same])

theorem join (h : CaptureLaw s) (levels : JoinLevels) : CaptureLaw (s.join levels) := by
  rw [State.join_eq]
  split
  · exact (postStatus (s := s.joining levels) (h.congr rfl rfl)).of_inner (State.startPanel_inner _)
  · exact h

/-! ### Commands -/

theorem command (i : Instr) {s t : State} (e : exec i s = .next t) (h : CaptureLaw s) : CaptureLaw t := by
  have frame {i : Instr} {taken : State → State} (take : ∀ u, CaptureLaw u → CaptureLaw (taken u)) :
      CaptureLaw (s.onFrame i taken) := State.onFrame_keeps (P := CaptureLaw) (fun _ => h.congr rfl rfl) take h
  cases i with
  | windowEnd edges => cases e; exact h.windowEnd edges
  | emissionTimerExpiry => cases e; exact h.emissionTimerExpiry
  | markPulseEnd => cases e; unfold State.markPulseEnd; split <;> [exact h.setTau _; exact h]
  | leadingEdge => cases e; exact h.leadingEdge
  | trailingEdge => cases e; exact h.trailingEdge
  | markStuck => cases e; exact h.markStuck
  | synthesizedMark => cases e; exact h.synthesizedMark
  | sample => cases e; exact h.sample
  | restart source target straps =>
    cases e; exact frame (fun _ hu => by split <;> [exact hu.linkStart straps; exact hu])
  | stop source => cases e; exact frame (fun _ hu => hu.stop)
  | arm source profile => cases e; exact frame (fun _ hu => hu.arm profile)
  | notice source segment time => cases e; exact frame (fun _ hu => hu.notice ..)
  | setup source divider segments options codeA codeB => cases e; exact frame (fun _ hu => hu.setup _)
  | duplicateId bit => cases e; exact h.duplicateId bit
  | powerUp straps => cases e; exact CaptureLaw.powerStart s straps
  | resetPinAssert => cases e; exact h.congr rfl rfl
  | resetPinRelease straps =>
    cases e; unfold State.resetPinRelease; split <;> [exact h.pinStart straps; exact h]
  | imageAttempt bytes image => cases e; exact h.imageAttempt bytes image
  | join levels => cases e; exact h.join levels
  | _ => exact h.of_inner (exec_inner rfl e)

theorem tick (h : CaptureLaw s) : CaptureLaw s.tick := by
  unfold State.tick
  split
  · refine h.congr rfl ?_
    show (s.tau.runTime.map (fun r => r.tick s.tau.rateFactor)).map RunTime.nextSample = _
    simp [Function.comp_def, RunTime.tick]
  · exact h

end CaptureLaw
end
end Sys2Proof.Machine

namespace Sys2Proof.Proofs
open Sys2Proof Sys2Proof.Machine

/-- Settles O9: `CaptureLaw.tick` and, command by command, `CaptureLaw.command`. -/
theorem stepKeepsCaptureLaw : Obligations.StepKeepsCaptureLaw :=
  fun _ _ h e => step_keeps (P := CaptureLaw) (fun _ h => h.congr rfl rfl) CaptureLaw.tick CaptureLaw.command h e

end Sys2Proof.Proofs
end

