-- ==== Sys2Proof/Proofs/Steps.lean ====
section
/-! PROOF. Steps, the reset state, a POWER start and a part held in reset (R178). -/

namespace Sys2Proof.Machine

/-! ### A held part -/

theorem State.active_of_held {s : State} (h : s.sul.resetHeld = true) : s.active = false := by simp [State.active, h]

theorem State.receives_of_held {s : State} (h : s.sul.resetHeld = true) : s.receives = false := by
  simp [State.receives, State.active_of_held h]

/-- The commands that move a held part: the starts, the release of the pin and the voltages on the probe pins. -/
def movesHeldPart : Instr → Bool
  | .powerUp _ | .resetPinRelease _ | .levelChange _ _ => true
  | _ => false

theorem exec_held {s : State} (h : s.sul.resetHeld = true) (i : Instr) (moves : movesHeldPart i = false) :
    exec i s = .next s := by
  have held := State.active_of_held h
  have same {u : State} (e : u = s) : (.next u : Host.Outcome State Fault Refusal) = .next s := congrArg _ e
  have frame (i : Instr) (taken : State → State) :
      (.next (s.onFrame i taken) : Host.Outcome State Fault Refusal) = .next s :=
    same (State.onFrame_missed i (State.receives_of_held h) taken)
  cases i with
  | powerUp straps => cases moves
  | resetPinRelease straps => cases moves
  | levelChange c input => cases moves
  | windowEnd edges => exact same (by simp [State.windowEnd, held])
  | emissionTimerExpiry => exact same (by simp [State.emissionTimerExpiry, held])
  | markPulseEnd => exact same (by simp [State.markPulseEnd, held])
  | leadingEdge => exact same (by simp [State.leadingEdge, held])
  | trailingEdge => exact same (by simp [State.trailingEdge, held])
  | markStuck => exact same (by simp [State.markStuck, held])
  | synthesizedMark => exact same (by simp [State.synthesizedMark, held])
  | sample => exact same (by simp [State.sample, held])
  | driverPresent => exact same (by simp [State.driverPresent, held])
  | flagLineChange line asserted => exact same (by simp [State.flagLineChange, h])
  | restart source target straps => exact frame _ _
  | stop source => exact frame _ _
  | arm source profile => exact frame _ _
  | notice source segment time => exact frame _ _
  | setup source divider segments options codeA codeB => exact frame _ _
  | view source segment offset scale follow => exact frame _ _
  | panel source target mode first last inversion => exact frame _ _
  | query source target => exact frame _ _
  | read source target collection key count => exact frame _ _
  | replyFrameReceived kind source payload => exact frame _ _
  | unaddressedFrameReceived kind source payload =>
    exact same (by split <;> [rfl; exact State.onFrame_missed _ (State.receives_of_held h) _])
  | receiveFault f => exact same (by unfold State.receiveFault; split <;> simp [State.receives_of_held h])
  | lineIdle => exact same (by simp [State.lineIdle, held])
  | frameBegin => exact same (by simp [State.frameBegin, held])
  | arbitrationLost bit => exact same (by simp [State.arbitrationLost, held])
  | bitError bit => exact same (by simp [State.bitError, held])
  | duplicateId bit => exact same (by simp [State.duplicateId, held])
  | transmissionComplete => exact same (by simp [State.transmissionComplete, held])
  | statusOwedJoin => exact same (by simp [State.statusOwedJoin, held])
  | heldDoneJoin => exact same (by unfold State.heldDoneJoin; split <;> simp [held])
  | dataFormation => exact same (by unfold State.dataFormation; split <;> simp [held])
  | frameStart => exact same (by simp [State.frameStart, held])
  | columnRender => exact same (by unfold State.columnRender; split <;> simp [held])
  | renderComplete => exact same (by unfold State.renderComplete; split <;> simp [held])
  | transferComplete => exact same (by unfold State.transferComplete; split <;> simp [held])
  | sleepStart => exact same (by simp [State.sleepStart, held])
  | sleepComplete => exact same (by simp [State.sleepComplete, held])
  | resetPinAssert => exact same (by rw [State.resetPinAssert, ← h])
  | imageAttempt bytes image => exact same (by simp [State.imageAttempt, h])
  | join levels => exact same (by simp [State.join, h])

/-! ### A tick of the message line -/

theorem idleCountAfter_one (n : Nat) (recessive : Bool) :
    idleCountAfter n [recessive] = if recessive then min 9 (n + 1) else 0 := rfl

/-- R163: the place in the frame once the bit clock has run on. -/
theorem Lnk.runBitClock_framePosition (l : Lnk) : l.runBitClock.framePosition =
    if (l.bitClock + 1) % 250 = 0 then l.framePosition.map (fun n => n + 1) else l.framePosition := rfl

theorem Lnk.levelSeen_sentDominant {l : Lnk} {n : Nat} (h : l.receiver ≠ .waiting) (one : 1 ≤ n)
    (p : l.framePosition = some n) (d : l.sentBit n = some false) (v : Bool) : l.levelSeen v = false := by
  obtain ⟨m, rfl⟩ := Nat.exists_eq_succ_of_ne_zero (Nat.pos_iff_ne_zero.mp one)
  exact Lnk.levelSeen_sent v h p d

/-! ### The reset state -/

theorem CaptureLaw.reset : CaptureLaw State.reset := CaptureLaw.powerStart State.reset 0

theorem StoresCanonical.reset : StoresCanonical State.reset := ⟨rfl, rfl, rfl⟩

theorem SequencerLaw.reset : SequencerLaw State.reset := SequencerLaw.startBlocks State.reset 0 .power [] false rfl

end Sys2Proof.Machine

namespace Sys2Proof.Proofs
open Sys2Proof Sys2Proof.Machine

/-- Settles O1: a step takes the command at the front of its queue. -/
theorem stepRunsFrontCommand : Obligations.StepRunsFrontCommand := by
  intro c rest s h
  simp only [step, h]

/-- Settles O2: `Lnk.tick_eq` with the level that the tick sees. -/
theorem emptyQueueIsOneTick : Obligations.EmptyQueueIsOneTick := by
  intro s empty
  have stepped : step s = .next s.tick := by simp only [step, empty]
  refine ⟨fun active => ?_, fun idle => by rw [stepped, State.tick, idle]; rfl⟩
  let seen := s.lnk.runBitClock.levelSeen (Config.messageLevel s.freeCount)
  refine ⟨seen, fun w r => Lnk.levelSeen_waiting (l := s.lnk.runBitClock) _ w r,
    fun w p => Lnk.levelSeen_start (l := s.lnk.runBitClock) _ w p,
    fun n w one p d => Lnk.levelSeen_sentDominant (l := s.lnk.runBitClock) w one p d _, ?_⟩
  rw [stepped, State.tick, if_pos active, Lnk.tick_eq]
  simp only [Bool.and_eq_true, Bool.not_eq_true', decide_eq_true_eq]
  rfl

/-- Settles O3: each value, and the laws where they hold from the start. -/
theorem resetIsPowerStart : Obligations.ResetIsPowerStart := by
  refine ⟨?_, StoresCanonical.reset, QueueLaw.start 0 0, LockLaw.start, SequencerLaw.reset, LogLaw.powerStart,
    CaptureLaw.reset⟩
  repeat' apply And.intro
  all_goals rfl

/-- Settles O55: a POWER start gives every block the value it has in the reset state. -/
theorem powerStartKeepsNothing : Obligations.PowerStartKeepsNothing := fun _ _ => rfl

/-- Settles O56: what a held part drives, and `exec_held` for the commands. -/
theorem heldPartHolds : Obligations.HeldPartHolds := by
  refine fun s => ⟨rfl, fun h => ⟨?_, fun c input => ?_, fun i hi => exec_held h i ?_⟩⟩
  · simp [State.drivesMark, State.drivesFlags, State.sendsBits, State.panelAssertions, State.drivesFlash, h]
  · exact congrArg Host.Outcome.next (by simp [State.levelChange, h, State.setPfe])
  · cases i <;> first | rfl | cases hi

end Sys2Proof.Proofs
end

