-- ==== Sys2Proof/Proofs/RequestsTaken.lean ====
section
/-! PROOF. The requests of the message line that RUN, REN's view and the panel port take, and the frames that no block takes
(R36, R38, R47, R48, R53, R136, R153, R168); the flag lines (R81, R89, R161). -/

namespace Sys2Proof.Machine

/-! ### Frames -/

section
variable {s : State} {source : Station} (h : s.receives = true)
include h

theorem exec_stop : exec (.stop source) s = .next (s.afterFrame { kind := 1, source := source, payload := [] }).stop :=
  congrArg Host.Outcome.next (State.onFrame_received rfl h _)

theorem exec_arm (b : Byte) :
    exec (.arm source b) s = .next ((s.afterFrame { kind := 2, source := source, payload := [b] }).arm b) :=
  congrArg Host.Outcome.next (State.onFrame_received rfl h _)

theorem exec_notice (segment : Byte) (time : BitVec 48) :
    exec (.notice source segment time) s = .next
      ((s.afterFrame { kind := 3, source := source, payload := segment :: bytesBE 6 time.toNat }).notice source
        segment.toNat time.toNat) :=
  congrArg Host.Outcome.next (State.onFrame_received rfl h _)

theorem exec_setup (d : Word) (n o a b : Byte) :
    exec (.setup source d n o a b) s = .next
      ((s.afterFrame { kind := 4, source := source, payload := bytesBE 4 d.toNat ++ [n, o, a, b] }).setup
        (setupOf d n o a b)) :=
  congrArg Host.Outcome.next (State.onFrame_received rfl h _)

theorem exec_panel {target : Byte} (own : addressed s.sul.strap (targetOf target) = true) (mode first last inversion : Byte) :
    exec (.panel source target mode first last inversion) s = .next
      ((s.afterFrame { kind := 6, source := source, payload := [target, mode, first, last, inversion] }).panel mode first
        last inversion) :=
  congrArg Host.Outcome.next ((State.onFrame_received rfl h _).trans (if_pos own))

end

/-! ### Run setup -/

theorem setupOf_clamped (d : Word) (n o a b : Byte) : clampSetup (setupOf d n o a b) =
    { divider := max 2 (min 1048576 d.toNat), segments := max 1 (min 32 n.toNat), fraction := o.toNat % 16
      prefillWait := o.getLsbD 4, followNotice := o.getLsbD 5, codeA := a, codeB := b } := by
  have fraction : min 15 (o.extractLsb' 0 4).toNat = o.toNat % 16 := by
    rw [Nat.min_eq_right (Nat.le_of_lt_succ (o.extractLsb' 0 4).isLt)]
    simp [BitVec.extractLsb'_toNat]
  simp only [clampSetup, setupOf, clampNat, fraction]

theorem levelOf_groupAChannels : ∀ c : Fin 16, levelOf groupAChannels c = decide (c.val < 8) := by decide
theorem levelOf_groupBChannels : ∀ c : Fin 16, levelOf groupBChannels c = !decide (c.val < 8) := by decide

/-- R32: a channel is to settle where the code of its group changes. -/
theorem Pfe.levelOf_changedGroups (p : Pfe) (a b : Byte) (c : Fin 16) :
    levelOf (p.changedGroups a b) c = true ↔ ¬(if c.val < 8 then p.groupA.code = some a else p.groupB.code = some b) := by
  have zero : levelOf 0 c = false := by simp [levelOf]
  unfold Pfe.changedGroups
  rw [levelOf_or]
  by_cases hc : c.val < 8
  · rw [if_pos hc, apply_ite (levelOf · c), apply_ite (levelOf · c), zero, levelOf_groupAChannels, levelOf_groupBChannels]
    simp [hc]
  · rw [if_neg hc, apply_ite (levelOf · c), apply_ite (levelOf · c), zero, levelOf_groupAChannels, levelOf_groupBChannels]
    simp [hc]

theorem clampInt_eq (x : Int) : clampInt (-5000) 5200 x = max (-5000) (min 5200 x) := by
  unfold clampInt; omega

/-! ### NOTICE and VIEW -/

theorem State.notice_eq (s : State) (source : Station) (i time : Nat) : s.notice source i time =
    { s with run := { s.run with
      table := s.run.table.map (fun r =>
        if r.index = i then { r with reference := some (min (r.reference.getD time) time) } else r)
      pendingRemote := s.run.pendingRemote || s.noticeFires source i } } := by
  have noted (r : SegmentRecord) : r.notice time = { r with reference := some (min (r.reference.getD time) time) } := by
    unfold SegmentRecord.notice earliest
    cases r.reference <;> simp
  unfold State.notice
  simp only [State.updateRecord_eq, noted]
  cases s.noticeFires source i with
  | false => rw [Bool.or_false]; rfl
  | true => rw [Bool.or_true]; rfl

theorem State.noticeFires_iff (s : State) (source : Station) (i : Nat) : s.noticeFires source i = true ↔
    s.run.setup.followNotice = true ∧ source ≠ s.sul.strap ∧ s.openIndex? = some i ∧ s.run.state = .pretrig := by
  simp [State.noticeFires, and_assoc]

theorem viewOf_eq (segment : Byte) (offset : BitVec 48) (scale follow : Byte) : viewOf segment offset scale follow =
    { segment := segment.toNat % 32, offset := offset.toInt, scale := min 36 scale.toNat
      follow := follow.getLsbD 0 } := by
  simp [viewOf, BitVec.extractLsb'_toNat]

/-! ### Frames not taken -/

theorem exec_missed {s : State} {i : Instr} {f : Frame} (hf : i.frame? = some f) (h : s.receives = false) :
    exec i s = .next s := by
  have missed (i : Instr) (taken : State → State) :
      (.next (s.onFrame i taken) : Host.Outcome State Fault Refusal) = .next s :=
    congrArg _ (State.onFrame_missed i h taken)
  cases i with
  | restart source target straps => exact missed _ _
  | stop source => exact missed _ _
  | arm source profile => exact missed _ _
  | notice source segment time => exact missed _ _
  | setup source divider segments options codeA codeB => exact missed _ _
  | view source segment offset scale follow => exact missed _ _
  | panel source target mode first last inversion => exact missed _ _
  | query source target => exact missed _ _
  | read source target collection key count => exact missed _ _
  | replyFrameReceived kind source payload => exact missed _ _
  | unaddressedFrameReceived kind source payload =>
    refine congrArg Host.Outcome.next (?_ : (if s.isAddressed (payloadByte payload 0) then s
      else s.onFrame (.unaddressedFrameReceived kind source payload) (fun t => t)) = s)
    split
    · rfl
    · exact State.onFrame_missed _ h _
  | _ => cases hf

/-! ### The end of a run, whatever stood before -/

theorem State.commitOpen_dec (s : State) : s.commitOpen.1.dec = s.dec := by
  unfold State.commitOpen State.commitEntry
  split
  · split
    · dsimp only; split <;> rfl
    · rfl
  · rfl
  · rfl

theorem State.closeSegment_dec (s : State) (c : CloseReason) : (s.closeSegment c).dec = s.dec := by
  have trims : (s.commitOpen.2.foldl State.trimLog s.commitOpen.1).dec = s.commitOpen.1.dec :=
    (State.logSample_tsq_dec s.commitOpen.1 .idle 0 [] s.commitOpen.2).2
  show (State.updateOpen _ _).dec = s.dec
  rw [State.updateOpen_eq]
  exact trims.trans (State.commitOpen_dec s)

theorem State.flushDecoders_dec (s : State) :
    s.flushDecoders.dec = { s.dec with units := s.dec.units.map DecodeUnit.stop } := by
  unfold State.flushDecoders
  dsimp only
  split
  · next r _ =>
    have logged := (State.logSample_tsq_dec (s.compareRecords (s.dec.flushRecords (flushContext s r)))
      (s.compareRecords (s.dec.flushRecords (flushContext s r))).run.state r.firstSample
      (s.dec.flushRecords (flushContext s r)) []).2
    exact congrArg (fun d : Dec => { d with units := d.units.map DecodeUnit.stop }) logged
  · rfl

theorem State.flushDecoders_cst (s : State) : s.flushDecoders.cst = s.cst := by
  unfold State.flushDecoders
  dsimp only
  split
  · exact State.logSample_cst ..
  · rfl

theorem State.endRun_run (s : State) : s.endRun.run = { s.run with state := .idle, pendingRemote := false } := by
  rw [State.endRun, State.postStatus_run, State.flushDecoders_run_idle rfl]; rfl

/-- R52: the blocks that the close of a segment and the end of a run give a value of their own. -/
theorem State.closeAndEnd_blocks (s : State) (c : CloseReason) :
    (s.closeAndEnd c).run.state = .idle ∧ (s.closeAndEnd c).tau = { s.tau with runTime := none } ∧
      (s.closeAndEnd c).pfe = { s.pfe with changedOnce := 0, glitchSeen := 0, lastLevels := none } ∧
      (s.closeAndEnd c).cst.openEntry = none ∧ (s.closeAndEnd c).tsq.drives = 0 ∧
      (s.closeAndEnd c).tsq.running = false ∧ (s.closeAndEnd c).run.pendingRemote = false ∧
      (s.closeAndEnd c).dec.units = s.dec.units.map DecodeUnit.stop := by
  have front : (s.closeAndEnd c).front = ({ s.tau with runTime := none }, s.pfe.endRunTime) := by
    rw [State.closeAndEnd, State.endRun_front]
    have closed := State.closeSegment_front s c
    rw [front_tau closed, front_pfe closed]
  have sequencer : Sequenced (s.closeSegment c).sul (s.closeAndEnd c) := Sequenced.endRun rfl
  have stopped : (s.closeAndEnd c).tsq.running = false := by
    rw [sequencer.running, State.closeAndEnd, State.endRun_state]; rfl
  refine ⟨State.endRun_state _, front_tau (s := { s with tau := _, pfe := _ }) front,
    front_pfe (s := { s with tau := _, pfe := _ }) front, ?_, sequencer.released stopped, stopped, ?_, ?_⟩
  · rw [State.closeAndEnd, State.endRun, State.postStatus_cst, State.flushDecoders_cst]; rfl
  · rw [State.closeAndEnd, State.endRun_run]
  · rw [State.closeAndEnd, State.endRun, State.postStatus_dec, State.flushDecoders_dec]
    exact congrArg (fun d : Dec => d.units.map DecodeUnit.stop) (State.closeSegment_dec s c)

/-- R51: the open segment's record is closed for the reason given, and the table keeps its length and its indices. -/
theorem State.closeAndEnd_table {s : State} {g : SegmentRecord} (o : s.openRecord? = some g) (c : CloseReason) :
    (∀ x ∈ (s.closeAndEnd c).run.table, x.index = g.index → x.state = .closed ∧ x.closeReason = some c) ∧
      (s.closeAndEnd c).run.table.map SegmentRecord.index = s.run.table.map SegmentRecord.index := by
  obtain ⟨f, index, closed, table⟩ := State.closeSegment_table s c
  have ended : (s.closeAndEnd c).run.table = s.run.table.map f := by
    rw [State.closeAndEnd, State.endRun_run]; exact table
  rw [ended]
  refine ⟨fun x hx same => ?_, map_index_of_keeps index _⟩
  obtain ⟨r, -, rfl⟩ := List.mem_map.mp hx
  exact closed r (by rw [State.openIndex_of o, ← same, index])

/-! ### PANEL -/

theorem panelRows_eq (first last : Nat) :
    (panelRows first last).1 = min (min 119 first) (min 119 last) ∧
      (panelRows first last).2 = max (min 119 first) (min 119 last) := by
  unfold panelRows
  dsimp only
  split
  · exact ⟨by dsimp only; omega, by dsimp only; omega⟩
  · exact ⟨by dsimp only; omega, by dsimp only; omega⟩

theorem modeOf_getD (b : Byte) (m : PanelMode) : (modeOf b).getD m =
    if b.toNat = 0 then .normal else if b.toNat = 1 then .partialRows else if b.toNat = 2 then .reduced
    else if b.toNat = 3 then .sleep else m := by
  unfold modeOf
  split
  · next e => rw [e]; rfl
  · next e => rw [e]; rfl
  · next e => rw [e]; rfl
  · next e => rw [e]; rfl
  · next n0 n1 n2 n3 => rw [if_neg n0, if_neg n1, if_neg n2, if_neg n3]; rfl

/-- R159: when the wake frame starts, and what it is. -/
theorem State.wakeIfAsleep_wakes {s : State}
    (h : s.port.live.mode ≠ .sleep ∧ s.port.state = .asleep ∧ s.ren.frameState = .waiting) :
    s.wakeIfAsleep = (s.startFrame true).setPort { s.port with wakePending := true } := by
  obtain ⟨mode, asleep, waiting⟩ := h
  simp [State.wakeIfAsleep, mode, asleep, waiting]

theorem State.wakeIfAsleep_stays {s : State}
    (h : ¬(s.port.live.mode ≠ .sleep ∧ s.port.state = .asleep ∧ s.ren.frameState = .waiting)) : s.wakeIfAsleep = s := by
  unfold State.wakeIfAsleep
  rw [if_neg]
  simpa [and_assoc] using h

/-! ### Flag lines -/

theorem getLsbD_withLine (f : FlagLines) (line : Fin 4) (asserted : Bool) (l : Fin 4) :
    (FlagLines.withLine f line asserted).getLsbD l.val = if l = line then asserted else f.getLsbD l.val := by
  have bit : (1#4 <<< line.val).getLsbD l.val = decide (l = line) := by revert l line; decide
  cases asserted with
  | true =>
    simp only [FlagLines.withLine, if_true, BitVec.getLsbD_or, bit]
    by_cases h : l = line <;> simp [h]
  | false =>
    simp only [FlagLines.withLine, Bool.false_eq_true, if_false, BitVec.getLsbD_and, BitVec.getLsbD_not, bit, l.isLt,
      decide_true, Bool.true_and]
    by_cases h : l = line <;> simp [h]

end Sys2Proof.Machine

namespace Sys2Proof.Proofs
open Sys2Proof Sys2Proof.Machine

/-- Settles O33: an ARM and a SETUP outside IDLE, and an ARM of an absent profile, come down to a refusal. -/
theorem refusalsChangeNothingElse : Obligations.RefusalsChangeNothingElse := by
  refine fun s source h => ⟨fun b busy => ?_, fun b idle absent => ?_, fun d n o a b busy => ?_⟩
  · rw [exec_arm h, State.arm, if_neg (by exact busy)]; rfl
  · rw [exec_arm h, State.arm, if_pos (by exact idle)]
    show Host.Outcome.next (match s.armedProfile b with | some (p, r) => _ | none => _) = _
    rw [absent]; rfl
  · rw [exec_setup h, State.setup, if_neg (by exact busy)]; rfl

/-- Settles O34: `setupOf_clamped`, and for the levels `Pfe.levelOf_settle`. -/
theorem setupIsTakenInIdle : Obligations.SetupIsTakenInIdle := by
  intro s source d n o a b h idle unchanged above
  have settles (c : Fin 16) : levelOf (s.pfe.setCodes a b).raw c =
      if levelOf (s.pfe.changedGroups a b) c = true ∧ levelOf s.pfe.enabled c = true then
        ({ s.pfe with groupA := s.pfe.groupA.withCode a, groupB := s.pfe.groupB.withCode b } : Pfe).settledLevel
          (levelOf s.pfe.raw c) c
      else levelOf s.pfe.raw c := Pfe.levelOf_settle ..
  refine ⟨(s.pfe.setCodes a b).raw, fun c stands => ?_, fun c enabled changed => ?_, ?_⟩
  · rw [settles, if_neg]
    rintro ⟨x, e⟩
    obtain off | same := stands
    · rw [off] at e; cases e
    · exact (Pfe.levelOf_changedGroups _ _ _ _).mp x same
  · rw [settles, if_pos ⟨(Pfe.levelOf_changedGroups _ _ _ _).mpr changed, enabled⟩]
    have threshold (v : Int) : GroupState.settle (Pfe.groupOf
        { s.pfe with groupA := s.pfe.groupA.withCode a, groupB := s.pfe.groupB.withCode b } c) v = above c v := by
      by_cases hc : c.val < 8 <;>
        simp [GroupState.settle, GroupState.threshold, thresholdMillivolts, clampInt_eq, above, Pfe.groupOf, hc,
          GroupState.withCode]
    have thresholds : above c = fun v => GroupState.settle (Pfe.groupOf
        { s.pfe with groupA := s.pfe.groupA.withCode a, groupB := s.pfe.groupB.withCode b } c) v :=
      funext fun v => (threshold v).symm
    rw [thresholds]
    rfl
  · rw [exec_setup h, State.setup, if_pos (by exact idle), setupOf_clamped]
    rfl

/-- Settles O32: a taken ARM, field by field. -/
theorem armIsTaken : Obligations.ArmIsTaken := by
  intro s source b p r h idle number present
  have named : profileNumber b = some p := by
    unfold profileNumber
    rw [dif_pos (by rw [number]; exact p.isLt)]
    exact congrArg some (Fin.ext number)
  have armed : s.armedProfile b = some (p, r) := by
    rw [State.armedProfile, named, Option.bind_some, present]; rfl
  rw [exec_arm h, State.arm, if_pos (by exact idle)]
  show Host.Outcome.next (match s.armedProfile b with | some (p, r) => _ | none => _) = _
  rw [armed]
  rfl

/-- Settles O35: the record that a NOTICE names, and the view that a VIEW brings. -/
theorem noticeAndViewAreTaken : Obligations.NoticeAndViewAreTaken := by
  intro s source segment h
  refine ⟨fun time => ⟨_, exec_notice h segment time, ?_, ?_, ?_⟩, fun offset scale follow => ?_⟩
  · rw [State.notice_eq]; rfl
  · rw [State.notice_eq]
    show (s.run.pendingRemote || s.noticeFires source segment.toNat) = true ↔ _
    rw [Bool.or_eq_true, State.noticeFires_iff]
  · rw [State.notice_eq]; rfl
  · have taken : exec (.view source segment offset scale follow) s = .next (State.view _ _) :=
      congrArg Host.Outcome.next (State.onFrame_received rfl h _)
    rw [taken, State.view, viewOf_eq]
    rfl

/-- Settles O36: the live settings by `State.panel`, and the wake frame by the one condition of R159. -/
theorem panelReplacesLiveSettings : Obligations.PanelReplacesLiveSettings := by
  intro s source target mode first last inversion h own
  let q := (s.afterFrame { kind := 6, source := source, payload := [target, mode, first, last, inversion] }).setPort
    { s.port with live := s.port.live.apply mode first last inversion }
  obtain ⟨firstRow, lastRow⟩ := panelRows_eq first.toNat last.toNat
  by_cases wakes : (s.port.live.apply mode first last inversion).mode ≠ .sleep ∧ s.port.state = .asleep ∧
      s.ren.frameState = .waiting
  · refine ⟨(q.startFrame true).setPort { q.port with wakePending := true },
      (exec_panel h own mode first last inversion).trans (congrArg _ (State.wakeIfAsleep_wakes (s := q) wakes)),
      firstRow, lastRow, rfl, modeOf_getD mode _, fun _ => ⟨rfl, rfl, rfl, rfl⟩, fun stays => ?_, rfl⟩
    obtain ⟨mode, asleep, waiting⟩ := wakes
    exact (stays.elim mode (fun x => x.elim (· asleep) (· waiting))).elim
  · refine ⟨q,
      (exec_panel h own mode first last inversion).trans (congrArg _ (State.wakeIfAsleep_stays (s := q) wakes)),
      firstRow, lastRow, rfl, modeOf_getD mode _, fun c => absurd c wakes, fun _ => ⟨rfl, rfl⟩, rfl⟩

/-- Settles O39: a frame that no block takes is read to its end and handed to none. -/
theorem framesNotTakenAreReceived : Obligations.FramesNotTakenAreReceived := by
  intro s i f hf
  refine ⟨exec_missed hf, fun h other => ?_⟩
  have passed {i : Instr} (hf : i.frame? = some f) {taken : State → State}
      (none : taken (s.afterFrame f) = s.afterFrame f) :
      (.next (s.onFrame i taken) : Host.Outcome State Fault Refusal) = .next (s.afterFrame f) :=
    congrArg _ ((State.onFrame_received hf h taken).trans none)
  have elsewhere {target : Byte} (off : addressed s.sul.strap (targetOf target) = false) :
      ¬(s.afterFrame f).isAddressed target = true := by
    rw [State.isAddressed, State.afterFrame_sul, off]; exact Bool.false_ne_true
  cases i with
  | replyFrameReceived kind source payload => exact passed hf rfl
  | unaddressedFrameReceived kind source payload =>
    refine congrArg Host.Outcome.next (?_ : (if s.isAddressed (payloadByte payload 0) then s
      else s.onFrame (.unaddressedFrameReceived kind source payload) (fun t => t)) = _)
    rw [if_neg (by rw [State.isAddressed, other]; exact Bool.false_ne_true), State.onFrame_received hf h]
  | restart source target straps => exact passed hf (if_neg (elsewhere other))
  | panel source target mode first last inversion => exact passed hf (if_neg (elsewhere other))
  | query source target => exact passed hf (if_neg (elsewhere other))
  | read source target collection key count => exact passed hf (if_neg (elsewhere other))
  | _ => exact other.elim

/-- Settles O30: the drivers take the settled drives, and `getLsbD_withLine` for one observed line. -/
theorem flagLinesArePresentedAndObserved : Obligations.FlagLinesArePresentedAndObserved := by
  refine fun s => ⟨fun active enabled => ?_, fun free line asserted => ⟨s.flagLineChange line asserted, rfl, ?_, ?_⟩⟩
  · exact congrArg Host.Outcome.next (by simp [State.driverPresent, active, enabled, State.setLnk])
  · intro l
    simp only [State.flagLineChange, free, Bool.false_eq_true, if_false]
    exact getLsbD_withLine ..
  · simp only [State.flagLineChange, free, Bool.false_eq_true, if_false]
    rfl

/-- Settles O31: in a run, `State.closeAndEnd_eq` where the table and the open entry are as they should be, and else what
a close and the end of a run leave whatever stood before. -/
theorem stopEndsTheRun : Obligations.StopEndsTheRun := by
  intro s source h u
  have running {g : SegmentRecord} (o : s.openRecord? = some g) : u.stop = u.closeAndEnd .stopped := by
    obtain ⟨segment, -⟩ := State.openRecord_eq o
    unfold State.stop
    split
    · next c => rw [show s.run.state = _ from c] at segment; cases segment
    · next c => rw [show s.run.state = _ from c] at segment; cases segment
    · rfl
    · rfl
    · rfl
  refine ⟨fun idle => ?_, fun waiting => ?_, fun g o => ?_, fun g e o entry unique => ?_⟩
  · rw [exec_stop h, State.stop, show u.run.state = .idle from idle]
  · rw [exec_stop h, State.stop, show u.run.state = .waitStart from waiting]; rfl
  · refine ⟨_, exec_stop h, ?_⟩
    rw [show _ = _ from running o]
    obtain ⟨state, tau, pfe, entry, drives, stopped, pending, units⟩ := u.closeAndEnd_blocks .stopped
    obtain ⟨closed, indices⟩ := State.closeAndEnd_table (s := u) o .stopped
    have still := u.closeAndEnd_still .stopped
    refine ⟨state, tau, pfe, entry, drives, stopped, pending, units, closed, ?_, congrArg Still.ren still,
      congrArg Still.port still, congrArg Still.sul still⟩
    have length := congrArg List.length indices
    rwa [List.length_map, List.length_map] at length
  · rw [exec_stop h, show _ = _ from running o, State.closeAndEnd, State.endRun,
      State.closeAndEnd_eq (s := u) .stopped o entry unique, State.logAfterRun_congr (s := s) (t := u) rfl rfl rfl rfl]
    rfl

end Sys2Proof.Proofs
end

