-- ==== Sys2Proof/Proofs/Starts.lean ====
section
/-! PROOF. The starts that keep the run's records (R55, R74, R129, R151, R176) and the join (R178, R182). -/

namespace Sys2Proof.Machine

/-! ### Recovery (R55) -/

theorem State.closeSegment_openIndex? (s : State) (c : CloseReason) : (s.closeSegment c).openIndex? = s.openIndex? := by
  obtain ⟨f, index, -, table⟩ := State.closeSegment_table s c
  exact State.openIndex?_congr (by rw [State.closeSegment_state]) (by rw [table, map_index_of_keeps index])

/-- What a close leaves alone of the comparators and of the log's counts. -/
theorem State.closeSegment_counts (s : State) (c : CloseReason) :
    (s.closeSegment c).fc = s.fc ∧ (s.closeSegment c).log.counter = s.log.counter := by
  have committed : s.commitOpen.1.fc = s.fc ∧ s.commitOpen.1.log = s.log := by
    unfold State.commitOpen State.commitEntry
    split
    · split
      · dsimp only; split <;> exact ⟨rfl, rfl⟩
      · exact ⟨rfl, rfl⟩
    · exact ⟨rfl, rfl⟩
    · exact ⟨rfl, rfl⟩
  have trimmed (l : List Advance) (x : State) :
      (l.foldl State.trimLog x).fc = x.fc ∧ (l.foldl State.trimLog x).log.counter = x.log.counter := by
    induction l generalizing x with
    | nil => exact ⟨rfl, rfl⟩
    | cons a rest ih => exact ih _
  obtain ⟨fc, log⟩ := committed
  obtain ⟨fc', counter⟩ := trimmed s.commitOpen.2 s.commitOpen.1
  constructor
  · show (State.updateOpen _ _).fc = s.fc
    rw [State.updateOpen_eq]; exact fc'.trans fc
  · show (State.updateOpen _ _).log.counter = s.log.counter
    rw [State.updateOpen_eq]; exact counter.trans (congrArg Log.counter log)

/-- The recovery's marks, whatever stood before. -/
theorem State.recover_marks {s : State} {g : SegmentRecord} (o : s.openRecord? = some g) :
    ∀ x ∈ s.recover.run.table, x.index = g.index →
      x.state = .closed ∧ x.closeReason = some .reset ∧ x.recovered = true := by
  obtain ⟨segment, -⟩ := State.openRecord_eq o
  obtain ⟨f, index, closed, table⟩ := State.closeSegment_table s .reset
  have open' : (s.closeSegment .reset).openIndex? = some g.index := by
    rw [State.closeSegment_openIndex?, State.openIndex_of o]
  unfold State.recover
  rw [if_pos segment, State.updateOpen_eq, open']
  intro x hx same
  obtain ⟨y, hy, rfl⟩ := List.mem_map.mp hx
  have yg : y.index = g.index := by revert same; split <;> exact id
  rw [if_pos (by rw [yg])]
  rw [table] at hy
  obtain ⟨r, -, rfl⟩ := List.mem_map.mp hy
  obtain ⟨state, reason⟩ := closed r (by rw [State.openIndex_of o, ← yg, index])
  exact ⟨state, reason, rfl⟩

/-- The recovery changes records without changing their number. -/
theorem State.recover_length (s : State) : s.recover.run.table.length = s.run.table.length := by
  unfold State.recover
  split
  · obtain ⟨f, -, -, table⟩ := State.closeSegment_table s .reset
    rw [State.updateOpen_eq]
    simp [table]
  · rfl

theorem State.recover_still (s : State) : s.recover.still = s.still := by
  unfold State.recover; split <;> simp

theorem State.recover_eq {s : State} {g : SegmentRecord} {o : OpenEntry} (hg : s.openRecord? = some g)
    (ho : s.cst.openEntry = some o) (hu : ∀ x ∈ s.run.table, x.index = g.index → x = g) :
    s.recover = { s with
      cst := { store := committedStore s.cst.store g o, openEntry := none
               checkpoints := committedSlots s.cst.checkpoints g o }
      run := { s.run with
        pendingRemote := false
        table := s.run.table.map (fun x =>
          if x.index = g.index then { g.closedWith s.cst.store o .reset with recovered := true } else x) }
      tsq := { s.tsq with drives := 0 }
      log := s.logAfterClose g o } := by
  obtain ⟨segment, -⟩ := State.openRecord_eq hg
  have gi : (g.closedWith s.cst.store o .reset).index = g.index := by
    unfold SegmentRecord.closedWith SegmentRecord.committed
    split <;> [rfl; (split <;> rfl)]
  unfold State.recover
  rw [if_pos segment, State.updateOpen_eq, State.closeSegment_openIndex?, State.openIndex_of hg,
    State.closeSegment_eq .reset hg ho hu]
  simp only [List.map_map]
  congr 2
  refine List.map_congr_left fun x _ => ?_
  by_cases h : x.index = g.index
  · simp [Function.comp, h, gi]
  · simp [Function.comp, h, Ne.symm h]

/-- With no record open a recovery empties the open entry at most, and stops nothing but a drive. -/
theorem State.recover_none {s : State} (h : s.openRecord? = none) :
    s.recover.run.table = s.run.table ∧ s.recover.log = s.log ∧
      { s.recover.cst with openEntry := none } = ({ s.cst with openEntry := none } : Cst) ∧ s.recover.dec = s.dec ∧
      s.recover.fc = s.fc := by
  unfold State.recover
  split
  · have commit : s.commitOpen = (s, []) := by
      unfold State.commitOpen; rw [h]
    have unopened : s.openIndex? = none := by rw [State.openIndex?, h]; rfl
    have closed : s.closeSegment .reset =
        ((s.setCst { s.cst with openEntry := none }).setTsq s.tsq.release).setRun { s.run with pendingRemote := false } := by
      unfold State.closeSegment
      simp only [commit, List.foldl_nil, State.updateOpen_of_none unopened]
      rfl
    rw [closed, State.updateOpen_of_none (by exact unopened)]
    exact ⟨rfl, rfl, rfl, rfl, rfl⟩
  · exact ⟨rfl, rfl, rfl, rfl, rfl⟩

theorem State.recover_counts (s : State) : s.recover.fc = s.fc ∧ s.recover.log.counter = s.log.counter := by
  unfold State.recover
  split
  · rw [State.updateOpen_eq]; exact State.closeSegment_counts s .reset
  · exact ⟨rfl, rfl⟩

/-! ### The flush of a LINK start (R118, R119) -/

theorem hitsOf_nil (q : Quad Comparator) : hitsOf q [] = 0 := rfl

theorem Dec.flushRecords_stopped {x : Dec} (h : ∀ d : Fin 4, (x.units.get d).running = false) (c : SampleContext) :
    x.flushRecords c = [] := by
  have none {u : DecodeUnit} (stopped : u.running = false) (d : Fin 4) : u.flushRecords d c = [] := by
    simp [DecodeUnit.flushRecords, stopped]
  have none0 := none (h 0) 0
  have none1 := none (h 1) 1
  have none2 := none (h 2) 2
  have none3 := none (h 3) 3
  simp only [Quad.get] at none0 none1 none2 none3
  simp [Dec.flushRecords, none0, none1, none2, none3]

/-- Units that do not run flush nothing. -/
theorem State.flushDecoders_stopped {s : State} (h : ∀ d : Fin 4, (s.dec.units.get d).running = false) :
    s.flushDecoders.log = s.log ∧ s.flushDecoders.fc = s.fc := by
  unfold State.flushDecoders
  dsimp only
  split
  · rw [Dec.flushRecords_stopped h]
    exact ⟨rfl, congrArg (fun m => ({ s.fc with sticky := m } : Fc)) (by rw [hitsOf_nil]; simp)⟩
  · exact ⟨rfl, rfl⟩

theorem State.recoverAndFlush_eq {s : State} {g : SegmentRecord} {o : OpenEntry} (hg : s.openRecord? = some g)
    (ho : s.cst.openEntry = some o) (hu : ∀ x ∈ s.run.table, x.index = g.index → x = g) :
    s.recover.endRunTime.flushDecoders = { s with
      tau := { s.tau with runTime := none }
      pfe := { s.pfe with changedOnce := 0, glitchSeen := 0, lastLevels := none }
      run := { s.run with
        state := .idle, pendingRemote := false
        table := s.run.table.map (fun x =>
          if x.index = g.index then { g.closedWith s.cst.store o .reset with recovered := true } else x) }
      cst := { store := committedStore s.cst.store g o, openEntry := none
               checkpoints := committedSlots s.cst.checkpoints g o }
      tsq := { s.tsq with drives := 0, running := false }
      dec := { s.dec with units := s.dec.units.map DecodeUnit.stop }
      fc := { s.fc with sticky := s.fc.sticky ||| hitsOf s.fc.settings (s.flushedRecords g) }
      log := s.logAfterRun g o } := by
  obtain ⟨-, getLast⟩ := State.openRecord_eq hg
  have same : (g.closedWith s.cst.store o .reset).nextSample = g.nextSample ∧
      (g.closedWith s.cst.store o .reset).index = g.index ∧
      (g.closedWith s.cst.store o .reset).firstSample = (g.committed s.cst.store o).firstSample := by
    unfold SegmentRecord.closedWith SegmentRecord.committed
    split <;> [exact ⟨rfl, rfl, rfl⟩; (split <;> exact ⟨rfl, rfl, rfl⟩)]
  obtain ⟨next, index, first⟩ := same
  rw [State.recover_eq hg ho hu]
  generalize hE : State.endRunTime _ = e
  let q : SegmentRecord := { g.closedWith s.cst.store o .reset with recovered := true }
  have last : e.run.table.getLast? = some q := by
    rw [← hE]; simp [State.endRunTime, getLast, List.getLast?_map, q]
  have context : flushContext e q =
      { index := g.nextSample - 1, divider := s.divider, segment := g.index, word := 0, last := 0, glitch := 0 } := by
    rw [flushContext, show q.nextSample = _ from next, show q.index = _ from index, ← hE]
    rfl
  have records : e.dec.flushRecords (flushContext e q) = s.flushedRecords g := by
    rw [context, ← hE]; rfl
  have idle : e.run.state = .idle := by rw [← hE]; rfl
  have flushed := State.logFlush_eq
    (s := { s with log := s.logAfterClose g o, run := { s.run with state := .idle } }) (t := e) rfl
    (by rw [idle]; rfl) (by rw [← hE]; rfl) (by rw [← hE]; rfl) .idle (g.committed s.cst.store o).firstSample
    (s.flushedRecords g)
  rw [State.flushDecoders_eq (by rw [idle]; rfl) last, records, show q.firstSample = _ from first, idle, flushed, ← hE]
  simp only [State.endRunTime, State.setRun, State.setTau, State.setPfe, State.setTsq, Pfe.endRunTime, Tsq.release,
    Tsq.stopRunning, State.logAfterRun]

/-! ### The join (R160, R178, R182) -/

theorem State.startPanel_lnk (s : State) : s.startPanel.lnk = s.lnk := by
  unfold State.startPanel
  split
  · rfl
  · exact State.wakeIfAsleep_lnk s

theorem State.startPanel_statusContents (s : State) : s.startPanel.statusContents = s.statusContents := by
  unfold State.startPanel State.wakeIfAsleep
  split
  · rfl
  · split <;> rfl

end Sys2Proof.Machine

namespace Sys2Proof.Proofs
open Sys2Proof Sys2Proof.Machine

/-- Settles O57: a PIN start is the recovery, `State.recover_eq` and `State.recover_marks`, and the start values. -/
theorem pinStartKeepsTheRecords : Obligations.PinStartKeepsTheRecords := by
  intro s straps held
  have released : exec (.resetPinRelease straps) s = .next (s.pinStart straps) :=
    congrArg Host.Outcome.next (if_pos held)
  have still := s.recover_still
  obtain ⟨fc, counter⟩ := s.recover_counts
  refine ⟨_, released, rfl, s.recover_length, congrArg Still.figures still, rfl, fun closed => ?_, fun g o => ?_,
    fun g e o entry unique => ?_, counter, by have e := congrArg Fc.sticky fc; exact e, congrArg (fun x => x.ren.frameStore) still, rfl, rfl, rfl,
    ?_, rfl, congrArg Still.pending still⟩
  · obtain ⟨table, log, cst, -, -⟩ := State.recover_none closed
    exact ⟨table, log, cst⟩
  · exact State.recover_marks o
  · have recovered := State.recover_eq o entry unique
    refine ⟨?_, ?_, ?_⟩
    · exact congrArg (fun x => x.run.table) recovered
    · exact congrArg (fun x => ({ x.cst with openEntry := none } : Cst)) recovered
    · exact congrArg State.log recovered
  · exact congrArg (fun x => Lnk.start straps x.lnk.observed) still

/-- Settles O58: a LINK start is the recovery, the flush and the start values. -/
theorem restartIsALinkStart : Obligations.RestartIsALinkStart := by
  intro s source straps target h own
  let u := s.afterFrame { kind := 0, source := source, payload := [target] }
  have restarted : exec (.restart source target straps) s = .next (u.linkStart straps) :=
    congrArg Host.Outcome.next ((State.onFrame_received rfl h _).trans (if_pos own))
  have run : u.recover.endRunTime.flushDecoders.run = u.recover.endRunTime.run := State.flushDecoders_run_idle rfl
  have table : (u.linkStart straps).run.table = u.recover.run.table := by
    have e := congrArg Run.table run; exact e
  have still : u.recover.endRunTime.flushDecoders.still = u.still := by
    rw [State.flushDecoders_still, State.endRunTime_still, State.recover_still]
  refine ⟨_, restarted, rfl, ?_, ?_, fun g o x hx same => ?_, rfl, rfl, rfl, ?_, congrArg (fun x => x.ren.frameStore) still,
    rfl, rfl, fun g e o entry unique => ?_, fun closed stopped => ?_, rfl, congrArg Still.pending still⟩
  · rw [table]; exact u.recover_length
  · exact congrArg Still.figures still
  · rw [table] at hx
    exact State.recover_marks (s := u) o x hx same
  · exact congrArg (fun x => Lnk.start straps x.lnk.observed) still
  · have ended := State.recoverAndFlush_eq (s := u) o entry unique
    refine ⟨?_, ?_, ?_, ?_⟩
    · have e := congrArg (fun x => x.run.table) ended; exact e
    · have e := congrArg (fun x => ({ x.cst with openEntry := none } : Cst)) ended; exact e
    · rw [← State.logAfterRun_congr (s := s) (t := u) rfl rfl rfl rfl]
      have e := congrArg State.log ended; exact e
    · have e := congrArg (fun x => x.fc.sticky) ended; exact e
  · obtain ⟨sameTable, log, cst, dec, fc⟩ := State.recover_none (s := u) closed
    have units (d : Fin 4) : (u.recover.endRunTime.dec.units.get d).running = false := by
      rw [show u.recover.endRunTime.dec = u.dec from dec]; exact stopped d
    obtain ⟨log', fc'⟩ := State.flushDecoders_stopped units
    refine ⟨table.trans sameTable, ?_, log'.trans log, by have e := congrArg Fc.sticky (fc'.trans fc); exact e⟩
    show ({ u.recover.endRunTime.flushDecoders.cst with openEntry := none } : Cst) = _
    rw [State.flushDecoders_cst]
    exact cst

/-- Settles O60: the join tick's values, the STATUS that it posts, and the panel's start. -/
theorem joinCompletesTheStart : Obligations.JoinCompletesTheStart := by
  intro s levels read unjoined free asleep waiting
  have joined : exec (.join levels) s = .next (s.joining levels).postStatus.startPanel :=
    congrArg Host.Outcome.next ((State.join_eq s levels).trans (if_pos ⟨read, unjoined, free⟩))
  have inner := State.startPanel_inner (s.joining levels).postStatus
  have tau : (s.joining levels).postStatus.startPanel.tau = (s.joining levels).tau := by
    rw [tau_of_inner inner, State.postStatus_tau]
  have sul : (s.joining levels).postStatus.startPanel.sul = (s.joining levels).sul := by
    rw [sul_of_inner inner, State.postStatus_sul]
  have link : { (s.joining levels).postStatus.startPanel.lnk with queue := [], statusOwed := false, heldDones := [] } =
      ({ (s.joining levels).lnk with queue := [], statusOwed := false, heldDones := [] } : Lnk) := by
    rw [State.startPanel_lnk]; exact congrArg Still.lnk (State.postStatus_still _)
  obtain ⟨l, posted⟩ : ∃ l, (s.joining levels).postStatus = { s.joining levels with lnk := l } :=
    ⟨_, State.postStatus_eq _⟩
  have woken (mode : s.port.live.mode ≠ .sleep) : (s.joining levels).postStatus.startPanel =
      (({ s.joining levels with lnk := l } : State).startFrame true).setPort { s.port with wakePending := true } := by
    rw [posted, State.startPanel, if_neg (by exact mode)]
    exact State.wakeIfAsleep_wakes (s := { s.joining levels with lnk := l }) ⟨mode, asleep, waiting⟩
  have slept (mode : s.port.live.mode = .sleep) : (s.joining levels).postStatus.startPanel =
      ({ s.joining levels with lnk := l } : State).beginSleep := by
    rw [posted, State.startPanel, if_pos (by exact mode)]
  refine ⟨_, joined, ?_, ?_, by rw [tau]; rfl, congrArg Lnk.lineRecessive link, congrArg Lnk.framePosition link,
    by rw [tau]; rfl, congrArg Lnk.receiver link, congrArg Lnk.idleCount link, ?_, ?_, fun mode => ?_, fun mode => ?_,
    fun idle empty => ?_⟩
  · rw [State.active, sul]
    show (true && !s.sul.resetHeld) = true
    rw [free]; rfl
  · rw [sul]; exact beq_iff_eq
  · have enabled := congrArg Lnk.driversEnabled link
    rw [show (s.joining levels).postStatus.startPanel.lnk.driversEnabled = (s.sul.strap != 7) from enabled]
    exact bne_iff_ne
  · by_cases mode : s.port.live.mode = .sleep
    · rw [slept mode]; rfl
    · rw [woken mode]; rfl
  · rw [woken mode]
    exact ⟨rfl, rfl, rfl⟩
  · rw [slept mode]
    exact ⟨rfl, rfl, rfl⟩
  · rw [State.startPanel_statusContents, State.startPanel_lnk, State.postStatus_joins (s := s.joining levels)
      (by rw [show (s.joining levels).lnk.transmitter = .idle from idle]; exact nofun)
      (by rw [show (s.joining levels).lnk.queue = [] from empty]; rfl)
      (by rw [show (s.joining levels).lnk.queue = [] from empty]; exact Nat.zero_lt_succ 7)]
    show (s.lnk.queue ++ [_]).map _ = _
    rw [empty]
    rfl

end Sys2Proof.Proofs
end

