-- ==== Sys2Proof/Proofs/Images.lean ====
section
/-! PROOF. The image: when it is good, what its section list names, and what a finished attempt loads (R178 to R182, R186). -/

namespace Sys2Proof.Machine

/-! ### The section list (R186) -/

section
variable (bytes : List Byte)

/-- An entry of the list names section `k`. -/
def namesSection (e k : Nat) : Prop :=
  e < sectionCount bytes ∧ (flashByte bytes (7 + 5 * e)).toNat = k ∧ 1 ≤ k ∧ k ≤ 5

theorem flashWord_eq (i : Nat) :
    flashWord bytes i = 256 * (flashByte bytes i).toNat + (flashByte bytes (i + 1)).toNat := by
  rw [flashWord, Nat.mul_comm]

/-- The entries that name a section, as a list of their places. -/
def namingEntries : List Nat :=
  (List.range (sectionCount bytes)).filter
    (fun e => 1 ≤ (flashByte bytes (7 + 5 * e)).toNat && (flashByte bytes (7 + 5 * e)).toNat ≤ 5)

theorem namedSections_eq : namedSections bytes = (namingEntries bytes).map (sectionEntry bytes) := by
  rw [namedSections, List.filter_map]
  rfl

theorem mem_namingEntries (e : Nat) :
    e ∈ namingEntries bytes ↔ namesSection bytes e (flashByte bytes (7 + 5 * e)).toNat := by
  simp [namingEntries, namesSection]

theorem namingEntries_nodup : (namingEntries bytes).Nodup := List.nodup_range.filter _

theorem sectionPresent_iff (k : Nat) : sectionPresent bytes k = true ↔ ∃ e, namesSection bytes e k := by
  simp only [sectionPresent, namedSections_eq, List.any_eq_true, List.mem_map, exists_exists_and_eq_and, beq_iff_eq]
  refine exists_congr fun e => ?_
  rw [mem_namingEntries]
  exact ⟨fun ⟨n, i⟩ => i ▸ n, fun n => ⟨by rw [n.2.1]; exact n, n.2.1⟩⟩

/-- R179: every section named lies within the length, and none is named twice. -/
theorem sectionsGood_iff : sectionsGood bytes = true ↔
    (∀ e k, namesSection bytes e k → flashWord bytes (8 + 5 * e) + flashWord bytes (10 + 5 * e) ≤ imageLength bytes) ∧
      ∀ e d k, namesSection bytes e k → namesSection bytes d k → e = d := by
  rw [sectionsGood, Bool.and_eq_true, namedSections_eq, List.map_map, decide_eq_true_iff,
    List.nodup_map_iff_inj_on (namingEntries_nodup bytes)]
  refine and_congr ?_ ?_
  · simp only [List.all_eq_true, List.mem_map, forall_exists_index, and_imp, forall_apply_eq_imp_iff₂, decide_eq_true_eq]
    refine forall_congr' fun e => ?_
    rw [mem_namingEntries]
    refine ⟨fun h k n => h ?_, fun h n => h _ n⟩
    rw [n.2.1]; exact n
  · refine ⟨fun h e d k n m => h e ?_ d ?_ ?_, fun h e he d hd same => ?_⟩
    · rw [mem_namingEntries, n.2.1]; exact n
    · rw [mem_namingEntries, m.2.1]; exact m
    · exact n.2.1.trans m.2.1.symm
    · rw [mem_namingEntries] at he hd
      refine h e d _ he ?_
      rw [show (flashByte bytes (7 + 5 * e)).toNat = (flashByte bytes (7 + 5 * d)).toNat from same]
      exact hd

theorem markerGood_iff : markerGood bytes = true ↔
    (flashByte bytes 0).toNat = 0xA5 ∧ (flashByte bytes 1).toNat = 0x3D := by
  rw [markerGood, Bool.and_eq_true, beq_iff_eq, beq_iff_eq, BitVec.toNat_eq, BitVec.toNat_eq]
  rfl

theorem imageGood_iff : imageGood bytes = true ↔
    ((flashByte bytes 0).toNat = 0xA5 ∧ (flashByte bytes 1).toNat = 0x3D) ∧
      (7 + 5 * sectionCount bytes ≤ imageLength bytes ∧ imageLength bytes ≤ 3072) ∧
      (∀ e k, namesSection bytes e k → flashWord bytes (8 + 5 * e) + flashWord bytes (10 + 5 * e) ≤ imageLength bytes) ∧
      (∀ e d k, namesSection bytes e k → namesSection bytes d k → e = d) ∧ imageSum bytes = flashWord bytes 4 := by
  simp only [imageGood, lengthGood, Bool.and_eq_true, markerGood_iff, sectionsGood_iff, beq_iff_eq, decide_eq_true_eq,
    and_assoc]

end

/-- R180: what the contents hold of a section's spelt settings. -/
theorem section_contents {α : Type} (bytes : List Byte) (k : Nat) (spelt : α) :
    ((∃ e, namesSection bytes e k) → (if sectionPresent bytes k then some spelt else none) = some spelt) ∧
      ((∀ e, ¬namesSection bytes e k) → (if sectionPresent bytes k then some spelt else none) = none) := by
  refine ⟨fun named => if_pos ((sectionPresent_iff bytes k).mpr named), fun unnamed => if_neg fun p => ?_⟩
  obtain ⟨e, n⟩ := (sectionPresent_iff bytes k).mp p
  exact unnamed e n

/-! ### The load -/

/-- R25: every channel is among those a load settles. -/
theorem levelOf_allChannels : ∀ c : Fin 16, levelOf 0xFFFF c = true := by decide

/-- R25, R33: an enabled channel with a driven input settles to the side of its group's threshold. -/
theorem levelOf_settle_driven {p : Pfe} {k : Fin 16} {v : Int} (enabled : levelOf p.enabled k = true)
    (driven : p.inputs[k] = .driven v) (kept : Fin 16 → Bool) :
    levelOf (p.settle kept 0xFFFF).raw k = true ↔ (p.groupOf k).threshold < v := by
  rw [Pfe.levelOf_settle, if_pos ⟨levelOf_allChannels k, enabled⟩, Pfe.settledLevel, driven]
  exact decide_eq_true_iff

theorem levelOf_withSettings {p : Pfe} {r : RawProbe} {k : Fin 16} {v : Int} (a b : Byte)
    (enabled : levelOf r.enabled k = true) (driven : p.inputs[k] = .driven v) (kept : Fin 16 → Bool) :
    let q := (p.withSettings r a b).settle kept 0xFFFF
    levelOf q.raw k = true ↔ 1000 * thresholdMillivolts (if k.val < 8 then a else b)
      (if k.val < 8 then q.groupA.trim else q.groupB.trim) < v := by
  refine (levelOf_settle_driven (p := p.withSettings r a b) enabled driven kept).trans ?_
  by_cases hk : k.val < 8
  · rw [Pfe.groupOf, if_pos hk, if_pos hk, if_pos hk]; rfl
  · rw [Pfe.groupOf, if_neg hk, if_neg hk, if_neg hk]; rfl

/-- R33: PFE after a load. -/
theorem State.load_pfe (s : State) (c : ImageContents) :
    (s.load c).pfe = (s.pfe.withSettings (c.probe.getD defaultProbe) (clampSetup (c.setup.getD defaultSetup)).codeA
      (clampSetup (c.setup.getD defaultSetup)).codeB).settle (fun k => Config.keeperLevel (16 * s.freeCount + k.val))
      0xFFFF := rfl

end Sys2Proof.Machine

namespace Sys2Proof.Proofs
open Sys2Proof Sys2Proof.Machine

/-- Settles O59: the checks one by one, the sections that the list names, and what each end of an attempt loads. -/
theorem imageAttemptEnds : Obligations.ImageAttemptEnds := by
  refine ⟨fun bytes image => ?_, fun c p => ⟨fun q h => ?_, fun h => ?_⟩, fun s bytes image reading free => ?_⟩
  · intro byte word length count names present
    have flash (i : Nat) : word i = flashWord bytes i := (flashWord_eq bytes i).symm
    refine ⟨?_, section_contents bytes 1 _, section_contents bytes 2 _, section_contents bytes 3 _,
      section_contents bytes 4 _, section_contents bytes 5 _⟩
    simp only [flash, length]
    exact imageGood_iff bytes
  · simp only [profileOf, h]
  · simp only [profileOf, h]; rfl
  · have attempt {t : State} (e : s.imageAttempt bytes image = t) : exec (.imageAttempt bytes image) s = .next t :=
      congrArg Host.Outcome.next e
    refine ⟨fun bad few => attempt ?_, fun bad many => ⟨(s.setImageState .bad).load ImageContents.empty, attempt ?_, ?_⟩,
      fun good => ⟨(s.setImageState .good).load (contentsOf bytes image), attempt ?_, ?_⟩⟩
    · rw [State.imageAttempt, if_pos ⟨reading, free⟩, if_neg (by rw [bad]; exact Bool.false_ne_true), if_pos few]
    · rw [State.imageAttempt, if_pos ⟨reading, free⟩, if_neg (by rw [bad]; exact Bool.false_ne_true),
        if_neg (Nat.not_lt.mpr many)]
    · exact ⟨rfl, rfl, rfl, rfl, rfl, rfl, rfl, rfl, rfl, rfl, rfl⟩
    · rw [State.imageAttempt, if_pos ⟨reading, free⟩, if_pos good]
    · have pfe := (s.setImageState .good).load_pfe (contentsOf bytes image)
      obtain ⟨firstRow, lastRow⟩ := panelRows_eq ((contentsOf bytes image).panel.getD defaultPanel).firstRow
        ((contentsOf bytes image).panel.getD defaultPanel).lastRow
      refine ⟨rfl, rfl, ?_, fun k v enabled driven => ?_, rfl, rfl, rfl, rfl, ?_, rfl, rfl, rfl, rfl⟩
      · rw [pfe]; rfl
      · rw [pfe]
        exact levelOf_withSettings (p := s.pfe) _ _ enabled driven _
      · rw [← firstRow, ← lastRow]; rfl

end Sys2Proof.Proofs
end

