-- ==== Sys2Proof/Proofs/Postings.lean ====
section
/-! PROOF. The transmit queue: what a posting does in each standing of it, the frames that leave it, and the claimants of the
entries that become free (R164 to R166, R169 to R171, R175). -/

namespace Sys2Proof.Machine

/-! ### A full queue -/

theorem removeLast_last {α : Type} {p : α → Bool} {e : α} {b : List α} (he : p e = true) (hb : ∀ y ∈ b, p y = false) :
    ∀ a : List α, removeLast p (a ++ e :: b) = some (e, a ++ b)
  | [] => by simp [removeLast, removeLast_none hb, he]
  | x :: a => by simp [removeLast, removeLast_last he hb a]

theorem QueueEntry.yieldingDone_iff (e : QueueEntry) : e.yieldingDone = true ↔
    e.tookFreedEntry = true ∧ e.underTransmission = false ∧ e.message.kind = 11 := by
  simp [QueueEntry.yieldingDone, QueueEntry.kind, and_assoc]

theorem QueueEntry.yieldingDone_false {e : QueueEntry}
    (h : ¬(e.tookFreedEntry = true ∧ e.underTransmission = false ∧ e.message.kind = 11)) : e.yieldingDone = false :=
  Bool.eq_false_iff.mpr fun c => h ((QueueEntry.yieldingDone_iff e).mp c)

section
variable {s : State} (speaks : s.lnk.transmitter ≠ .silent)
include speaks

theorem State.postStatus_replaces (standing : s.lnk.queue.any QueueEntry.isStatus = true) :
    s.postStatus = s.setLnk { s.lnk with queue := s.lnk.queue.map (QueueEntry.replaceStatus s.statusContents) } := by
  simp [State.postStatus, speaks, standing]

/-- R170: at a full queue with no DONE to take an entry from, the STATUS is owed. -/
theorem State.postStatus_owed (none : s.lnk.queue.any QueueEntry.isStatus = false) (full : 8 ≤ s.lnk.queue.length)
    (stands : ∀ e ∈ s.lnk.queue, e.yieldingDone = false) :
    s.postStatus = s.setLnk { s.lnk with statusOwed := true } := by
  have noRoom : s.hasRoom = false := decide_eq_false (Nat.not_lt.mpr full)
  have noEntry : s.reclaimEntry 9 = .none := by
    simp [State.reclaimEntry, removeLast_none stands]
  simp [State.postStatus, speaks, none, noRoom, noEntry]

/-- R170: at a full queue the STATUS takes back the entry that the newest DONE took at this tick. -/
theorem State.postStatus_takes (none : s.lnk.queue.any QueueEntry.isStatus = false) (full : 8 ≤ s.lnk.queue.length)
    {a b : List QueueEntry} {e : QueueEntry} {x : Done} (queue : s.lnk.queue = a ++ e :: b) (done : e.message = .done x)
    (yields : e.yieldingDone = true) (newest : ∀ y ∈ b, y.yieldingDone = false) :
    s.postStatus = s.setLnk { s.lnk with
      statusOwed := false, heldDones := x :: s.lnk.heldDones
      queue := a ++ b ++ [{ QueueEntry.new (.status s.statusContents) with tookFreedEntry := true }] } := by
  have noRoom : s.hasRoom = false := decide_eq_false (Nat.not_lt.mpr full)
  have entry : s.reclaimEntry 9 = some (s.setLnk { s.lnk with queue := a ++ b, heldDones := x :: s.lnk.heldDones }) := by
    simp [State.reclaimEntry, queue, removeLast_last yields newest, done]
  simp [State.postStatus, speaks, none, noRoom, entry, State.enqueue, State.setLnk]

end

/-! ### DONE (R175) -/

theorem State.postDone_silent {s : State} (h : s.lnk.transmitter = .silent) (d : Done) : s.postDone d = s := by
  simp [State.postDone, h]

theorem Bool.toNat_eq_ite (b : Bool) : b.toNat = if b then 1 else 0 := by cases b <;> rfl

theorem State.postDone_joins {s : State} (speaks : s.lnk.transmitter ≠ .silent) (d : Done)
    (room : s.lnk.queue.length + (if s.lnk.statusOwed then 1 else 0) + s.lnk.heldDones.length < 8) :
    s.postDone d = s.enqueue (QueueEntry.new (.done d)) := by
  rw [← Bool.toNat_eq_ite] at room
  simp [State.postDone, speaks, Config.queueCapacity, room]

theorem State.postDone_held {s : State} (speaks : s.lnk.transmitter ≠ .silent) (d : Done)
    (full : 8 ≤ s.lnk.queue.length + (if s.lnk.statusOwed then 1 else 0) + s.lnk.heldDones.length) :
    s.postDone d = s.setLnk { s.lnk with heldDones := s.lnk.heldDones ++ [d] } := by
  rw [← Bool.toNat_eq_ite] at full
  simp [State.postDone, speaks, Config.queueCapacity, Nat.not_lt.mpr full]

/-! ### The selection of a frame (R164, R170) -/

/-- The selected entry splits the queue: those before it are of a higher kind, those after it of no lower one. -/
theorem selectEntry_split {q : List QueueEntry} (waiting : q ≠ []) : ∃ (a b : List QueueEntry) (e : QueueEntry),
    q = a ++ e :: b ∧ selectEntry q = some e ∧ (∀ x ∈ a, e.kind < x.kind) ∧ (∀ x ∈ b, e.kind ≤ x.kind) ∧
      markSelected e.kind q = a ++ { e with underTransmission := true } :: b := by
  induction q with
  | nil => exact absurd rfl waiting
  | cons e rest ih =>
    have first : markSelected e.kind (e :: rest) = { e with underTransmission := true } :: rest := if_pos rfl
    by_cases alone : rest = []
    · subst alone
      exact ⟨[], [], e, rfl, rfl, List.forall_mem_nil _, List.forall_mem_nil _, first⟩
    · obtain ⟨a, b, f, queue, selected, before, after, marked⟩ := ih alone
      have selects : selectEntry (e :: rest) = some (selectBetween e f) := by rw [selectEntry, selected]
      by_cases lower : f.kind < e.kind
      · refine ⟨e :: a, b, f, by rw [queue]; rfl, selects.trans (congrArg some (if_pos lower)),
          List.forall_mem_cons.mpr ⟨lower, before⟩, after, ?_⟩
        rw [markSelected, if_neg (Nat.ne_of_gt lower), marked]; rfl
      · have least : e.kind ≤ f.kind := Nat.not_lt.mp lower
        refine ⟨[], rest, e, rfl, selects.trans (congrArg some (if_neg lower)), List.forall_mem_nil _, fun x hx => ?_, first⟩
        rw [queue] at hx
        rcases List.mem_append.mp hx with hx | hx
        · exact Nat.le_trans least (Nat.le_of_lt (before x hx))
        · rcases List.mem_cons.mp hx with rfl | hx
          · exact least
          · exact Nat.le_trans least (after x hx)

theorem Lnk.ready_iff (l : Lnk) :
    l.ready = true ↔ l.transmitter = .idle ∧ l.idleCount = 9 ∧ l.framePosition ≠ some 0 := by
  simp [Lnk.ready, and_assoc]

/-! ### Dropped NOTICEs (R166) -/

theorem State.markNoticesDropped_eq (l : List Nat) (s : State) : l.foldl State.markNoticeDropped s =
    { s with run := { s.run with
      table := s.run.table.map (fun r => if r.index ∈ l then { r with noticeDropped := true } else r) } } := by
  induction l generalizing s with
  | nil => simp
  | cons i rest ih =>
    rw [List.foldl_cons, ih, State.markNoticeDropped, State.updateRecord_eq]
    simp only [List.map_map]
    congr 2
    refine List.map_congr_left fun r _ => ?_
    by_cases hi : r.index = i <;> by_cases hr : r.index ∈ rest <;> simp [Function.comp, hi, hr]

/-! ### Completion (R165, R171, R175) -/

theorem afterCompletion_split {a b : List QueueEntry} {e : QueueEntry} (sending : e.underTransmission = true)
    (others : ∀ x ∈ a ++ b, x.underTransmission = false) : afterCompletion (a ++ e :: b) =
      a ++ b ++ (if e.resend then [{ e with underTransmission := false, resend := false }] else []) := by
  have stay {l : List QueueEntry} (h : ∀ x ∈ l, x.underTransmission = false) :
      l.filter (fun e => !e.underTransmission) = l ∧ l.filter (fun e => e.underTransmission && e.resend) = [] :=
    ⟨List.filter_eq_self.mpr fun x hx => by rw [h x hx]; rfl,
      List.filter_eq_nil_iff.mpr fun x hx => by rw [h x hx]; exact Bool.false_ne_true⟩
  obtain ⟨a1, a2⟩ := stay (l := a) fun x hx => others x (List.mem_append_left _ hx)
  obtain ⟨b1, b2⟩ := stay (l := b) fun x hx => others x (List.mem_append_right _ hx)
  unfold afterCompletion
  rw [List.filter_append, List.filter_append, List.filter_cons, List.filter_cons, a1, a2, b1, b2, sending]
  cases e.resend with
  | true => rfl
  | false => rfl

theorem Lnk.cutDonePending_iff (l : Lnk) : l.cutDonePending = true ↔
    (∃ e ∈ l.queue, ∃ d : Done, e.message = .done d ∧ d.reason = .cut) ∨ ∃ d ∈ l.heldDones, d.reason = .cut := by
  have cutDone (e : QueueEntry) : e.isCutDone = true ↔ ∃ d : Done, e.message = .done d ∧ d.reason = .cut := by
    unfold QueueEntry.isCutDone Done.isCut
    split
    · next d h => rw [h]; simp
    · next h => rw [h]; simp
    · next h => rw [h]; simp
    · next h => rw [h]; simp
  simp only [Lnk.cutDonePending, Bool.or_eq_true, List.any_eq_true, cutDone, Done.isCut, beq_iff_eq]

end Sys2Proof.Machine

namespace Sys2Proof.Proofs
open Sys2Proof Sys2Proof.Machine

/-- Settles O37: the contents by their fields, and one lemma for each standing of the queue. -/
theorem queryPostsStatus : Obligations.QueryPostsStatus := by
  refine ⟨fun s => ?_, fun s source target h own => ?_⟩
  · have segment : s.openIndex? = if s.run.state = .idle ∨ s.run.state = .waitStart then none
        else s.run.table.getLast?.map SegmentRecord.index := by
      unfold State.openIndex? State.openRecord?
      cases s.run.state <;> rfl
    have closed : s.closedCount = (s.run.table.filter (fun r => decide (r.state = .closed))).length := by
      unfold State.closedCount
      congr 1
    rw [State.statusContents, segment, closed]
  · intro u c
    have posted : exec (.query source target) s = .next u.postStatus :=
      congrArg Host.Outcome.next ((State.onFrame_received rfl h _).trans (if_pos own))
    refine ⟨_, posted, fun silent => State.postStatus_silent (s := u) silent,
      fun speaks standing => State.postStatus_replaces (s := u) speaks standing,
      fun speaks none room => State.postStatus_joins (s := u) speaks none room, fun speaks none full => ?_⟩
    refine ⟨?_, ?_⟩
    · intro a b e x queue done taken newest
      exact State.postStatus_takes (s := u) speaks none full queue done ((QueueEntry.yieldingDone_iff e).mpr taken)
        fun y hy => QueueEntry.yieldingDone_false (newest y hy)
    · intro stands
      exact State.postStatus_owed (s := u) speaks none full fun e he => QueueEntry.yieldingDone_false (stands e he)

/-- Settles O41: `selectEntry_split` for a sender, and the transition that any other station observes. -/
theorem frameBeginSelectsTheLowestKind : Obligations.FrameBeginSelectsTheLowestKind := by
  refine fun s active => ⟨fun idle count place waiting => ?_, fun unready => ?_⟩
  · obtain ⟨a, b, e, queue, selected, before, after, marked⟩ := selectEntry_split waiting
    refine ⟨a, b, e, queue, before, after, congrArg Host.Outcome.next ?_⟩
    rw [State.frameBegin, if_pos active, if_pos ((Lnk.ready_iff s.lnk).mpr ⟨idle, count, place⟩), selected, ← marked]
    rfl
  · have none : (if s.lnk.ready then selectEntry s.lnk.queue else none) = .none := by
      split
      · next ready =>
        obtain ⟨idle, count, place⟩ := (Lnk.ready_iff s.lnk).mp ready
        rcases unready with c | c | c | c
        · exact absurd idle c
        · exact absurd count c
        · exact absurd c place
        · rw [c]; rfl
      · rfl
    refine congrArg Host.Outcome.next ?_
    rw [State.frameBegin, if_pos active, none]
    rfl

/-- Settles O42: what the sender reads last, and the queue as it stops sending. -/
theorem stoppedSenderKeepsItsMessages : Obligations.StoppedSenderKeepsItsMessages := by
  intro s bit active sending one sent kept
  refine ⟨fun seven lost => congrArg Host.Outcome.next ?_, fun error => congrArg Host.Outcome.next ?_⟩
  · rw [State.arbitrationLost, if_pos (by simp [active, sending, one, seven, lost]), Lnk.readSent_dominant]
    rfl
  · rw [State.bitError, if_pos (by simp [active, sending, one, error])]
    rfl

/-- Settles O43: SILENT, the station posts nothing, and the NOTICEs of its queue are marked as dropped. -/
theorem duplicateIdSilencesTheStation : Obligations.DuplicateIdSilencesTheStation := by
  intro s bit active sending eight lost
  have silenced : s.duplicateId bit = (noticedSegments s.lnk.queue).foldl State.markNoticeDropped
      (s.setLnk (s.lnk.readSent bit false).fallSilent) := by
    rw [State.duplicateId, if_pos (by simp [active, sending, eight, lost])]
    exact State.postStatus_silent (by rw [State.markNoticesDropped_eq]; rfl)
  rw [State.markNoticesDropped_eq, Lnk.readSent_dominant] at silenced
  exact ⟨_, congrArg Host.Outcome.next silenced, rfl, rfl, rfl⟩

/-- Settles O44: `afterCompletion_split` and `Lnk.cutDonePending_iff`, and the two claimants. -/
theorem freedEntriesAreTaken : Obligations.FreedEntriesAreTaken := by
  refine ⟨fun s a b e active sending queue on others => ?_, fun s active => ⟨fun owed room => ?_, fun d rest held room => ?_⟩⟩
  · have completed := afterCompletion_split on others
    rw [← queue] at completed
    let l : Lnk := { s.lnk with transmitter := .idle, frameOnLine := none, queue := afterCompletion s.lnk.queue }
    have ended : exec .transmissionComplete s = .next (s.setLnk l.activateStream) := by
      refine congrArg Host.Outcome.next ?_
      rw [State.transmissionComplete, if_pos (by simp [active, sending])]
    by_cases pending : l.cutDonePending = true
    · have stands : l.activateStream = l := if_pos pending
      rw [stands] at ended
      refine ⟨_, ended, rfl, rfl, completed, ⟨fun _ => rfl, fun c => absurd ((Lnk.cutDonePending_iff l).mp pending) c⟩, rfl⟩
    · have wakes : l.activateStream = { l with stream := l.stream.map (fun t => { t with waiting := false }) } :=
        if_neg pending
      rw [wakes] at ended
      refine ⟨_, ended, rfl, rfl, completed, ⟨fun c => absurd ((Lnk.cutDonePending_iff l).mpr c) pending, fun _ => rfl⟩, rfl⟩
  · refine congrArg Host.Outcome.next ?_
    rw [State.statusOwedJoin, if_pos (by simp [active, owed, State.hasRoom, Config.queueCapacity, room])]
    rfl
  · refine congrArg Host.Outcome.next ?_
    rw [← Bool.toNat_eq_ite] at room
    unfold State.heldDoneJoin
    rw [held]
    exact if_pos (by simp [active, Config.queueCapacity, room])

end Sys2Proof.Proofs
end

