-- ==== Sys2Proof/Proofs/Streams.lean ====
section
/-! PROOF. READ streams: the walk over the retained entries (R70, R72), the stream a READ makes (R173, R175, R176) and the
DATA it forms (R128, R174). -/

namespace Sys2Proof.Machine

/-! ### The walk (R72) -/

section
variable (m : Mem Entry) (r : SegmentRecord)

/-- The positions of `n` entries from the `offset`-th retained one on. -/
def positionsFrom (offset n : Nat) : List Nat := (List.range n).map (fun i => r.positionAfter (offset + i))

theorem positionsFrom_succ (offset n : Nat) :
    positionsFrom r offset (n + 1) = r.positionAfter offset :: positionsFrom r (offset + 1) n := by
  simp only [positionsFrom, List.range_succ_eq_map, List.map_cons, List.map_map, Nat.add_zero]
  congr 2
  funext i
  exact congrArg r.positionAfter (by simp only [Nat.succ_eq_add_one]; omega)

theorem countSum_cons (p : Nat) (ps : List Nat) : countSum m (p :: ps) = entryCountAt m p + countSum m ps := rfl

/-- What stands at a place of the walk: an entry of the store, begun where the entries before it end. -/
theorem entriesFrom_getElem? : ∀ (n offset start i begins : Nat) (e : Entry),
    (entriesFrom m r n offset start)[i]? = some (begins, e) →
      i < n ∧ Memory.read m (r.positionAfter (offset + i)) = some e ∧
        begins = start + countSum m (positionsFrom r offset i) := by
  intro n
  induction n with
  | zero => intro offset start i begins e h; simp [entriesFrom] at h
  | succ n ih =>
    intro offset start i begins e h
    rw [entriesFrom] at h
    split at h
    · next x read =>
      cases i with
      | zero =>
        obtain ⟨rfl, rfl⟩ : start = begins ∧ x = e := by simpa using h
        exact ⟨Nat.zero_lt_succ n, read, rfl⟩
      | succ i =>
        obtain ⟨lt, stored, sum⟩ := ih _ _ _ _ _ (by simpa using h)
        have count : entryCountAt m (r.positionAfter offset) = x.count := by simp [entryCountAt, read]
        refine ⟨Nat.succ_lt_succ lt, ?_, ?_⟩
        · rwa [Nat.add_right_comm] at stored
        · rw [sum, positionsFrom_succ, countSum_cons, count, Nat.add_assoc]
    · simp at h

/-- The walk goes on as long as the store has an entry. -/
theorem entriesFrom_length : ∀ (n offset start : Nat),
    (∀ i, i < n → (Memory.read m (r.positionAfter (offset + i))).isSome = true) →
      (entriesFrom m r n offset start).length = n := by
  intro n
  induction n with
  | zero => intro _ _ _; rfl
  | succ n ih =>
    intro offset start stored
    rw [entriesFrom]
    split
    · rw [List.length_cons, ih]
      intro i hi
      have := stored (i + 1) (Nat.succ_lt_succ hi)
      rwa [show offset + (i + 1) = offset + 1 + i by omega] at this
    · next none =>
      have := stored 0 (Nat.zero_lt_succ n)
      rw [Nat.add_zero, none] at this
      cases this

theorem entriesFrom_reaches : ∀ (n offset start i : Nat), i < n →
    (∀ k, k ≤ i → (Memory.read m (r.positionAfter (offset + k))).isSome = true) →
      i < (entriesFrom m r n offset start).length := by
  intro n
  induction n with
  | zero => intro _ _ _ h; exact absurd h (Nat.not_lt_zero _)
  | succ n ih =>
    intro offset start i lt stored
    rw [entriesFrom]
    split
    · cases i with
      | zero => exact Nat.zero_lt_succ _
      | succ i =>
        refine Nat.succ_lt_succ (ih _ _ _ (Nat.lt_of_succ_lt_succ lt) fun k hk => ?_)
        have := stored (k + 1) (Nat.succ_le_succ hk)
        rwa [show offset + (k + 1) = offset + 1 + k by omega] at this
    · next none =>
      have := stored 0 (Nat.zero_le i)
      rw [Nat.add_zero, none] at this
      cases this

end

theorem positionsFrom_zero (r : SegmentRecord) (n : Nat) : positionsFrom r 0 n = r.oldestPositions n := by
  simp [positionsFrom, SegmentRecord.oldestPositions]

/-- R173: the start of the j-th retained entry. -/
theorem startOfEntry_beyond {s : State} {g : SegmentRecord} {j : Nat} (h : g.retained ≤ j) : startOfEntry s g j = none := by
  rw [startOfEntry]
  cases e : (entriesFrom s.cst.store g g.retained 0 g.firstSample)[j]? with
  | none => rfl
  | some x =>
    obtain ⟨lt, -, -⟩ := entriesFrom_getElem? s.cst.store g _ _ _ _ x.1 x.2 e
    omega

theorem startOfEntry_within {s : State} {g : SegmentRecord} {j : Nat} (h : j < g.retained)
    (stored : ∀ p ∈ g.oldestPositions (j + 1), (Memory.read s.cst.store p).isSome = true) :
    startOfEntry s g j = some (g.firstSample + countSum s.cst.store (g.oldestPositions j)) := by
  have reaches := entriesFrom_reaches s.cst.store g g.retained 0 g.firstSample j h fun k hk => by
    rw [Nat.zero_add]
    exact stored _ (List.mem_map.mpr ⟨k, List.mem_range.mpr (Nat.lt_succ_of_le hk), rfl⟩)
  have found := List.getElem?_eq_getElem reaches
  obtain ⟨-, -, sum⟩ := entriesFrom_getElem? s.cst.store g _ _ _ _ _ _ found
  rw [startOfEntry, found, Option.map_some, ← positionsFrom_zero]
  exact congrArg some sum

/-! ### Where a walk starts (R70) -/

/-- A pair of a number of retained entries passed and a start from which a walk towards `key` may go. -/
def isWalkStart (s : State) (g : SegmentRecord) (key : Nat) (w : Nat × Nat) : Prop :=
  w.1 = 0 ∧ w.2 = g.firstSample ∨ ∃ (slot : Nat) (c : Checkpoint), (slot, c) ∈ s.cst.checkpoints ∧
    c.segment = g.index ∧ c.start ≤ key ∧ c.start = w.2 ∧ g.firstSample ≤ w.2 ∧ g.regionFirst ≤ slot * 1024 ∧
    slot * 1024 < g.regionFirst + g.regionSize ∧ w.1 < g.retained ∧
    w.1 = (slot * 1024 + g.regionSize - g.firstPosition) % g.regionSize

theorem walkStart_isWalkStart (s : State) (g : SegmentRecord) (key : Nat) : isWalkStart s g key (walkStart s g key) := by
  refine List.foldlRecOn _ _ (.inl ⟨rfl, rfl⟩) fun best hb e he => ?_
  dsimp only
  split
  · next c =>
    obtain ⟨slot, point⟩ := e
    simp only [Bool.and_eq_true, beq_iff_eq, decide_eq_true_eq, SegmentRecord.retains] at c
    obtain ⟨⟨⟨segment, low⟩, -⟩, ⟨⟨below, above⟩, kept⟩, first⟩ := c
    exact .inr ⟨slot, point, he, segment, low, rfl, first, below, above, kept, rfl⟩
  · exact hb

/-! ### Making a stream (R173) -/

theorem collectionOf_unknown {b : Byte} (h : 3 ≤ b.toNat) : collectionOf b = none := by
  unfold collectionOf
  split
  · omega
  · omega
  · omega
  · rfl

theorem collectionOf_known {b : Byte} (h : b.toNat < 3) : ∃ c : Collection, collectionOf b = some c ∧ c.code = b ∧
    (b.toNat < 2 ↔ c ≠ .entries) ∧ (b.toNat = 2 ↔ c = .entries) := by
  have code {x : Byte} (e : b.toNat = x.toNat) : x = b := (BitVec.eq_of_toNat_eq e).symm
  unfold collectionOf
  split
  · next e => exact ⟨.segments, rfl, code e, by simp [e], by simp [e]⟩
  · next e => exact ⟨.decode, rfl, code e, by simp [e], by simp [e]⟩
  · next e => exact ⟨.entries, rfl, code e, by simp [e], by simp [e]⟩
  · next n0 n1 n2 =>
    have : b.toNat ≠ 0 ∧ b.toNat ≠ 1 ∧ b.toNat ≠ 2 := ⟨n0, n1, n2⟩
    omega

/-- R173: the stream that a READ of a known collection makes. -/
def State.streamOf (s : State) (c : Collection) (key : Word) (count : Nat) : Stream :=
  { collection := c, segment := (s.startOfStream c key).1, nextKey := (s.startOfStream c key).2
    remaining := min 64 count, sent := 0, waiting := s.lnk.cutDonePending, formed := false }

section
variable (s : State) {collection : Byte} (key : Word) {count : Nat}

theorem State.makeStream_unknown (h : 3 ≤ collection.toNat) : s.makeStream collection key count =
    s.postDone { collection := collection, sent := 0, reason := .badRequest } := by
  simp only [State.makeStream, collectionOf_unknown h]

theorem State.makeStream_zero (h : collection.toNat < 3) : s.makeStream collection key 0 =
    s.postDone { collection := collection, sent := 0, reason := .complete } := by
  obtain ⟨c, known, -, -, -⟩ := collectionOf_known h
  simp only [State.makeStream, known, if_true]

theorem State.makeStream_known {c : Collection} (known : collectionOf collection = some c) (some : count ≠ 0) :
    s.makeStream collection key count = s.setLnk { s.lnk with stream := .some (s.streamOf c key count) } := by
  simp only [State.makeStream, known, if_neg some]
  rfl

end

theorem State.cutStream_eq (s : State) : s.cutStream = match s.lnk.stream with
    | none => s
    | some x => State.postDone { s with lnk := { s.lnk with stream := none } }
        { collection := x.collection.code, sent := x.sent, reason := .cut } := by
  unfold State.cutStream
  cases s.lnk.stream <;> rfl

theorem State.cutStream_run (s : State) : s.cutStream.run = s.run := by
  have e := congrArg State.run (State.cutStream_besidesLnk s); exact e

theorem State.cutStream_cst (s : State) : s.cutStream.cst = s.cst := by
  have e := congrArg State.cst (State.cutStream_besidesLnk s); exact e

/-! ### Forming DATA (R174) -/

theorem find?_split {α : Type} {p : α → Bool} {a b : List α} {x : α} (before : ∀ y ∈ a, p y = false) (hx : p x = true) :
    (a ++ x :: b).find? p = some x := by
  rw [List.find?_append, List.find?_eq_none.mpr (fun y hy => by rw [before y hy]; exact Bool.false_ne_true),
    List.find?_cons_of_pos hx]
  rfl

end Sys2Proof.Machine

namespace Sys2Proof.Proofs
open Sys2Proof Sys2Proof.Machine

/-- Settles O38: the posting of a DONE, the cut of the stream found, and the stream made, `State.streamOf`. -/
theorem readMakesAStream : Obligations.ReadMakesAStream := by
  refine ⟨fun s d => ⟨fun silent => State.postDone_silent silent d, fun speaks =>
    ⟨State.postDone_joins speaks d, State.postDone_held speaks d⟩⟩, ?_⟩
  intro s source target collection key count h own u v
  have taken : exec (.read source target collection key count) s = .next (u.read collection key count.toNat) :=
    congrArg Host.Outcome.next ((State.onFrame_received rfl h _).trans (if_pos own))
  have cut : u.cutStream = v := State.cutStream_eq u
  have reads (strap : s.sul.strap ≠ 7) : u.read collection key count.toNat = v.makeStream collection key count.toNat := by
    rw [State.read, if_neg (by exact strap), cut]
  have nonzero (some : count ≠ 0) : count.toNat ≠ 0 := fun c => some (BitVec.eq_of_toNat_eq c)
  refine ⟨_, taken, fun strap => if_pos strap, fun strap => ⟨fun unknown => ?_, fun known zero => ?_, fun known some => ?_⟩, ?_⟩
  · rw [reads strap, State.makeStream_unknown v key unknown]
  · rw [reads strap, zero]; exact State.makeStream_zero v key known
  · obtain ⟨c, named, code, low, entries⟩ := collectionOf_known known
    refine ⟨v.streamOf c key count.toNat, by rw [reads strap, State.makeStream_known v key named (nonzero some)]; rfl,
      code, rfl, rfl, rfl, Lnk.cutDonePending_iff v.lnk, fun two => ?_, fun two => ?_⟩
    · cases c with
      | segments => rfl
      | decode => rfl
      | entries => exact absurd rfl (low.mp two)
    · obtain rfl := entries.mp two
      have run : v.run = s.run := by rw [← cut]; exact State.cutStream_run u
      have cst : v.cst = s.cst := by rw [← cut]; exact State.cutStream_cst u
      have record (i : Nat) : v.record? i = s.record? i := by rw [State.record?, run]; rfl
      have start (g : SegmentRecord) (j : Nat) : startOfEntry v g j = startOfEntry s g j := by
        rw [startOfEntry, cst]; rfl
      have nextKey : (v.streamOf .entries key count.toNat).nextKey =
          (s.record? (key.toNat / 2 ^ 24)).bind (fun r => startOfEntry s r (key.toNat % 2 ^ 24)) := by
        simp only [State.streamOf, State.startOfStream, record, start]
      refine ⟨rfl, fun none => ?_, fun g found => ⟨fun beyond => ?_, fun within stored => ?_⟩⟩
      · rw [nextKey, show s.record? (key.toNat / 2 ^ 24) = .none from none]; rfl
      · rw [nextKey, show s.record? (key.toNat / 2 ^ 24) = .some g from found]
        exact startOfEntry_beyond beyond
      · rw [nextKey, show s.record? (key.toNat / 2 ^ 24) = .some g from found]
        exact startOfEntry_within within stored
  · intro x strap stream speaks known some room owed held
    obtain ⟨c, named, -, -, -⟩ := collectionOf_known known
    let d : Done := { collection := x.collection.code, sent := x.sent, reason := .cut }
    have joined : v = State.enqueue { u with lnk := { u.lnk with stream := none } } (QueueEntry.new (.done d)) := by
      have claimed : s.lnk.queue.length + (if s.lnk.statusOwed then 1 else 0) + s.lnk.heldDones.length < 8 := by
        rw [owed, held]; simpa using room
      rw [← State.postDone_joins (s := { u with lnk := { u.lnk with stream := none } }) speaks d claimed]
      exact cut.symm.trans ((State.cutStream_eq u).trans (by rw [show u.lnk.stream = .some x from stream]))
    have pending : v.lnk.cutDonePending = true := by
      rw [joined, Lnk.cutDonePending_iff]
      exact .inl ⟨_, List.mem_append_right _ List.mem_cons_self, d, rfl, rfl⟩
    rw [reads strap, State.makeStream_known v key named (nonzero some)]
    refine ⟨?_, congrArg Option.some pending, rfl⟩
    show v.lnk.queue = _
    rw [joined]
    rfl

/-- Settles O45: `State.formData` by the record that a formation finds, the three collections by the first record from the
key on, and the walk by `walkStart_isWalkStart` and `entriesFrom_getElem?`. -/
theorem streamFormsData : Obligations.StreamFormsData := by
  refine ⟨fun s => ⟨fun idle => ?_, fun x active speaks stream run fresh some few => ?_⟩, fun s x key next => ?_,
    fun s x none => ?_, fun s g key => ?_⟩
  · refine congrArg Host.Outcome.next ?_
    unfold State.dataFormation
    split
    · next x stream =>
      refine if_neg fun c => ?_
      simp only [Bool.and_eq_true, Bool.not_eq_true', Config.dataRoom] at c
      obtain ⟨⟨⟨-, run⟩, fresh⟩, few⟩ := c
      rw [stream] at idle
      rcases idle with full | formed | waiting
      · exact absurd (of_decide_eq_true few) (Nat.not_lt.mpr full)
      · rw [Option.map_some, fresh] at formed; cases formed
      · rw [Option.map_some, run] at waiting; cases waiting
    · rfl
  · intro grown
    have formed : exec .dataFormation s = .next (s.formData x) := by
      refine congrArg Host.Outcome.next ?_
      unfold State.dataFormation
      rw [stream]
      exact if_pos (by simp [active, run, fresh, Config.dataRoom, few])
    have posted (r : DataRecord) : s.postData r = s.enqueue (QueueEntry.new (.data r)) := if_neg (by simpa using speaks)
    refine ⟨fun r nextKey found => ⟨fun more => ?_, fun last => ?_⟩, fun none => ?_⟩
    · have left : (x.advance nextKey).remaining ≠ 0 := by show x.remaining - 1 ≠ 0; omega
      rw [formed, State.formData, found]
      dsimp only
      rw [posted, State.keepStream, if_neg left]
      rfl
    · have left : (x.advance nextKey).remaining = 0 := by show x.remaining - 1 = 0; omega
      rw [formed, State.formData, found]
      dsimp only
      rw [posted, State.keepStream, if_pos left]
      rfl
    · rw [formed, State.formData, none]
      rfl
  · have below {a b : Nat} (h : a < b) : decide (b ≤ a) = false := decide_eq_false (Nat.not_le.mpr h)
    refine ⟨fun collection => ⟨fun a b r table before above => ?_, fun all => ?_⟩,
      fun collection => ⟨fun a b r records before above => ?_, fun all => ?_⟩,
      fun collection => ⟨fun none => ?_, fun g found => ⟨fun a b start e walk before above => ?_, fun all => ?_⟩⟩⟩
    · simp only [State.nextRecord, next, collection, Option.bind_some, table]
      rw [find?_split (fun y hy => below (before y hy)) (decide_eq_true above)]
      rfl
    · simp only [State.nextRecord, next, collection, Option.bind_some]
      rw [List.find?_eq_none.mpr fun y hy => by rw [below (all y hy)]; exact Bool.false_ne_true]
      rfl
    · simp only [State.nextRecord, next, collection, Option.bind_some, Log.fromKey, records]
      rw [find?_split (fun y hy => below (before y hy)) (decide_eq_true above)]
      rfl
    · simp only [State.nextRecord, next, collection, Option.bind_some, Log.fromKey]
      rw [List.find?_eq_none.mpr fun y hy => by rw [below (all y hy)]; exact Bool.false_ne_true]
      rfl
    · simp only [State.nextRecord, next, collection, Option.bind_some, none, Option.bind_none]
    · simp only [State.nextRecord, next, collection, Option.bind_some, found, walk]
      rw [find?_split (x := (start, e)) (fun y hy => below (before y hy)) (decide_eq_true above)]
      rfl
    · simp only [State.nextRecord, next, collection, Option.bind_some, found]
      rw [List.find?_eq_none.mpr fun y hy => by rw [below (all y hy)]; exact Bool.false_ne_true]
      rfl
  · rw [State.nextRecord, none]; rfl
  · refine ⟨(walkStart s g key).1, (walkStart s g key).2, walkStart_isWalkStart s g key, fun i begins e found => ?_,
      fun stored => ?_⟩
    · obtain ⟨lt, read, sum⟩ := entriesFrom_getElem? s.cst.store g _ _ _ _ _ _ found
      exact ⟨by omega, read, sum⟩
    · exact entriesFrom_length s.cst.store g _ _ _ fun i hi => stored i (by omega)

end Sys2Proof.Proofs
end

