-- ==== Sys2Proof/Proofs/Frames.lean ====
section
/-! PROOF. Frames of the message line: their bytes, their bits, reading them back, and bad frames (R162, R163, R167, R168, R183
to R185). -/

namespace Sys2Proof.Machine

/-! ### Bytes and sums -/

theorem byteSum_toNat (bytes : List Byte) : (byteSum bytes).toNat = (bytes.map BitVec.toNat).sum % 256 := by
  have folded (l : List Byte) (a : Byte) :
      (l.foldl (fun a b => a + b) a).toNat = (a.toNat + (l.map BitVec.toNat).sum) % 256 := by
    induction l generalizing a with
    | nil => have := a.isLt; simp; omega
    | cons b rest ih => rw [List.foldl_cons, ih, BitVec.toNat_add]; simp only [List.map_cons, List.sum_cons]; omega
  rw [byteSum, folded]
  simp

theorem headerByte0_toNat (kind : BitVec 4) (source : Station) :
    (headerByte0 kind source).toNat = 8 * kind.toNat + source.toNat := by
  have := kind.isLt
  have := source.isLt
  rw [headerByte0, BitVec.toNat_ofNat]
  omega

theorem headerByte1_toNat {n : Nat} (h : n < 32) : (headerByte1 n).toNat = n := by
  rw [headerByte1, BitVec.toNat_ofNat]
  omega

/-- R167: the sum a receiver forms, as a number. -/
theorem RawFrame.sum_toNat (f : RawFrame) : f.sum.toNat =
    (8 * f.kind.toNat + f.source.toNat + f.length.toNat + (f.payload.map BitVec.toNat).sum + f.check.toNat) % 256 := by
  rw [RawFrame.sum, BitVec.toNat_add, byteSum_toNat]
  simp only [List.map_cons, List.sum_cons, headerByte0_toNat, headerByte1_toNat f.length.isLt]
  omega

/-- R184: the check byte makes the sum 0xFF. -/
theorem checkByte_sum (kind : BitVec 4) (source : Station) {payload : List Byte} (short : payload.length < 32) :
    (8 * kind.toNat + source.toNat + payload.length + (payload.map BitVec.toNat).sum +
      (checkByte kind source payload).toNat) % 256 = 255 := by
  have sum := byteSum_toNat (headerByte0 kind source :: headerByte1 payload.length :: payload)
  simp only [List.map_cons, List.sum_cons, headerByte0_toNat, headerByte1_toNat short] at sum
  have check : (checkByte kind source payload).toNat =
      255 - (byteSum (headerByte0 kind source :: headerByte1 payload.length :: payload)).toNat := by
    rw [checkByte]
    generalize byteSum _ = x
    bv_omega
  rw [check, sum]
  omega

/-! ### Bits -/

@[simp] theorem bitsMsbFirst_length {w : Nat} (x : BitVec w) : (bitsMsbFirst x).length = w := by simp [bitsMsbFirst]

theorem bitsMsbFirst_getElem? {w : Nat} (x : BitVec w) {i : Nat} (h : i < w) :
    (bitsMsbFirst x)[i]? = some (x.getLsbD (w - 1 - i)) := by
  simp [bitsMsbFirst, h, BitVec.getMsbD]

theorem payloadBits_length (p : List Byte) : (p.flatMap bitsMsbFirst).length = 8 * p.length := by
  induction p with
  | nil => rfl
  | cons b rest ih => rw [List.flatMap_cons, List.length_append, ih, bitsMsbFirst_length, List.length_cons]; omega

theorem payloadBits_getElem? (p : List Byte) : ∀ j i : Nat, j < p.length → i < 8 →
    (p.flatMap bitsMsbFirst)[8 * j + i]? = some ((payloadByte p j).getLsbD (7 - i)) := by
  induction p with
  | nil => intro j i h _; exact absurd h (Nat.not_lt_zero j)
  | cons b rest ih =>
    intro j i hj hi
    rw [List.flatMap_cons]
    cases j with
    | zero =>
      rw [List.getElem?_append_left (by simpa using hi), Nat.mul_zero, Nat.zero_add]
      exact bitsMsbFirst_getElem? b hi
    | succ j =>
      rw [List.getElem?_append_right (by simp; omega), bitsMsbFirst_length, show 8 * (j + 1) + i - 8 = 8 * j + i by omega]
      exact ih j i (Nat.lt_of_succ_lt_succ hj) hi

/-- R162: the bits of a frame field by field, each field at its place. -/
theorem RawFrame.bits_eq (f : RawFrame) : f.bits = [false] ++ (bitsMsbFirst f.kind ++ (bitsMsbFirst f.source ++
    (bitsMsbFirst f.length ++ (f.payload.flatMap bitsMsbFirst ++ (bitsMsbFirst f.check ++ [f.end1, f.end2]))))) := by
  simp [RawFrame.bits, RawFrame.headerBits]

/-- A field of the bits, `n` bits into the list. -/
theorem getElem?_field {a b c : List Bool} {n i : Nat} (start : a.length = n) (h : i < b.length) :
    (a ++ (b ++ c))[n + i]? = b[i]? := by
  rw [List.getElem?_append_right (by omega), start, Nat.add_sub_cancel_left, List.getElem?_append_left h]

section
variable (f : RawFrame) {i : Nat}

theorem RawFrame.bits_length : f.bits.length = 23 + 8 * f.payload.length := by
  rw [RawFrame.bits_eq]
  simp only [List.length_append, bitsMsbFirst_length, payloadBits_length, List.length_cons, List.length_nil]
  omega

theorem RawFrame.bits_kind (h : i < 4) : f.bits[1 + i]? = some (f.kind.getLsbD (3 - i)) := by
  rw [RawFrame.bits_eq, getElem?_field (n := 1) rfl (by simpa using h)]
  exact bitsMsbFirst_getElem? f.kind h

theorem RawFrame.bits_source (h : i < 3) : f.bits[5 + i]? = some (f.source.getLsbD (2 - i)) := by
  rw [RawFrame.bits_eq, ← List.append_assoc, getElem?_field (by simp) (by simpa using h)]
  exact bitsMsbFirst_getElem? f.source h

theorem RawFrame.bits_lengthField (h : i < 5) : f.bits[8 + i]? = some (f.length.getLsbD (4 - i)) := by
  rw [RawFrame.bits_eq, ← List.append_assoc, ← List.append_assoc, getElem?_field (by simp) (by simpa using h)]
  exact bitsMsbFirst_getElem? f.length h

theorem RawFrame.bits_payload {j : Nat} (hj : j < f.payload.length) (h : i < 8) :
    f.bits[13 + 8 * j + i]? = some ((payloadByte f.payload j).getLsbD (7 - i)) := by
  rw [RawFrame.bits_eq, ← List.append_assoc, ← List.append_assoc, ← List.append_assoc, Nat.add_assoc,
    getElem?_field (by simp) (by rw [payloadBits_length]; omega)]
  exact payloadBits_getElem? f.payload j i hj h

theorem RawFrame.bits_check (h : i < 8) :
    f.bits[13 + 8 * f.payload.length + i]? = some (f.check.getLsbD (7 - i)) := by
  rw [RawFrame.bits_eq, ← List.append_assoc, ← List.append_assoc, ← List.append_assoc, ← List.append_assoc,
    getElem?_field (by simp; omega) (by simpa using h)]
  exact bitsMsbFirst_getElem? f.check h

theorem RawFrame.bits_end1 : f.bits[21 + 8 * f.payload.length]? = some f.end1 := by
  rw [RawFrame.bits_eq]
  simp only [← List.append_assoc]
  exact getElem?_field (i := 0) (b := [f.end1]) (c := [f.end2]) (by simp; omega) (by simp)

theorem RawFrame.bits_end2 : f.bits[22 + 8 * f.payload.length]? = some f.end2 := by
  have last := RawFrame.bits_getLast? f
  rw [List.getLast?_eq_getElem?, RawFrame.bits_length] at last
  rwa [show 23 + 8 * f.payload.length - 1 = 22 + 8 * f.payload.length by omega] at last

end

/-! ### Reading a frame back (R168, R185) -/

/-- R168: which frame a station reads as a command: one with a target as its own command where it is addressed to the
station, and else as one that is not taken. -/
def readsAs (strap straps : Station) : Instr → Prop
  | .restart _ target pins => addressed strap (targetOf target) = true ∧ pins = straps
  | .panel _ target _ _ _ _ => addressed strap (targetOf target) = true
  | .query _ target => addressed strap (targetOf target) = true
  | .read _ target _ _ _ => addressed strap (targetOf target) = true
  | .unaddressedFrameReceived _ _ payload => addressed strap (targetOf (payloadByte payload 0)) = false
  | _ => True

/-- R168, R185: every message command is read back from its frame. -/
theorem decodeFrame_toRaw {strap straps : Station} {i : Instr} {f : Frame} (w : i.wellFormed = true)
    (hf : i.frame? = some f) (own : readsAs strap straps i) : decodeFrame strap straps f.toRaw = i := by
  have clean {g : Frame} (e : some g = some f) (none : f.toRaw.fault = none) : g.toRaw.fault.isSome = false := by
    rw [Option.some.inj e, none]; rfl
  cases i with
  | restart source target pins =>
    obtain ⟨mine, rfl⟩ := own
    have none := clean hf (Laws.FrameRoundTrip.restart source target pins w f hf).2
    cases hf
    rw [decodeFrame, none]
    exact if_pos mine
  | stop source =>
    have none := clean hf (Laws.FrameRoundTrip.stop source w f hf).2
    cases hf
    rw [decodeFrame, none]
    rfl
  | arm source profile =>
    have none := clean hf (Laws.FrameRoundTrip.arm source profile w f hf).2
    cases hf
    rw [decodeFrame, none]
    rfl
  | notice source segment time =>
    have none := clean hf (Laws.FrameRoundTrip.notice source segment time w f hf).2
    cases hf
    rw [decodeFrame, none]
    exact congrArg (Instr.notice source segment) (natBE_bytesBE_six time)
  | setup source divider segments options codeA codeB =>
    have none := clean hf (Laws.FrameRoundTrip.setup source divider segments options codeA codeB w f hf).2
    cases hf
    rw [decodeFrame, none]
    exact congrArg (Instr.setup source · segments options codeA codeB) (natBE_bytesBE_four divider)
  | view source segment offset scale follow =>
    have none := clean hf (Laws.FrameRoundTrip.view source segment offset scale follow w f hf).2
    cases hf
    rw [decodeFrame, none]
    exact congrArg (Instr.view source segment · scale follow) (natBE_bytesBE_six offset)
  | panel source target mode first last inversion =>
    have none := clean hf (Laws.FrameRoundTrip.panel source target mode first last inversion w f hf).2
    cases hf
    rw [decodeFrame, none]
    exact if_pos own
  | query source target =>
    have none := clean hf (Laws.FrameRoundTrip.query source target w f hf).2
    cases hf
    rw [decodeFrame, none]
    exact if_pos own
  | read source target collection key count =>
    have none := clean hf (Laws.FrameRoundTrip.read source target collection key count w f hf).2
    cases hf
    rw [decodeFrame, none]
    exact (if_pos own).trans (congrArg (Instr.read source target collection · count) (natBE_bytesBE_four key))
  | replyFrameReceived kind source payload =>
    have none := clean hf (Laws.FrameRoundTrip.replyFrameReceived kind source payload w f hf).2
    cases hf
    rw [decodeFrame, none]
    cases kind <;> rfl
  | unaddressedFrameReceived kind source payload =>
    have none := clean hf (Laws.FrameRoundTrip.unaddressedFrameReceived kind source payload w f hf).2
    have other : ¬addressed strap (targetOf (payloadByte payload 0)) = true := by
      rw [show addressed strap (targetOf (payloadByte payload 0)) = false from own]; exact Bool.false_ne_true
    cases hf
    rw [decodeFrame, none]
    cases kind with
    | restart => exact if_neg other
    | panel => exact if_neg other
    | query => exact if_neg other
    | read => exact if_neg other
  | _ => cases hf

end Sys2Proof.Machine

namespace Sys2Proof.Proofs
open Sys2Proof Sys2Proof.Machine

/-- Settles O10: `decodeFrame_toRaw`, the bits field by field, and what a station puts on the line. -/
theorem frameReadsBackAsItsCommand : Obligations.FrameReadsBackAsItsCommand := by
  refine ⟨fun strap straps i f w hf own => decodeFrame_toRaw w hf (by cases i <;> exact own), fun f short => ?_,
    fun l bit => ⟨fun none => ?_, fun f some => ?_⟩, fun s f free some => ⟨?_, fun n b place bit => ?_⟩, fun s quiet => ?_⟩
  · have field : f.toRaw.length = BitVec.ofNat 5 f.payload.length := rfl
    refine ⟨f.toRaw.check, checkByte_sum f.kind f.source (Nat.lt_succ_of_le short), RawFrame.bits_length f.toRaw, rfl,
      fun i h => RawFrame.bits_kind f.toRaw h, fun i h => RawFrame.bits_source f.toRaw h, fun i h => ?_,
      fun j i hj h => RawFrame.bits_payload f.toRaw hj h, fun i h => RawFrame.bits_check f.toRaw h, RawFrame.bits_end1 f.toRaw, RawFrame.bits_end2 f.toRaw⟩
    rw [show (Frame.bits f)[8 + i]? = _ from RawFrame.bits_lengthField f.toRaw h, field, BitVec.getLsbD_ofNat]
    simp only [show 4 - i < 5 by omega, decide_true, Bool.true_and]
  · rw [Lnk.sentBit, none]; rfl
  · rw [Lnk.sentBit, some]; rfl
  · rw [State.sendsBits, free, some]; rfl
  · rw [State.putsBit, free, place]
    show (s.lnk.sentBit n).getD true = b
    rw [Lnk.sentBit, some]
    show ((Frame.bits f)[n]?).getD true = b
    rw [bit]; rfl
  · rcases quiet with held | none
    · rw [State.putsBit, held]; rfl
    · have silent (n : Nat) : s.lnk.sentBit n = .none := by rw [Lnk.sentBit, none]; rfl
      rw [State.putsBit]
      cases s.lnk.framePosition with
      | none => simp
      | some n => simp [silent]

end Sys2Proof.Proofs
end

