-- ==== Sys2Proof/Proofs/BadFrames.lean ====
section
/-! PROOF. Bad frames and the idle line (R163, R167). -/

namespace Sys2Proof.Machine

/-! ### The fault a frame shows -/

/-- R184: the lengths a kind allows, as the manual's table lists them. -/
theorem allowedLengths_iff {k : Nat} (n : Nat) (h : k < 16) : (allowedLengths k).contains n = true ↔
    (k = 0 ∧ n = 1) ∨ (k = 1 ∧ n = 0) ∨ (k = 2 ∧ n = 1) ∨ (k = 3 ∧ n = 7) ∨ (k = 4 ∧ n = 8) ∨
      (k = 5 ∧ n = 9) ∨ (k = 6 ∧ n = 5) ∨ (k = 7 ∧ n = 1) ∨ (k = 8 ∧ n = 7) ∨ (k = 9 ∧ n = 21) ∨
      (k = 10 ∧ (n = 14 ∨ n = 27 ∨ n = 28)) ∨ (k = 11 ∧ n = 3) := by
  rw [List.contains_iff_mem]
  interval_cases k <;> simp [allowedLengths]

theorem RawFrame.sum_eq_iff (f : RawFrame) : f.sum = 0xFF ↔
    (8 * f.kind.toNat + f.source.toNat + f.length.toNat + (f.payload.map BitVec.toNat).sum + f.check.toNat) % 256 = 255 := by
  rw [← RawFrame.sum_toNat]
  exact BitVec.toNat_inj.symm

section
variable {f : RawFrame}

theorem RawFrame.fault_long (h : 28 < f.length.toNat) : f.fault = some .length := if_pos h

theorem RawFrame.fault_end1 (h : f.length.toNat ≤ 28) (e : f.end1 = false) : f.fault = some .endBit := by
  rw [RawFrame.fault, if_neg (Nat.not_lt.mpr h), e]; rfl

/-- R167: the faults that stand at the end of a frame. -/
theorem RawFrame.fault_read (h : f.length.toNat ≤ 28) (e : f.end1 = true) : f.fault =
    if 12 ≤ f.kind.toNat then some .kind
    else if !(allowedLengths f.kind.toNat).contains f.length.toNat then some .length
    else if f.sum ≠ 0xFF then some .check
    else if f.end2 then none else some .endBit := by
  rw [RawFrame.fault, if_neg (Nat.not_lt.mpr h), e]
  cases f.end2 <;> rfl

end

/-! ### The bits read of a bad frame -/

section
variable (f : RawFrame)

theorem RawFrame.headerBits_getLast? : (RawFrame.headerBits f).getLast? = some (f.length.getLsbD 0) := by
  have last := bitsMsbFirst_getElem? f.length (i := 4) (by decide)
  rw [RawFrame.headerBits, List.getLast?_cons, List.getLast?_append, List.getLast?_eq_getElem?, bitsMsbFirst_length, last]
  rfl

theorem RawFrame.bits_dropLast : (RawFrame.bits f).dropLast.getLast? = some f.end1 := by
  have cut (a : List Bool) : (a ++ [f.end1, f.end2]).dropLast = a ++ [f.end1] := by
    rw [List.dropLast_append_of_ne_nil (by simp)]; rfl
  rw [RawFrame.bits, cut, List.getLast?_concat]

/-- R163, R167: the level last read of a bad frame. -/
theorem RawFrame.bitsRead_last : ((RawFrame.bitsRead f).getLast? != some false) =
    if 28 < f.length.toNat then f.length.getLsbD 0 else f.end1 && f.end2 := by
  have level (b : Bool) : (some b != some false) = b := by cases b <;> rfl
  unfold RawFrame.bitsRead
  split
  · rw [RawFrame.headerBits_getLast?, level]
  · cases e : f.end1 with
    | false => rw [Bool.not_false, if_pos rfl, RawFrame.bits_dropLast, e]; rfl
    | true => rw [Bool.not_true, if_neg Bool.false_ne_true, RawFrame.bits_getLast?, level, Bool.true_and]

theorem RawFrame.bitsRead_eq : RawFrame.bitsRead f = if 28 < f.length.toNat then RawFrame.headerBits f
    else if f.end1 = false then (RawFrame.bits f).dropLast else RawFrame.bits f := by
  unfold RawFrame.bitsRead
  cases f.end1 <;> rfl

theorem RawFrame.receiverAfter_short (h : f.length.toNat ≤ 28) : RawFrame.receiverAfter f =
    if f.end1 = true ∧ f.end2 = false then .receiving else .waiting := by
  rw [RawFrame.receiverAfter, if_neg (Nat.not_lt.mpr h)]
  cases f.end1 <;> cases f.end2 <;> rfl

theorem RawFrame.receiverAfter_iff : RawFrame.receiverAfter f = .receiving ↔
    f.length.toNat ≤ 28 ∧ f.end1 = true ∧ f.end2 = false := by
  by_cases h : f.length.toNat ≤ 28
  · rw [RawFrame.receiverAfter_short f h]
    by_cases c : f.end1 = true ∧ f.end2 = false
    · simp [h, c]
    · rw [if_neg c]; simp [h]; simpa using c
  · rw [RawFrame.receiverAfter, if_pos (Nat.lt_of_not_le h)]
    simp [h]

end

end Sys2Proof.Machine

namespace Sys2Proof.Proofs
open Sys2Proof Sys2Proof.Machine

/-- Settles O40: the faults in the order in which they are found, the bits read of a bad frame, and the idle line. -/
theorem badFrameIsDropped : Obligations.BadFrameIsDropped := by
  refine ⟨fun f => ?_, fun s f e h fault => ?_, fun s active => ⟨fun nine skipping => ?_, fun other => ?_⟩⟩
  · intro n k allowed sum
    have listed : (allowedLengths k).contains n = true ↔ allowed := allowedLengths_iff n f.kind.isLt
    have kindOf : allowed → k < 12 ∧ n ≤ 28 := fun h => by simp only [allowed] at h; omega
    have summed : f.sum = 0xFF ↔ sum = 255 := RawFrame.sum_eq_iff f
    have good (read : f.end1 = true) (ok : allowed) :
        f.fault = if f.sum ≠ 0xFF then some .check else if f.end2 then none else some .endBit := by
      obtain ⟨low, short⟩ := kindOf ok
      rw [RawFrame.fault_read short read, if_neg (Nat.not_le.mpr low), listed.mpr ok]
      rfl
    refine ⟨RawFrame.fault_long, RawFrame.fault_end1, fun short read unknown => ?_, fun short read low bad => ?_,
      fun read ok wrong => ?_, fun read ok right => ?_⟩
    · rw [RawFrame.fault_read short read, if_pos unknown]
    · rw [RawFrame.fault_read short read, if_neg (Nat.not_le.mpr low),
        show (allowedLengths f.kind.toNat).contains f.length.toNat = false from
          Bool.eq_false_iff.mpr fun c => bad (listed.mp c)]
      rfl
    · rw [good read ok, if_pos (fun c => wrong (summed.mp c))]
    · rw [good read ok, if_neg (not_not.mpr (summed.mpr right))]
  · have dropped : exec (.receiveFault f) s = .next (s.setLnk { s.lnk.readFrame (RawFrame.bitsRead f) with
        receiver := RawFrame.receiverAfter f, lastBusError := some e
        framePosition := if RawFrame.receiverAfter f = .receiving then some 0 else none }) := by
      refine congrArg Host.Outcome.next ?_
      rw [State.receiveFault, show f.fault = some e from fault]
      exact if_pos h
    refine ⟨_, dropped, rfl, fun long => ⟨?_, if_pos long⟩, RawFrame.receiverAfter_short f, ?_⟩
    · rw [RawFrame.fault_long long] at fault
      exact (Option.some.inj fault).symm
    · rw [Lnk.readFrame, RawFrame.bitsRead_last, RawFrame.bitsRead_eq]
      simp only [RawFrame.receiverAfter_iff]
      rfl
  · refine congrArg Host.Outcome.next ?_
    rw [State.lineIdle, if_pos (by simp [active, nine, skipping])]
    rfl
  · refine congrArg Host.Outcome.next (if_neg fun c => ?_)
    simp only [Bool.and_eq_true, beq_iff_eq] at c
    obtain ⟨⟨-, nine⟩, skipping⟩ := c
    exact other.elim (absurd nine) (absurd skipping)

end Sys2Proof.Proofs
end

