-- ==== Sys2Proof/Proofs/ClockSource.lean ====
section
/-! PROOF. The reference monitor and the stuck line (R1 to R5, R9, R10): what the end of a window, a trailing edge and a
stuck pulse do to TAU. Where K changes a rebase comes first, so stack time goes on from its value. -/

namespace Sys2Proof.Machine

theorem IntervalInProgress.discard_eq (i : IntervalInProgress) : i.discard = if i = .measured then .discarded else i := by
  cases i <;> rfl

theorem IntervalInProgress.discard_unmeasured (i : IntervalInProgress) : i.discard ≠ .measured := by
  cases i <;> decide

/-- R16: whatever K becomes after a rebase, the offset is the one before it. -/
theorem RunTime.stackTime_rebased (r : RunTime) (before after : Nat) :
    RunTime.stackTime { r with base := r.offset before, ticks := 0 } after = r.stackTime before := by
  simp [RunTime.stackTime, RunTime.offset]

theorem State.stackTime?_rebased {s t : State} (h : t.tau.runTime = s.tau.rebase.runTime) : t.stackTime? = s.stackTime? := by
  rw [State.stackTime?, State.stackTime?, h, Tau.rebase, Option.map_map]
  exact congrArg (Option.map · _) (funext fun r => r.stackTime_rebased _ _)

theorem windowInRange_iff (edges : Nat) : windowInRange edges = true ↔ 1280 ≤ edges ∧ edges ≤ 1342 := by
  simp [windowInRange]

/-- R3: a window of the trial that does not complete a run of four. -/
theorem State.trialWindow_undecided {s : State} {inRange : Bool} (h : ¬(inRange = true ∧ s.tau.inRangeRun = 3)) :
    s.trialWindow inRange = { s with tau := { s.tau with
      windowCount := s.tau.windowCount + 1
      inRangeRun := if inRange then s.tau.inRangeRun + 1 else 0
      clockState := if s.tau.windowCount + 1 = 16 then .refAbsent else s.tau.clockState
      monitorRunning := decide (s.tau.windowCount + 1 ≠ 16) && s.tau.monitorRunning } } := by
  have notFour : (if inRange then s.tau.inRangeRun + 1 else 0) ≠ 4 := by
    cases inRange
    · exact Nat.zero_ne_add_one 3
    · exact fun four => h ⟨rfl, Nat.succ.inj four⟩
  rw [State.trialWindow]
  extract_lets
  rw [if_neg notFour]
  by_cases last : s.tau.windowCount + 1 = 16
  · rw [if_pos last, if_pos last, decide_eq_false (not_not.mpr last)]
    rfl
  · rw [if_neg last, if_neg last, decide_eq_true last]
    rfl

/-- R3: the window that completes the trial's run of four. -/
theorem State.trialWindow_decides {s : State} (h : s.tau.inRangeRun = 3) :
    s.trialWindow true = State.switchClock
      { s with tau := { s.tau with windowCount := s.tau.windowCount + 1, inRangeRun := 4 } } .refActive := by
  simp only [State.trialWindow, h, reduceIte]
  rfl

/-- R5: the local tick's source changes. -/
theorem State.switchClock_eq (s : State) (c : ClockState) : s.switchClock c = { s with
    tau := { s.tau.rebase.unlock with clockState := c, interval := s.tau.interval.discard }
    run := { s.run with
      table := s.run.table.map (fun r => if s.openIndex? = some r.index then { r with refSwitch := true } else r) } } := by
  rw [State.switchClock]
  exact State.updateOpen_eq _ _

end Sys2Proof.Machine

namespace Sys2Proof.Proofs
open Sys2Proof Sys2Proof.Machine

/-- Settles O12: the trial's windows with and without a decision, and the watch's, each through its own equation. -/
theorem referenceWindowEnds : Obligations.ReferenceWindowEnds := by
  intro s edges active running
  have window : s.windowEnd edges = if s.tau.clockState = .refActive then s.watchWindow (windowInRange edges)
      else s.trialWindow (windowInRange edges) := if_pos (by simp [active, running])
  refine ⟨fun trial undecided => ?_, fun watch low high => ?_, ?_⟩
  · refine congrArg Host.Outcome.next ?_
    rw [window, if_neg trial, State.trialWindow_undecided fun c => undecided ⟨(windowInRange_iff edges).mp c.1, c.2⟩]
    simp only [windowInRange_iff, running, Bool.and_true]
  · refine congrArg Host.Outcome.next ?_
    rw [window, if_pos watch, State.watchWindow, if_pos ((windowInRange_iff edges).mpr ⟨low, high⟩)]
    rfl
  · rintro (⟨trial, range, three⟩ | ⟨watch, range⟩)
    · have ended := window.trans (if_neg trial)
      rw [(windowInRange_iff edges).mpr range, State.trialWindow_decides three, State.switchClock_eq] at ended
      have source : s.tau.tickFromReference = false := beq_false_of_ne trial
      refine ⟨_, congrArg Host.Outcome.next ended, (if_neg trial).symm, ?_, ?_, rfl, rfl, rfl,
        IntervalInProgress.discard_unmeasured _, rfl, rfl, rfl, State.stackTime?_rebased rfl, rfl, ?_, rfl⟩
      · rw [source]; rfl
      · rw [source]; exact running
      · simp only [if_neg trial, ← IntervalInProgress.discard_eq]; rfl
    · have ended := window.trans (if_pos watch)
      rw [State.watchWindow, if_neg (fun c => range ((windowInRange_iff edges).mp c)), State.switchClock_eq] at ended
      have source : s.tau.tickFromReference = true := beq_iff_eq.mpr watch
      refine ⟨_, congrArg Host.Outcome.next ended, (if_pos watch).symm, ?_, ?_, rfl, rfl, rfl,
        IntervalInProgress.discard_unmeasured _, rfl, rfl, rfl, State.stackTime?_rebased rfl, rfl, ?_, rfl⟩
      · rw [source]; rfl
      · rw [source]; rfl
      · simp only [if_pos watch, ← IntervalInProgress.discard_eq]; rfl

/-- Settles O16: a stuck pulse's trailing edge, another that completes no candidate, and the 64th tick of a pulse. -/
theorem trailingEdgesAndStuckPulses : Obligations.TrailingEdgesAndStuckPulses := by
  intro s active line
  refine ⟨fun undriven => ⟨fun clear noStart => ?_, fun stuck => ?_⟩, fun clear width => ?_⟩
  · refine congrArg Host.Outcome.next ?_
    rw [State.trailingEdge, if_pos (by simp [active, line, undriven])]
    refine (if_neg (by rw [clear]; decide)).trans (if_neg fun c => noStart ?_)
    simpa [isStartWidth, and_assoc] using c
  · refine congrArg Host.Outcome.next ?_
    rw [State.trailingEdge, if_pos (by simp [active, line, undriven])]
    exact if_pos stuck
  · refine ⟨s.setTau { s.tau.rebase.unlock with
        markStuck := true, candidate := false, interval := s.tau.interval.discard },
      congrArg Host.Outcome.next (if_pos (by simp [active, line, clear, width])), rfl, ?_, rfl, rfl, rfl, rfl,
      IntervalInProgress.discard_unmeasured _, State.stackTime?_rebased rfl, rfl, rfl, rfl⟩
    simp [State.emitsMarks, State.setTau]

end Sys2Proof.Proofs
end

