-- ==== Sys2Proof/Proofs/MarkEdges.lean ====
section
/-! PROOF. Mark edges (R6 to R8, R11 to R14, R17, R18): leading edges, own drives and synthesized marks each set what a mark
edge sets in TAU and take the mark-edge step of a run, which leaves alone what sampling leaves alone. -/

namespace Sys2Proof.Machine

/-! ### The interval that a mark edge ends -/

theorem pushInterval_eq (h : List Nat) (m : Nat) :
    pushInterval h m = if h.length < 4 then h ++ [m] else h.tail ++ [m] := by
  rw [pushInterval, List.drop_one]

namespace Tau

variable {t : Tau}

theorem measureInterval_skips (h : t.interval ≠ .measured) : t.measureInterval = t := by
  unfold measureInterval
  split
  · rfl
  · rfl
  · next measured => exact absurd measured h

theorem measureInterval_accepts (h : t.interval = .measured) (range : 1006633 ≤ t.emissionTimer ∧ t.emissionTimer ≤ 1048576) :
    t.measureInterval = { t with
      history := pushInterval t.history t.emissionTimer
      locked := decide ((pushInterval t.history t.emissionTimer).length = 4)
      rateFactor := if (pushInterval t.history t.emissionTimer).length = 4 then
        rateFactorOf (pushInterval t.history t.emissionTimer) else 65536 } := by
  have taken : t.measureInterval = t.acceptInterval t.emissionTimer := by
    rw [measureInterval, h]
    exact if_pos range
  rw [taken, acceptInterval]
  by_cases full : (pushInterval t.history t.emissionTimer).length = 4
  · rw [if_pos full, decide_eq_true full, if_pos full]
  · rw [if_neg full, decide_eq_false full, if_neg full]
    rfl

theorem measureInterval_rejects (h : t.interval = .measured)
    (range : ¬(1006633 ≤ t.emissionTimer ∧ t.emissionTimer ≤ 1048576)) : t.measureInterval = t.unlock := by
  rw [measureInterval, h]
  exact if_neg range

/-- R13, R14: measuring an interval moves the history, the lock state and K alone. -/
theorem measureInterval_keeps (t : Tau) : t.measureInterval = { t with
    history := t.measureInterval.history, locked := t.measureInterval.locked
    rateFactor := t.measureInterval.rateFactor } := by
  by_cases measured : t.interval = .measured
  · by_cases range : 1006633 ≤ t.emissionTimer ∧ t.emissionTimer ≤ 1048576
    · rw [measureInterval_accepts measured range]
    · rw [measureInterval_rejects measured range]
      rfl
  · rw [measureInterval_skips measured]

theorem leadingEdge_eq (t : Tau) (rs : RunState) : t.leadingEdge rs = { t with
    markLine := true, pulseWidth := 0, candidate := rs == .waitStart, emissionTimer := 0, synthesisCount := 0
    interval := .measured, history := t.measureInterval.history, locked := t.measureInterval.locked
    rateFactor := t.measureInterval.rateFactor } := by
  rw [leadingEdge, measureInterval_keeps t]

end Tau

/-! ### The mark-edge step -/

theorem State.tau_of_still {s t : State} (h : t.still = s.still) : t.tau = { s.tau with runTime := t.tau.runTime } :=
  congrArg (fun x : Still => { x.tau with runTime := t.tau.runTime }) h

theorem State.markEdgeStep_outside {s : State} (h : s.tau.runTime = none) : s.markEdgeStep = s := by
  rw [State.markEdgeStep, h]

section
variable (s : State) (k x : Tau)

/-- What a mark edge leaves alone, whatever it sets in TAU before and after its step. -/
theorem State.afterEdge_still :
    State.still { (s.setTau k).markEdgeStep with tau := x } = { s.still with tau := { x with runTime := none } } :=
  congrArg (fun y : Still => { y with tau := { x with runTime := none } }) (State.markEdgeStep_still (s.setTau k))

theorem State.afterEdge_outside {k : Tau} (h : k.runTime = none) :
    { (s.setTau k).markEdgeStep with tau := x } = { s with tau := x } := by
  rw [State.markEdgeStep_outside (s := s.setTau k) h]
  rfl

theorem State.afterEdge_tau : (s.setTau k).markEdgeStep.tau = { k with runTime := (s.setTau k).markEdgeStep.tau.runTime } :=
  State.tau_of_still (s := s.setTau k) (State.markEdgeStep_still _)

end

/-- R7, R8: another station's leading edge, and the stretch of it into a start mark. -/
theorem State.leadingEdge_eq {s : State} (active : s.active = true) (line : s.tau.markLine = false) :
    s.leadingEdge = { s.observeLeadingEdge with tau := { s.observeLeadingEdge.tau with
      markDrive := if s.emitsMarks && s.tau.startPending then some 32 else s.observeLeadingEdge.tau.markDrive
      startPending := s.observeLeadingEdge.tau.startPending && !s.emitsMarks } } := by
  have pending : s.observeLeadingEdge.tau.startPending = s.tau.startPending := by
    rw [State.observeLeadingEdge, State.afterEdge_tau, Tau.leadingEdge_eq]
  have split : s.leadingEdge = if s.emitsMarks && s.tau.startPending then s.observeLeadingEdge.driveStartMark
      else s.observeLeadingEdge := if_pos (by simp [active, line])
  rw [split, pending]
  by_cases stretch : (s.emitsMarks && s.tau.startPending) = true
  · rw [if_pos stretch, if_pos stretch, (Bool.and_eq_true_iff.mp stretch).1, Bool.not_true, Bool.and_false]
    rfl
  · have kept : (s.tau.startPending && !s.emitsMarks) = s.observeLeadingEdge.tau.startPending := by
      rw [pending]
      cases emits : s.emitsMarks
      · simp
      · simpa [emits] using stretch
    rw [if_neg stretch, if_neg stretch, kept]

/-- R6, R7: TAU as the station begins to drive the line. -/
def Tau.driven (t : Tau) : Tau :=
  { t with markDrive := some (if t.startPending then 32 else 8), startPending := false }

/-- R6, R7, R8: the station's own drive, and the leading edge it makes. -/
theorem State.emissionTimerExpiry_eq {s : State} (active : s.active = true) (emits : s.emitsMarks = true)
    (time : 2 ^ 20 ≤ s.tau.emissionTimer) (line : s.tau.markLine = false) :
    s.emissionTimerExpiry = (s.setTau (s.tau.driven.leadingEdge s.run.state)).markEdgeStep := by
  have driven : (if s.tau.startPending then s.driveStartMark else s.setTau { s.tau with markDrive := some 8 }) =
      s.setTau s.tau.driven := by
    cases pending : s.tau.startPending
    · simp [Tau.driven, pending]
    · simp [Tau.driven, pending, State.driveStartMark]
  have reached : Config.markInterval ≤ s.tau.emissionTimer := time
  rw [State.emissionTimerExpiry, if_pos (by simp [active, emits, reached]), driven]
  exact if_neg (by rw [line]; decide)

/-- R11: a synthesized mark. -/
theorem State.synthesizedMark_eq {s : State} (active : s.active = true) (due : s.synthesisDue = true) :
    s.synthesizedMark =
      { (s.setTau { s.tau with emissionTimer := 0, synthesisCount := 0, interval := .discarded }).markEdgeStep with
        tau := (s.setTau { s.tau with
          emissionTimer := 0, synthesisCount := 0, interval := .discarded }).markEdgeStep.tau.unlock } :=
  if_pos (by rw [active, due]; rfl)

end Sys2Proof.Machine

namespace Sys2Proof.Proofs
open Sys2Proof Sys2Proof.Machine

/-- Settles O13: the own drive's leading edge, through its equation; a drive that is not made, and one that runs out. -/
theorem markPulseIsDrivenAndReleased : Obligations.MarkPulseIsDrivenAndReleased := by
  intro s active
  refine ⟨?_, fun silent => ?_, fun emits time line => ?_, fun out => ?_⟩
  · simp [State.emitsMarks, and_assoc]
  · exact congrArg Host.Outcome.next (if_neg (by simp [silent]))
  · have ended : s.emissionTimerExpiry = _ := State.emissionTimerExpiry_eq active emits time line
    dsimp only
    rw [← pushInterval_eq]
    refine ⟨{ (s.setTau (s.tau.driven.leadingEdge s.run.state)).markEdgeStep with
      tau := { s.tau.driven.leadingEdge s.run.state with
        runTime := (s.setTau (s.tau.driven.leadingEdge s.run.state)).markEdgeStep.tau.runTime } }, ?_, ?_⟩
    · refine congrArg Host.Outcome.next ?_
      rw [ended, ← State.afterEdge_tau]
    rw [Tau.leadingEdge_eq]
    refine ⟨rfl, rfl, rfl, rfl, rfl, rfl, rfl, beq_iff_eq, fun skipped => ?_, fun measured exactly => ?_,
      fun measured late => ?_, State.afterEdge_still _ _ _, fun outside => State.afterEdge_outside _ _ outside⟩
    · rw [Tau.measureInterval_skips (t := s.tau.driven) skipped]
      exact ⟨rfl, rfl, rfl⟩
    · rw [Tau.measureInterval_accepts (t := s.tau.driven) measured (by
        rw [show s.tau.driven.emissionTimer = 2 ^ 20 from exactly]; decide)]
      exact ⟨rfl, decide_eq_true_iff, rfl⟩
    · have long : ¬s.tau.emissionTimer ≤ 1048576 := by omega
      rw [Tau.measureInterval_rejects (t := s.tau.driven) measured fun range => long range.2]
      exact ⟨rfl, rfl, rfl⟩
  · exact congrArg Host.Outcome.next (if_pos (by simp [active, out]))

/-- Settles O14: another station's leading edge, through its equation, and the interval it ends. -/
theorem leadingEdgeIsAMarkEdge : Obligations.LeadingEdgeIsAMarkEdge := by
  intro s active line
  have ended : s.leadingEdge = _ := State.leadingEdge_eq active line
  rw [State.observeLeadingEdge, State.afterEdge_tau, Tau.leadingEdge_eq] at ended
  dsimp only
  rw [← pushInterval_eq]
  refine ⟨_, congrArg Host.Outcome.next ended, rfl, ?_, ⟨rfl, rfl, rfl, rfl, rfl, beq_iff_eq⟩, fun skipped => ?_,
    fun measured range => ?_, fun measured outside => ?_, State.afterEdge_still _ _ _,
    fun outside => State.afterEdge_outside _ _ outside⟩
  · simp
  · rw [Tau.measureInterval_skips skipped]
    exact ⟨rfl, rfl, rfl⟩
  · rw [Tau.measureInterval_accepts measured range]
    exact ⟨rfl, decide_eq_true_iff, rfl⟩
  · rw [Tau.measureInterval_rejects measured outside]
    exact ⟨rfl, rfl, rfl⟩

/-- Settles O18: the step of a synthesized mark, and the unlocking after it. -/
theorem synthesizedMarkUnlocks : Obligations.SynthesizedMarkUnlocks := by
  intro s active late
  have due : s.synthesisDue = true := by
    rcases late with ⟨stuck, count⟩ | ⟨clear, never, count⟩
    · simpa [State.synthesisDue, State.synthesisLimit, Config.markInterval, stuck] using count
    · have silent : s.neverEmits = true := by simpa [State.neverEmits] using never
      simpa [State.synthesisDue, State.synthesisLimit, Config.markInterval, Config.listenMargin, clear, silent] using count
  have ended : s.synthesizedMark = _ := State.synthesizedMark_eq active due
  rw [State.afterEdge_tau] at ended
  exact ⟨_, congrArg Host.Outcome.next ended, rfl, rfl, rfl, rfl, rfl, rfl, rfl, rfl, rfl, rfl,
    State.afterEdge_still _ _ _, fun outside => State.afterEdge_outside _ _ outside⟩

end Sys2Proof.Proofs
end

