-- ==== Sys2Proof/Proofs/MarkSteps.lean ====
section
/-! PROOF. The mark-edge step of a run, and the run's start (R15, R17, R18, R54): the jump is sampled, the correction goes to
the segment open after it, and the edge that brings the marks to their limit ends the run. -/

namespace Sys2Proof.Machine

theorem State.takeAllDue_of_not_due {s : State} (h : s.sampleDue = false) : s.takeAllDue = s := by
  rw [State.takeAllDue]
  cases s.dueCount with
  | zero => rfl
  | succ n => rw [State.takeDue, if_neg (by rw [h]; decide)]

/-- R42: a record after a correction of `c` reported for the segment of index `i?`. -/
def SegmentRecord.corrected (i? : Option Nat) (c : Nat) (g : SegmentRecord) : SegmentRecord :=
  if i? = some g.index then { g with maxCorrection := max g.maxCorrection c } else g

theorem SegmentRecord.corrected_index (i? : Option Nat) (c : Nat) (g : SegmentRecord) : (g.corrected i? c).index = g.index := by
  unfold SegmentRecord.corrected
  split <;> rfl

theorem State.reportCorrection_eq (s : State) (c : Nat) : s.reportCorrection c =
    { s with run := { s.run with table := s.run.table.map (SegmentRecord.corrected s.openIndex? c) } } :=
  State.updateOpen_eq _ _

/-- A change of records that keeps a figure of theirs keeps the table's list of it. -/
theorem map_of_keeps {α : Type} {k : SegmentRecord → α} {f : SegmentRecord → SegmentRecord} (h : ∀ r, k (f r) = k r)
    (l : List SegmentRecord) : (l.map f).map k = l.map k := by
  rw [List.map_map]
  exact congrArg (List.map · l) (funext h)

theorem State.commitOpen_corrections (s : State) :
    s.commitOpen.1.run.table.map SegmentRecord.maxCorrection = s.run.table.map SegmentRecord.maxCorrection := by
  have entry (r : SegmentRecord) (n : Nat) (e : Entry) : (s.commitEntry r n e).1.run.table.map SegmentRecord.maxCorrection =
      s.run.table.map SegmentRecord.maxCorrection := by
    unfold State.commitEntry
    dsimp only
    split <;> exact map_of_keeps (fun r => by dsimp only; split <;> rfl) _
  unfold State.commitOpen
  split
  · split
    · exact entry _ _ _
    · rfl
  · rfl
  · rfl

/-- R42: a close reports no correction. -/
theorem State.closeAndEnd_corrections (s : State) (c : CloseReason) :
    (s.closeAndEnd c).run.table.map SegmentRecord.maxCorrection = s.run.table.map SegmentRecord.maxCorrection := by
  rw [State.closeAndEnd, State.endRun_run]
  show (State.updateOpen _ _).run.table.map SegmentRecord.maxCorrection = _
  rw [State.updateOpen_eq]
  refine (map_of_keeps (fun r => by split <;> rfl) _).trans ?_
  rw [State.foldl_trimLog_run, State.commitOpen_corrections]

/-- The run as the mark edge after `r` finds it, once TAU has counted the edge. -/
def State.jumped (s : State) (r : RunTime) : State := s.setTau { s.tau with runTime := some r.atMarkEdge }

theorem State.markEdgeStep_within {s : State} {r : RunTime} (h : s.tau.runTime = some r) : s.markEdgeStep =
    if r.marks + 1 = Config.timeLimitMarks ∧ (s.jumped r).takeAllDue.run.state.hasSegment then
      ((s.jumped r).takeAllDue.reportCorrection r.correction).closeAndEnd .timeLimit
    else (s.jumped r).takeAllDue.reportCorrection r.correction := by
  have state (t : State) (c : Nat) : (t.reportCorrection c).run.state = t.run.state := by rw [State.reportCorrection_eq]
  rw [State.markEdgeStep, h, State.jumped]
  simp only [state]

theorem markInterval_eq : Config.markInterval = 2 ^ 20 := by norm_num [Config.markInterval]

theorem timeLimitMarks_eq : Config.timeLimitMarks = 2 ^ 28 - 1 := by norm_num [Config.timeLimitMarks]

theorem RunTime.correction_eq (r : RunTime) : r.correction = 2 ^ 20 - r.previousOffset := by
  rw [RunTime.correction, markInterval_eq]

/-- R17: a mark edge that passes no due instant and does not end the run. -/
theorem State.markEdgeStep_passing {s : State} {r : RunTime} (h : s.tau.runTime = some r) (before : r.marks + 1 < 2 ^ 28 - 1)
    (ahead : (r.marks + 1) * 2 ^ 20 < r.nextSample * s.divider) :
    s.markEdgeStep = (s.jumped r).reportCorrection r.correction := by
  have notDue : (s.jumped r).sampleDue = false := by
    refine decide_eq_false (Nat.not_le.mpr ?_)
    show (r.marks + 1) * Config.markInterval + min (Config.markInterval - 1) (0 + 0 * s.tau.rateFactor / 65536) < _
    rw [Nat.zero_mul, Nat.zero_div, Nat.min_zero, Nat.add_zero, markInterval_eq]
    exact ahead
  rw [State.markEdgeStep_within h, if_neg (fun c => before.ne (c.1.trans timeLimitMarks_eq)), State.takeAllDue_of_not_due notDue]

/-- R51, R52: what the close of the open segment and the run's end leave of a table whose records have been changed. -/
theorem State.closeAndEnd_after {j u : State} {f : SegmentRecord → SegmentRecord} {g : SegmentRecord}
    (changed : u = { j with run := { j.run with table := j.run.table.map f } }) (index : ∀ x, (f x).index = x.index)
    (open' : j.openRecord? = some g) (c : CloseReason) :
    (u.closeAndEnd c).run.state = .idle ∧ (u.closeAndEnd c).tau.runTime = none ∧ (u.closeAndEnd c).cst.openEntry = none ∧
      (u.closeAndEnd c).tsq.running = false ∧ (u.closeAndEnd c).tsq.drives = 0 ∧
      (u.closeAndEnd c).run.table.map SegmentRecord.index = j.run.table.map SegmentRecord.index ∧
      (u.closeAndEnd c).run.table.map SegmentRecord.maxCorrection =
        (j.run.table.map f).map SegmentRecord.maxCorrection ∧
      (∀ x ∈ (u.closeAndEnd c).run.table, x.index = g.index → x.state = .closed ∧ x.closeReason = some c) := by
  have indices : u.run.table.map SegmentRecord.index = j.run.table.map SegmentRecord.index := by
    rw [changed]
    exact map_of_keeps index _
  have last : u.openIndex? = some g.index := by
    rw [State.openIndex?_congr (s := j) (by rw [changed]) indices, State.openIndex_of open']
  obtain ⟨g', open'', same⟩ := Option.map_eq_some_iff.mp last
  obtain ⟨state, tau, -, entry, drives, stopped, -, -⟩ := u.closeAndEnd_blocks c
  obtain ⟨closed, kept⟩ := State.closeAndEnd_table open'' c
  refine ⟨state, congrArg Tau.runTime tau, entry, stopped, drives, kept.trans indices, ?_,
    fun x hx index => closed x hx (index.trans same.symm)⟩
  rw [State.closeAndEnd_corrections, changed]

end Sys2Proof.Machine

namespace Sys2Proof.Proofs
open Sys2Proof Sys2Proof.Machine

/-- Settles O15: the step of a run by its three cases, and the three commands that take it. -/
theorem markEdgeAdvancesStackTime : Obligations.MarkEdgeAdvancesStackTime := by
  refine ⟨fun s r i active line running opened before ahead => ?_, fun s r running => ?_, fun s active => ?_⟩
  · have stepped : s.observeLeadingEdge = _ := State.markEdgeStep_passing
      (s := s.setTau (s.tau.leadingEdge s.run.state)) (r := r) ((Tau.leadingEdge_runTime _ _).trans running) before ahead
    rw [State.reportCorrection_eq, RunTime.correction_eq] at stepped
    have ended : s.leadingEdge = _ := State.leadingEdge_eq active line
    rw [stepped] at ended
    refine ⟨_, congrArg Host.Outcome.next ended, rfl, ?_, ?_, rfl⟩
    · refine congrArg some ?_
      simp only [RunTime.stackTime, RunTime.offset, markInterval_eq, RunTime.atMarkEdge, Nat.zero_mul, Nat.zero_div, Nat.add_zero,
        Nat.min_zero]
    · refine congrArg (List.map · s.run.table) (funext fun g => ?_)
      show (if s.openIndex? = some g.index then _ else _) = _
      rw [opened]
      simp only [Option.some_inj, eq_comm]
  · intro jumped j corrected
    have within := State.markEdgeStep_within running
    have same : corrected = SegmentRecord.corrected j.openIndex? (2 ^ 20 - r.previousOffset) := rfl
    have reported : j.reportCorrection r.correction = { j with run := { j.run with table := j.run.table.map corrected } } := by
      rw [State.reportCorrection_eq, same, RunTime.correction_eq]
    rw [show (s.jumped r).takeAllDue = j from rfl] at within
    clear_value corrected j
    subst same
    refine ⟨State.markEdgeStep_still s, fun goes => ?_, fun limit g open' => ?_⟩
    · rw [within, if_neg, reported]
      rintro ⟨last, segment⟩
      rcases goes with other | none
      · exact other (last.trans timeLimitMarks_eq)
      · exact absurd (segment.symm.trans none) (by decide)
    · obtain ⟨segment, -⟩ := State.openRecord_eq open'
      have ended : s.markEdgeStep = (j.reportCorrection r.correction).closeAndEnd .timeLimit :=
        within.trans (if_pos ⟨limit.trans timeLimitMarks_eq.symm, segment⟩)
      rw [ended]
      exact State.closeAndEnd_after reported (SegmentRecord.corrected_index _ _) open' .timeLimit
  · have kept (k : Tau) : (s.setTau k).markEdgeStep.tau.locked = k.locked ∧
        (s.setTau k).markEdgeStep.tau.history = k.history ∧ (s.setTau k).markEdgeStep.tau.rateFactor = k.rateFactor := by
      rw [State.afterEdge_tau]
      exact ⟨rfl, rfl, rfl⟩
    refine ⟨fun line => ⟨_, Tau.leadingEdge_eq s.tau s.run.state, ?_, kept _⟩,
      fun line emits time => ⟨_, Tau.leadingEdge_eq s.tau.driven s.run.state, ?_, kept _⟩, fun due => ?_⟩
    · exact congrArg Host.Outcome.next (State.leadingEdge_eq active line)
    · exact congrArg Host.Outcome.next (State.emissionTimerExpiry_eq active emits time line)
    · exact congrArg Host.Outcome.next (State.synthesizedMark_eq active due)

end Sys2Proof.Proofs
end

