-- ==== Sys2Proof/Proofs/RunStarts.lean ====
section
/-! PROOF. The run's start at a start mark (R15, R40, R91, R99). -/

namespace Sys2Proof.Machine

/-- R40: what opens a segment before its STATUS is posted. -/
theorem State.openSegment_eq {s : State} {f : RunFigures} (h : s.run.figures = some f) (i m : Nat) :
    s.openSegment i m = State.postStatus { s with
      run := { s.run with
        state := openingState s.run.setup.prefillWait f.depth, table := s.run.table ++ [newRecord f i m (!s.tau.locked)]
        pendingRemote := false }
      tsq := s.tsq.openSegment (openingState s.run.setup.prefillWait f.depth)
      cst := { s.cst with openEntry := some { start := m, holding := none } } } := by
  rw [State.openSegment, h]
  rfl

theorem openingState_eq (prefillWait : Bool) (depth : Nat) :
    openingState prefillWait depth = if prefillWait = true ∧ 0 < depth then .prefill else .pretrig := by
  simp only [openingState, Bool.and_eq_true, decide_eq_true_eq]

/-- R15: the state that the run starts from, before its segment opens. -/
def State.begun (s : State) : State := { s with
  tau := { s.tau with
    markLine := false, runTime := some (RunTime.start s.tau.pulseWidth s.tau.rateFactor), startPending := false
    candidate := false }
  pfe := s.pfe.startRunTime
  dec := s.dec.startRun }

end Sys2Proof.Machine

namespace Sys2Proof.Proofs
open Sys2Proof Sys2Proof.Machine

/-- Settles O17: segment 0 opens in the state begun, and the samples due are taken. -/
theorem startMarkStartsTheRun : Obligations.StartMarkStartsTheRun := by
  intro s f active line undriven clear wide narrow candidate waiting figures
  have started : exec .trailingEdge s = .next (s.begun.openSegment 0 0).takeAllDue := by
    refine congrArg Host.Outcome.next ?_
    rw [State.trailingEdge, if_pos (by simp [active, line, undriven])]
    refine (if_neg (by rw [clear]; decide)).trans (if_pos ?_)
    simp [isStartWidth, wide, narrow, candidate, waiting]
  have opened := State.openSegment_eq (s := s.begun) figures 0 0
  refine ⟨_, started, ?_⟩
  rw [opened]
  simp only [State.postStatus_tau, State.postStatus_pfe, State.postStatus_run, State.postStatus_tsq, State.postStatus_cst,
    State.postStatus_dec]
  refine ⟨⟨rfl, rfl, rfl⟩, ⟨rfl, rfl, rfl, rfl⟩, ⟨rfl, rfl, rfl⟩, openingState_eq _ _, ?_, ⟨fun prefill => ?_, fun pretrig => ?_⟩, rfl,
    rfl⟩
  · rw [newRecord, Nat.zero_mul]
    rfl
  · rw [show _ = _ from prefill]
    rfl
  · rw [show _ = _ from pretrig]
    rfl

end Sys2Proof.Proofs
end

