-- ==== Sys2Proof/Proofs/Levels.lean ====
section
/-! PROOF. A pin's level and the samples due (R19, R23 to R30). -/

namespace Sys2Proof.Machine

/-! ### The level of a channel -/

theorem levelOf_xor (a b : Levels) (d : Fin 16) : levelOf (a ^^^ b) d = (levelOf a d ^^ levelOf b d) := BitVec.getLsbD_xor ..

theorem levelOf_and (a b : Levels) (d : Fin 16) : levelOf (a &&& b) d = (levelOf a d && levelOf b d) := BitVec.getLsbD_and ..

theorem levelOf_flipped (w : Levels) (c d : Fin 16) (level : Bool) :
    levelOf (if level = levelOf w c then w else w ^^^ oneChannel c) d = if d = c then level else levelOf w d := by
  by_cases same : level = levelOf w c
  · rw [if_pos same]
    by_cases here : d = c
    · rw [if_pos here, here, same]
    · rw [if_neg here]
  · rw [if_neg same, levelOf_xor, levelOf_oneChannel]
    by_cases here : d = c
    · rw [if_pos here, decide_eq_true here, here, Bool.xor_true]
      exact (Bool.eq_not.mpr same).symm
    · rw [if_neg here, decide_eq_false here, Bool.xor_false]

theorem levelOf_joined (w m : Levels) (d : Fin 16) (p : Prop) [Decidable p] :
    levelOf (if p then w ||| m else w) d = true ↔ levelOf w d = true ∨ (levelOf m d = true ∧ p) := by
  by_cases h : p
  · rw [if_pos h, levelOf_or, Bool.or_eq_true]
    simp [h]
  · rw [if_neg h]
    simp [h]

theorem GroupState.threshold_eq (g : GroupState) :
    g.threshold = 1000 * max (-5000) (min 5200 (-5000 + 40 * ((g.code.getD 0).toNat : Int) + 2 * g.trim)) := by
  rw [GroupState.threshold, thresholdMillivolts, clampInt_eq]

theorem halfBand_eq (h : Hysteresis) : Hysteresis.halfBand h = 1000 * (match h with
    | .mV0 => 0
    | .mV25 => 25
    | .mV50 => 50
    | .mV100 => 100) / 2 := by
  cases h <;> rfl

/-- R24: the comparison of an input with a group's threshold and band. -/
theorem GroupState.compare_eq (g : GroupState) (present : Bool) (v : Int) :
    let threshold := 1000 * max (-5000) (min 5200 (-5000 + 40 * ((g.code.getD 0).toNat : Int) + 2 * g.trim))
    let band : Int := 1000 * (match g.hysteresis with
      | .mV0 => 0
      | .mV25 => 25
      | .mV50 => 50
      | .mV100 => 100)
    GroupState.compare g present v =
      if threshold + band / 2 < v then true else if v < threshold - band / 2 then false else present := by
  rw [GroupState.compare, GroupState.threshold_eq, halfBand_eq]

namespace Pfe

variable (p : Pfe) (inRun : Bool) (c : Fin 16) (input : ProbeInput)

/-- R28: the level change of an enabled channel, within run time, that its group counts. -/
def counts : Bool := (p.rawAfter c input != levelOf p.raw c) && inRun && (p.groupOf c).glitchDetection

variable {c}

theorem followInput_disabled (h : levelOf p.enabled c = false) : p.followInput inRun c input = p :=
  if_neg (by simp [h])

/-- R24, R28: what a new input of an enabled channel moves. -/
theorem followInput_eq (h : levelOf p.enabled c = true) : p.followInput inRun c input = { p with
    raw := if p.rawAfter c input = levelOf p.raw c then p.raw else p.raw ^^^ oneChannel c
    changedOnce := if p.counts inRun c input then p.changedOnce ||| oneChannel c else p.changedOnce
    glitchSeen := if p.counts inRun c input then p.glitchSeen ||| (p.changedOnce &&& oneChannel c) else p.glitchSeen } := by
  rw [followInput]
  by_cases same : p.rawAfter c input = levelOf p.raw c
  · have quiet : p.counts inRun c input = false := by simp [counts, same]
    dsimp only
    rw [if_pos same, quiet, if_neg (by simp [same])]
    rfl
  · have moved : p.counts inRun c input = (inRun && (p.groupOf c).glitchDetection) := by
      rw [counts, bne_iff_ne.mpr same, Bool.true_and]
    dsimp only
    rw [if_neg same, moved, if_pos (by simp [h, same])]
    cases inRun
    · rfl
    · unfold countChange
      show (if (p.groupOf c).glitchDetection = true then _ else _) = _
      cases (p.groupOf c).glitchDetection <;> rfl

end Pfe

/-! ### The samples due -/

theorem State.sampleDue_of {s : State} {r : RunTime} (h : s.tau.runTime = some r) :
    s.sampleDue = decide (r.nextSample * s.divider ≤ r.stackTime s.tau.rateFactor) := by
  rw [State.sampleDue, h]

theorem State.sampleDue_outside {s : State} (h : s.tau.runTime = none) : s.sampleDue = false := by
  rw [State.sampleDue, h]

theorem State.takeDue_of_not_due {s : State} (h : s.sampleDue = false) (n : Nat) : State.takeDue n s = s := by
  cases n with
  | zero => rfl
  | succ n => rw [State.takeDue, if_neg (by rw [h]; decide)]

/-- A sample opens no segment where none is open. -/
theorem State.takeSample_noSegment {s : State} (h : s.run.state.hasSegment = false) :
    s.takeSample.run.state.hasSegment = false := by
  have entered {t : State} (ht : t.run.state.hasSegment = false) : t.enterPretrigIfFilled = t := by
    rw [State.enterPretrigIfFilled, State.openRecord?_of_noSegment ht]
  have closed {t : State} (ht : t.run.state.hasSegment = false) (m : Nat) : t.closeIfFilled m = t := by
    rw [State.closeIfFilled, State.openRecord?_of_noSegment ht]
  have arrived (t : State) (ht : t.run.state.hasSegment = false) (m : Nat) (w g : Levels) :
      (t.arrive m w g).1.run.state.hasSegment = false := by
    have committed : t.commitOpen.1.run.state.hasSegment = false := by rw [State.commitOpen_state]; exact ht
    unfold State.arrive
    split
    · dsimp only
      rw [entered committed, closed committed]
      exact committed
    · exact ht
  unfold State.takeSample
  split
  · next r _ =>
    have still := arrived s.formWord h r.nextSample s.pfe.currentLevels s.pfe.glitchSeen
    dsimp only
    rw [if_neg (by rw [still]; decide)]
    exact still
  · exact h

/-- R19: taking what is due, one sample at a time. -/
theorem State.takeDue_all {n : Nat} : ∀ {s : State} {r : RunTime}, 0 < s.divider → s.tau.runTime = some r →
    r.stackTime s.tau.rateFactor / s.divider + 1 - r.nextSample = n →
    (State.takeDue n s).sampleDue = false ∧
      ((State.takeDue n s).tau.runTime = none ∨ (State.takeDue n s).tau.runTime =
        some { r with nextSample := max r.nextSample (r.stackTime s.tau.rateFactor / s.divider + 1) }) := by
  induction n with
  | zero =>
    intro s r divider running count
    have beyond : r.stackTime s.tau.rateFactor / s.divider + 1 ≤ r.nextSample := by omega
    refine ⟨?_, .inr ?_⟩
    · show s.sampleDue = false
      rw [State.sampleDue_of running]
      exact decide_eq_false (Nat.not_le.mpr ((Nat.div_lt_iff_lt_mul divider).mp beyond))
    · rw [max_eq_left beyond]
      exact running
  | succ n ih =>
    intro s r divider running count
    have within : r.nextSample ≤ r.stackTime s.tau.rateFactor / s.divider := by omega
    have due : s.sampleDue = true := by
      rw [State.sampleDue_of running]
      exact decide_eq_true ((Nat.le_div_iff_mul_le divider).mp within)
    have still := State.takeSample_still s
    rw [State.takeDue, if_pos due]
    rcases State.takeSample_cases running with ⟨goesOn, -⟩ | ⟨ended, -⟩
    · have rest := ih (s := s.takeSample) (r := { r with nextSample := r.nextSample + 1 })
        (by rw [State.divider_of_still still]; exact divider) goesOn
      rw [State.divider_of_still still, State.rateFactor_of_still still] at rest
      have step : max (r.nextSample + 1) (r.stackTime s.tau.rateFactor / s.divider + 1) =
          max r.nextSample (r.stackTime s.tau.rateFactor / s.divider + 1) := by omega
      have same : RunTime.stackTime { r with nextSample := r.nextSample + 1 } s.tau.rateFactor =
          r.stackTime s.tau.rateFactor := rfl
      rw [same, step] at rest
      exact rest (by dsimp only; omega)
    · have outside := State.sampleDue_outside ended
      rw [State.takeDue_of_not_due outside]
      exact ⟨outside, .inl ended⟩

end Sys2Proof.Machine

namespace Sys2Proof.Proofs
open Sys2Proof Sys2Proof.Machine

/-- Settles O19: a disabled channel's pin moves alone; an enabled one's comparator follows, by what `followInput` moves. -/
theorem levelFollowsTheInput : Obligations.LevelFollowsTheInput := by
  refine ⟨fun s c input disabled => ?_, fun s c input released enabled => ?_⟩
  · refine congrArg Host.Outcome.next ?_
    unfold State.levelChange
    extract_lets _src p
    rw [p.followInput_disabled _ _ disabled, ite_self]
    rfl
  · intro g threshold band compared level counted
    have followed : exec (.levelChange c input) s =
        .next (s.setPfe (Pfe.followInput { s.pfe with inputs := s.pfe.inputs.set c input } s.tau.runTime.isSome c input)) :=
      congrArg Host.Outcome.next (if_neg (by rw [released]; decide))
    generalize hp : ({ s.pfe with inputs := s.pfe.inputs.set c input } : Pfe) = p at followed
    have comparedIs (v : Int) : GroupState.compare g (levelOf s.pfe.raw c) v = compared v := GroupState.compare_eq g _ v
    have levelIs : p.rawAfter c input = level := by
      rw [← hp]
      cases input with
      | driven v => exact comparedIs v
      | undriven v =>
        show (if _ then _ else if _ then _ else if _ then _ else GroupState.compare g (levelOf s.pfe.raw c) v) = _
        rw [comparedIs v]
    have countedIff : p.counts s.tau.runTime.isSome c input = true ↔ counted := by
      rw [Pfe.counts, levelIs, Bool.and_eq_true, Bool.and_eq_true, bne_iff_ne, and_assoc, ← hp]
      rfl
    rw [p.followInput_eq _ _ (by rw [← hp]; exact enabled), levelIs] at followed
    simp only [countedIff] at followed
    clear_value level
    subst hp
    refine ⟨_, followed, fun d => levelOf_flipped _ c d level, fun d => ?_, fun d => ?_, rfl⟩
    · refine (levelOf_joined s.pfe.changedOnce (oneChannel c) d counted).trans ?_
      rw [levelOf_oneChannel, decide_eq_true_iff]
    · refine (levelOf_joined s.pfe.glitchSeen (s.pfe.changedOnce &&& oneChannel c) d counted).trans (or_congr_right ?_)
      rw [levelOf_and, levelOf_oneChannel, Bool.and_eq_true, decide_eq_true_iff]
      constructor
      · rintro ⟨⟨once, rfl⟩, counts⟩
        exact ⟨rfl, counts, once⟩
      · rintro ⟨rfl, counts, once⟩
        exact ⟨⟨once, rfl⟩, counts⟩

/-- Settles O20: one sample, and the induction on the number of samples due. -/
theorem dueSamplesAreTaken : Obligations.DueSamplesAreTaken := by
  refine ⟨fun s r active running due => ?_, fun s divider => ?_⟩
  · have taken : s.sample = s.takeSample := if_pos (by rw [active, State.sampleDue_of running, decide_eq_true due]; rfl)
    refine ⟨_, congrArg Host.Outcome.next taken, State.takeSample_still s, ?_⟩
    have opens : s.takeSample.run.state.hasSegment = true → s.run.state.hasSegment = true := fun h =>
      Bool.of_not_eq_false fun none => by rw [State.takeSample_noSegment none] at h; exact absurd h (by decide)
    rcases State.takeSample_cases running with ⟨goesOn, once, glitch, last⟩ | ⟨-, idle, once, glitch⟩
    · exact ⟨once, glitch, opens, fun segment => ⟨goesOn, last segment⟩⟩
    · exact ⟨once, glitch, opens, fun segment => by rw [idle] at segment; exact absurd segment (by decide)⟩
  · rw [State.takeAllDue]
    cases running : s.tau.runTime with
    | none =>
      have outside := State.sampleDue_outside running
      rw [State.takeDue_of_not_due outside]
      exact ⟨outside, .inl running⟩
    | some r => exact State.takeDue_all divider running (by rw [State.dueCount, running])

end Sys2Proof.Proofs
end

