-- ==== Sys2Proof/Proofs/Sequencing.lean ====
section
/-! PROOF. The sequencer (R77 to R91): what the terms of a condition test, and what a running sequencer does at a sample. -/

namespace Sys2Proof.Machine

/-! ### Terms and conditions -/

theorem bits_eq_zero_iff {n : Nat} (w : BitVec n) : w = 0 ↔ ∀ i : Fin n, w.getLsbD i.val = false := by
  refine ⟨fun h i => by rw [h]; exact BitVec.getLsbD_zero, fun h => BitVec.eq_of_getLsbD_eq fun i hi => ?_⟩
  exact (h ⟨i, hi⟩).trans BitVec.getLsbD_zero.symm

/-- A masked difference is empty exactly where the masked bits agree. -/
theorem maskedDifference_iff {n : Nat} (a b m : BitVec n) :
    (((a ^^^ b) &&& m) == 0) = true ↔ ∀ i : Fin n, m.getLsbD i.val = true → a.getLsbD i.val = b.getLsbD i.val := by
  rw [beq_iff_eq, bits_eq_zero_iff]
  refine forall_congr' fun i => ?_
  rw [BitVec.getLsbD_and, BitVec.getLsbD_xor]
  cases a.getLsbD i.val <;> cases b.getLsbD i.val <;> cases m.getLsbD i.val <;> decide

theorem edgeHolds_iff (e : EdgeTerm) (last w : Levels) : edgeHolds e last w = true ↔ ∃ c : Fin 16,
    (levelOf e.rise c = true ∧ levelOf last c = false ∧ levelOf w c = true) ∨
      (levelOf e.fall c = true ∧ levelOf last c = true ∧ levelOf w c = false) := by
  have moved (c : Fin 16) : ((~~~last &&& w &&& e.rise) ||| (last &&& ~~~w &&& e.fall)).getLsbD c.val =
      ((!levelOf last c && levelOf w c && levelOf e.rise c) || (levelOf last c && !levelOf w c && levelOf e.fall c)) := by
    simp [levelOf]
  rw [edgeHolds, bne_iff_ne, Ne, bits_eq_zero_iff, not_forall]
  refine exists_congr fun c => ?_
  rw [moved, Bool.not_eq_false, Bool.or_eq_true]
  simp only [Bool.and_eq_true, Bool.not_eq_true', and_comm]

theorem mem_hitTerms (selected hits : BitVec 4) (b : Bool) :
    b ∈ hitTerms selected hits ↔ ∃ k : Fin 4, selected.getLsbD k.val = true ∧ b = hits.getLsbD k.val := by
  rw [hitTerms, List.mem_map]
  constructor
  · rintro ⟨i, hi, rfl⟩
    obtain ⟨listed, on⟩ := List.mem_filter.mp hi
    have small : i < 4 := by
      simp only [List.mem_cons, List.not_mem_nil, or_false] at listed
      omega
    exact ⟨⟨i, small⟩, on, rfl⟩
  · rintro ⟨k, on, rfl⟩
    refine ⟨k.val, List.mem_filter.mpr ⟨?_, on⟩, rfl⟩
    have listed : ∀ k : Fin 4, k.val ∈ [0, 1, 2, 3] := by decide
    exact listed k

theorem mem_optional {α : Type} (o : Option α) (f : α → Bool) (b : Bool) :
    b ∈ (o.map f).toList ↔ ∃ x : α, o = some x ∧ b = f x := by
  cases o with
  | none => simp
  | some x => simp

theorem mem_conditionTerms (c : Condition) (i : SequencerInputs) (b : Bool) : b ∈ conditionTerms c i ↔
    (∃ p : PatternTerm, c.pattern = some p ∧ b = patternHolds p i.word) ∨
      (∃ e : EdgeTerm, c.edge = some e ∧ b = edgeHolds e i.last i.word) ∨
      (∃ f : FlagTerm, c.flag = some f ∧ b = flagHolds f i.observed) ∨
      (∃ k : Fin 4, c.hits.getLsbD k.val = true ∧ b = i.hits.getLsbD k.val) := by
  rw [conditionTerms, List.mem_append, List.mem_append, List.mem_append, mem_optional, mem_optional, mem_optional,
    mem_hitTerms, or_assoc, or_assoc]

theorem conditionHolds_all {c : Condition} (h : c.combine = .all) (i : SequencerInputs) :
    conditionHolds c i = true ↔ ∀ b ∈ conditionTerms c i, b = true := by
  rw [conditionHolds, h]
  exact List.all_eq_true

theorem conditionHolds_any {c : Condition} (h : c.combine = .any) (i : SequencerInputs) :
    conditionHolds c i = true ↔ ∃ b ∈ conditionTerms c i, b = true := by
  rw [conditionHolds, h]
  exact List.any_eq_true

/-! ### Actions -/

theorem getLsbD_oneLine (i l : Fin 4) : (1#4 <<< i.val).getLsbD l.val = decide (l = i) := by
  revert i l
  decide

theorem getLsbD_applyFlagPart (d : FlagLines) (i l : Fin 4) (p : FlagPart) : (applyFlagPart d i p).getLsbD l.val =
    if l = i then (match p with
      | .keep => d.getLsbD l.val
      | .assert => true
      | .release => false) else d.getLsbD l.val := by
  cases p with
  | keep => exact (ite_self _).symm
  | assert =>
    rw [applyFlagPart, BitVec.getLsbD_or, getLsbD_oneLine]
    by_cases h : l = i <;> simp [h]
  | release =>
    rw [applyFlagPart, BitVec.getLsbD_and, BitVec.getLsbD_not, getLsbD_oneLine]
    by_cases h : l = i <;> simp [h]

theorem getLsbD_applyFlagParts (d : FlagLines) (f : Quad FlagPart) (l : Fin 4) : (applyFlagParts d f).getLsbD l.val =
    match f.get l with
    | .keep => d.getLsbD l.val
    | .assert => true
    | .release => false := by
  simp only [applyFlagParts, getLsbD_applyFlagPart]
  fin_cases l <;> rfl

/-! ### Evaluation -/

section
variable (t : Tsq) (i : SequencerInputs)

/-- The level record the sequencer is in. -/
def Tsq.record : LevelRecord := t.program[t.level]

theorem nextDwell_eq (r : LevelRecord) (n : Nat) : nextDwell r n = if r.dwellLimit = 0 then n else n + 1 := by
  rw [nextDwell]
  by_cases none : r.dwellLimit = 0
  · rw [if_pos none, if_neg (by omega)]
  · rw [if_neg none, if_pos (by omega)]

/-- R86: the count has been reached. -/
def Tsq.reaches : Prop := conditionHolds t.record.proceed i = true ∧
  nextCounter t.record t.counter (conditionHolds t.record.proceed i) = 0

/-- R86: the escape condition, or the dwell limit. -/
def Tsq.escapes : Prop := conditionHolds t.record.escape i = true ∨
  (0 < t.record.dwellLimit ∧ nextDwell t.record t.dwell = t.record.dwellLimit)

theorem Tsq.chosenAction_eq : t.chosenAction i =
    if conditionHolds t.record.proceed i && nextCounter t.record t.counter (conditionHolds t.record.proceed i) == 0 then
      some t.record.proceedAction
    else if conditionHolds t.record.escape i ||
      (0 < t.record.dwellLimit && nextDwell t.record t.dwell == t.record.dwellLimit) then some t.record.escapeAction
    else none := rfl

theorem Tsq.fires_eq (running : t.running = true) :
    t.fires i = (!t.fired && ((t.chosenAction i).map Action.fire).getD false) := by
  rw [Tsq.fires, running, Bool.true_and]
  cases t.chosenAction i <;> rfl

variable {t i}

theorem Tsq.chosenAction_reached (h : t.reaches i) : t.chosenAction i = some t.record.proceedAction := by
  rw [Tsq.chosenAction_eq, if_pos (by simpa [Tsq.reaches] using h)]

theorem Tsq.chosenAction_escaped (h : ¬t.reaches i) (e : t.escapes i) : t.chosenAction i = some t.record.escapeAction := by
  rw [Tsq.chosenAction_eq, if_neg (by simpa [Tsq.reaches] using h), if_pos (by simpa [Tsq.escapes] using e)]

theorem Tsq.chosenAction_neither (h : ¬t.reaches i) (e : ¬t.escapes i) : t.chosenAction i = none := by
  rw [Tsq.chosenAction_eq, if_neg (by simpa [Tsq.reaches] using h), if_neg (by simpa [Tsq.escapes] using e)]

end

end Sys2Proof.Machine

namespace Sys2Proof.Proofs
open Sys2Proof Sys2Proof.Machine

/-- Settles O23: each term bit by bit, and the list of the terms selected. -/
theorem conditionsTestTheirTerms : Obligations.ConditionsTestTheirTerms :=
  ⟨fun p w => maskedDifference_iff w p.value p.care, edgeHolds_iff, fun f observed => maskedDifference_iff observed f.value f.care,
    fun c i => ⟨mem_conditionTerms c i, fun all => conditionHolds_all all i, fun any => conditionHolds_any any i⟩⟩

/-- Settles O24: by the action chosen, if any. -/
theorem sequencerEvaluates : Obligations.SequencerEvaluates := by
  refine ⟨fun t i running => ?_, fun t i stopped => ⟨Tsq.evaluate_of_stopped stopped i, by simp [Tsq.fires, stopped]⟩,
    fun t a => ⟨rfl, rfl, rfl, getLsbD_applyFlagParts _ _, rfl, rfl, rfl, rfl⟩⟩
  intro r counter dwell reached escapes
  have reachedIs : reached ↔ t.reaches i := Iff.rfl
  have dwellIs : nextDwell r t.dwell = dwell := nextDwell_eq r t.dwell
  have escapesIs : escapes ↔ t.escapes i := by
    show _ ↔ conditionHolds r.escape i = true ∨ (0 < r.dwellLimit ∧ nextDwell r t.dwell = r.dwellLimit)
    rw [dwellIs]
  have evaluated : t.evaluate i = match t.chosenAction i with
      | some a => t.act a
      | none => { t with counter := counter, dwell := nextDwell r t.dwell } := if_neg (by rw [running]; decide)
  have fires := t.fires_eq i running
  rw [dwellIs] at evaluated
  rw [reachedIs, escapesIs]
  by_cases count : t.reaches i
  · rw [Tsq.chosenAction_reached count] at evaluated fires
    refine ⟨fun _ => evaluated, absurd count, absurd count, ?_⟩
    rw [fires]
    simp [count, r, Tsq.record]
  · by_cases leaves : t.escapes i
    · rw [Tsq.chosenAction_escaped count leaves] at evaluated fires
      refine ⟨fun c => absurd c count, fun _ _ => evaluated, fun _ none => absurd leaves none, ?_⟩
      rw [fires]
      simp [count, leaves, r, Tsq.record]
    · rw [Tsq.chosenAction_neither count leaves] at evaluated fires
      refine ⟨fun c => absurd c count, fun _ e => absurd e leaves, fun _ _ => evaluated, ?_⟩
      rw [fires]
      simp [count, leaves]

end Sys2Proof.Proofs
end

