-- ==== Sys2Proof/Proofs/FrameCommands.lean ====
section
/-! PROOF. Frames and sleep (R138 to R142, R147, R151, R157 to R159): the capture a frame starts from, the frame the port
sends, and how the panel falls asleep. -/

namespace Sys2Proof.Machine

/-! ### The capture -/

theorem clampInt_of_le {lo hi : Int} (h : lo ≤ hi) (x : Int) : clampInt lo hi x = max lo (min hi x) := by
  unfold clampInt
  split
  · omega
  · split <;> omega

/-- R140, R141: the view that follows the open segment. -/
theorem State.viewAtFrameStart_follows {s : State} {g : SegmentRecord} (follow : s.ren.view.follow = true)
    (open' : s.openRecord? = some g) (same : g.index = s.ren.view.segment) :
    s.viewAtFrameStart = { s.ren.view with offset := s.followOffset s.ren.view g } := by
  rw [State.viewAtFrameStart, open']
  exact if_pos (by rw [follow, same, beq_self_eq_true]; rfl)

theorem State.viewAtFrameStart_stays {s : State}
    (h : s.ren.view.follow = false ∨ s.openIndex? ≠ some s.ren.view.segment) : s.viewAtFrameStart = s.ren.view := by
  rw [State.viewAtFrameStart]
  cases open' : s.openRecord? with
  | none => rfl
  | some g =>
    refine if_neg fun c => ?_
    obtain ⟨follow, same⟩ := Bool.and_eq_true_iff.mp c
    rcases h with off | other
    · rw [off] at follow
      exact absurd follow (by decide)
    · exact other ((State.openIndex_of open').trans (congrArg some (beq_iff_eq.mp same)))

theorem State.viewAtFrameStart_segment (s : State) : s.viewAtFrameStart.segment = s.ren.view.segment := by
  unfold State.viewAtFrameStart
  dsimp only
  split
  · split <;> rfl
  · rfl

section
variable {s : State} {i : Nat}

theorem State.originOf_none (h : s.record? i = none) : s.originOf i = 0 := by
  rw [State.originOf, h]

theorem State.originOf_some {g : SegmentRecord} (h : s.record? i = some g) :
    s.originOf i = g.reference.getD (s.segmentFirstSample i * s.divider) := by
  rw [State.originOf, h]

/-- R138: without a reference time, the time of the segment's first sample, which the segment before it decides. -/
theorem State.originOf_after {g h : SegmentRecord} (hg : s.record? i = some g) (none : g.reference = none) (pos : i ≠ 0)
    (hh : s.record? (i - 1) = some h) : s.originOf i = h.nextSample * s.divider := by
  obtain ⟨j, rfl⟩ := Nat.exists_eq_succ_of_ne_zero pos
  have before : s.record? j = some h := hh
  rw [State.originOf_some hg, none]
  show ((s.record? j).map SegmentRecord.nextSample).getD 0 * s.divider = _
  rw [before]
  rfl

end

/-! ### The text of the runs that end with the frame -/

theorem finishRuns_none (f : FrameCapture) (vertical : Bool) (m : Mem (BitVec 2)) (l : PlacedLane)
    (rest : List (PlacedLane × Option BoxRun)) : finishRuns f vertical m ((l, none) :: rest) = finishRuns f vertical m rest :=
  rfl

theorem finishRuns_some (f : FrameCapture) (vertical : Bool) (m : Mem (BitVec 2)) (l : PlacedLane) (b : BoxRun)
    (rest : List (PlacedLane × Option BoxRun)) : finishRuns f vertical m ((l, some b) :: rest) =
      finishRuns f vertical (writeText f vertical l b (320 - b.firstColumn) m) rest :=
  rfl

end Sys2Proof.Machine

namespace Sys2Proof.Proofs
open Sys2Proof Sys2Proof.Machine

/-- Settles O46: the view, then the origin by the viewed segment's record; and the frame start. -/
theorem frameStartsFromItsCapture : Obligations.FrameStartsFromItsCapture := by
  refine ⟨fun s wake => ?_, fun s active time waiting ready awake => ?_⟩
  · intro f
    have segment : f.view.segment = s.ren.view.segment := s.viewAtFrameStart_segment
    refine ⟨rfl, rfl, rfl, rfl, segment, fun none => ⟨State.originOf_none none, ?_⟩, fun g found => ⟨?_, fun time known => ?_,
      fun unknown zero => ?_, fun h unknown pos before => State.originOf_after found unknown pos before⟩,
      State.viewAtFrameStart_stays, fun g follow open' same => ?_⟩
    · exact congrArg (Option.bind · SegmentRecord.reference) none
    · exact congrArg (Option.bind · SegmentRecord.reference) found
    · exact (State.originOf_some found).trans (by rw [known]; rfl)
    · exact (State.originOf_some found).trans (by rw [unknown, zero]; exact Nat.zero_mul _)
    · have origin : f.origin = s.originOf s.ren.view.segment := congrArg s.originOf segment
      refine (State.viewAtFrameStart_follows follow open' same).trans ?_
      rw [State.followOffset, clampInt_of_le (by norm_num), ← origin]
      rfl
  · refine congrArg Host.Outcome.next ?_
    have due : s.frameDue = true := by
      have elapsed : s.ren.framePeriodMs * Config.ticksPerMs ≤ s.ren.frameTimer := time
      simp [State.frameDue, elapsed, waiting, ready, awake]
    rw [State.frameStart, if_pos (by rw [active, due]; rfl)]
    rfl

/-- Settles O50: the end of the render, the end of the transfer, and the runs one by one. -/
theorem renderedFrameIsSent : Obligations.RenderedFrameIsSent := by
  refine ⟨fun s f active capture => ⟨fun rendering last => ?_, fun transferring => ?_⟩,
    fun f vertical m => ⟨rfl, fun l run rest => ⟨fun none => ?_, fun b some => ?_⟩⟩⟩
  · refine congrArg Host.Outcome.next ?_
    rw [State.renderComplete, capture]
    have full : s.ren.column = Config.columns := last
    exact if_pos (by simp [active, rendering, full])
  · refine congrArg Host.Outcome.next ?_
    rw [State.transferComplete, capture]
    exact if_pos (by simp [active, transferring])
  · rw [none, finishRuns_none]
  · rw [some, finishRuns_some]

/-- Settles O53: the sleep's start, its end, and the wake frame of a mode that has left SLEEP. -/
theorem panelSleeps : Obligations.PanelSleeps := by
  intro s active
  have completed (sleeping : s.port.state = .sleeping) : exec .sleepComplete s =
      .next (s.setPort { s.port with state := .asleep, sending := [] }).wakeIfAsleep :=
    congrArg Host.Outcome.next (if_pos (by simp [active, sleeping]))
  refine ⟨fun mode ready waiting => ?_, fun sleeping mode => ?_, fun sleeping mode waiting => ⟨rfl, ?_⟩⟩
  · exact congrArg Host.Outcome.next (if_pos (by simp [active, mode, ready, waiting]))
  · refine (completed sleeping).trans (congrArg Host.Outcome.next ?_)
    exact State.wakeIfAsleep_stays (s := s.setPort { s.port with state := .asleep, sending := [] }) fun c => c.1 mode
  · refine (completed sleeping).trans (congrArg Host.Outcome.next ?_)
    exact State.wakeIfAsleep_wakes (s := s.setPort { s.port with state := .asleep, sending := [] }) ⟨mode, rfl, waiting⟩

end Sys2Proof.Proofs
end

