-- ==== Sys2Proof/Proofs/Loads.lean ====
section
/-! PROOF. What the fields of an image and of a profile become where they are loaded (R36, R96 to R98, R142, R180, R181). -/

namespace Sys2Proof.Machine

/-! ### The channels a decoder names -/

/-- R97: a list of channel numbers that are enabled, none of them twice. -/
def areEnabled (enabled : Levels) (l : List Nat) : Prop := l.Nodup ∧ ∀ n ∈ l, enabled.getLsbD n = true

theorem goodChannels_iff (enabled : Levels) (cs : List (Fin 16)) :
    goodChannels enabled cs = true ↔ areEnabled enabled (cs.map Fin.val) := by
  rw [goodChannels, areEnabled, Bool.and_eq_true, List.all_eq_true, decide_eq_true_iff, and_comm,
    List.nodup_map_iff Fin.val_injective, List.forall_mem_map]
  rfl

theorem channelField_val (c : Fin 16) : channelField c.val = some c := dif_pos c.isLt

theorem channelField_none {n : Nat} (h : 16 ≤ n) : channelField n = none := dif_neg (Nat.not_lt.mpr h)

theorem channelField_number (n : Nat) : (channelField n).map Fin.val = if n < 16 then some n else none := by
  by_cases h : n < 16
  · rw [if_pos h, channelField, dif_pos h, Option.map_some]
  · rw [if_neg h, channelField, dif_neg h, Option.map_none]

theorem channelField_isSome (n : Nat) : (channelField n).isSome = decide (n < 16) := by
  by_cases h : n < 16
  · rw [channelField, dif_pos h, decide_eq_true h, Option.isSome_some]
  · rw [channelField, dif_neg h, decide_eq_false h, Option.isSome_none]

/-- R96: of some channel fields, those that name a channel. -/
theorem channelFields_numbers (l : List Nat) : (l.filterMap channelField).map Fin.val = l.filter (· < 16) := by
  induction l with
  | nil => rfl
  | cons n rest ih =>
    by_cases h : n < 16
    · rw [List.filterMap_cons_some (by rw [channelField, dif_pos h]), List.filter_cons_of_pos (by simpa using h),
        List.map_cons, ih]
    · rw [List.filterMap_cons_none (by rw [channelField, dif_neg h]), List.filter_cons_of_neg (by simpa using h), ih]

theorem channelFields_listed (data : List Nat) :
    ((data.filterMap channelField).take 8).map Fin.val = (data.filter (· < 16)).take 8 := by
  rw [List.map_take, channelFields_numbers]

theorem channelField_toList (n : Nat) : (channelField n).toList.map Fin.val = [n].filter (· < 16) := by
  rw [← channelFields_numbers]
  refine congrArg (List.map Fin.val) ?_
  cases h : channelField n with
  | none => rw [List.filterMap_cons_none h]; rfl
  | some c => rw [List.filterMap_cons_some h]; rfl

/-! ### The decoder units -/

section
variable (enabled : Levels)

/-- R97: a UART's assignment. -/
theorem loadDecoder_uart (channel period bits : Nat) (parity : Option Parity) (stops : Nat) (idle : Option IdleLevel) :
    (∀ c : Fin 16, channel = c.val → enabled.getLsbD channel = true →
      loadDecoder enabled (.uart channel period bits parity stops idle) = (.uart
        { channel := c, bitPeriod := clampNat 4 65535 period, dataBits := clampNat 5 9 bits
          parity := parity.getD .none, stopBits := clampNat 1 2 stops, idle := idle.getD .high }, false)) ∧
    (16 ≤ channel ∨ enabled.getLsbD channel = false →
      loadDecoder enabled (.uart channel period bits parity stops idle) = (.off, true)) := by
  have good (c : Fin 16) : goodChannels enabled [c] = enabled.getLsbD c.val := by
    simp [goodChannels, levelOf]
  refine ⟨fun c named on => ?_, fun bad => ?_⟩
  · subst named
    simp only [loadDecoder, channelField_val, good, on, if_true]
  · by_cases large : 16 ≤ channel
    · simp only [loadDecoder, channelField_none large]
    · obtain ⟨c, rfl⟩ : ∃ c : Fin 16, channel = c.val := ⟨⟨channel, Nat.lt_of_not_le large⟩, rfl⟩
      have off : enabled.getLsbD c.val = false := bad.resolve_left large
      simp only [loadDecoder, channelField_val, good, off, Bool.false_eq_true, if_false]

/-- R97: an SPI unit's assignment. -/
def spiGood (clock select dataOut dataIn : Nat) : Prop :=
  (dataOut < 16 ∨ dataIn < 16) ∧ areEnabled enabled ([clock, select, dataOut, dataIn].filter (· < 16))

theorem spiGood_iff (clock select dataOut dataIn : Nat) :
    (((channelField dataOut).isSome || (channelField dataIn).isSome) && goodChannels enabled
      ([channelField clock, channelField select, channelField dataOut, channelField dataIn].filterMap id)) = true ↔
      spiGood enabled clock select dataOut dataIn := by
  have named : [channelField clock, channelField select, channelField dataOut, channelField dataIn].filterMap id =
      [clock, select, dataOut, dataIn].filterMap channelField :=
    List.filterMap_map (f := channelField) (g := id) (l := [clock, select, dataOut, dataIn])
  rw [Bool.and_eq_true, Bool.or_eq_true, channelField_isSome, channelField_isSome, decide_eq_true_iff, decide_eq_true_iff,
    named, goodChannels_iff, channelFields_numbers, spiGood]

theorem loadDecoder_spi (clock select : Nat) (polarity : Option SelectPolarity) (dataOut dataIn : Nat)
    (clockIdle : Option Bool) (capture : Option CaptureEdge) (width : Nat) (order : Option BitOrder) :
    (∀ c : Fin 16, clock = c.val → spiGood enabled clock select dataOut dataIn →
      loadDecoder enabled (.spi clock select polarity dataOut dataIn clockIdle capture width order) = (.spi
        { clock := c, select := channelField select, polarity := polarity.getD .activeLow
          dataOut := channelField dataOut, dataIn := channelField dataIn, clockIdle := clockIdle.getD false
          capture := capture.getD .leading, width := clampNat 4 32 width, order := order.getD .msbFirst }, false)) ∧
    (16 ≤ clock ∨ ¬spiGood enabled clock select dataOut dataIn →
      loadDecoder enabled (.spi clock select polarity dataOut dataIn clockIdle capture width order) = (.off, true)) := by
  refine ⟨fun c named good => ?_, fun bad => ?_⟩
  · have taken := (spiGood_iff enabled clock select dataOut dataIn).mpr good
    simp only [loadDecoder, taken, if_true]
    rw [named, channelField_val]
  · by_cases large : 16 ≤ clock
    · simp only [loadDecoder, channelField_none large]
    · have wrong := fun c => bad.resolve_left large ((spiGood_iff enabled clock select dataOut dataIn).mp c)
      rw [loadDecoder]
      split
      · exact if_neg wrong
      · rfl

theorem loadDecoder_i2c (scl sda : Nat) :
    (∀ a b : Fin 16, scl = a.val → sda = b.val → areEnabled enabled [scl, sda] →
      loadDecoder enabled (.i2c scl sda) = (.i2c { scl := a, sda := b }, false)) ∧
    (16 ≤ scl ∨ 16 ≤ sda ∨ ¬areEnabled enabled [scl, sda] → loadDecoder enabled (.i2c scl sda) = (.off, true)) := by
  refine ⟨fun a b clock data good => ?_, fun bad => ?_⟩
  · subst clock data
    simp only [loadDecoder, channelField_val]
    exact if_pos ((goodChannels_iff enabled [a, b]).mpr good)
  · by_cases clock : 16 ≤ scl
    · rw [loadDecoder, channelField_none clock]
      cases channelField sda <;> rfl
    · by_cases data : 16 ≤ sda
      · rw [loadDecoder, channelField_none data]
        cases channelField scl <;> rfl
      · obtain ⟨a, rfl⟩ : ∃ a : Fin 16, scl = a.val := ⟨⟨scl, Nat.lt_of_not_le clock⟩, rfl⟩
        obtain ⟨b, rfl⟩ : ∃ b : Fin 16, sda = b.val := ⟨⟨sda, Nat.lt_of_not_le data⟩, rfl⟩
        simp only [loadDecoder, channelField_val]
        exact if_neg fun good => (bad.resolve_left clock).resolve_left data ((goodChannels_iff enabled [a, b]).mp good)

/-- R97, R98: a PARALLEL unit's assignment. -/
def parallelGood (clock : Nat) (kept : List Nat) (qualifier : Nat) : Prop :=
  kept ≠ [] ∧ areEnabled enabled (clock :: (kept ++ [qualifier].filter (· < 16)))

theorem parallelGood_iff (c : Fin 16) (data : List Nat) (qualifier : Nat) :
    (!((data.filterMap channelField).take 8).isEmpty && goodChannels enabled
      (c :: ((data.filterMap channelField).take 8 ++ (channelField qualifier).toList))) = true ↔
      parallelGood enabled c.val ((data.filter (· < 16)).take 8) qualifier := by
  rw [Bool.and_eq_true, goodChannels_iff, List.map_cons, List.map_append, channelFields_listed, channelField_toList,
    parallelGood, ← channelFields_listed]
  refine and_congr_left fun _ => ?_
  rw [Bool.not_eq_true', Ne, List.map_eq_nil_iff, ← List.isEmpty_iff, Bool.not_eq_true]

theorem loadDecoder_parallel (clock : Nat) (edge : Option ClockEdge) (data : List Nat) (qualifier : Nat) (level : Option Bool) :
    (∀ c : Fin 16, clock = c.val → parallelGood enabled clock ((data.filter (· < 16)).take 8) qualifier →
      loadDecoder enabled (.parallel clock edge data qualifier level) = (.parallel
        { clock := c, edge := edge.getD .rise, data := (data.filterMap channelField).take 8
          qualifier := channelField qualifier, qualifyingLevel := level.getD false }, false)) ∧
    (16 ≤ clock ∨ ¬parallelGood enabled clock ((data.filter (· < 16)).take 8) qualifier →
      loadDecoder enabled (.parallel clock edge data qualifier level) = (.off, true)) := by
  refine ⟨fun c named good => ?_, fun bad => ?_⟩
  · subst named
    simp only [loadDecoder, channelField_val]
    exact if_pos ((parallelGood_iff enabled c data qualifier).mpr good)
  · by_cases large : 16 ≤ clock
    · simp only [loadDecoder, channelField_none large]
    · obtain ⟨c, rfl⟩ : ∃ c : Fin 16, clock = c.val := ⟨⟨clock, Nat.lt_of_not_le large⟩, rfl⟩
      simp only [loadDecoder, channelField_val]
      exact if_neg fun good => bad.resolve_left large ((parallelGood_iff enabled c data qualifier).mp good)

end

theorem getLsbD_errorMaskOf (q : Quad Bool) (i : Fin 4) : (errorMaskOf q).getLsbD i.val = q.get i := by
  obtain ⟨a, b, c, d⟩ := q
  revert a b c d i
  decide

/-! ### The placing of lanes -/

/-- The rows that the first `n` lanes of a table take. -/
def heightOf (lanes : List Lane) (n : Nat) : Nat := ((lanes.take n).map Lane.height).sum

theorem heightOf_cons (l : Lane) (rest : List Lane) (n : Nat) : heightOf (l :: rest) (n + 1) = l.height + heightOf rest n := by
  rw [heightOf, List.take_succ_cons, List.map_cons, List.sum_cons, heightOf]

/-- R142: lanes are placed from a row on until one does not fit. -/
theorem placeLanesFrom_places (lanes : List Lane) : ∀ y : Nat, y ≤ 120 →
    (placeLanesFrom y lanes).map PlacedLane.lane = lanes.take (placeLanesFrom y lanes).length ∧
    (∀ i : Nat, i < (placeLanesFrom y lanes).length →
      ((placeLanesFrom y lanes).map PlacedLane.top)[i]? = some (y + heightOf lanes i)) ∧
    y + heightOf lanes (placeLanesFrom y lanes).length ≤ 120 ∧
    ((placeLanesFrom y lanes).length < lanes.length → 120 < y + heightOf lanes ((placeLanesFrom y lanes).length + 1)) := by
  induction lanes with
  | nil => exact fun y within => ⟨rfl, fun i h => absurd h (Nat.not_lt_zero i), within, fun h => absurd h (Nat.lt_irrefl 0)⟩
  | cons l rest ih =>
    intro y within
    by_cases fits : y + l.height ≤ 120
    · have placed : placeLanesFrom y (l :: rest) = { top := y, lane := l } :: placeLanesFrom (y + l.height) rest := if_pos fits
      obtain ⟨lanes, tops, room, stops⟩ := ih (y + l.height) fits
      rw [placed, List.length_cons]
      refine ⟨?_, fun i h => ?_, ?_, fun h => ?_⟩
      · rw [List.map_cons, lanes, List.take_succ_cons]
      · cases i with
        | zero => rfl
        | succ i =>
          rw [List.map_cons, List.getElem?_cons_succ, tops i (Nat.lt_of_succ_lt_succ h), heightOf_cons, Nat.add_assoc]
      · rw [heightOf_cons, ← Nat.add_assoc]
        exact room
      · rw [heightOf_cons, ← Nat.add_assoc]
        exact stops (Nat.lt_of_succ_lt_succ h)
    · have placed : placeLanesFrom y (l :: rest) = [] := if_neg fits
      rw [placed]
      refine ⟨rfl, fun i h => absurd h (Nat.not_lt_zero i), within, fun _ => ?_⟩
      rw [List.length_nil, heightOf_cons]
      show 120 < y + (l.height + 0)
      omega

/-! ### Profiles -/

theorem Quad.get_replicate {α : Type} (a : α) (i : Fin 4) : (Quad.replicate a).get i = a := by
  fin_cases i <;> rfl

end Sys2Proof.Machine

namespace Sys2Proof.Proofs
open Sys2Proof Sys2Proof.Machine

/-- Settles O54: each loader by the lemma for its kind; the placing of lanes by its induction. -/
theorem loadsClampAndCheck : Obligations.LoadsClampAndCheck := by
  refine ⟨fun enabled q i => ⟨Quad.get_map _ q i, (getLsbD_errorMaskOf _ i).trans (Quad.get_map _ q i)⟩,
    fun enabled => ⟨rfl, rfl, channelField_number, loadDecoder_uart enabled, loadDecoder_spi enabled, loadDecoder_i2c enabled,
      fun clock edge data qualifier level => ?_⟩,
    fun _ => rfl, fun _ => rfl, fun _ => rfl, fun _ => rfl, fun g code => ?_, fun lanes => ?_, fun r => ?_⟩
  · obtain ⟨loads, refuses⟩ := loadDecoder_parallel enabled clock edge data qualifier level
    exact ⟨fun c named good => ⟨_, channelFields_listed data, loads c named good⟩, refuses⟩
  · rw [loadGroup, clampInt_of_le (by decide)]
  · obtain ⟨placed, tops, room, stops⟩ := placeLanesFrom_places lanes 0 (by decide)
    simp only [Nat.zero_add] at tops room stops
    exact ⟨placed, tops, room, stops, decide_eq_true_iff⟩
  · refine ⟨fun h => by rw [profileDecoders, h]; rfl, fun q h => by rw [profileDecoders, h]; rfl, fun h i => ?_, fun q h i => ?_,
      fun h => by rw [profileProgram, h]; rfl, fun p h i => ?_, fun h => by rw [profileLanes, h]; rfl,
      fun l h => by rw [profileLanes, h]; rfl⟩
    · rw [profileComparators, h, Option.map_none, Option.getD_none, Quad.get_replicate]
      exact ⟨rfl, rfl⟩
    · rw [profileComparators, h, Option.map_some, Option.getD_some, Quad.get_map]
    · simp only [profileProgram, h, Option.map_some, Option.getD_some, Fin.getElem_fin, Vector.getElem_map]

end Sys2Proof.Proofs
end

