-- ==== Sys2Proof/Proofs/ParallelWords.lean ====
section
/-! PROOF. A PARALLEL unit (R117): its record at a qualifying edge. -/

namespace Sys2Proof.Machine

theorem parallelClockEdge_iff (u : ParallelSettings) (last word : Levels) : parallelClockEdge u last word = true ↔
    match u.edge with
    | .rise => levelOf last u.clock = false ∧ levelOf word u.clock = true
    | .fall => levelOf last u.clock = true ∧ levelOf word u.clock = false
    | .both => levelOf last u.clock ≠ levelOf word u.clock := by
  rw [parallelClockEdge]
  cases u.edge <;> simp

theorem parallelQualified_iff (u : ParallelSettings) (word : Levels) : parallelQualified u word = true ↔
    match u.qualifier with
    | some q => levelOf word q = u.qualifyingLevel
    | none => True := by
  rw [parallelQualified]
  cases u.qualifier <;> simp

theorem sawGlitch_parallel (u : ParallelSettings) (c : SampleContext) : sawGlitch (.parallel u) c = true ↔
    ∃ k : Fin 16, (k = u.clock ∨ k ∈ u.data ∨ u.qualifier = some k) ∧ levelOf c.glitch k = true := by
  rw [sawGlitch, levels_meet_iff]
  refine exists_congr fun k => ?_
  rw [assignedChannels, levelOf_channelsOf, decide_eq_true_iff, and_comm, List.mem_cons, List.mem_append,
    Option.mem_toList]

/-- R100: bit k of a word is the level of its k-th line. -/
theorem parallelValue_bit (u : ParallelSettings) (word : Levels) {k : Nat} (h : k < 32) :
    (BitVec.ofNat 32 (natLsbFirst (u.data.map (levelOf word)))).getLsbD k =
      ((u.data[k]?).map (levelOf word)).getD false := by
  rw [BitVec.getLsbD_ofNat, decide_eq_true h, Bool.true_and, natLsbFirst_testBit, List.getElem?_map]

end Sys2Proof.Machine

namespace Sys2Proof.Proofs
open Sys2Proof Sys2Proof.Machine

/-- Settles O27: the edge and the qualifier decide whether there is a record; its fields, glitch flag and bits. -/
theorem parallelWordAtAQualifyingEdge : Obligations.ParallelWordAtAQualifyingEdge := by
  intro u d c before now clocked qualified
  have edge : parallelClockEdge u c.last c.word = true ↔ clocked := parallelClockEdge_iff u c.last c.word
  have level : parallelQualified u c.word = true ↔ qualified := parallelQualified_iff u c.word
  have both : (parallelClockEdge u c.last c.word && parallelQualified u c.word) = true ↔ clocked ∧ qualified := by
    rw [Bool.and_eq_true, edge, level]
  refine ⟨fun h => ⟨_, if_pos (both.mpr h), rfl, rfl, rfl, rfl, rfl, rfl, rfl, sawGlitch_parallel u c, rfl,
    fun k hk => parallelValue_bit u c.word hk⟩, fun h => if_neg (mt both.mp h), fun running seen framing => ?_⟩
  cases running <;> exact ⟨rfl, rfl⟩

end Sys2Proof.Proofs
end

