-- ==== Sys2Proof/Proofs/LogPlaces.lean ====
section
/-! PROOF. The decode log (R66, R122 to R127): how a record is numbered, clipped, placed or dropped, and what a trim
removes. -/

namespace Sys2Proof.Machine

theorem sequenceLimit_eq : Config.sequenceLimit = 2 ^ 32 := by norm_num [Config.sequenceLimit]

theorem clipRecord_eq (time : Nat) (r : DecodeRecord) : clipRecord time r =
    if r.startTime < time then { r with startTime := time, flags := { r.flags with clipped := true } } else r := rfl

/-- R125: a record dropped is counted, and marks the open segment when it is that segment's. -/
theorem State.dropRecord_eq (s : State) (r : DecodeRecord) : s.dropRecord r = { s with
    log := { s.log with lost := s.log.lost.set r.decoder (min 65535 (s.log.lost.get r.decoder + 1)) }
    run := { s.run with table := s.run.table.map (fun g =>
      if s.openIndex? = some g.index ∧ g.index = r.segment then { g with logLost := true } else g) } } := by
  unfold State.dropRecord
  dsimp only
  by_cases own : s.openIndex? = some r.segment
  · have same (g : SegmentRecord) : s.openIndex? = some g.index ↔ s.openIndex? = some g.index ∧ g.index = r.segment := by
      rw [own, Option.some_inj]
      exact ⟨fun h => ⟨h, h.symm⟩, And.left⟩
    rw [if_pos own, State.updateOpen_eq]
    show State.mk .. = State.mk ..
    simp only [← same]
    rfl
  · have none (g : SegmentRecord) : ¬(s.openIndex? = some g.index ∧ g.index = r.segment) := fun h => own (h.2 ▸ h.1)
    simp only [if_neg own, none, if_false, List.map_id']
    rfl

theorem State.dropRecord_lost (s : State) (r : DecodeRecord) (d : Fin 4) : (s.dropRecord r).log.lost.get d =
    if d = r.decoder then min 65535 (s.log.lost.get d + 1) else s.log.lost.get d := by
  rw [State.dropRecord_eq]
  refine (Quad.get_set _ _ _ _).trans ?_
  by_cases own : d = r.decoder
  · rw [if_pos own, if_pos own, own]
  · rw [if_neg own, if_neg own]

/-- R125: what is left as it was where a record is dropped, and what is not. -/
theorem State.dropRecord_drops (s : State) (r : DecodeRecord) :
    (s.dropRecord r).log.records = s.log.records ∧ (s.dropRecord r).log.counter = s.log.counter ∧
      (∀ d : Fin 4, (s.dropRecord r).log.lost.get d =
        if d = r.decoder then min 65535 (s.log.lost.get d + 1) else s.log.lost.get d) ∧
      (s.dropRecord r).run.table = s.run.table.map (fun g =>
        if s.openIndex? = some g.index ∧ g.index = r.segment then { g with logLost := true } else g) ∧
      s.dropRecord r = { s with log := (s.dropRecord r).log, run := { s.run with table := (s.dropRecord r).run.table } } := by
  refine ⟨?_, ?_, s.dropRecord_lost r, ?_, ?_⟩
  all_goals rw [State.dropRecord_eq]

/-- A record of the open segment. -/
def State.ownsRecord (s : State) (l : LogRecord) : Bool := s.openIndex? == some l.content.segment

theorem State.placeRecord_eq (s : State) (rs : RunState) (r : LogRecord) : s.placeRecord rs r =
    if s.log.records.length < 4096 then { s with log := { s.log with records := s.log.records ++ [r] } }
    else if (rs == .prefill || rs == .pretrig) && s.log.records.any s.ownsRecord then
      { s with log := { s.log with records := s.log.records.eraseP s.ownsRecord ++ [r] } }
    else s.dropRecord r.content := rfl

section
variable {s : State} {rs : RunState} {r : LogRecord}

theorem State.placeRecord_joins (room : s.log.records.length < 4096) :
    s.placeRecord rs r = { s with log := { s.log with records := s.log.records ++ [r] } } :=
  if_pos room

/-- R124: in PREFILL and PRETRIG the oldest record of the open segment makes room. -/
theorem State.placeRecord_replaces (full : 4096 ≤ s.log.records.length) (filling : rs = .prefill ∨ rs = .pretrig)
    {a b : List LogRecord} {x : LogRecord} (split : s.log.records = a ++ x :: b)
    (own : s.openIndex? = some x.content.segment) (oldest : ∀ y ∈ a, s.openIndex? ≠ some y.content.segment) :
    s.placeRecord rs r = { s with log := { s.log with records := a ++ b ++ [r] } } := by
  have erased : s.log.records.eraseP s.ownsRecord = a ++ b := by
    rw [split, List.eraseP_append_right _ (fun y hy => by simpa [State.ownsRecord] using oldest y hy),
      List.eraseP_cons_of_pos (show s.ownsRecord x = true from beq_iff_eq.mpr own)]
  have found : s.log.records.any s.ownsRecord = true := List.any_eq_true.mpr ⟨x, by rw [split]; simp, beq_iff_eq.mpr own⟩
  rw [State.placeRecord_eq, if_neg (Nat.not_lt.mpr full), if_pos (by rw [found]; simpa using filling), erased]

theorem State.placeRecord_drops (full : 4096 ≤ s.log.records.length)
    (none : ¬((rs = .prefill ∨ rs = .pretrig) ∧ ∃ y ∈ s.log.records, s.openIndex? = some y.content.segment)) :
    s.placeRecord rs r = s.dropRecord r.content := by
  rw [State.placeRecord_eq, if_neg (Nat.not_lt.mpr full), if_neg fun c => none ?_]
  obtain ⟨filling, any⟩ := Bool.and_eq_true_iff.mp c
  obtain ⟨y, hy, own⟩ := List.any_eq_true.mp any
  exact ⟨by simpa using filling, y, hy, beq_iff_eq.mp own⟩

end

/-- R122, R123: the next sequence number, and the clip. -/
theorem State.logRecord_numbers {s : State} (h : s.log.counter < 2 ^ 32) (rs : RunState) (first : Nat) (r : DecodeRecord) :
    s.logRecord rs first r = State.placeRecord { s with log := { s.log with counter := s.log.counter + 1 } } rs
      { sequence := s.log.counter, content := clipRecord (first * s.divider) r } :=
  if_neg (by rw [sequenceLimit_eq]; exact Nat.not_le.mpr h)

theorem State.logRecord_exhausted {s : State} (h : 2 ^ 32 ≤ s.log.counter) (rs : RunState) (first : Nat) (r : DecodeRecord) :
    s.logRecord rs first r = s.dropRecord r :=
  if_pos (by rw [sequenceLimit_eq]; exact h)

theorem mem_trimLog (s : State) (a : Advance) (r : LogRecord) : r ∈ (s.trimLog a).log.records ↔
    r ∈ s.log.records ∧ ¬(r.content.segment = a.segment ∧ r.content.startTime < a.firstSample * s.divider) := by
  show r ∈ s.log.records.filter _ ↔ _
  rw [List.mem_filter, LogRecord.outlives, Bool.not_eq_true', Bool.eq_false_iff, Ne, Bool.and_eq_true, beq_iff_eq,
    decide_eq_true_iff]

/-- R66, R127: the advances LOG takes before a record of the sample. -/
theorem State.logSample_advances (s : State) (rs : RunState) (first : Nat) (r : DecodeRecord) (rest : List DecodeRecord)
    {advances : List Advance} (some : advances ≠ []) : ∃ n : Nat,
    let taken := advances.take n
    let now := (taken.getLast?.map Advance.runState).getD rs
    let held := (taken.getLast?.map Advance.firstSample).getD first
    s.logSample rs first (r :: rest) advances =
      ((taken.foldl State.trimLog { s with freeCount := s.freeCount + 1 }).logRecord now held r).logSample now held rest
        (advances.drop n) := by
  obtain ⟨a, more, rfl⟩ := List.exists_cons_of_ne_nil some
  refine ⟨Config.advancesBeforeRecord s.freeCount, ?_⟩
  intro taken now held
  have last : ((taken.getLast?).getD { segment := a.segment, firstSample := first, runState := rs }).runState = now ∧
      ((taken.getLast?).getD { segment := a.segment, firstSample := first, runState := rs }).firstSample = held := by
    show _ = (taken.getLast?.map Advance.runState).getD rs ∧ _ = (taken.getLast?.map Advance.firstSample).getD first
    cases taken.getLast? <;> exact ⟨rfl, rfl⟩
  rw [State.logSample]
  show ((taken.foldl State.trimLog s.fresh).logRecord ((taken.getLast?).getD _).runState
    ((taken.getLast?).getD _).firstSample r).logSample _ _ rest _ = _
  rw [last.1, last.2]
  rfl

end Sys2Proof.Machine

namespace Sys2Proof.Proofs
open Sys2Proof Sys2Proof.Machine

/-- Settles O28: numbering, placing, trimming and the order within a sample, each by its lemma. -/
theorem logPlacesAndTrims : Obligations.LogPlacesAndTrims := by
  refine ⟨fun s rs first r => ⟨fun room => State.logRecord_numbers room rs first r, fun exhausted => ?_⟩,
    fun s rs r => ⟨State.placeRecord_joins, fun full filling a b x => State.placeRecord_replaces full filling,
      fun full none => ?_⟩,
    fun s a => ⟨mem_trimLog s a, List.filter_sublist, rfl⟩,
    fun s rs first advances => ⟨?_, fun r rest => ⟨fun none => ?_, State.logSample_advances s rs first r rest⟩⟩⟩
  · intro t
    rw [show t = s.dropRecord r from State.logRecord_exhausted exhausted rs first r]
    exact s.dropRecord_drops r
  · intro t
    rw [show t = s.dropRecord r.content from State.placeRecord_drops full none]
    exact s.dropRecord_drops r.content
  · rw [State.logSample]
  · rw [none, State.logSample]

end Sys2Proof.Proofs
end

