-- ==== Sys2Proof/Proofs/UartFrames.lean ====
section
/-! PROOF. A UART unit (R103 to R108, R118): what it does at a sample in each phase of a character, and its flush. -/

namespace Sys2Proof.Machine

variable {u : UartSettings} {d : Fin 4} {c : SampleContext} {f : UartFraming} {seen : Bool}

theorem uartBit_eq (u : UartSettings) (w : Levels) :
    uartBit u w = if u.idle = .high then levelOf w u.channel else !levelOf w u.channel := by
  rw [uartBit]
  cases u.idle <;> cases levelOf w u.channel <;> rfl

theorem parityBits_eq (p : Parity) : parityBits p = if p = .none then 0 else 1 := by cases p <;> rfl

theorem parityInError_eq (p : Parity) (bits : List Bool) (bit : Bool) : parityInError p bits bit =
    match p with
    | .none => false
    | .even => ((bits ++ [bit]).filter id).length % 2 == 1
    | .odd => ((bits ++ [bit]).filter id).length % 2 == 0 := by
  have ones : ((bits ++ [bit]).filter id).length = (bits.filter id).length + bit.toNat := by
    rw [List.filter_append, List.length_append]
    cases bit <;> rfl
  rw [ones]
  rfl

/-- R105: the sample is the one at which bit `j` of the character is read. -/
def uartReads (u : UartSettings) (c : SampleContext) (f : UartFraming) (j : Nat) : Bool :=
  c.index == f.first + (2 * j + 1) * u.bitPeriod / 2

theorem uartReads_iff (j : Nat) : c.index = uartReadingSample u f.first j ↔ uartReads u c f j = true := beq_iff_eq.symm

/-- What the unit has seen of glitches, with this sample's. -/
def uartSeen (u : UartSettings) (c : SampleContext) (seen : Bool) : Bool := seen || levelOf c.glitch u.channel

theorem uartSample_hunt (h : f.phase = .hunt) : uartSample u d c f seen =
    ({ f with phase := if uartBit u c.word then .idleLine else .hunt }, seen, []) := by
  simp only [uartSample, h]

theorem uartSample_idleLine (h : f.phase = .idleLine) : uartSample u d c f seen =
    if uartBit u c.word then (f, seen, []) else
      ({ phase := .startCheck, first := c.index, bits := [], parityBit := false, parityError := false, stopsRead := 0 },
        levelOf c.glitch u.channel, []) := by
  simp only [uartSample, h, sawGlitch_uart]

theorem uartSample_startCheck (h : f.phase = .startCheck) : uartSample u d c f seen =
    (if uartReads u c f 0 then { f with phase := if uartBit u c.word then .idleLine else .data } else f,
      uartSeen u c seen, []) := by
  simp only [uartSample, h, sawGlitch_uart, uartReads_iff]
  split <;> rfl

theorem uartSample_data (h : f.phase = .data) : uartSample u d c f seen =
    (if uartReads u c f (f.bits.length + 1) then
      { f with
        bits := f.bits ++ [uartBit u c.word]
        phase := if f.bits.length + 1 < u.dataBits then .data else if u.parity = .none then .stop else .parity }
    else f, uartSeen u c seen, []) := by
  simp only [uartSample, h, sawGlitch_uart, uartReads_iff, List.length_append, List.length_singleton]
  split <;> rfl

theorem uartSample_parity (h : f.phase = .parity) : uartSample u d c f seen =
    (if uartReads u c f (u.dataBits + 1) then
      { f with
        phase := .stop, parityBit := uartBit u c.word
        parityError := parityInError u.parity f.bits (uartBit u c.word) }
    else f, uartSeen u c seen, []) := by
  simp only [uartSample, h, sawGlitch_uart, uartReads_iff]
  split <;> rfl

/-- R106 to R108: what a stop bit read at the station's sample completes. -/
theorem uartSample_stop (h : f.phase = .stop) : uartSample u d c f seen =
    if uartReads u c f (u.dataBits + (if u.parity = .none then 0 else 1) + 1 + f.stopsRead) then
      if uartBit u c.word then
        if f.stopsRead + 1 < u.stopBits then ({ f with stopsRead := f.stopsRead + 1 }, uartSeen u c seen, [])
        else ({ f with phase := .idleLine }, uartSeen u c seen, [uartCharRecord c d f false false (uartSeen u c seen)])
      else if f.stopsRead = 0 ∧ (∀ b ∈ f.bits, b = false) ∧ f.parityBit = false then
        ({ f with phase := .breakWait }, uartSeen u c seen, [])
      else ({ f with phase := .hunt }, uartSeen u c seen, [uartCharRecord c d f true false (uartSeen u c seen)])
    else (f, uartSeen u c seen, []) := by
  simp only [uartSample, h, sawGlitch_uart, uartReads_iff, parityBits_eq, List.all_eq_true, Bool.not_eq_true', uartSeen]

theorem uartSample_breakWait (h : f.phase = .breakWait) : uartSample u d c f seen =
    if uartBit u c.word then ({ f with phase := .idleLine }, uartSeen u c seen,
      [uartBreakRecord c d f (c.index - f.first) false (uartSeen u c seen)])
    else (f, uartSeen u c seen, []) := by
  simp only [uartSample, h, sawGlitch_uart, uartSeen]

/-- R118: what a running unit's flush completes, by phase. -/
theorem uartFlush_eq (u : UartSettings) (d : Fin 4) (c : SampleContext) (f : UartFraming) (seen : Bool) :
    DecodeUnit.flushRecords { settings := .uart u, running := true, framing := .uart f, glitchSeen := seen } d c =
      match f.phase with
      | .data => if f.bits = [] then [] else [uartCharRecord c d f false true seen]
      | .parity => [uartCharRecord c d f false true seen]
      | .stop => [uartCharRecord c d f false true seen]
      | .breakWait => [uartBreakRecord c d f (c.index + 1 - f.first) true seen]
      | _ => [] := by
  obtain ⟨phase, first, bits, parityBit, parityError, stopsRead⟩ := f
  cases phase
  case data => cases bits <;> rfl
  all_goals rfl

end Sys2Proof.Machine

namespace Sys2Proof.Proofs
open Sys2Proof Sys2Proof.Machine

/-- Settles O25: the unit's equation in each phase. -/
theorem uartFramesItsCharacters : Obligations.UartFramesItsCharacters := by
  refine ⟨natLsbFirst_testBit, fun u d c f seen => ?_⟩
  intro bit now glitch reads p ones made character broken x
  have bitIs : uartBit u c.word = bit := uartBit_eq u c.word
  have errorIs : parityInError u.parity f.bits bit = (match u.parity with
      | .none => false
      | .even => ones % 2 == 1
      | .odd => ones % 2 == 0) := parityInError_eq u.parity f.bits bit
  have hunt := uartSample_hunt (u := u) (d := d) (c := c) (f := f) (seen := seen)
  have idleLine := uartSample_idleLine (u := u) (d := d) (c := c) (f := f) (seen := seen)
  have startCheck := uartSample_startCheck (u := u) (d := d) (c := c) (f := f) (seen := seen)
  have data := uartSample_data (u := u) (d := d) (c := c) (f := f) (seen := seen)
  have parity := uartSample_parity (u := u) (d := d) (c := c) (f := f) (seen := seen)
  have breakWait := uartSample_breakWait (u := u) (d := d) (c := c) (f := f) (seen := seen)
  rw [bitIs] at hunt idleLine startCheck data parity breakWait
  rw [errorIs] at parity
  refine ⟨hunt, idleLine, startCheck, data, parity, fun h => ?_, breakWait, fun running => ?_⟩
  · intro here isBreak
    have stop := uartSample_stop (u := u) (d := d) (c := c) (seen := seen) h
    rw [bitIs] at stop
    refine ⟨fun early => ?_, fun at' high more => ?_, fun at' high last => ?_, fun at' low broken => ?_,
      fun at' low whole => ?_⟩
    · exact stop.trans (if_neg (by rw [show uartReads u c f _ = here from rfl, early]; decide))
    · exact stop.trans ((if_pos at').trans ((if_pos high).trans (if_pos more)))
    · exact stop.trans ((if_pos at').trans ((if_pos high).trans (if_neg (Nat.not_lt.mpr last))))
    · exact stop.trans ((if_pos at').trans ((if_neg (by rw [low]; decide)).trans (if_pos broken)))
    · exact stop.trans ((if_pos at').trans ((if_neg (by rw [low]; decide)).trans (if_neg whole)))
  · cases running
    · exact ⟨rfl, rfl⟩
    · exact ⟨rfl, uartFlush_eq u d c f seen⟩

end Sys2Proof.Proofs
end

