-- ==== Sys2Proof/Proofs/BusFrames.lean ====
section
/-! PROOF. SPI and I2C units (R109 to R116, R118): what they do at a sample, and their flush. -/

namespace Sys2Proof.Machine

/-- R100: a value collected most significant bit first. -/
theorem natMsbFirst_testBit (bits : List Bool) (k : Nat) :
    (natMsbFirst bits).testBit k = ((bits.reverse)[k]?).getD false :=
  natLsbFirst_testBit bits.reverse k

/-! ### SPI -/

section
variable {u : SpiSettings} {d : Fin 4} {c : SampleContext} {f : SpiFraming} {seen : Bool}

theorem spiValue_eq (u : SpiSettings) (bits : List Bool) :
    spiValue u bits = if u.order = .msbFirst then natMsbFirst bits else natLsbFirst bits := by
  rw [spiValue]
  cases u.order <;> rfl

theorem dataLine_eq (ch : Option (Fin 16)) (w : Levels) : dataLine ch w = (ch.map (levelOf w)).getD false := by
  cases ch <;> rfl

theorem isEmpty_ite {α β : Type} (l : List α) (x y : β) : (if l.isEmpty then x else y) = if l = [] then x else y := by
  cases l <;> rfl

/-- R109: the bits under way at a sample, none where the select has just become active. -/
def spiGoing (u : SpiSettings) (c : SampleContext) (f : SpiFraming) : SpiFraming :=
  if spiActive u c.last then f else { f with bits := [] }

/-- R110: the bits with those of a capture edge. -/
def spiTaken (u : SpiSettings) (c : SampleContext) (g : SpiFraming) : SpiFraming :=
  { first := if g.bits = [] then c.index else g.first
    bits := g.bits ++ [((u.dataOut.map (levelOf c.word)).getD false, (u.dataIn.map (levelOf c.word)).getD false)] }

theorem spiSample_inactive (h : spiActive u c.word = false) : spiSample u d c f seen =
    ({ f with bits := [] }, seen || sawGlitch (.spi u) c,
      if f.bits = [] then [] else [spiRecord u c d f true (seen || sawGlitch (.spi u) c)]) := by
  simp only [spiSample, h, isEmpty_ite]
  rfl

theorem spiSample_active (h : spiActive u c.word = true) : spiSample u d c f seen =
    if spiCaptureEdge u c.last c.word then
      let glitch := if (spiGoing u c f).bits = [] then sawGlitch (.spi u) c else seen || sawGlitch (.spi u) c
      if (spiTaken u c (spiGoing u c f)).bits.length < u.width then (spiTaken u c (spiGoing u c f), glitch, [])
      else ({ spiTaken u c (spiGoing u c f) with bits := [] }, glitch,
        [spiRecord u c d (spiTaken u c (spiGoing u c f)) false glitch])
    else (spiGoing u c f, seen || sawGlitch (.spi u) c, []) := by
  have going : (if !spiActive u c.last then ({ f with bits := [] } : SpiFraming) else f) = spiGoing u c f := by
    rw [spiGoing]
    cases spiActive u c.last <;> rfl
  simp only [spiSample, h, going, isEmpty_ite, dataLine_eq, spiTaken]
  rfl

theorem spiRecord_eq (u : SpiSettings) (c : SampleContext) (d : Fin 4) (g : SpiFraming) (truncated glitch : Bool) :
    spiRecord u c d g truncated glitch =
      { segment := c.segment, decoder := d, kind := .spiWord
        value := BitVec.ofNat 32
          (if u.dataOut.isSome then spiValue u (g.bits.map Prod.fst) else spiValue u (g.bits.map Prod.snd))
        value2 := if u.dataOut.isSome ∧ u.dataIn.isSome then some (BitVec.ofNat 32 (spiValue u (g.bits.map Prod.snd)))
          else none
        bitCount := g.bits.length, startTime := g.first * c.divider, endTime := (c.index + 1) * c.divider
        flags := { parity := false, framing := false, nack := false, read := false, truncated := truncated
                   glitch := glitch, clipped := false } } := by
  rw [spiRecord, makeRecord, RecordFlags.none]
  cases u.dataOut.isSome <;> cases u.dataIn.isSome <;> rfl

end

/-! ### I2C -/

section
variable {u : I2cSettings} {d : Fin 4} {c : SampleContext} {f : I2cFraming} {seen : Bool}

theorem i2cEvent_start (h1 : levelOf c.last u.scl = true) (h2 : levelOf c.word u.scl = true)
    (h3 : levelOf c.last u.sda = true) (h4 : levelOf c.word u.sda = false) :
    i2cEvent u c.last c.word = .startCondition := by
  simp only [i2cEvent, h1, h2, h3, h4]

theorem i2cEvent_stop (h1 : levelOf c.last u.scl = true) (h2 : levelOf c.word u.scl = true)
    (h3 : levelOf c.last u.sda = false) (h4 : levelOf c.word u.sda = true) : i2cEvent u c.last c.word = .stopCondition := by
  simp only [i2cEvent, h1, h2, h3, h4]

theorem i2cEvent_bit (h1 : levelOf c.last u.scl = false) (h2 : levelOf c.word u.scl = true) :
    i2cEvent u c.last c.word = .bitRead (levelOf c.word u.sda) := by
  simp only [i2cEvent, h1, h2]

/-- R112: with the clock low, or high before and after with the data line still, nothing happens. -/
theorem i2cEvent_none (h : levelOf c.word u.scl = false ∨
    (levelOf c.last u.scl = true ∧ levelOf c.word u.sda = levelOf c.last u.sda)) : i2cEvent u c.last c.word = .none := by
  rcases h with low | ⟨high, still⟩
  · simp only [i2cEvent, low]
    cases levelOf c.last u.scl <;> rfl
  · simp only [i2cEvent, high, still]
    cases levelOf c.word u.scl <;> cases levelOf c.last u.sda <;> rfl

theorem i2cSample_start (h : i2cEvent u c.last c.word = .startCondition) : i2cSample u d c f seen =
    ({ f with phase := .addrByte, bits := [] }, seen || sawGlitch (.i2c u) c,
      i2cCutRecord c d f (seen || sawGlitch (.i2c u) c) ++
        [i2cConditionRecord c d (if f.phase = .busFree then .i2cStart else .i2cRestart) (sawGlitch (.i2c u) c)]) := by
  simp only [i2cSample, h]

theorem i2cSample_stop (h : i2cEvent u c.last c.word = .stopCondition) : i2cSample u d c f seen =
    ({ f with phase := .busFree, bits := [] }, seen || sawGlitch (.i2c u) c,
      i2cCutRecord c d f (seen || sawGlitch (.i2c u) c) ++ [i2cConditionRecord c d .i2cStop (sawGlitch (.i2c u) c)]) := by
  simp only [i2cSample, h]

theorem i2cSample_none (h : i2cEvent u c.last c.word = .none) :
    i2cSample u d c f seen = (f, seen || sawGlitch (.i2c u) c, []) := by
  simp only [i2cSample, h]

theorem i2cSample_bit {b : Bool} (h : i2cEvent u c.last c.word = .bitRead b) : i2cSample u d c f seen =
    if f.phase = .busFree then (f, seen || sawGlitch (.i2c u) c, [])
    else if f.bits = [] then ({ f with first := c.index, bits := [b] }, sawGlitch (.i2c u) c, [])
    else if f.bits.length < 8 then ({ f with bits := f.bits ++ [b] }, seen || sawGlitch (.i2c u) c, [])
    else ({ f with phase := .dataByte, bits := [] }, seen || sawGlitch (.i2c u) c,
      [i2cByteRecord c d f b (seen || sawGlitch (.i2c u) c)]) := by
  simp only [i2cSample, h, isEmpty_ite]

theorem i2cCutRecord_eq (c : SampleContext) (d : Fin 4) (f : I2cFraming) (glitch : Bool) : i2cCutRecord c d f glitch =
    if f.bits = [] then [] else
      [makeRecord c d (if f.phase = .addrByte then .i2cAddress else .i2cByte) f.first (natMsbFirst f.bits) none f.bits.length
        { RecordFlags.none with truncated := true, glitch := glitch }] :=
  isEmpty_ite _ _ _

end

end Sys2Proof.Machine

namespace Sys2Proof.Proofs
open Sys2Proof Sys2Proof.Machine

/-- Settles O26: the SPI unit by its select and its clock, the I2C unit by what its two lines did. -/
theorem spiAndI2cFrameTheirWords : Obligations.SpiAndI2cFrameTheirWords := by
  refine ⟨natMsbFirst_testBit, fun u c => ?_, fun u c => ?_, fun u d c f seen => ?_, fun u d c f seen => ?_⟩
  · exact (sawGlitch_spi u c).trans (exists_congr fun k => and_comm)
  · refine (sawGlitch_i2c u c).trans ?_
    simp [or_and_right, exists_or]
  · intro active before now edge glitched line value word g taken glitch x
    have wordIs (k : SpiFraming) (truncated seen : Bool) : spiRecord u c d k truncated seen = word k truncated seen := by
      rw [spiRecord_eq, spiValue_eq, spiValue_eq]
    refine ⟨sawGlitch_spi u c, fun off => ?_, fun on still => ?_, fun on moves more => ?_, fun on moves last => ?_,
      fun running => ?_⟩
    · have cut := spiSample_inactive (u := u) (d := d) (f := f) (seen := seen) off
      rw [wordIs] at cut
      exact cut
    · exact (spiSample_active on).trans (if_neg fun c => absurd (still.symm.trans c) (by decide))
    · exact (spiSample_active on).trans ((if_pos moves).trans (if_pos more))
    · exact (spiSample_active on).trans ((if_pos moves).trans ((if_neg (Nat.not_lt.mpr last)).trans
        (congrArg (fun r => (_, _, [r])) (wordIs _ _ _))))
    · cases running
      · exact ⟨rfl, (if_neg (fun c => absurd c.1 (by decide))).symm⟩
      · refine ⟨rfl, ?_⟩
        rw [← wordIs]
        show (if f.bits.isEmpty then _ else _) = _
        rw [isEmpty_ite]
        by_cases empty : f.bits = []
        · rw [if_pos empty, if_neg fun c => c.2 empty]
        · rw [if_neg empty, if_pos ⟨rfl, empty⟩]
  · intro sclBefore scl sdaBefore sda glitched glitch made flags cut condition x
    have cutIs (seen : Bool) : i2cCutRecord c d f seen = cut seen := i2cCutRecord_eq c d f seen
    refine ⟨sawGlitch_i2c u c, fun h1 h2 h3 h4 => ?_, fun h1 h2 h3 h4 => ?_, fun idle => i2cSample_none (i2cEvent_none idle),
      fun low high => ?_, fun running => ?_⟩
    · have begun := i2cSample_start (d := d) (f := f) (seen := seen) (i2cEvent_start h1 h2 h3 h4)
      rw [cutIs] at begun
      exact begun
    · have ended := i2cSample_stop (d := d) (f := f) (seen := seen) (i2cEvent_stop h1 h2 h3 h4)
      rw [cutIs] at ended
      exact ended
    · have bit := i2cSample_bit (d := d) (f := f) (seen := seen) (i2cEvent_bit low high)
      refine ⟨fun free => bit.trans (if_pos free), fun busy => ?_⟩
      have taken := bit.trans (if_neg busy)
      refine ⟨fun empty => taken.trans (if_pos empty), fun some more => taken.trans ((if_neg some).trans (if_pos more)),
        fun full => ?_⟩
      have some : f.bits ≠ [] := fun empty => by rw [empty] at full; exact absurd full (by decide)
      exact taken.trans ((if_neg some).trans (if_neg (Nat.not_lt.mpr full)))
    · cases running
      · exact ⟨rfl, (if_neg (fun c => absurd c.1 (by decide))).symm⟩
      · refine ⟨rfl, ?_⟩
        rw [← cutIs]
        show (if f.phase = .busFree then [] else i2cCutRecord c d f seen) = _
        by_cases free : f.phase = .busFree
        · rw [if_pos free, if_neg fun c => c.2 free]
        · rw [if_neg free, if_pos ⟨rfl, free⟩]

end Sys2Proof.Proofs
end

