-- ==== Sys2Proof/Proofs/Payloads.lean ====
section
/-! PROOF. The payloads of the messages a station sends, field by field (sections 12.1 and 12.2). -/

namespace Sys2Proof.Machine

/-! ### Fields of a byte and of a payload -/

theorem byteOfNat_extract {s k : Nat} (h : s + k ≤ 8) (n : Nat) :
    (byteOfNat n).extractLsb' s k = BitVec.ofNat k (n / 2 ^ s) := by
  refine BitVec.eq_of_getLsbD_eq fun i hi => ?_
  rw [BitVec.getLsbD_extractLsb', BitVec.getLsbD_ofNat, byteOfNat, BitVec.getLsbD_ofNat, Nat.testBit_div_two_pow,
    decide_eq_true hi, decide_eq_true (show s + i < 8 by omega), Nat.add_comm i s, Bool.true_and, Bool.true_and]

theorem ofNat_of_mod {k a b : Nat} (h : a % 2 ^ k = b % 2 ^ k) : BitVec.ofNat k a = BitVec.ofNat k b :=
  BitVec.eq_of_toNat_eq (by rw [BitVec.toNat_ofNat, BitVec.toNat_ofNat, h])

theorem byteOfNat_bit {j : Nat} (h : j < 8) (n : Nat) : (byteOfNat n).getLsbD j = decide (n / 2 ^ j % 2 = 1) := by
  rw [byteOfNat, BitVec.getLsbD_ofNat, decide_eq_true h, Bool.true_and, Nat.testBit_eq_decide_div_mod_eq]

theorem bitNat_eq (b : Bool) (i : Nat) : bitNat b i = b.toNat * 2 ^ i := by
  cases b <;> simp [bitNat]

/-- A byte of flags, the first of them at bit 0. -/
theorem flagByte_bit {n : Nat} {flags : List Bool} (packed : n = natLsbFirst flags) {j : Nat} (h : j < 8) :
    (byteOfNat n).getLsbD j = flags[j]?.getD false := by
  rw [byteOfNat, BitVec.getLsbD_ofNat, decide_eq_true h, Bool.true_and, packed, natLsbFirst_testBit]

/-- A flag above a five-bit number, as byte 0 of a SEGMENTS record and byte 1 of a DECODE record have it. -/
theorem numberedByte (i : Nat) (b : Bool) (small : i < 32) :
    (byteOfNat (i % 32 + bitNat b 5)).extractLsb' 6 2 = 0 ∧
      (byteOfNat (i % 32 + bitNat b 5)).extractLsb' 0 5 = BitVec.ofNat 5 i ∧
      (byteOfNat (i % 32 + bitNat b 5)).getLsbD 5 = b := by
  have bit : b.toNat ≤ 1 := Bool.toNat_le b
  rw [bitNat_eq]
  refine ⟨?_, ?_, ?_⟩
  · rw [byteOfNat_extract (by decide)]
    exact ofNat_of_mod (b := 0) (by omega)
  · rw [byteOfNat_extract (by decide)]
    exact ofNat_of_mod (by omega)
  · rw [byteOfNat_bit (by decide)]
    cases b
    · exact decide_eq_false (by simp only [Bool.toNat_false]; omega)
    · exact decide_eq_true (by simp only [Bool.toNat_true]; omega)

section
variable {p : List Byte} {i n v : Nat}

theorem payloadNat_field (field : (p.drop i).take n = bytesBE n v) (h : v < 256 ^ n) : payloadNat p i n = v := by
  rw [payloadNat, field, natBE_bytesBE, Nat.mod_eq_of_lt h]

theorem payloadNat_byte (field : (p.drop i).take 1 = [byteOfNat v]) (h : v < 256) : payloadNat p i 1 = v := by
  rw [payloadNat, field, natBE_cons, List.length_nil, Nat.pow_zero, Nat.mul_one, byteOfNat, BitVec.toNat_ofNat]
  exact Nat.mod_eq_of_lt h

end

theorem endTimeBytes_of {t : Nat} (h : t < 2 ^ 48) : endTimeBytes t = bytesBE 6 t := if_pos h

theorem endTimeBytes_length (t : Nat) : (endTimeBytes t).length = 6 := by
  unfold endTimeBytes
  split <;> exact bytesBE_length 6 _

/-! ### The length of each payload -/

theorem segmentPayload_length (r : SegmentRecord) (entry : Option Nat) : (segmentPayload r entry).length = 27 := rfl

theorem decodePayload_length (r : LogRecord) : (decodePayload r).length = 28 := by
  rw [decodePayload]
  simp only [List.length_append, bytesBE_length, endTimeBytes_length, List.length_cons, List.length_nil]

theorem entryPayload_length (segment start : Nat) (e : Entry) : (entryPayload segment start e).length = 14 := by
  unfold entryPayload
  split <;> rfl

theorem StatusContents.payload_length (c : StatusContents) : c.payload.length = 21 := rfl

/-! ### STATUS -/

section
variable (c : StatusContents)

theorem statusByte3 : (payloadByte c.payload 3).getLsbD 0 = c.locked ∧
    (payloadByte c.payload 3).extractLsb' 1 2 = BitVec.ofNat 2 c.clockState.code := by
  show (byteOfNat (bitNat c.locked 0 + 2 * c.clockState.code)).getLsbD 0 = _ ∧
    (byteOfNat (bitNat c.locked 0 + 2 * c.clockState.code)).extractLsb' 1 2 = _
  cases c.locked <;> cases c.clockState <;> exact ⟨rfl, rfl⟩

theorem statusByte7 {j : Nat} (h : j < 8) : (payloadByte c.payload 7).getLsbD j =
    [c.markStuck, c.duplicateId, c.imageBad, c.lanesClipped][j]?.getD false := by
  refine flagByte_bit (n := bitNat c.markStuck 0 + bitNat c.duplicateId 1 + bitNat c.imageBad 2 + bitNat c.lanesClipped 3)
    ?_ h
  simp only [bitNat_eq, natLsbFirst]
  omega

theorem statusByte8 : (payloadByte c.payload 8).extractLsb' 0 4 = c.errorMask ∧
    (payloadByte c.payload 8).extractLsb' 4 4 = c.sticky := by
  show (byteOfNat (c.errorMask.toNat + 16 * c.sticky.toNat)).extractLsb' 0 4 = _ ∧
    (byteOfNat (c.errorMask.toNat + 16 * c.sticky.toNat)).extractLsb' 4 4 = _
  have low := c.errorMask.isLt
  have high := c.sticky.isLt
  rw [byteOfNat_extract (by decide), byteOfNat_extract (by decide)]
  constructor
  · exact BitVec.eq_of_toNat_eq (by rw [BitVec.toNat_ofNat]; omega)
  · exact BitVec.eq_of_toNat_eq (by rw [BitVec.toNat_ofNat]; omega)

theorem statusLost (d : Fin 4) (h : c.lost.get d ≤ 65535) : payloadNat c.payload (9 + 2 * d.val) 2 = c.lost.get d := by
  have room : c.lost.get d < 256 ^ 2 := Nat.lt_succ_of_le h
  fin_cases d <;> exact payloadNat_field rfl room

theorem statusByte17 : (payloadByte c.payload 17).extractLsb' 0 4 = c.observed := by
  show (byteOfNat c.observed.toNat).extractLsb' 0 4 = _
  rw [byteOfNat_extract (by decide)]
  have := c.observed.isLt
  exact BitVec.eq_of_toNat_eq (by rw [BitVec.toNat_ofNat]; omega)

end

/-! ### The kinds of record -/

theorem SegmentState.code_lt (x : SegmentState) : x.code < 4 := by cases x <;> decide
theorem TriggerSource.code_lt (x : TriggerSource) : x.code < 4 := by cases x <;> decide
theorem closeReasonCode_lt (x : Option CloseReason) : closeReasonCode x < 8 := by
  rcases x with _ | x
  · decide
  · cases x <;> decide
theorem recordKindCode_lt (k : RecordKind) : recordKindCode k < 16 := by cases k <;> decide

/-- Byte 1 of a SEGMENTS record. -/
theorem segmentByte1 (r : SegmentRecord) (entry : Option Nat) :
    (payloadByte (segmentPayload r entry) 1).extractLsb' 0 2 = BitVec.ofNat 2 r.state.code ∧
      (payloadByte (segmentPayload r entry) 1).extractLsb' 2 2 = BitVec.ofNat 2 r.source.code ∧
      (payloadByte (segmentPayload r entry) 1).extractLsb' 4 3 = BitVec.ofNat 3 (closeReasonCode r.closeReason) := by
  show (byteOfNat (r.state.code + 4 * r.source.code + 16 * closeReasonCode r.closeReason)).extractLsb' 0 2 = _ ∧
    (byteOfNat (r.state.code + 4 * r.source.code + 16 * closeReasonCode r.closeReason)).extractLsb' 2 2 = _ ∧
    (byteOfNat (r.state.code + 4 * r.source.code + 16 * closeReasonCode r.closeReason)).extractLsb' 4 3 = _
  have state := r.state.code_lt
  have source := r.source.code_lt
  have reason := closeReasonCode_lt r.closeReason
  rw [byteOfNat_extract (by decide), byteOfNat_extract (by decide), byteOfNat_extract (by decide)]
  exact ⟨ofNat_of_mod (by omega), ofNat_of_mod (by omega), ofNat_of_mod (by omega)⟩

theorem segmentByte2 (r : SegmentRecord) (entry : Option Nat) {j : Nat} (h : j < 8) :
    (payloadByte (segmentPayload r entry) 2).getLsbD j =
      [r.shortPre, r.unaligned, r.refSwitch, r.noticeDropped, r.logLost, r.recovered][j]?.getD false := by
  refine flagByte_bit (n := bitNat r.shortPre 0 + bitNat r.unaligned 1 + bitNat r.refSwitch 2 + bitNat r.noticeDropped 3
    + bitNat r.logLost 4 + bitNat r.recovered 5) ?_ h
  simp only [bitNat_eq, natLsbFirst]
  omega

/-- Byte 0 of a DECODE record. -/
theorem decodeByte0 (r : LogRecord) : (payloadByte (decodePayload r) 0).extractLsb' 6 2 = 1 ∧
    (payloadByte (decodePayload r) 0).extractLsb' 4 2 = BitVec.ofNat 2 r.content.decoder.val ∧
    (payloadByte (decodePayload r) 0).extractLsb' 0 4 = BitVec.ofNat 4 (recordKindCode r.content.kind) := by
  show (byteOfNat (64 + 16 * r.content.decoder.val + recordKindCode r.content.kind)).extractLsb' 6 2 = _ ∧
    (byteOfNat (64 + 16 * r.content.decoder.val + recordKindCode r.content.kind)).extractLsb' 4 2 = _ ∧
    (byteOfNat (64 + 16 * r.content.decoder.val + recordKindCode r.content.kind)).extractLsb' 0 4 = _
  have decoder := r.content.decoder.isLt
  have kind := recordKindCode_lt r.content.kind
  rw [byteOfNat_extract (by decide), byteOfNat_extract (by decide), byteOfNat_extract (by decide)]
  exact ⟨ofNat_of_mod (b := 1) (by omega), ofNat_of_mod (by omega), ofNat_of_mod (by omega)⟩

theorem decodeByte3 (r : LogRecord) {j : Nat} (h : j < 8) : (payloadByte (decodePayload r) 3).getLsbD j =
    [r.content.flags.parity, r.content.flags.framing, r.content.flags.nack, r.content.flags.read, r.content.flags.truncated,
      r.content.flags.glitch, r.content.flags.clipped][j]?.getD false := by
  refine flagByte_bit (n := bitNat r.content.flags.parity 0 + bitNat r.content.flags.framing 1 +
    bitNat r.content.flags.nack 2 + bitNat r.content.flags.read 3 + bitNat r.content.flags.truncated 4 +
    bitNat r.content.flags.glitch 5 + bitNat r.content.flags.clipped 6) ?_ h
  simp only [bitNat_eq, natLsbFirst]
  omega

/-- The last field of a DECODE record, where its time fits it. -/
theorem decodeEndTime (r : LogRecord) (h : r.content.endTime < 2 ^ 48) :
    payloadNat (decodePayload r) 22 6 = r.content.endTime := by
  have last : (decodePayload r).drop 22 = endTimeBytes r.content.endTime := rfl
  refine payloadNat_field ?_ (h.trans_eq (by norm_num))
  rw [last, List.take_of_length_le (endTimeBytes_length _).le, endTimeBytes_of h]

/-- Byte 0 of an ENTRIES record. -/
theorem entryByte0 (segment start : Nat) (e : Entry) (small : segment < 32) :
    (payloadByte (entryPayload segment start e) 0).extractLsb' 6 2 = 2 ∧
      (payloadByte (entryPayload segment start e) 0).extractLsb' 0 5 = BitVec.ofNat 5 segment ∧
      ((payloadByte (entryPayload segment start e) 0).getLsbD 5 = true ↔ e.data = .gap) := by
  obtain ⟨data, count⟩ := e
  cases data with
  | levels l g =>
    show (byteOfNat (128 + segment % 32)).extractLsb' 6 2 = _ ∧ (byteOfNat (128 + segment % 32)).extractLsb' 0 5 = _ ∧
      ((byteOfNat (128 + segment % 32)).getLsbD 5 = true ↔ _)
    rw [byteOfNat_extract (by decide), byteOfNat_extract (by decide), byteOfNat_bit (by decide), decide_eq_true_iff]
    exact ⟨ofNat_of_mod (b := 2) (by omega), ofNat_of_mod (by omega), fun h => by omega, nofun⟩
  | gap =>
    show (byteOfNat (128 + segment % 32 + 32)).extractLsb' 6 2 = _ ∧
      (byteOfNat (128 + segment % 32 + 32)).extractLsb' 0 5 = _ ∧
      ((byteOfNat (128 + segment % 32 + 32)).getLsbD 5 = true ↔ _)
    rw [byteOfNat_extract (by decide), byteOfNat_extract (by decide), byteOfNat_bit (by decide), decide_eq_true_iff]
    exact ⟨ofNat_of_mod (b := 2) (by omega), ofNat_of_mod (by omega), fun _ => rfl, fun _ => by omega⟩

end Sys2Proof.Machine

namespace Sys2Proof.Proofs
open Sys2Proof Sys2Proof.Machine

/-- Settles O11: each message's payload, field by field. -/
theorem payloadsFollowTheirLayouts : Obligations.PayloadsFollowTheirLayouts := by
  refine ⟨fun m => ?_, fun segment time small fits => ?_, fun c open' closed rate lost => ?_, fun d sent => ?_,
    fun i start e small fits one most => ?_, fun r entry small first next number correction reference => ?_,
    fun r small bits sequence start ending => ?_⟩
  · match m with
    | .notice _ _ => exact List.mem_singleton.mpr rfl
    | .status c => exact List.mem_singleton.mpr c.payload_length
    | .data (.entry i start e) => exact List.mem_singleton.mpr (entryPayload_length i start e)
    | .data (.segment r t) => exact List.mem_singleton.mpr (segmentPayload_length r t)
    | .data (.decode r) => exact List.mem_singleton.mpr (decodePayload_length r)
    | .done _ => exact List.mem_singleton.mpr rfl
  · exact ⟨payloadNat_byte rfl small, payloadNat_field rfl (fits.trans_eq (by norm_num))⟩
  · obtain ⟨locked, clock⟩ := statusByte3 c
    obtain ⟨mask, sticky⟩ := statusByte8 c
    have flags {j : Nat} (h : j < 8) := statusByte7 c h
    refine ⟨(payloadNat_byte rfl (v := c.runState.code) ?_).trans ?_, payloadNat_byte rfl ?_, payloadNat_byte rfl ?_, locked, ?_,
      payloadNat_field rfl (rate.trans_eq (by norm_num)), flags (by decide), flags (by decide), flags (by decide),
      flags (by decide), mask, sticky, fun d => statusLost c d (lost d), statusByte17 c,
      (payloadNat_byte rfl (v := c.resetCause.code) ?_).trans ?_, ?_, ?_,
      (payloadNat_byte rfl (v := busErrorCode c.lastBusError) ?_).trans ?_⟩
    · cases c.runState <;> decide
    · cases c.runState <;> rfl
    · cases h : c.openSegment with
      | none => decide
      | some i => exact (open' i h).trans (by decide)
    · omega
    · rw [clock]
      cases c.clockState <;> rfl
    · cases c.resetCause <;> decide
    · cases c.resetCause <;> rfl
    · show (byteOfNat (refusalCode c.lastRefusal)).extractLsb' 0 2 = _
      rcases c.lastRefusal with _ | ⟨_ | _, _ | _⟩ <;> rfl
    · show (byteOfNat (refusalCode c.lastRefusal)).extractLsb' 2 2 = _
      rcases c.lastRefusal with _ | ⟨_ | _, _ | _⟩ <;> rfl
    · rcases c.lastBusError with _ | e
      · decide
      · cases e <;> decide
    · rcases c.lastBusError with _ | e
      · rfl
      · cases e <;> rfl
  · rw [Done.payload]
    cases d.reason <;> rfl
  · obtain ⟨kind, index, gap⟩ := entryByte0 i start e small
    obtain ⟨data, count⟩ := e
    have counted : count - 1 < 256 ^ 3 := by
      have : count ≤ 2 ^ 24 := most
      omega
    have startFits : start < 256 ^ 6 := fits.trans_eq (by norm_num)
    cases data with
    | levels l g =>
      refine ⟨kind, index, gap, payloadNat_field rfl startFits, ?_, payloadNat_field rfl (l.isLt.trans_eq (by norm_num)),
        payloadNat_field rfl (g.isLt.trans_eq (by norm_num))⟩
      exact (congrArg (· + 1) (payloadNat_field rfl counted)).trans (Nat.sub_add_cancel one)
    | gap =>
      refine ⟨kind, index, gap, payloadNat_field rfl startFits, ?_, rfl, rfl⟩
      exact (congrArg (· + 1) (payloadNat_field rfl counted)).trans (Nat.sub_add_cancel one)
  · obtain ⟨kind, index, referenced⟩ := numberedByte r.index r.reference.isSome small
    obtain ⟨state, source, reason⟩ := segmentByte1 r entry
    have flags {j : Nat} (h : j < 8) := segmentByte2 r entry h
    refine ⟨kind, index, referenced, state.trans ?_, source.trans ?_, reason.trans ?_, flags (by decide), flags (by decide),
      flags (by decide), flags (by decide), flags (by decide), flags (by decide),
      payloadNat_field rfl (first.trans_eq (by norm_num)), payloadNat_field rfl (next.trans_eq (by norm_num)),
      payloadNat_field rfl ?_, payloadNat_field rfl (correction.trans_lt (by norm_num)), payloadNat_field rfl ?_⟩
    · cases r.state <;> rfl
    · cases r.source <;> rfl
    · rcases r.closeReason with _ | x
      · rfl
      · cases x <;> rfl
    · cases h : entry with
      | none => decide
      | some n => exact (number n h).trans (by norm_num)
    · cases h : r.reference with
      | none => decide
      | some n => exact (reference n h).trans_eq (by norm_num)
  · obtain ⟨kind, decoder, record⟩ := decodeByte0 r
    obtain ⟨-, segment, second⟩ := numberedByte r.content.segment r.content.value2.isSome small
    have flags {j : Nat} (h : j < 8) := decodeByte3 r h
    refine ⟨kind, decoder, record.trans ?_, segment, second, payloadNat_byte rfl (bits.trans_lt (by decide)), flags (by decide),
      flags (by decide), flags (by decide), flags (by decide), flags (by decide), flags (by decide), flags (by decide),
      payloadNat_field rfl (sequence.trans_eq (by norm_num)),
      payloadNat_field rfl (r.content.value.isLt.trans_eq (by norm_num)), payloadNat_field rfl ?_,
      payloadNat_field rfl (start.trans_eq (by norm_num)), decodeEndTime r ending⟩
    · cases r.content.kind <;> rfl
    · cases r.content.value2 with
      | none => decide
      | some w => exact w.isLt.trans_eq (by norm_num)

end Sys2Proof.Proofs
end

