-- ==== Sys2Proof/Proofs/PanelPixels.lean ====
section
/-! PROOF. The panel's pixels and bytes (R150, R155 to R157): the rows a frame sends, the band pixel behind each panel pixel,
and the bytes of each command. -/

namespace Sys2Proof.Machine

/-! ### Placed lanes -/

/-- A band row lies in a lane. -/
def PlacedLane.holds (l : PlacedLane) (y : Nat) : Prop := l.top ≤ y ∧ y < l.top + l.lane.height

/-- The rows that some placed lanes take. -/
def rowsOf (placed : List PlacedLane) : Nat := (placed.map (fun l => l.lane.height)).sum

theorem placeLanesFrom_cons (y : Nat) (l : Lane) (rest : List Lane) : placeLanesFrom y (l :: rest) =
    if y + l.height ≤ 120 then { top := y, lane := l } :: placeLanesFrom (y + l.height) rest else [] := rfl

theorem placeLanesFrom_bounds (lanes : List Lane) : ∀ y : Nat, ∀ l ∈ placeLanesFrom y lanes,
    y ≤ l.top ∧ l.top + l.lane.height ≤ y + rowsOf (placeLanesFrom y lanes) := by
  induction lanes with
  | nil => exact fun y l hl => nomatch hl
  | cons first rest ih =>
    intro y l hl
    rw [placeLanesFrom_cons] at hl ⊢
    split at hl
    · next fits =>
      rw [if_pos fits, rowsOf, List.map_cons, List.sum_cons, ← rowsOf]
      rcases List.mem_cons.mp hl with rfl | hl
      · dsimp only
        omega
      · have := ih (y + first.height) l hl
        dsimp only
        omega
    · exact nomatch hl

/-- R142: no row lies in two lanes. -/
theorem placeLanesFrom_disjoint (lanes : List Lane) : ∀ (y q : Nat) (l k : PlacedLane), l ∈ placeLanesFrom y lanes →
    k ∈ placeLanesFrom y lanes → l.holds q → k.holds q → l = k := by
  induction lanes with
  | nil => exact fun y q l k hl => nomatch hl
  | cons first rest ih =>
    intro y q l k hl hk inL inK
    rw [placeLanesFrom_cons] at hl hk
    split at hl
    · next fits =>
      rw [if_pos fits] at hk
      have apart (x : PlacedLane) (hx : x ∈ placeLanesFrom (y + first.height) rest) (inX : x.holds q)
          (inFirst : PlacedLane.holds { top := y, lane := first } q) : False := by
        have low := (placeLanesFrom_bounds rest (y + first.height) x hx).1
        obtain ⟨inX, -⟩ := inX
        obtain ⟨-, inFirst⟩ := inFirst
        dsimp only at inFirst
        omega
      rcases List.mem_cons.mp hl with rfl | hl <;> rcases List.mem_cons.mp hk with rfl | hk
      · rfl
      · exact (apart k hk inK inL).elim
      · exact (apart l hl inL inK).elim
      · exact ih (y + first.height) q l k hl hk inL inK
    · exact nomatch hl

/-! ### Rows -/

section
variable {lanes : List Lane} {y : Nat}

theorem placeLanes_rows_le (lanes : List Lane) : rowsOf (placeLanes lanes) ≤ 120 := by
  obtain ⟨placed, -, room, -⟩ := placeLanesFrom_places lanes 0 (by decide)
  have taken : (placeLanes lanes).map PlacedLane.lane = lanes.take (placeLanes lanes).length := placed
  have same : rowsOf (placeLanes lanes) = heightOf lanes (placeLanes lanes).length := by
    rw [heightOf, ← taken, List.map_map]
    rfl
  rw [same]
  exact (Nat.zero_add _).symm.trans_le room

/-- R155: in a reversed frame a lane's rows keep their order, and the lanes follow each other from the bottom. -/
theorem panelRow_within {l : PlacedLane} (hl : l ∈ placeLanes lanes) (within : l.holds y) :
    panelRow (placeLanes lanes) true y = 120 - l.top - l.lane.height + (y - l.top) := by
  have found : (placeLanes lanes).find? (fun l => l.top ≤ y && y < l.top + l.lane.height) = some l := by
    cases h : (placeLanes lanes).find? (fun l => l.top ≤ y && y < l.top + l.lane.height) with
    | none => exact absurd (by simpa [PlacedLane.holds] using within) (List.find?_eq_none.mp h l hl)
    | some k =>
      have inK : k.holds y := by simpa [PlacedLane.holds] using List.find?_some h
      rw [placeLanesFrom_disjoint lanes 0 y k l (List.mem_of_find?_eq_some h) hl inK within]
  rw [panelRow, found]
  rfl

theorem panelRow_below (outside : ∀ l ∈ placeLanes lanes, ¬l.holds y) :
    panelRow (placeLanes lanes) true y = y - rowsOf (placeLanes lanes) := by
  have none : (placeLanes lanes).find? (fun l => l.top ≤ y && y < l.top + l.lane.height) = none :=
    List.find?_eq_none.mpr fun l hl => by simpa [PlacedLane.holds] using outside l hl
  rw [panelRow, none]
  rfl

theorem outside_of_rows_le (h : rowsOf (placeLanes lanes) ≤ y) : ∀ l ∈ placeLanes lanes, ¬l.holds y := by
  intro l hl within
  obtain ⟨-, high⟩ := placeLanesFrom_bounds lanes 0 l hl
  obtain ⟨-, inside⟩ := within
  have total : l.top + l.lane.height ≤ 0 + rowsOf (placeLanes lanes) := high
  omega

/-- Every row above the end of the placed lanes lies in one of them. -/
theorem placeLanesFrom_covers (lanes : List Lane) : ∀ y q : Nat, y ≤ q → q < y + rowsOf (placeLanesFrom y lanes) →
    ∃ l ∈ placeLanesFrom y lanes, l.holds q := by
  induction lanes with
  | nil => exact fun y q low high => absurd high (Nat.not_lt.mpr low)
  | cons first rest ih =>
    intro y q low high
    rw [placeLanesFrom_cons] at high ⊢
    split at high
    · next fits =>
      rw [if_pos fits]
      by_cases here : q < y + first.height
      · exact ⟨_, List.mem_cons_self, low, here⟩
      · rw [rowsOf, List.map_cons, List.sum_cons, ← rowsOf] at high
        dsimp only at high
        obtain ⟨l, hl, within⟩ := ih (y + first.height) q (Nat.le_of_not_lt here) (by omega)
        exact ⟨l, List.mem_cons_of_mem _ hl, within⟩
    · exact absurd high (Nat.not_lt.mpr low)

theorem rows_le_of_outside (h : ∀ l ∈ placeLanes lanes, ¬l.holds y) : rowsOf (placeLanes lanes) ≤ y := by
  by_contra above
  obtain ⟨l, hl, within⟩ := placeLanesFrom_covers lanes 0 y (Nat.zero_le y) (by
    rw [Nat.zero_add]; exact Nat.lt_of_not_le above)
  exact h l hl within

/-- R155: reversed, a row's mirror image lies in the same lane as the row. -/
theorem panelRow_mirror {l : PlacedLane} (hl : l ∈ placeLanes lanes) (small : y < 120) :
    l.holds (119 - panelRow (placeLanes lanes) true y) ↔ l.holds y := by
  have fits (k : PlacedLane) (hk : k ∈ placeLanes lanes) : k.top + k.lane.height ≤ 120 := by
    have := (placeLanesFrom_bounds lanes 0 k hk).2
    have total : k.top + k.lane.height ≤ 0 + rowsOf (placeLanes lanes) := this
    have := placeLanes_rows_le lanes
    omega
  by_cases within : ∃ k ∈ placeLanes lanes, k.holds y
  · obtain ⟨k, hk, inK⟩ := within
    have row := panelRow_within hk inK
    have mirror : k.holds (119 - panelRow (placeLanes lanes) true y) := by
      obtain ⟨low, high⟩ := inK
      have := fits k hk
      rw [row]
      constructor <;> omega
    constructor
    · intro inL
      rwa [placeLanesFrom_disjoint lanes 0 _ l k hl hk inL mirror]
    · intro inL
      rwa [placeLanesFrom_disjoint lanes 0 _ l k hl hk inL inK]
  · have outside (k : PlacedLane) (hk : k ∈ placeLanes lanes) : ¬k.holds y := fun inK => within ⟨k, hk, inK⟩
    have ends := rows_le_of_outside outside
    have beyond : rowsOf (placeLanes lanes) ≤ 119 - panelRow (placeLanes lanes) true y := by
      rw [panelRow_below outside]
      omega
    exact ⟨fun inL => absurd inL (outside_of_rows_le beyond l hl), fun inL => absurd inL (outside l hl)⟩

end

/-- R155: no two band rows are shown at one panel row. -/
theorem panelRow_injective {lanes : List Lane} {vertical : Bool} {y z : Nat} (hy : y < 120) (hz : z < 120)
    (same : panelRow (placeLanes lanes) vertical y = panelRow (placeLanes lanes) vertical z) : y = z := by
  cases vertical with
  | false => exact same
  | true =>
    by_cases within : ∃ l ∈ placeLanes lanes, l.holds y
    · obtain ⟨l, hl, inY⟩ := within
      have inZ : l.holds z := (panelRow_mirror hl hz).mp (same ▸ (panelRow_mirror hl hy).mpr inY)
      rw [panelRow_within hl inY, panelRow_within hl inZ] at same
      obtain ⟨lowY, -⟩ := inY
      obtain ⟨lowZ, -⟩ := inZ
      omega
    · have outY (l : PlacedLane) (hl : l ∈ placeLanes lanes) : ¬l.holds y := fun inY => within ⟨l, hl, inY⟩
      have outZ (l : PlacedLane) (hl : l ∈ placeLanes lanes) : ¬l.holds z := fun inZ =>
        outY l hl ((panelRow_mirror hl hy).mp (same ▸ (panelRow_mirror hl hz).mpr inZ))
      rw [panelRow_below outY, panelRow_below outZ] at same
      have lowY := rows_le_of_outside outY
      have lowZ := rows_le_of_outside outZ
      omega

theorem bandRow_panelRow (lanes : List Lane) (vertical : Bool) {y : Nat} (hy : y < 120) :
    bandRow (placeLanes lanes) vertical (panelRow (placeLanes lanes) vertical y) = y := by
  have found : ((List.range 120).find? (fun z =>
      panelRow (placeLanes lanes) vertical z == panelRow (placeLanes lanes) vertical y)) = some y := by
    cases h : (List.range 120).find? (fun z =>
      panelRow (placeLanes lanes) vertical z == panelRow (placeLanes lanes) vertical y) with
    | none => exact absurd (beq_self_eq_true _) (List.find?_eq_none.mp h y (List.mem_range.mpr hy))
    | some z =>
      have shown := List.find?_some h
      rw [panelRow_injective (List.mem_range.mp (List.mem_of_find?_eq_some h)) hy (beq_iff_eq.mp shown)]
  exact congrArg (Option.getD · 0) found

theorem bandColumn_reversed (horizontal : Bool) {c : Nat} (hc : c < 320) :
    bandColumn horizontal (if horizontal then 319 - c else c) = c := by
  cases horizontal
  · rfl
  · show 319 - (319 - c) = c
    omega

/-! ### The colours of a frame -/

theorem rowMajor_length {α : Type} (g : Nat → Nat → α) (m n : Nat) :
    ((List.range n).flatMap (fun row => (List.range m).map (g row))).length = m * n := by
  simp [List.length_flatMap, Nat.mul_comm]

theorem rowMajor_getElem? {α : Type} (g : Nat → Nat → α) (m : Nat) {x : Nat} (hx : x < m) : ∀ {n row : Nat}, row < n →
    ((List.range n).flatMap (fun row => (List.range m).map (g row)))[row * m + x]? = some (g row x) := by
  intro n
  induction n with
  | zero => exact fun h => absurd h (Nat.not_lt_zero _)
  | succ n ih =>
    intro row hrow
    rw [List.range_succ, List.flatMap_append]
    have length := rowMajor_length g m n
    by_cases before : row < n
    · have bound : row * m + x < m * n := by
        calc row * m + x < row * m + m := by omega
          _ = m * (row + 1) := by ring
          _ ≤ m * n := Nat.mul_le_mul_left m before
      rw [List.getElem?_append_left (by rw [length]; exact bound)]
      exact ih before
    · obtain rfl : row = n := by omega
      have start : m * row ≤ row * m + x := by rw [Nat.mul_comm]; omega
      rw [List.getElem?_append_right (by rw [length]; exact start), length, List.flatMap_singleton, Nat.mul_comm m row,
        Nat.add_sub_cancel_left, List.getElem?_map, List.getElem?_range hx]
      rfl

/-! ### Bytes -/

/-- R156: a 16-bit parameter, high byte first. -/
theorem portWord_eq (w : BitVec 16) : portWord w = [(true, w.extractLsb' 8 8), (true, w.extractLsb' 0 8)] := by
  have high : BitVec.ofNat 8 (w.toNat / 256 ^ 1) = w.extractLsb' 8 8 := by
    rw [BitVec.extractLsb', Nat.shiftRight_eq_div_pow, Nat.pow_one]
  have low : BitVec.ofNat 8 (w.toNat / 256 ^ 0) = w.extractLsb' 0 8 := by
    rw [BitVec.extractLsb', Nat.shiftRight_eq_div_pow, Nat.pow_zero]
  rw [← high, ← low]
  rfl

theorem portWord_toNat (w : BitVec 16) : portWord (BitVec.ofNat 16 w.toNat) = portWord w := by
  rw [BitVec.ofNat_toNat, BitVec.setWidth_eq]

end Sys2Proof.Machine

namespace Sys2Proof.Proofs
open Sys2Proof Sys2Proof.Machine

/-- Settles O52: rows, colours in window order, the row map and its inverse, and the bytes. -/
theorem panelPixelsAndBytes : Obligations.PanelPixelsAndBytes := by
  refine ⟨fun f => ⟨?_, fun vertical y => ?_⟩, fun p f m => ⟨rowMajor_length _ 320 _, fun x row hx hrow => ?_,
    fun lanes c y placed hc hy => ?_, fun c y => rfl⟩, fun lanes y hy => ⟨rfl, fun l hl low high => ?_, fun below => ?_⟩,
    fun x0 x1 y0 y1 colours => ⟨?_, ?_, rfl, rfl⟩, fun s => rfl⟩
  · rw [FrameCapture.rows]
    cases f.wake <;> simp
  · rw [FrameCapture.renders, Bool.and_eq_true, decide_eq_true_iff, decide_eq_true_iff]
  · exact rowMajor_getElem? (fun row x => panelPixel p f m x (f.rows.1 + row)) 320 hx hrow
  · rw [panelPixel, placed, bandColumn_reversed _ hc, bandRow_panelRow lanes _ hy]
  · exact panelRow_within hl ⟨low, high⟩
  · exact panelRow_below (outside_of_rows_le below)
  · rw [PanelCommand.bytes, List.flatMap_cons, List.flatMap_cons, List.flatMap_cons, List.flatMap_singleton, portWord_toNat,
      portWord_toNat, portWord_toNat, portWord_toNat, portWord_eq, portWord_eq, portWord_eq, portWord_eq]
    rfl
  · rw [PanelCommand.bytes, funext portWord_eq]

end Sys2Proof.Proofs
end

