-- ==== Sys2Proof/Proofs/Columns.lean ====
section
/-! PROOF. The columns of a frame (R150): a run of pixel writes, read back pixel by pixel, and the column it makes. -/

namespace Sys2Proof.Machine

/-! ### A run of writes -/

section
variable {β V : Type} (writes : β → Bool) (position : β → Nat) (value : β → V)

/-- One of a run of writes, made where it is let. -/
def paint (m : Mem V) (b : β) : Mem V := if writes b then Memory.write m (position b) (value b) else m

variable {writes position value} {p : Nat}

theorem read_paint_elsewhere {b : β} (h : writes b = true → position b ≠ p) (m : Mem V) :
    Memory.read (paint writes position value m b) p = Memory.read m p := by
  unfold paint
  split
  · next on => exact Memory.read_write_other m _ (h on).symm
  · rfl

theorem read_paint_here {b : β} (on : writes b = true) (here : position b = p) (m : Mem V) :
    Memory.read (paint writes position value m b) p = some (value b) := by
  rw [paint, if_pos on, here]
  exact Memory.read_write_same m p _

theorem read_painted_elsewhere {l : List β} (h : ∀ b ∈ l, writes b = true → position b ≠ p) (m : Mem V) :
    Memory.read (l.foldl (paint writes position value) m) p = Memory.read m p := by
  induction l generalizing m with
  | nil => rfl
  | cons b rest ih =>
    rw [List.foldl_cons, ih (fun x hx => h x (List.mem_cons_of_mem _ hx)), read_paint_elsewhere (h b List.mem_cons_self)]

theorem read_painted {l : List β} {v : V} (same : ∀ b ∈ l, writes b = true → position b = p → value b = v)
    (some' : ∃ b ∈ l, writes b = true ∧ position b = p) (m : Mem V) :
    Memory.read (l.foldl (paint writes position value) m) p = some v := by
  induction l generalizing m with
  | nil =>
    obtain ⟨b, hb, -⟩ := some'
    exact nomatch hb
  | cons b rest ih =>
    rw [List.foldl_cons]
    by_cases later : ∃ x ∈ rest, writes x = true ∧ position x = p
    · exact ih (fun x hx => same x (List.mem_cons_of_mem _ hx)) later _
    · obtain ⟨x, hx, on, here⟩ := some'
      rcases List.mem_cons.mp hx with rfl | hx
      · rw [read_painted_elsewhere fun y hy onY hereY => later ⟨y, hy, onY, hereY⟩, read_paint_here on here,
          same x List.mem_cons_self on here]
      · exact (later ⟨x, hx, on, here⟩).elim

end

/-! ### A column -/

theorem pixelPosition_eq (column y : Nat) : pixelPosition column y = y * 320 + column := rfl

theorem writeColumn_eq (f : FrameCapture) (vertical : Bool) (column : Nat) (pixel : Nat → BitVec 2) (m : Mem (BitVec 2)) :
    writeColumn f vertical column pixel m = (List.range 120).foldl
      (paint (f.renders vertical) (fun y => pixelPosition column y) pixel) m := rfl

section
variable {f : FrameCapture} {vertical : Bool} {column : Nat} {pixel : Nat → BitVec 2} {m : Mem (BitVec 2)}

theorem read_writeColumn_at {y : Nat} (small : y < 120) (renders : f.renders vertical y = true) :
    Memory.read (writeColumn f vertical column pixel m) (y * 320 + column) = some (pixel y) := by
  rw [writeColumn_eq]
  refine read_painted (fun z _ _ here => congrArg pixel ?_) ⟨y, List.mem_range.mpr small, renders, rfl⟩ m
  simp only [pixelPosition_eq] at here
  omega

theorem read_writeColumn_other {p : Nat} (h : ∀ y : Nat, y < 120 → f.renders vertical y = true → p ≠ y * 320 + column) :
    Memory.read (writeColumn f vertical column pixel m) p = Memory.read m p := by
  rw [writeColumn_eq]
  exact read_painted_elsewhere (fun y hy renders here => h y (List.mem_range.mp hy) renders here.symm) m

end

/-! ### The texts of the runs that end -/

theorem boxRunEnds_none (shown : LaneColumn) : boxRunEnds none shown = none := by
  unfold boxRunEnds
  cases shown.alone <;> rfl

theorem writeEnded_none {l : List (PlacedLane × Option BoxRun × LaneColumn)} (h : ∀ e ∈ l, e.2.1 = none)
    (f : FrameCapture) (vertical : Bool) (column : Nat) (m : Mem (BitVec 2)) : writeEnded f vertical column m l = m := by
  induction l with
  | nil => rfl
  | cons e rest ih =>
    obtain ⟨lane, run, shown⟩ := e
    have none : run = .none := h _ List.mem_cons_self
    rw [writeEnded, none, boxRunEnds_none]
    exact ih fun x hx => h x (List.mem_cons_of_mem _ hx)

/-- R150: the next column of a frame. -/
theorem State.columnRender_eq {s : State} {f : FrameCapture} (active : s.active = true)
    (rendering : s.ren.frameState = .rendering) (capture : s.ren.capture = some f) (more : s.ren.column < 320) :
    s.columnRender = s.renderColumn f := by
  have column : s.ren.column < Config.columns := more
  rw [State.columnRender, capture]
  exact if_pos (by simp [active, rendering, column])

end Sys2Proof.Machine

namespace Sys2Proof.Proofs
open Sys2Proof Sys2Proof.Machine

/-- Settles O49: the column written, then the texts of the runs it ends, of which there are none where no run is under way. -/
theorem columnIsRendered : Obligations.ColumnIsRendered := by
  intro s f active rendering capture more c shown pixel written
  have rendered : exec .columnRender s = .next (s.renderColumn f) :=
    congrArg Host.Outcome.next (State.columnRender_eq active rendering capture more)
  have runs : ((f.lanes.map (fun l => (l, shown l))).zip s.ren.boxRuns).map (fun e => (e.1.1, e.2, e.1.2)) =
      (f.lanes.zip s.ren.boxRuns).map (fun e => (e.1, e.2, shown e.1)) := by
    rw [List.zip_map_left, List.map_map]
    rfl
  have drawn : written (writeColumn f s.port.verticalReversal c pixel s.ren.frameStore) :=
    ⟨fun y small renders => read_writeColumn_at small renders, fun p apart => read_writeColumn_other apart⟩
  have store : (s.renderColumn f).ren.frameStore = writeEnded f s.port.verticalReversal c
      (writeColumn f s.port.verticalReversal c pixel s.ren.frameStore)
      ((f.lanes.zip s.ren.boxRuns).map (fun e => (e.1, e.2, shown e.1))) := by
    rw [← runs]
    rfl
  have boxes : (s.renderColumn f).ren.boxRuns =
      (f.lanes.zip s.ren.boxRuns).map (fun e => nextBoxRun e.2 (shown e.1) c) := by
    show (((f.lanes.map (fun l => (l, shown l))).zip s.ren.boxRuns).map (fun e => (e.1.1, e.2, e.1.2))).map _ = _
    rw [runs, List.map_map]
    rfl
  refine ⟨_, _, rendered, drawn, store, boxes, fun idle => ?_, rfl⟩
  rw [store, writeEnded_none fun e he => ?_]
  · exact drawn
  · obtain ⟨x, hx, rfl⟩ := List.mem_map.mp he
    exact Option.isNone_iff_eq_none.mp (List.all_eq_true.mp idle x.2 (List.of_mem_zip hx).2)

end Sys2Proof.Proofs
end

