-- ==== Sys2Proof/Proofs/LaneTexts.lean ====
section
/-! PROOF. Decode lanes, the marker, and the texts of box runs (R135, R146 to R149). -/

namespace Sys2Proof.Machine

/-! ### The width of a column, and spans -/

theorem columnWidth_steps (m : Nat) : columnWidth (3 * m) = 10 ^ m ∧ columnWidth (3 * m + 1) = 2 * 10 ^ m ∧
    columnWidth (3 * m + 2) = 5 * 10 ^ m := by
  have r0 : 3 * m % 3 = 0 := by omega
  have r1 : (3 * m + 1) % 3 = 1 := by omega
  have r2 : (3 * m + 2) % 3 = 2 := by omega
  have q0 : 3 * m / 3 = m := by omega
  have q1 : (3 * m + 1) / 3 = m := by omega
  have q2 : (3 * m + 2) / 3 = m := by omega
  simp only [columnWidth, r0, r1, r2, q0, q1, q2, Nat.one_mul, and_self]

theorem columnWidth_pos (k : Nat) : 0 < columnWidth k := by
  unfold columnWidth
  split <;> positivity

theorem FrameCapture.edge_eq (f : FrameCapture) (c : Nat) :
    f.edge c = f.leftEdge + (c : Int) * (columnWidth f.view.scale : Int) := rfl

theorem FrameCapture.edge_succ (f : FrameCapture) (c : Nat) :
    f.edge (c + 1) = f.leftEdge + ((c : Int) + 1) * (columnWidth f.view.scale : Int) := by
  rw [FrameCapture.edge_eq, Nat.cast_add_one]

/-! ### Decode lanes -/

/-- R146: the records that a decode lane's column shows. -/
def State.laneRecords (s : State) (f : FrameCapture) (c : Nat) (d : Fin 4) : List LogRecord :=
  if (s.dec.units.get d).settings = .off then [] else s.log.meeting d f.view.segment (f.edge c) (f.edge (c + 1))

theorem State.laneColumn_decoder {s : State} {l : PlacedLane} {d : Fin 4} (h : l.lane.source = .decoder d)
    (f : FrameCapture) (c : Nat) : s.laneColumn f c l = .decoder (s.laneRecords f c d) := by
  rw [State.laneColumn, h]
  rfl

theorem State.laneRecords_sublist (s : State) (f : FrameCapture) (c : Nat) (d : Fin 4) :
    (s.laneRecords f c d).Sublist s.log.records := by
  unfold State.laneRecords
  split
  · exact List.nil_sublist _
  · exact List.filter_sublist

theorem State.mem_laneRecords (s : State) (f : FrameCapture) (c : Nat) (d : Fin 4) (r : LogRecord) :
    r ∈ s.laneRecords f c d ↔ r ∈ s.log.records ∧ (s.dec.units.get d).settings ≠ .off ∧ r.content.decoder = d ∧
      r.content.segment = f.view.segment ∧ (r.content.startTime : Int) < f.edge (c + 1) ∧
      f.edge c < (r.content.endTime : Int) := by
  unfold State.laneRecords
  by_cases off : (s.dec.units.get d).settings = .off
  · simp [off]
  · rw [if_neg off, Log.meeting, List.mem_filter]
    simp [off, and_assoc]

section
variable {rs : List LogRecord} {h : Nat} {colour : BitVec 2} {j : Nat}

theorem decodePixel_margin (tall : 4 ≤ h) (at' : j = 0 ∨ j = h - 1) : decodePixel rs h colour j = 0 := by
  refine if_neg fun c => ?_
  obtain ⟨low, high⟩ := Bool.and_eq_true_iff.mp c
  have low := of_decide_eq_true low
  have high := of_decide_eq_true high
  omega

theorem decodePixel_box (low : 1 ≤ j) (high : j ≤ h - 2) (tall : 4 ≤ h) : decodePixel rs h colour j = boxColour rs colour :=
  if_pos (by rw [decide_eq_true low, decide_eq_true (show j + 2 ≤ h by omega)]; rfl)

theorem boxColour_many (many : 2 ≤ rs.length) : boxColour rs colour = colour := by
  match rs, many with
  | _ :: _ :: _, _ => rfl

end

/-! ### The marker -/

theorem FrameCapture.markerColumn_none {f : FrameCapture} (h : f.reference = none) : f.markerColumn = none := by
  rw [FrameCapture.markerColumn, h]

/-- A quotient, from the multiples on either side of what is divided. -/
theorem toNat_ediv_iff {x w : Int} (pos : 0 < w) (from' : 0 ≤ x) (c : Nat) :
    (x / w).toNat = c ↔ (c : Int) * w ≤ x ∧ x < ((c : Int) + 1) * w := by
  have nonneg : 0 ≤ x / w := Int.ediv_nonneg from' pos.le
  rw [← Int.le_ediv_iff_mul_le pos, ← Int.ediv_lt_iff_lt_mul pos]
  omega

/-- R149: the marker stands in the column whose span holds the reference time. -/
theorem FrameCapture.markerColumn_iff {f : FrameCapture} {time : Nat} (h : f.reference = some time) (c : Nat) :
    f.markerColumn = some c ↔ c < 320 ∧ f.edge c ≤ (time : Int) ∧ (time : Int) < f.edge (c + 1) := by
  have pos : (0 : Int) < columnWidth f.view.scale := by exact_mod_cast columnWidth_pos f.view.scale
  have first : f.edge 0 = f.leftEdge := by rw [FrameCapture.edge_eq, Nat.cast_zero, Int.zero_mul, Int.add_zero]
  have marker : f.markerColumn = if f.edge 0 ≤ (time : Int) ∧ (time : Int) < f.edge 320 then
      some (((time : Int) - f.leftEdge) / (columnWidth f.view.scale : Int)).toNat else none := by
    rw [FrameCapture.markerColumn, h]
    simp only [Bool.and_eq_true, decide_eq_true_eq]
    rfl
  have place (from' : f.edge 0 ≤ (time : Int)) :
      (((time : Int) - f.leftEdge) / (columnWidth f.view.scale : Int)).toNat = c ↔
        f.edge c ≤ (time : Int) ∧ (time : Int) < f.edge (c + 1) := by
    rw [first] at from'
    rw [toNat_ediv_iff pos (by omega), f.edge_succ, f.edge_eq]
    omega
  have mono {a b : Nat} (le : a ≤ b) : f.edge a ≤ f.edge b := by
    rw [f.edge_eq, f.edge_eq]
    exact Int.add_le_add_left (Int.mul_le_mul_of_nonneg_right (by exact_mod_cast le) pos.le) _
  rw [marker]
  constructor
  · intro here
    split at here
    · next within =>
      obtain ⟨low, high⟩ := (place within.1).mp (Option.some.inj here)
      refine ⟨?_, low, high⟩
      by_contra beyond
      exact absurd (mono (Nat.le_of_not_lt beyond)) (by omega)
    · cases here
  · rintro ⟨small, low, high⟩
    have from' := (mono (Nat.zero_le c)).trans low
    rw [if_pos ⟨from', high.trans_le (mono small)⟩, (place from').mpr ⟨low, high⟩]

/-! ### The pixel of a row -/

section
variable {f : FrameCapture} {shown : List (PlacedLane × LaneColumn)} {c y : Nat}

theorem LaneColumn.pixel_outside {l : PlacedLane} (h : ¬l.holds y) (x : LaneColumn) : x.pixel l c y = none :=
  if_neg (by simpa [PlacedLane.holds] using h)

theorem LaneColumn.pixel_within {l : PlacedLane} (h : l.holds y) (x : LaneColumn) : x.pixel l c y = some (match x with
    | .channel k => k.pixel l.lane.height l.lane.colour c (y - l.top)
    | .decoder records => decodePixel records l.lane.height l.lane.colour (y - l.top)) :=
  if_pos (by simpa [PlacedLane.holds] using h)

theorem columnPixel_marked (h : f.markerColumn = some c ∧ y < f.endOfLanes) : columnPixel f shown c y = 3 := if_pos h

theorem columnPixel_unmarked (h : ¬(f.markerColumn = some c ∧ y < f.endOfLanes)) :
    columnPixel f shown c y = (shown.findSome? (fun e => e.2.pixel e.1 c y)).getD 0 := if_neg h

theorem findSome?_split {α β : Type} {g : α → Option β} {a b : List α} {x : α} {v : β} (before : ∀ e ∈ a, g e = none)
    (here : g x = some v) : (a ++ x :: b).findSome? g = some v := by
  rw [List.findSome?_append, List.findSome?_eq_none_iff.mpr before, Option.none_or, List.findSome?_cons_of_isSome (by rw [here]; rfl), here]

end

/-! ### The text of a record -/

theorem hexDigits_eq (n v : Nat) : hexDigits n v =
    (List.range n).map (fun i => Glyph.digit (Fin.ofNat 16 (v / 16 ^ (n - 1 - i)))) := by
  induction n with
  | zero => rfl
  | succ n ih =>
    rw [hexDigits, List.range_succ_eq_map, List.map_cons, List.map_map, ih]
    refine congrArg₂ List.cons rfl (List.map_congr_left fun i _ => ?_)
    have same : n - 1 - i = n + 1 - 1 - (i + 1) := by omega
    rw [same]
    rfl

theorem recordText_eq (r : DecodeRecord) :
    let n := (r.bitCount + 3) / 4
    let digits := (List.range n).map (fun i => Glyph.digit (Fin.ofNat 16 (r.value.toNat / 16 ^ (n - 1 - i))))
    recordText r = (match r.kind with
        | .i2cStart => [.s]
        | .i2cRestart => [.r]
        | .i2cStop => [.p]
        | .i2cAddress => .a :: digits
        | _ => digits) ++
      (if r.flags.nack then [.n] else []) ++
      (if r.flags.parity || r.flags.framing || r.flags.truncated then [.mark] else []) := by
  intro n digits
  rw [recordText, hexDigits_eq]
  cases r.kind <;> rfl

/-! ### Glyphs and their pixels -/

theorem Glyph.mem_pixels (g : Glyph) (q : Nat × Nat) : q ∈ g.pixels ↔
    q.1 < 5 ∧ q.2 < 7 ∧ (g.rows.getD q.2 0).getLsbD (4 - q.1) = true := by
  obtain ⟨x, y⟩ := q
  have bit : (g.rows.getD y 0).getMsbD x = (decide (x < 5) && (g.rows.getD y 0).getLsbD (4 - x)) := rfl
  rw [Glyph.pixels, List.mem_filter, List.mem_flatMap]
  dsimp only
  rw [bit, Bool.and_eq_true, decide_eq_true_iff]
  constructor
  · rintro ⟨⟨row, hrow, place⟩, small, set⟩
    obtain ⟨column, -, same⟩ := List.mem_map.mp place
    obtain ⟨-, rfl⟩ := Prod.mk.inj same
    exact ⟨small, List.mem_range.mp hrow, set⟩
  · rintro ⟨small, low, set⟩
    exact ⟨⟨y, List.mem_range.mpr low, List.mem_map.mpr ⟨x, List.mem_range.mpr small, rfl⟩⟩, small, set⟩

/-- R147: the pixels of a text, glyph by glyph, six columns apart. -/
theorem mem_textPixels (row : Nat) (text : List Glyph) : ∀ (column : Nat) (q : Nat × Nat), q ∈ textPixels column row text ↔
    ∃ (j x y : Nat) (g : Glyph), text[j]? = some g ∧ (x, y) ∈ g.pixels ∧ q = (column + 6 * j + x, row + y) := by
  induction text with
  | nil =>
    intro column q
    refine ⟨fun h => (nomatch h), ?_⟩
    rintro ⟨j, x, y, g, at', -⟩
    cases at'
  | cons first rest ih =>
    intro column q
    rw [textPixels, List.mem_append, ih, List.mem_map]
    constructor
    · rintro (⟨⟨x, y⟩, pixel, rfl⟩ | ⟨j, x, y, g, at', pixel, rfl⟩)
      · exact ⟨0, x, y, first, rfl, pixel, rfl⟩
      · exact ⟨j + 1, x, y, g, at', pixel, Prod.ext (by dsimp only; omega) rfl⟩
    · rintro ⟨j, x, y, g, at', pixel, rfl⟩
      cases j with
      | zero =>
        obtain rfl : first = g := Option.some.inj at'
        exact .inl ⟨(x, y), pixel, rfl⟩
      | succ j => exact .inr ⟨j, x, y, g, at', pixel, Prod.ext (by dsimp only; omega) rfl⟩

/-! ### The text of a box run -/

section
variable (f : FrameCapture) (vertical : Bool) (l : PlacedLane) (b : BoxRun) (width : Nat) (m : Mem (BitVec 2))

/-- R147: the run and the lane have room for the text. -/
def textFits : Prop := 6 * (recordText b.record.content).length + 2 ≤ width ∧ 9 ≤ l.lane.height

/-- R147: the band row at which the text begins. -/
def textRow : Nat := l.top + 1 + (l.lane.height - 9) / 2

theorem writeText_eq : writeText f vertical l b width m =
    if 6 * (recordText b.record.content).length + 2 ≤ width && 9 ≤ l.lane.height then
      (textPixels (b.firstColumn + 1) (textRow l) (recordText b.record.content)).foldl
        (paint (fun q => f.renders vertical q.2) (fun q => pixelPosition q.1 q.2) (fun _ => 0)) m
    else m := rfl

variable {f vertical l b width m}

theorem writeText_fits (h : textFits l b width) : writeText f vertical l b width m =
    (textPixels (b.firstColumn + 1) (textRow l) (recordText b.record.content)).foldl
      (paint (fun q => f.renders vertical q.2) (fun q => pixelPosition q.1 q.2) (fun _ => 0)) m := by
  rw [writeText_eq, if_pos (by simpa [textFits] using h)]

theorem writeText_narrow (h : ¬textFits l b width) : writeText f vertical l b width m = m := by
  rw [writeText_eq, if_neg (by simpa [textFits] using h)]

/-- A store position of the text's set pixels, in a row the frame renders. -/
def inText (f : FrameCapture) (vertical : Bool) (l : PlacedLane) (b : BoxRun) (p : Nat) : Prop :=
  ∃ (j x y : Nat) (g : Glyph), (recordText b.record.content)[j]? = some g ∧ x < 5 ∧ y < 7 ∧
    (g.rows.getD y 0).getLsbD (4 - x) = true ∧ f.renders vertical (textRow l + y) = true ∧
    p = (textRow l + y) * 320 + (b.firstColumn + 1 + 6 * j + x)

theorem inText_iff (p : Nat) : inText f vertical l b p ↔
    ∃ q ∈ textPixels (b.firstColumn + 1) (textRow l) (recordText b.record.content),
      f.renders vertical q.2 = true ∧ pixelPosition q.1 q.2 = p := by
  constructor
  · rintro ⟨j, x, y, g, at', small, low, set, renders, rfl⟩
    exact ⟨_, (mem_textPixels _ _ _ _).mpr ⟨j, x, y, g, at', (g.mem_pixels _).mpr ⟨small, low, set⟩, rfl⟩, renders, rfl⟩
  · rintro ⟨q, hq, renders, rfl⟩
    obtain ⟨j, x, y, g, at', pixel, rfl⟩ := (mem_textPixels _ _ _ _).mp hq
    obtain ⟨small, low, set⟩ := (g.mem_pixels _).mp pixel
    exact ⟨j, x, y, g, at', small, low, set, renders, rfl⟩

theorem read_writeText_set {p : Nat} (fits : textFits l b width) (h : inText f vertical l b p) :
    Memory.read (writeText f vertical l b width m) p = some 0 := by
  rw [writeText_fits fits]
  exact read_painted (fun _ _ _ _ => rfl) ((inText_iff p).mp h) m

theorem read_writeText_clear {p : Nat} (h : ¬(textFits l b width ∧ inText f vertical l b p)) :
    Memory.read (writeText f vertical l b width m) p = Memory.read m p := by
  by_cases fits : textFits l b width
  · rw [writeText_fits fits]
    exact read_painted_elsewhere (fun q hq renders here => h ⟨fits, (inText_iff p).mpr ⟨q, hq, renders, here⟩⟩) m
  · rw [writeText_narrow fits]

end

/-! ### Box runs -/

theorem LaneColumn.alone_of_not {shown : LaneColumn} (h : ∀ r : LogRecord, shown ≠ .decoder [r]) : shown.alone = none := by
  match shown with
  | .channel _ => rfl
  | .decoder [] => rfl
  | .decoder [r] => exact absurd rfl (h r)
  | .decoder (_ :: _ :: _) => rfl

section
variable {run : Option BoxRun} {r : LogRecord} {b : BoxRun}

theorem nextBoxRun_same (same : r.sequence = b.record.sequence) (c : Nat) :
    nextBoxRun (some b) (.decoder [r]) c = some b ∧ boxRunEnds (some b) (.decoder [r]) = none :=
  ⟨if_pos same, if_pos same⟩

theorem nextBoxRun_other (other : r.sequence ≠ b.record.sequence) (c : Nat) :
    nextBoxRun (some b) (.decoder [r]) c = some { record := r, firstColumn := c } ∧
      boxRunEnds (some b) (.decoder [r]) = some b :=
  ⟨if_neg other, if_neg other⟩

theorem nextBoxRun_not {shown : LaneColumn} (h : ∀ r : LogRecord, shown ≠ .decoder [r]) (c : Nat) :
    nextBoxRun run shown c = none ∧ boxRunEnds run shown = run := by
  unfold nextBoxRun boxRunEnds
  rw [LaneColumn.alone_of_not h]
  cases run <;> exact ⟨rfl, rfl⟩

end

theorem writeEnded_goesOn {run : Option BoxRun} {shown : LaneColumn} (h : boxRunEnds run shown = none) (f : FrameCapture)
    (vertical : Bool) (c : Nat) (m : Mem (BitVec 2)) (l : PlacedLane)
    (rest : List (PlacedLane × Option BoxRun × LaneColumn)) :
    writeEnded f vertical c m ((l, run, shown) :: rest) = writeEnded f vertical c m rest := by
  rw [writeEnded, h]

theorem writeEnded_ends {run : Option BoxRun} {shown : LaneColumn} {b : BoxRun} (h : boxRunEnds run shown = some b)
    (f : FrameCapture) (vertical : Bool) (c : Nat) (m : Mem (BitVec 2)) (l : PlacedLane)
    (rest : List (PlacedLane × Option BoxRun × LaneColumn)) :
    writeEnded f vertical c m ((l, run, shown) :: rest) =
      writeEnded f vertical c (writeText f vertical l b (c - b.firstColumn) m) rest := by
  rw [writeEnded, h]

end Sys2Proof.Machine

namespace Sys2Proof.Proofs
open Sys2Proof Sys2Proof.Machine

/-- Settles O48: lanes, box, marker and pixel of a column; then texts, box runs and the glyph table. -/
theorem decodeLanesTextAndMarker : Obligations.DecodeLanesTextAndMarker := by
  refine ⟨columnWidth_steps, fun s f l d c source => ?_, fun rs h colour j tall _ => ⟨decodePixel_margin tall, fun low high => ?_⟩,
    fun f => ⟨FrameCapture.markerColumn_none, fun time known c => ?_⟩,
    fun f shown c y => ⟨columnPixel_marked, fun unmarked => ⟨fun a b l x split before within => ?_, fun none => ?_⟩⟩,
    recordText_eq, fun run shown c => ⟨?_, ?_, ?_, fun h => nextBoxRun_not h c⟩,
    fun f vertical c m => ⟨rfl, fun l run shown rest => ⟨fun h => writeEnded_goesOn h f vertical c m l rest,
      fun b h => writeEnded_ends h f vertical c m l rest⟩, fun l b width p => ⟨fun h => read_writeText_set h.1 h.2,
        fun h => read_writeText_clear h⟩⟩, rfl, rfl⟩
  · refine ⟨_, State.laneColumn_decoder source f c, s.laneRecords_sublist f c d, fun r => ?_⟩
    rw [s.mem_laneRecords, f.edge_succ, f.edge_eq]
  · refine ⟨fun none => ?_, fun r one => ?_, fun many => ?_⟩
    · rw [decodePixel_box low high tall, none]
      rfl
    · rw [decodePixel_box low high tall, one]
      rfl
    · rw [decodePixel_box low high tall, boxColour_many many]
  · rw [FrameCapture.markerColumn_iff known, f.edge_succ, f.edge_eq]
  · rw [columnPixel_unmarked unmarked, split, findSome?_split (fun e he => LaneColumn.pixel_outside (before e he) e.2)
      (LaneColumn.pixel_within within x)]
    rfl
  · rw [columnPixel_unmarked unmarked,
      List.findSome?_eq_none_iff.mpr (fun e he => LaneColumn.pixel_outside (none e he) e.2)]
    rfl
  · rintro r b rfl rfl same
    exact nextBoxRun_same same c
  · rintro r b rfl rfl other
    exact nextBoxRun_other other c
  · rintro r rfl rfl
    exact ⟨rfl, rfl⟩

end Sys2Proof.Proofs
end

