-- ==== Sys2Proof/Proofs/ChannelLanes.lean ====
section
/-! PROOF. Channel lanes (R71 to R73, R143 to R145): the samples that meet a column, the levels it shows, and its pixels. -/

namespace Sys2Proof.Machine

/-! ### Pixels -/

namespace ChannelColumn

variable {x : ChannelColumn} {h : Nat} {colour : BitVec 2} {c j : Nat}

theorem pixel_tick (tick : x.tick = true) (top : j = 0) : x.pixel h colour c j = 3 := if_pos (by rw [tick, top]; rfl)

/-- R145: off the glitch tick the levels decide. -/
theorem pixel_level (plain : x.tick = false ∨ j ≠ 0) : x.pixel h colour c j =
    if x.low && x.high then (if 1 ≤ j ∧ j ≤ h - 2 then colour else 0)
    else if x.low then (if j = h - 2 then colour else 0)
    else if x.high then (if j = 1 then colour else 0)
    else if c % 2 = 0 ∧ j = (h - 1) / 2 then 2 else 0 := by
  have off : ¬(x.tick && j == 0) = true := by
    rcases plain with quiet | below
    · simp [quiet]
    · simp [below]
  rw [pixel]
  refine (if_neg off).trans ?_
  simp only [Bool.and_eq_true, decide_eq_true_eq, beq_iff_eq]

end ChannelColumn

/-! ### The samples that meet a column -/

/-- R143: a sample that a record holds and that meets the span from a to b. -/
def meetsSpan (D : Nat) (g : SegmentRecord) (a b : Int) (n : Nat) : Prop :=
  (g.firstSample ≤ n ∧ n < g.nextSample) ∧ (n : Int) * D < b ∧ a < ((n : Int) + 1) * D

theorem heldSamples_iff {D : Nat} (pos : 0 < D) (g : SegmentRecord) (a b : Int) (n : Nat) :
    (heldSamples D g a b).1 ≤ n ∧ n < (heldSamples D g a b).2 ↔ meetsSpan D g a b n := by
  have posInt : (0 : Int) < D := by exact_mod_cast pos
  have held : heldSamples D g a b = (max g.firstSample (a / (D : Int)).toNat,
      min g.nextSample ((b + (D : Int) - 1) / (D : Int)).toNat) := if_neg pos.ne'
  have low : (a / (D : Int)).toNat ≤ n ↔ a < ((n : Int) + 1) * D := by
    rw [← Int.ediv_lt_iff_lt_mul posInt]
    omega
  have high : n < ((b + (D : Int) - 1) / (D : Int)).toNat ↔ (n : Int) * D < b := by
    have reach : ((n : Int) + 1) * D ≤ b + D - 1 ↔ (n : Int) * D < b := by
      rw [Int.add_mul, Int.one_mul]
      omega
    rw [← reach, ← Int.le_ediv_iff_mul_le posInt]
    omega
  rw [held, meetsSpan, max_le_iff, lt_min_iff, low, high]
  tauto

/-! ### The levels a column shows -/

/-- What the entries of a list add to a column, by what `p` asks of levels and glitches. -/
def adds (l : List (Nat × Entry)) (p : Levels → Levels → Prop) : Prop :=
  ∃ (e : Nat × Entry) (levels glitch : Levels), e ∈ l ∧ e.2.data = .levels levels glitch ∧ p levels glitch

theorem adds_cons (e : Nat × Entry) (rest : List (Nat × Entry)) (p : Levels → Levels → Prop) : adds (e :: rest) p ↔
    (∃ levels glitch : Levels, e.2.data = .levels levels glitch ∧ p levels glitch) ∨ adds rest p := by
  constructor
  · rintro ⟨x, levels, glitch, hx, data, holds⟩
    rcases List.mem_cons.mp hx with rfl | hx
    · exact .inl ⟨levels, glitch, data, holds⟩
    · exact .inr ⟨x, levels, glitch, hx, data, holds⟩
  · rintro (⟨levels, glitch, data, holds⟩ | ⟨x, levels, glitch, hx, data, holds⟩)
    · exact ⟨e, levels, glitch, List.mem_cons_self, data, holds⟩
    · exact ⟨x, levels, glitch, List.mem_cons_of_mem _ hx, data, holds⟩

/-- One entry's levels. -/
theorem ChannelColumn.add_shows (x : ChannelColumn) (c : Fin 16) (e : Entry) :
    ((x.add c e).low = true ↔ x.low = true ∨
      ∃ levels glitch : Levels, e.data = .levels levels glitch ∧ levelOf levels c = false) ∧
    ((x.add c e).high = true ↔ x.high = true ∨
      ∃ levels glitch : Levels, e.data = .levels levels glitch ∧ levelOf levels c = true) ∧
    ((x.add c e).tick = true ↔ x.tick = true ∨
      ∃ levels glitch : Levels, e.data = .levels levels glitch ∧ levelOf glitch c = true) := by
  obtain ⟨data, count⟩ := e
  cases data with
  | levels l g => simp [ChannelColumn.add]
  | gap => simp [ChannelColumn.add]

theorem ChannelColumn.addAll_shows (c : Fin 16) (l : List (Nat × Entry)) : ∀ x : ChannelColumn,
    ((l.foldl (fun y e => y.add c e.2) x).low = true ↔ x.low = true ∨ adds l (fun levels _ => levelOf levels c = false)) ∧
    ((l.foldl (fun y e => y.add c e.2) x).high = true ↔ x.high = true ∨ adds l (fun levels _ => levelOf levels c = true)) ∧
    ((l.foldl (fun y e => y.add c e.2) x).tick = true ↔ x.tick = true ∨ adds l (fun _ glitch => levelOf glitch c = true)) := by
  induction l with
  | nil =>
    have nothing (p : Levels → Levels → Prop) : ¬adds [] p := fun ⟨_, _, _, h, _⟩ => nomatch h
    exact fun x => ⟨by simp [nothing], by simp [nothing], by simp [nothing]⟩
  | cons e rest ih =>
    intro x
    obtain ⟨low, high, tick⟩ := ih (x.add c e.2)
    obtain ⟨low', high', tick'⟩ := x.add_shows c e.2
    rw [List.foldl_cons, low, high, tick, low', high', tick', adds_cons, adds_cons, adds_cons, or_assoc, or_assoc, or_assoc]
    exact ⟨Iff.rfl, Iff.rfl, Iff.rfl⟩

/-! ### The entries that a column reads -/

theorem State.mem_openEntryOf (s : State) (i : Nat) (e : Nat × Entry) : e ∈ (s.openEntryOf i).toList ↔
    s.openIndex? = some i ∧ s.cst.openEntry.bind (fun o => o.holding.map (fun h => (o.start, h))) = some e := by
  rw [Option.mem_toList, State.openEntryOf]
  by_cases here : s.openIndex? = some i
  · rw [if_pos here]
    cases s.cst.openEntry <;> simp [here]
  · rw [if_neg here]
    simp [here]

theorem overlap_iff (start count lo hi : Nat) : max start lo < min (start + count) hi ↔
    ∃ n : Nat, (start ≤ n ∧ n < start + count) ∧ lo ≤ n ∧ n < hi := by
  constructor
  · intro h
    exact ⟨max start lo, by omega⟩
  · rintro ⟨n, h⟩
    omega

/-- R143: the entries, committed or open, that hold a sample which meets the column. -/
theorem State.mem_entriesMeeting (s : State) (g : SegmentRecord) (lo hi : Nat) (e : Nat × Entry) :
    e ∈ s.entriesMeeting g lo hi ↔
      (e ∈ retainedFrom s g lo ∨ (s.openIndex? = some g.index ∧
        s.cst.openEntry.bind (fun o => o.holding.map (fun h => (o.start, h))) = some e)) ∧
      ∃ n : Nat, (e.1 ≤ n ∧ n < e.1 + e.2.count) ∧ lo ≤ n ∧ n < hi := by
  rw [State.entriesMeeting, List.mem_filter, List.mem_append, State.mem_openEntryOf, decide_eq_true_iff, overlap_iff]

end Sys2Proof.Machine

namespace Sys2Proof.Proofs
open Sys2Proof Sys2Proof.Machine

/-- Settles O47: the pixels by what the column shows; what it shows, by the entries that hold a sample meeting it. -/
theorem channelLanePixels : Obligations.ChannelLanePixels := by
  refine ⟨fun x h colour c j tall small => ⟨ChannelColumn.pixel_tick, fun plain => ?_⟩, fun s f l k c source => ?_⟩
  · have level := ChannelColumn.pixel_level (h := h) (colour := colour) (c := c) plain
    refine ⟨fun low high => ?_, fun low high => ?_, fun low high => ?_, fun low high => ?_⟩
    · rw [level, low, high]; rfl
    · rw [level, low, high]; rfl
    · rw [level, low, high]; rfl
    · rw [level, low, high]; rfl
  · intro width a b
    have shown : s.laneColumn f c l = .channel (s.channelColumn f.view.segment k a b) := by
      rw [State.laneColumn, source, f.edge_succ, f.edge_eq]
    refine ⟨_, shown, fun blind => ?_, fun g enabled found divider => ?_⟩
    · rw [State.channelColumn]
      split
      · next g found =>
        have off := blind.resolve_right (by rw [found]; exact Option.some_ne_none g)
        exact if_neg (by rw [off]; decide)
      · rfl
    · intro meets
      have reads : s.channelColumn f.view.segment k a b =
          (s.entriesMeeting g (heldSamples s.divider g a b).1 (heldSamples s.divider g a b).2).foldl
            (fun y e => y.add k e.2) { low := false, high := false, tick := false } := by
        rw [State.channelColumn, found]
        exact if_pos enabled
      have meetsIff (n : Nat) := heldSamples_iff divider g a b n
      refine ⟨(heldSamples s.divider g a b).1, fun n h => ((meetsIff n).mpr h).1, ?_⟩
      intro holds shows
      have showsIff (p : Levels → Levels → Prop) :
          adds (s.entriesMeeting g (heldSamples s.divider g a b).1 (heldSamples s.divider g a b).2) p ↔ shows p := by
        constructor
        · rintro ⟨e, levels, glitch, he, data, holds⟩
          obtain ⟨kept, n, within, meeting⟩ := (s.mem_entriesMeeting g _ _ e).mp he
          exact ⟨e, n, levels, glitch, kept, within, (meetsIff n).mp meeting, data, holds⟩
        · rintro ⟨e, n, levels, glitch, kept, within, meeting, data, holds⟩
          exact ⟨e, levels, glitch, (s.mem_entriesMeeting g _ _ e).mpr ⟨kept, n, within, (meetsIff n).mpr meeting⟩, data, holds⟩
      obtain ⟨low, high, tick⟩ := ChannelColumn.addAll_shows k
        (s.entriesMeeting g (heldSamples s.divider g a b).1 (heldSamples s.divider g a b).2)
        { low := false, high := false, tick := false }
      rw [reads, low, high, tick, showsIff, showsIff, showsIff]
      simp only [Bool.false_eq_true, false_or, and_self]

end Sys2Proof.Proofs
end

