-- ==== Sys2Proof/Proofs/SampleParts.lean ====
section
/-! PROOF. What each part of a sample leaves alone (R43, R60 to R62, R64, R102), in one equation for each operation. -/

namespace Sys2Proof.Machine

/-! ### The compressor -/

/-- A change of the store and the records alone. -/
def movesStore (s t : State) : Prop := t = { s with cst := t.cst, run := { s.run with table := t.run.table } }

theorem movesStore.refl (s : State) : movesStore s s := rfl

theorem movesStore.trans {s t u : State} (h : movesStore s t) (k : movesStore t u) : movesStore s u := by
  unfold movesStore at h
  generalize t.cst = cst at h
  generalize t.run.table = table at h
  subst h
  exact k

theorem State.updateOpen_movesStore (s : State) (f : SegmentRecord → SegmentRecord) : movesStore s (s.updateOpen f) := by
  rw [State.updateOpen_eq]
  rfl

theorem State.commitOpen_movesStore (s : State) : movesStore s s.commitOpen.1 := by
  have entry (r : SegmentRecord) (n : Nat) (e : Entry) : movesStore s (s.commitEntry r n e).1 := by
    unfold State.commitEntry
    dsimp only
    split <;> rfl
  unfold State.commitOpen
  split
  · split
    · exact entry _ _ _
    · rfl
  · rfl
  · rfl

theorem State.preTriggerCut_movesStore (s : State) : movesStore s s.preTriggerCut.1 := by
  unfold State.preTriggerCut
  split
  · split
    · rfl
    · split <;> rfl
  · rfl
  · rfl

theorem State.enterSample_movesStore (s : State) (m : Nat) (d : EntryData) : movesStore s (s.enterSample m d) := by
  unfold State.enterSample
  split
  · rw [State.updateOpen_eq]
    rfl
  · rfl

/-- R43: what a trigger moves besides the store and the records. -/
theorem State.takeTrigger_frame (s : State) (t : Nat) (word glitch : Levels) (source : TriggerSource) :
    (s.takeTrigger t word glitch source).1 = { s with
      cst := (s.takeTrigger t word glitch source).1.cst
      run := { s.run with
        state := .posttrig, pendingRemote := false, table := (s.takeTrigger t word glitch source).1.run.table }
      tsq := { s.tsq with fired := true }
      lnk := (s.takeTrigger t word glitch source).1.lnk } := by
  have moved := ((s.commitOpen_movesStore.trans (State.preTriggerCut_movesStore _)).trans
    (State.updateOpen_movesStore _ (fun r => r.triggered t s.divider source)))
  unfold State.takeTrigger
  dsimp only
  generalize State.updateOpen _ _ = a at moved ⊢
  unfold movesStore at moved
  generalize a.cst = cst at moved
  generalize a.run.table = table at moved
  subst moved
  split
  · rw [State.postNotice_eq, State.postStatus_eq]
    rfl
  all_goals
    rw [State.postStatus_eq]
    rfl

/-! ### LOG -/

/-- A change of the log and of LOG_LOST marks alone, with free values taken. -/
def movesLog (s t : State) : Prop :=
  t = { s with log := t.log, run := { s.run with table := t.run.table }, freeCount := t.freeCount }

theorem movesLog.trans {s t u : State} (h : movesLog s t) (k : movesLog t u) : movesLog s u := by
  unfold movesLog at h
  generalize t.log = log at h
  generalize t.run.table = table at h
  generalize t.freeCount = count at h
  subst h
  exact k

theorem State.foldl_trimLog_movesLog (l : List Advance) (s : State) : movesLog s (l.foldl State.trimLog s) := by
  induction l generalizing s with
  | nil => rfl
  | cons a rest ih => exact movesLog.trans (t := s.trimLog a) rfl (ih _)

theorem State.logRecord_movesLog (s : State) (rs : RunState) (first : Nat) (r : DecodeRecord) :
    movesLog s (s.logRecord rs first r) := by
  have dropped (x : State) (q : DecodeRecord) : movesLog x (x.dropRecord q) := by
    rw [State.dropRecord_eq]
    rfl
  unfold State.logRecord
  split
  · exact dropped _ _
  · refine movesLog.trans (t := s.setLog { s.log with counter := s.log.counter + 1 }) rfl ?_
    rw [State.placeRecord_eq]
    split
    · rfl
    · split
      · rfl
      · exact dropped _ _

theorem State.logSample_movesLog (records : List DecodeRecord) : ∀ (s : State) (rs : RunState) (first : Nat)
    (advances : List Advance), movesLog s (s.logSample rs first records advances) := by
  induction records with
  | nil =>
    intro s rs first advances
    rw [State.logSample]
    exact State.foldl_trimLog_movesLog _ _
  | cons r rest ih =>
    intro s rs first advances
    cases advances with
    | nil =>
      rw [State.logSample]
      exact (s.logRecord_movesLog rs first r).trans (ih _ _ _ _)
    | cons a more =>
      rw [State.logSample]
      exact (movesLog.trans (t := s.fresh) rfl (State.foldl_trimLog_movesLog _ _)).trans
        ((State.logRecord_movesLog _ _ _ _).trans (ih _ _ _ _))

/-- What is left of a record where LOG_LOST is not looked at. -/
def SegmentRecord.unmarked (x : SegmentRecord) : SegmentRecord := { x with logLost := false }

theorem State.logSample_unmarked (s : State) (rs : RunState) (first : Nat) (records : List DecodeRecord)
    (advances : List Advance) : (s.logSample rs first records advances).run.table.map SegmentRecord.unmarked =
      s.run.table.map SegmentRecord.unmarked :=
  State.logSample_map (fun _ => rfl) s rs first records advances

/-! ### The arrival -/

/-- What the arrival of a sample commits leaves the decoder units and the comparators alone, unless it ends the run. -/
theorem State.arrive_keepsUnits (s : State) (m : Nat) (word glitch : Levels)
    (open' : (s.arrive m word glitch).1.run.state.hasSegment = true) :
    (s.arrive m word glitch).1.dec = s.dec ∧ (s.arrive m word glitch).1.fc = s.fc := by
  have committed : s.commitOpen.1.dec = s.dec ∧ s.commitOpen.1.fc = s.fc := by
    rw [show s.commitOpen.1 = _ from s.commitOpen_movesStore]
    exact ⟨rfl, rfl⟩
  have entered (x : State) : x.enterPretrigIfFilled.dec = x.dec ∧ x.enterPretrigIfFilled.fc = x.fc := by
    unfold State.enterPretrigIfFilled
    split
    · split
      · rw [State.postStatus_dec, State.postStatus_fc]
        exact ⟨rfl, rfl⟩
      · exact ⟨rfl, rfl⟩
    · exact ⟨rfl, rfl⟩
    · exact ⟨rfl, rfl⟩
  have opened (x : State) (i n : Nat) : (x.openSegment i n).dec = x.dec ∧ (x.openSegment i n).fc = x.fc := by
    unfold State.openSegment
    split
    · dsimp only
      rw [State.postStatus_dec, State.postStatus_fc]
      exact ⟨rfl, rfl⟩
    · exact ⟨rfl, rfl⟩
  have filled (x : State) (goesOn : (x.closeIfFilled m).run.state.hasSegment = true) :
      (x.closeIfFilled m).dec = x.dec ∧ (x.closeIfFilled m).fc = x.fc := by
    revert goesOn
    unfold State.closeIfFilled
    split
    · split
      · dsimp only
        split
        · intro _
          obtain ⟨dec, fc⟩ := opened (x.closeSegment .filled) _ m
          exact ⟨dec.trans (State.closeSegment_dec x .filled), fc.trans (State.closeSegment_counts x .filled).1⟩
        · intro goesOn
          rw [State.endRun_state] at goesOn
          exact absurd goesOn (by decide)
      · exact fun _ => ⟨rfl, rfl⟩
    · exact fun _ => ⟨rfl, rfl⟩
    · exact fun _ => ⟨rfl, rfl⟩
  revert open'
  unfold State.arrive
  split
  · intro open'
    obtain ⟨dec, fc⟩ := filled _ open'
    obtain ⟨dec', fc'⟩ := entered s.commitOpen.1
    exact ⟨dec.trans (dec'.trans committed.1), fc.trans (fc'.trans committed.2)⟩
  · exact fun _ => ⟨rfl, rfl⟩

theorem State.arrive_joins {s : State} {word glitch : Levels}
    (h : s.sampleBreaks (sampleData s.tsq.qualifier word glitch) = false) (m : Nat) : s.arrive m word glitch = (s, []) :=
  if_neg (by rw [h]; decide)

theorem State.arrive_breaks {s : State} {word glitch : Levels}
    (h : s.sampleBreaks (sampleData s.tsq.qualifier word glitch) = true) (m : Nat) : s.arrive m word glitch =
      (s.commitOpen.1.enterPretrigIfFilled.closeIfFilled m, s.commitOpen.2) :=
  if_pos h

/-! ### The sample once it has arrived -/

section
variable (a : State) (word last : Levels) (c : SampleContext)

/-- What TSQ evaluates a sample against. -/
def State.inputsOf : SequencerInputs :=
  { word := word, last := last, hits := hitsOf a.fc.settings (a.dec.sampleRecords c), observed := a.lnk.observed }

/-- The state in which the compressor finds a sample: the units, the comparators and TSQ have taken it. -/
def State.evaluated : State := { a with
  dec := a.dec.afterSample c, fc := { a.fc with sticky := a.fc.sticky ||| (a.inputsOf word last c).hits }
  tsq := a.tsq.evaluate (a.inputsOf word last c) }

end

/-- R43, R48, R49: the sample takes a trigger. -/
def State.triggersOn (a : State) (i : SequencerInputs) : Prop :=
  a.run.state = .pretrig ∧ (a.tsq.fires i = true ∨ a.run.pendingRemote = true)

theorem triggerAt_none {a : State} {i : SequencerInputs} (h : ¬a.triggersOn i) :
    triggerAt a.run.state (a.tsq.fires i) a.run.pendingRemote = none := by
  unfold triggerAt
  split
  · next pretrig =>
    rw [if_neg (fun fires => h ⟨pretrig, .inl fires⟩), if_neg (fun remote => h ⟨pretrig, .inr remote⟩)]
  · rfl

theorem triggerAt_some {a : State} {i : SequencerInputs} (h : a.triggersOn i) :
    triggerAt a.run.state (a.tsq.fires i) a.run.pendingRemote = some (if a.tsq.fires i then .local else .remote) := by
  obtain ⟨pretrig, why⟩ := h
  rw [triggerAt, if_pos pretrig]
  cases fires : a.tsq.fires i with
  | true => rfl
  | false => rw [if_neg (by decide), if_pos (why.resolve_left (by rw [fires]; decide))]; rfl

/-- R102: a sample once it has arrived, in the terms of what the compressor makes of it. -/
theorem State.takeArrived_eq (a before : State) (m : Nat) (word glitch last : Levels) (arrival : List Advance) :
    let c := sampleContext a m word glitch last
    let i := a.inputsOf word last c
    let k := (a.evaluated word last c).compress m word glitch a.tsq.qualifier
      (triggerAt a.run.state (a.tsq.fires i) a.run.pendingRemote)
    let l := k.1.logSample a.run.state (firstBefore before a) (a.dec.sampleRecords c) (arrival ++ k.2)
    a.takeArrived before m word glitch last arrival = { l with pfe := { l.pfe with lastLevels := some word } } := rfl

end Sys2Proof.Machine
end

