-- ==== Sys2Proof/Proofs/TriggerTaken.lean ====
section
/-! PROOF. The trigger (R43, R45, R46, R170): its cut, the record it leaves, and the NOTICE it posts. -/

namespace Sys2Proof.Machine

/-! ### The record of the open segment -/

section
variable {g k : SegmentRecord} (same : k.index = g.index)
include same

/-- The record that stands for the only one with its index is the only one with it. -/
theorem unique_map_replace (table : List SegmentRecord) :
    ∀ x ∈ table.map (fun x => if x.index = g.index then k else x), x.index = k.index → x = k := by
  intro x hx hi
  obtain ⟨y, -, rfl⟩ := List.mem_map.mp hx
  by_cases at' : y.index = g.index
  · exact if_pos at'
  · rw [if_neg at', same] at hi
    exact absurd hi at'

/-- A record replaced twice. -/
theorem map_replace_replace (l : SegmentRecord) (table : List SegmentRecord) :
    (table.map (fun x => if x.index = g.index then k else x)).map (fun x => if x.index = k.index then l else x) =
      table.map (fun x => if x.index = g.index then l else x) := by
  rw [List.map_map]
  refine List.map_congr_left fun x _ => ?_
  rw [Function.comp]
  by_cases at' : x.index = g.index
  · rw [if_pos at', if_pos rfl, if_pos at']
  · rw [if_neg at', if_neg (fun e => at' (e.trans same)), if_neg at']

end

theorem map_replace_self {table : List SegmentRecord} {g : SegmentRecord} (hu : ∀ x ∈ table, x.index = g.index → x = g) :
    table.map (fun x => if x.index = g.index then g else x) = table := by
  refine (List.map_congr_left fun x hx => ?_).trans (List.map_id table)
  by_cases at' : x.index = g.index
  · rw [if_pos at', hu x hx at', id]
  · rw [if_neg at', id]

/-- A change of the record of the open segment, the only one with its index. -/
theorem State.updateOpen_unique {s : State} {g : SegmentRecord} (hg : s.openRecord? = some g)
    (hu : ∀ x ∈ s.run.table, x.index = g.index → x = g) (f : SegmentRecord → SegmentRecord) :
    s.updateOpen f = { s with run := { s.run with
      table := s.run.table.map (fun x => if x.index = g.index then f g else x) } } := by
  have at' : s.openIndex? = some g.index := State.openIndex_of hg
  rw [State.updateOpen, at', ← map_ofIndex hu]
  rfl

theorem SegmentRecord.committed_index (g : SegmentRecord) (m : Mem Entry) (o : OpenEntry) :
    (g.committed m o).index = g.index := by
  unfold SegmentRecord.committed
  split
  · rfl
  · split <;> rfl

theorem SegmentRecord.committed_reference (g : SegmentRecord) (m : Mem Entry) (o : OpenEntry) :
    (g.committed m o).reference = g.reference := by
  unfold SegmentRecord.committed
  split
  · rfl
  · split <;> rfl

theorem SegmentRecord.cut_index (g : SegmentRecord) (m : Mem Entry) (depth : Nat) : (g.cut m depth).index = g.index := by
  unfold SegmentRecord.cut
  split <;> rfl

theorem SegmentRecord.cut_reference (g : SegmentRecord) (m : Mem Entry) (depth : Nat) :
    (g.cut m depth).reference = g.reference := by
  unfold SegmentRecord.cut
  split <;> rfl

theorem earliest_eq (reference : Option Nat) (time : Nat) :
    earliest reference time = some (min (reference.getD time) time) := by
  cases reference with
  | none => rw [earliest, Option.getD_none, Nat.min_self]
  | some r => rfl

/-- R43 steps 1 to 5: the record after the trigger, through the commit and the cut. -/
theorem SegmentRecord.afterTrigger_eq (g : SegmentRecord) (m : Mem Entry) (o : OpenEntry) (f : RunFigures) (t : Nat)
    (source : TriggerSource) : ((g.committed m o).cut (committedStore m g o) f.depth).triggered t f.divider source =
      g.afterTrigger m o f t source := by
  rw [SegmentRecord.triggered, SegmentRecord.afterTrigger, earliest_eq, SegmentRecord.cut_reference,
    SegmentRecord.committed_reference]

/-! ### The pre-trigger cut (R45) -/

theorem Memory.eraseAll_nil {α : Type} (m : Mem α) : Memory.eraseAll m [] = m := by simp [Memory.eraseAll]

/-- R45: the checkpoints the cut of a record to `depth` leaves. -/
def SegmentRecord.cutSlots (k : SegmentRecord) (m : Mem Checkpoint) (depth : Nat) : Mem Checkpoint :=
  Memory.eraseAll m (slotsOf (k.oldestPositions (k.retained - depth)))

theorem SegmentRecord.cutSlots_of_le {k : SegmentRecord} {depth : Nat} (h : k.retained ≤ depth) (m : Mem Checkpoint) :
    k.cutSlots m depth = m := by
  rw [SegmentRecord.cutSlots, Nat.sub_eq_zero_of_le h]
  exact Memory.eraseAll_nil m

/-- The checkpoints left at the cut are those of no position it gives up. -/
theorem SegmentRecord.read_cutSlots (k : SegmentRecord) (m : Mem Checkpoint) (depth slot : Nat) :
    Memory.read (k.cutSlots m depth) slot =
      if slot * 1024 ∈ k.oldestPositions (k.retained - depth) then none else Memory.read m slot := by
  have slots (ps : List Nat) : slot ∈ slotsOf ps ↔ slot * 1024 ∈ ps := by
    simp only [slotsOf, Config.checkpointSpacing, List.mem_map, List.mem_filter, beq_iff_eq]
    constructor
    · rintro ⟨p, ⟨hp, spaced⟩, rfl⟩
      rwa [Nat.div_mul_cancel (Nat.dvd_of_mod_eq_zero spaced)]
    · exact fun h => ⟨_, ⟨h, Nat.mul_mod_left _ _⟩, Nat.mul_div_cancel _ (by decide)⟩
  rw [SegmentRecord.cutSlots, Memory.read_eraseAll]
  simp only [slots]

/-- The advance of the cut, if it gives entries up. -/
def SegmentRecord.cutAdvances (k : SegmentRecord) (m : Mem Entry) (depth : Nat) : List Advance :=
  if depth < k.retained then [{ segment := k.index, firstSample := (k.cut m depth).firstSample, runState := .posttrig }]
  else []

/-- R45: the cut in one equation. -/
theorem State.preTriggerCut_eq {s : State} {k : SegmentRecord} {f : RunFigures} (hk : s.openRecord? = some k)
    (hf : s.run.figures = some f) (hu : ∀ x ∈ s.run.table, x.index = k.index → x = k) :
    s.preTriggerCut = ({ s with
      cst := { s.cst with checkpoints := k.cutSlots s.cst.checkpoints f.depth }
      run := { s.run with
        table := s.run.table.map (fun x => if x.index = k.index then k.cut s.cst.store f.depth else x) } },
      k.cutAdvances s.cst.store f.depth) := by
  unfold State.preTriggerCut
  simp only [hk, hf]
  by_cases deep : f.depth < k.retained
  · rw [if_pos deep, SegmentRecord.cutAdvances, if_pos deep, State.updateRecord]
    simp only [State.setCst, map_ofIndex hu, SegmentRecord.cut, if_pos deep, SegmentRecord.cutSlots]
    rw [← hf]
  · have whole : k.cutSlots s.cst.checkpoints f.depth = s.cst.checkpoints :=
      SegmentRecord.cutSlots_of_le (Nat.le_of_not_lt deep) _
    rw [if_neg deep, SegmentRecord.cutAdvances, if_neg deep, whole]
    by_cases short : k.retained < f.depth
    · rw [if_pos short, State.updateRecord]
      simp only [map_ofIndex hu, SegmentRecord.cut, if_neg deep, short, decide_true, Bool.or_true]
      rw [← hf]
    · rw [if_neg short]
      simp only [SegmentRecord.cut, if_neg deep, short, decide_false, Bool.or_false, map_replace_self hu]
      rw [← hf]

/-! ### The trigger (R43) -/

section
variable {s : State} {g : SegmentRecord} {f : RunFigures} {o : OpenEntry} (hg : s.openRecord? = some g)
  (hf : s.run.figures = some f) (ho : s.cst.openEntry = some o)

/-- R43: the state a trigger leaves before it is reported. -/
def State.triggered (s : State) (g : SegmentRecord) (f : RunFigures) (o : OpenEntry) (t : Nat) (word glitch : Levels)
    (source : TriggerSource) : State := { s with
  run := { s.run with
    state := .posttrig, pendingRemote := false
    table := s.run.table.map (fun x => if x.index = g.index then g.afterTrigger s.cst.store o f t source else x) }
  cst :=
    { store := committedStore s.cst.store g o
      checkpoints := (g.committed s.cst.store o).cutSlots (committedSlots s.cst.checkpoints g o) f.depth
      openEntry := some { start := t, holding := some { data := .levels word glitch, count := 1 } } }
  tsq := { s.tsq with fired := true } }

/-- R57, R46: what a trigger of this source posts. -/
def State.reportTrigger (s : State) (source : TriggerSource) (segment time : Nat) : State :=
  match source with
  | .local => s.postStatus.postNotice segment time
  | .remote => s.postStatus
  | .none => s.postStatus

theorem State.reportTrigger_cst (s : State) (source : TriggerSource) (segment time : Nat) :
    (s.reportTrigger source segment time).cst = s.cst := by
  match source with
  | .local =>
    rw [State.reportTrigger, State.postNotice_eq]
    exact s.postStatus_cst
  | .remote => exact s.postStatus_cst
  | .none => exact s.postStatus_cst

include hg hf ho

/-- R43, R45, R64: the trigger in one equation. -/
theorem State.takeTrigger_eq (hu : ∀ x ∈ s.run.table, x.index = g.index → x = g) (t : Nat) (word glitch : Levels)
    (source : TriggerSource) : s.takeTrigger t word glitch source =
      ((s.triggered g f o t word glitch source).reportTrigger source g.index (t * f.divider),
        g.commitAdvances s o ++
          (g.committed s.cst.store o).cutAdvances (committedStore s.cst.store g o) f.depth) := by
  obtain ⟨segment, newest⟩ := State.openRecord_eq hg
  have divider : s.divider = f.divider := by rw [State.divider, hf]; rfl
  have at' : s.openIndex? = some g.index := State.openIndex_of hg
  have index := g.committed_index s.cst.store o
  have cutIndex := (g.committed s.cst.store o).cut_index (committedStore s.cst.store g o) f.depth
  have committed := State.commitOpen_eq hg ho hu
  generalize hA : s.commitOpen = c at committed
  have recordA : c.1.openRecord? = some (g.committed s.cst.store o) := by
    rw [committed]
    exact State.openRecord_of segment (lastChanged newest fun _ => g.committed s.cst.store o)
  have cut := State.preTriggerCut_eq (f := f) recordA (by rw [committed]; exact hf)
    (by rw [committed]; exact unique_map_replace index s.run.table)
  generalize hB : c.1.preTriggerCut = k at cut
  rw [committed] at cut
  dsimp only at cut
  rw [map_replace_replace index] at cut
  have recordB : k.1.openRecord? =
      some ((g.committed s.cst.store o).cut (committedStore s.cst.store g o) f.depth) := by
    rw [cut]
    exact State.openRecord_of segment (lastChanged newest fun _ => _)
  have marked := State.updateOpen_unique recordB (by
    rw [cut]
    exact unique_map_replace (cutIndex.trans index) s.run.table) (fun r => r.triggered t s.divider source)
  generalize hM : k.1.updateOpen (fun r => r.triggered t s.divider source) = a at marked
  rw [cut] at marked
  dsimp only at marked
  rw [map_replace_replace (cutIndex.trans index), divider, SegmentRecord.afterTrigger_eq] at marked
  unfold State.takeTrigger
  dsimp only
  rw [hA, hB, hM, at', divider, committed, cut, marked]
  cases source <;> rfl

end

/-! ### The NOTICE (R46, R170) -/

theorem QueueEntry.yieldingStatus_iff (e : QueueEntry) : e.yieldingStatus = true ↔
    e.tookFreedEntry = true ∧ e.underTransmission = false ∧ e.message.kind = 9 := by
  simp [QueueEntry.yieldingStatus, QueueEntry.kind, and_assoc]

theorem QueueEntry.yieldingStatus_false {e : QueueEntry}
    (h : ¬(e.tookFreedEntry = true ∧ e.underTransmission = false ∧ e.message.kind = 9)) : e.yieldingStatus = false :=
  Bool.eq_false_iff.mpr fun c => h ((QueueEntry.yieldingStatus_iff e).mp c)

theorem State.markNoticeDropped_eq (s : State) (i : Nat) : s.markNoticeDropped i = { s with run := { s.run with
    table := s.run.table.map (fun x => if x.index = i then { x with noticeDropped := true } else x) } } :=
  State.updateRecord_eq s i _

theorem State.postNotice_silent {s : State} (silent : s.lnk.transmitter = .silent) (i time : Nat) :
    s.postNotice i time = if s.sul.strap = 7 then s else s.markNoticeDropped i := by
  by_cases strap : s.sul.strap = 7 <;> simp [State.postNotice, silent, strap]

section
variable {s : State} (speaks : s.lnk.transmitter ≠ .silent) (i time : Nat)
include speaks

theorem State.postNotice_joins (room : s.lnk.queue.length < 8) :
    s.postNotice i time = s.enqueue (QueueEntry.new (.notice i time)) := by
  simp [State.postNotice, speaks, State.hasRoom, Config.queueCapacity, room]

section
variable (full : 8 ≤ s.lnk.queue.length)
include full

/-- R170: at a full queue the NOTICE takes the entry a claimant of a higher kind took at this tick, or is dropped. -/
theorem State.postNotice_full : s.postNotice i time =
    match s.reclaimEntry 3 with
    | some t => t.enqueue (QueueEntry.new (.notice i time))
    | none => s.markNoticeDropped i := by
  have noRoom : s.hasRoom = false := decide_eq_false (Nat.not_lt.mpr full)
  exact (if_neg (by simp [speaks])).trans (if_neg (by simp [noRoom]))

theorem State.postNotice_takesDone {a b : List QueueEntry} {e : QueueEntry} {x : Done}
    (queue : s.lnk.queue = a ++ e :: b) (done : e.message = .done x) (yields : e.yieldingDone = true)
    (newest : ∀ y ∈ b, y.yieldingDone = false) : s.postNotice i time = s.setLnk { s.lnk with
      queue := a ++ b ++ [QueueEntry.new (.notice i time)], heldDones := x :: s.lnk.heldDones } := by
  have entry : s.reclaimEntry 3 = some (s.setLnk { s.lnk with queue := a ++ b, heldDones := x :: s.lnk.heldDones }) := by
    simp [State.reclaimEntry, queue, removeLast_last yields newest, done]
  rw [State.postNotice_full speaks i time full, entry]
  rfl

theorem State.postNotice_takesStatus {a b : List QueueEntry} {e : QueueEntry} (queue : s.lnk.queue = a ++ e :: b)
    (yields : e.yieldingStatus = true) (newest : ∀ y ∈ b, y.yieldingStatus = false)
    (noDone : ∀ y ∈ s.lnk.queue, y.yieldingDone = false) : s.postNotice i time = s.setLnk { s.lnk with
      queue := a ++ b ++ [QueueEntry.new (.notice i time)], statusOwed := true } := by
  have entry : s.reclaimEntry 3 = some (s.setLnk { s.lnk with queue := a ++ b, statusOwed := true }) := by
    rw [State.reclaimEntry, removeLast_none noDone, queue, removeLast_last yields newest]
    rfl
  rw [State.postNotice_full speaks i time full, entry]
  rfl

theorem State.postNotice_dropped (noDone : ∀ y ∈ s.lnk.queue, y.yieldingDone = false)
    (noStatus : ∀ y ∈ s.lnk.queue, y.yieldingStatus = false) : s.postNotice i time = s.markNoticeDropped i := by
  have entry : s.reclaimEntry 3 = .none := by
    rw [State.reclaimEntry, removeLast_none noDone, removeLast_none noStatus]
    rfl
  rw [State.postNotice_full speaks i time full, entry]

end
end

end Sys2Proof.Machine
end

