-- ==== Sys2Proof/Proofs/SamplesTaken.lean ====
section
/-! PROOF. A sample that finds its segment open: what the units, the comparators, TSQ, the compressor and LOG leave (R43,
R102). -/

namespace Sys2Proof.Machine

/-! ### The step -/

theorem State.exec_sample {s : State} {r : RunTime} (active : s.active = true) (running : s.tau.runTime = some r)
    (due : r.nextSample * s.divider ≤ r.stackTime s.tau.rateFactor) : exec .sample s = .next s.takeSample :=
  congrArg Host.Outcome.next (if_pos (by rw [active, State.sampleDue_of running, decide_eq_true due]; rfl))

/-- The state in which sample `m` of run time `r` has arrived, with the advances of its commit (R61). -/
def State.arrived (s : State) (r : RunTime) : State × List Advance :=
  s.formWord.arrive r.nextSample s.pfe.currentLevels s.pfe.glitchSeen

theorem State.takeSample_goesOn {s : State} {r : RunTime} (running : s.tau.runTime = some r)
    (open' : (s.arrived r).1.run.state.hasSegment = true) :
    s.takeSample = (s.arrived r).1.takeArrived s.formWord r.nextSample s.pfe.currentLevels s.pfe.glitchSeen
      (s.pfe.lastLevels.getD s.pfe.currentLevels) (s.arrived r).2 := by
  unfold State.takeSample
  rw [running]
  exact if_pos open'

theorem State.takeSample_ends {s : State} {r : RunTime} (running : s.tau.runTime = some r)
    (ended : (s.arrived r).1.run.state.hasSegment = false) : s.takeSample = (s.arrived r).1 := by
  unfold State.takeSample
  rw [running]
  exact if_neg (by rw [show (s.formWord.arrive r.nextSample s.pfe.currentLevels s.pfe.glitchSeen).1.run.state.hasSegment =
    false from ended]; decide)

theorem State.arrived_still (s : State) (r : RunTime) : (s.arrived r).1.still = s.still :=
  (State.arrive_still s.formWord _ _ _).trans s.formWord_still

/-! ### What LOG takes -/

section
variable (k a before : State) (word : Levels) (c : SampleContext) (advances : List Advance)

/-- R102, R122: LOG's part of a sample that arrived as `a`, in the state `k` the compressor leaves. -/
def State.sampleLogged : State :=
  let l := k.logSample a.run.state (firstBefore before a) (a.dec.sampleRecords c) advances
  { l with pfe := { l.pfe with lastLevels := some word } }

theorem State.sampleLogged_frame : k.sampleLogged a before word c advances = { k with
    log := (k.sampleLogged a before word c advances).log
    run := { k.run with table := (k.sampleLogged a before word c advances).run.table }
    freeCount := (k.sampleLogged a before word c advances).freeCount
    pfe := { k.pfe with lastLevels := some word } } := by
  have moved := State.logSample_movesLog (a.dec.sampleRecords c) k a.run.state (firstBefore before a) advances
  unfold State.sampleLogged
  dsimp only
  generalize k.logSample _ _ _ _ = l at moved
  rw [movesLog] at moved
  generalize l.log = log at moved
  generalize l.run.table = table at moved
  generalize l.freeCount = count at moved
  subst moved
  rfl

theorem State.sampleLogged_cst : (k.sampleLogged a before word c advances).cst = k.cst := by
  rw [State.sampleLogged_frame]

theorem State.sampleLogged_tsq : (k.sampleLogged a before word c advances).tsq = k.tsq := by
  rw [State.sampleLogged_frame]

theorem State.sampleLogged_lnk : (k.sampleLogged a before word c advances).lnk = k.lnk := by
  rw [State.sampleLogged_frame]

theorem State.sampleLogged_dec : (k.sampleLogged a before word c advances).dec = k.dec := by
  rw [State.sampleLogged_frame]

theorem State.sampleLogged_fc : (k.sampleLogged a before word c advances).fc = k.fc := by
  rw [State.sampleLogged_frame]

theorem State.sampleLogged_state : (k.sampleLogged a before word c advances).run.state = k.run.state := by
  rw [State.sampleLogged_frame]

theorem State.sampleLogged_unmarked : (k.sampleLogged a before word c advances).run.table.map SegmentRecord.unmarked =
    k.run.table.map SegmentRecord.unmarked :=
  State.logSample_unmarked k _ _ _ _

end

/-! ### The compressor's part -/

section
variable {a : State} (before : State) (m : Nat) (word glitch last : Levels) (arrival : List Advance)

theorem State.takeArrived_untriggered
    (h : ¬a.triggersOn (a.inputsOf word last (sampleContext a m word glitch last))) :
    a.takeArrived before m word glitch last arrival =
      ((a.evaluated word last (sampleContext a m word glitch last)).enterSample m
        (sampleData a.tsq.qualifier word glitch)).sampleLogged a before word (sampleContext a m word glitch last)
        arrival := by
  have taken := State.takeArrived_eq a before m word glitch last arrival
  dsimp only at taken
  rw [triggerAt_none h, State.compress, List.append_nil] at taken
  exact taken

theorem State.takeArrived_triggered
    (h : a.triggersOn (a.inputsOf word last (sampleContext a m word glitch last))) :
    let i := a.inputsOf word last (sampleContext a m word glitch last)
    let k := (a.evaluated word last (sampleContext a m word glitch last)).takeTrigger m word glitch
      (if a.tsq.fires i then .local else .remote)
    a.takeArrived before m word glitch last arrival =
      k.1.sampleLogged a before word (sampleContext a m word glitch last) (arrival ++ k.2) := by
  have taken := State.takeArrived_eq a before m word glitch last arrival
  dsimp only at taken
  rw [triggerAt_some h, State.compress] at taken
  exact taken

end

theorem State.enterSample_tsq (s : State) (m : Nat) (d : EntryData) : (s.enterSample m d).tsq = s.tsq := by
  rw [show s.enterSample m d = _ from s.enterSample_movesStore m d]

theorem State.enterSample_lnk (s : State) (m : Nat) (d : EntryData) : (s.enterSample m d).lnk = s.lnk := by
  rw [show s.enterSample m d = _ from s.enterSample_movesStore m d]

theorem State.enterSample_dec (s : State) (m : Nat) (d : EntryData) : (s.enterSample m d).dec = s.dec := by
  rw [show s.enterSample m d = _ from s.enterSample_movesStore m d]

theorem State.enterSample_fc (s : State) (m : Nat) (d : EntryData) : (s.enterSample m d).fc = s.fc := by
  rw [show s.enterSample m d = _ from s.enterSample_movesStore m d]

theorem State.takeTrigger_tsq (s : State) (t : Nat) (word glitch : Levels) (source : TriggerSource) :
    (s.takeTrigger t word glitch source).1.tsq = { s.tsq with fired := true } := by
  rw [State.takeTrigger_frame]

theorem State.takeTrigger_dec (s : State) (t : Nat) (word glitch : Levels) (source : TriggerSource) :
    (s.takeTrigger t word glitch source).1.dec = s.dec := by
  rw [State.takeTrigger_frame]

theorem State.takeTrigger_fc (s : State) (t : Nat) (word glitch : Levels) (source : TriggerSource) :
    (s.takeTrigger t word glitch source).1.fc = s.fc := by
  rw [State.takeTrigger_frame]

theorem State.sampleBreaks_formWord (s : State) (d : EntryData) : s.formWord.sampleBreaks d = s.sampleBreaks d := rfl

theorem sampleData_eq (qualifier : Bool) (word glitch : Levels) :
    sampleData qualifier word glitch = if qualifier then .levels word glitch else .gap := rfl

end Sys2Proof.Machine

namespace Sys2Proof.Proofs
open Sys2Proof Sys2Proof.Machine

/-- Settles O22: the trigger is the equation of the commit, the cut and the mark; the NOTICE is a case of the queue's standing
for each; the sample is the arrival, then the trigger or the joining, with LOG's part changing neither. -/
theorem triggerIsTaken : Obligations.TriggerIsTaken := by
  refine ⟨fun s g f o t word glitch source hg hf ho hu => ?_, fun s i time => ?_, fun s r active running due => ?_⟩
  · intro u k m gone v
    have taken : u = _ := State.takeTrigger_eq hg hf ho hu t word glitch source
    have checkpoints : u.1.cst.checkpoints = k.cutSlots (committedSlots s.cst.checkpoints g o) f.depth := by
      rw [taken, State.reportTrigger_cst]
      rfl
    have final : v = s.triggered g f o t word glitch source := by
      show ({ s with run := _, cst := _, tsq := _ } : State) = _
      rw [checkpoints]
      rfl
    refine ⟨fun slot => ?_, ?_, ?_⟩
    · rw [checkpoints, SegmentRecord.read_cutSlots]
    · rw [final, taken]
      cases source <;> rfl
    · rw [taken]
      show g.commitAdvances s o ++ k.cutAdvances m f.depth = _
      have index : k.index = g.index := g.committed_index _ _
      rw [SegmentRecord.commitAdvances, SegmentRecord.cutAdvances, index]
  · intro dropped notice yields
    have isDropped : s.markNoticeDropped i = dropped := s.markNoticeDropped_eq i
    refine ⟨fun silent => (State.postNotice_silent silent i time).trans (by rw [isDropped]), fun speaks => ⟨fun room => ?_,
      fun full => ⟨fun a b e x queue done yielding newest => ?_, fun a b e queue yielding newest noDone => ?_,
        fun none => ?_⟩⟩⟩
    · exact State.postNotice_joins speaks i time room
    · exact State.postNotice_takesDone speaks i time full queue done ((QueueEntry.yieldingDone_iff e).mpr yielding)
        (fun y hy => QueueEntry.yieldingDone_false (newest y hy))
    · exact State.postNotice_takesStatus speaks i time full queue ((QueueEntry.yieldingStatus_iff e).mpr yielding)
        (fun y hy => QueueEntry.yieldingStatus_false (newest y hy))
        (fun y hy => QueueEntry.yieldingDone_false (noDone y hy))
    · rw [← isDropped]
      exact State.postNotice_dropped speaks i time full (fun y hy => QueueEntry.yieldingDone_false (none y hy).1)
        (fun y hy => QueueEntry.yieldingStatus_false (none y hy).2)
  · intro word glitch a c i triggers d source unmarked
    refine ⟨fun joins => congrArg Prod.fst (State.arrive_joins (s := s.formWord) joins r.nextSample), fun open' => ?_⟩
    have still : a.still = s.still := s.arrived_still r
    have units : a.dec = s.dec ∧ a.fc = s.fc := State.arrive_keepsUnits s.formWord _ _ _ open'
    obtain ⟨dec, fc⟩ := units
    have context : sampleContext a r.nextSample word glitch (s.pfe.lastLevels.getD word) = c := by
      rw [sampleContext, State.divider_of_still still]
    have inputs : a.inputsOf word (s.pfe.lastLevels.getD word) c = i := by
      rw [State.inputsOf, dec, fc, show a.lnk.observed = s.lnk.observed from congrArg (fun x : Still => x.lnk.observed) still]
    have evaluated : a.evaluated word (s.pfe.lastLevels.getD word) c = d := by
      rw [State.evaluated, inputs, dec, fc]
    have step : exec .sample s = .next (a.takeArrived s.formWord r.nextSample word glitch (s.pfe.lastLevels.getD word)
        (s.arrived r).2) :=
      (State.exec_sample active running due).trans (congrArg Host.Outcome.next (State.takeSample_goesOn running open'))
    by_cases trigger : triggers
    · have taken := State.takeArrived_triggered (a := a) s.formWord r.nextSample word glitch (s.pfe.lastLevels.getD word)
        (s.arrived r).2 (by rw [context, inputs]; exact trigger)
      dsimp only at taken
      rw [context, inputs, evaluated] at taken
      refine ⟨_, step, ?_⟩
      rw [taken]
      refine ⟨?_, ?_, ⟨_, _, fun no => absurd trigger no, fun _ => rfl, ?_⟩, fun no => absurd trigger no, fun _ => ⟨?_, ?_, ?_,
        ?_, ?_⟩⟩
      · rw [State.sampleLogged_dec, State.takeTrigger_dec]
      · rw [State.sampleLogged_fc, State.takeTrigger_fc]
      · rw [State.sampleLogged, dec]; rfl
      · rw [State.sampleLogged_state, State.takeTrigger_state]
      · rw [State.sampleLogged_tsq, State.takeTrigger_tsq]
      · exact State.sampleLogged_cst _ _ _ _ _ _
      · exact State.sampleLogged_lnk _ _ _ _ _ _
      · exact State.sampleLogged_unmarked _ _ _ _ _ _
    · have taken := State.takeArrived_untriggered (a := a) s.formWord r.nextSample word glitch
        (s.pfe.lastLevels.getD word) (s.arrived r).2 (by rw [context, inputs]; exact trigger)
      rw [context, evaluated] at taken
      refine ⟨_, step, ?_⟩
      rw [taken]
      refine ⟨?_, ?_, ⟨_, [], fun _ => ⟨rfl, rfl⟩, fun yes => absurd yes trigger, ?_⟩, fun _ => ⟨?_, ?_, ?_⟩,
        fun yes => absurd yes trigger⟩
      · rw [State.sampleLogged_dec, State.enterSample_dec]
      · rw [State.sampleLogged_fc, State.enterSample_fc]
      · rw [State.sampleLogged, dec, List.append_nil]; rfl
      · rw [State.sampleLogged_state, State.enterSample_state]
      · rw [State.sampleLogged_tsq, State.enterSample_tsq]
      · rw [State.sampleLogged_lnk, State.enterSample_lnk]

end Sys2Proof.Proofs
end

