-- ==== Sys2Proof/Proofs/StoreSteps.lean ====
section
/-! PROOF. What a sample does to the store in each of its cases: the entry it joins or commits, the run state that follows, and
the segment it closes or opens (R41, R50, R60, R61, R65, R66, R70). -/

namespace Sys2Proof.Machine

/-! ### Joining (R60) -/

theorem sampleJoins_iff (e : Entry) (qualifier : Bool) (word glitch : Levels) :
    sampleJoins e (sampleData qualifier word glitch) = true ↔
      e.count < 16777216 ∧ (if qualifier then e.data = .levels word 0 ∧ glitch = 0 else e.data = .gap) := by
  unfold sampleJoins sampleData Config.maxEntryCount
  cases qualifier <;> cases e.data <;> simp [and_assoc]

/-- R60: an open entry that holds breaks at a sample that does not join it. -/
theorem State.sampleBreaks_holding {s : State} {start : Nat} {e : Entry}
    (ho : s.cst.openEntry = some { start := start, holding := some e }) (d : EntryData) :
    s.sampleBreaks d = !sampleJoins e d := by
  rw [State.sampleBreaks, ho]
  rfl

theorem State.sampleBreaks_empty {s : State} {start : Nat}
    (ho : s.cst.openEntry = some { start := start, holding := none }) (d : EntryData) : s.sampleBreaks d = false := by
  rw [State.sampleBreaks, ho]
  rfl

/-- R61: the open entry once sample `m` is in it. -/
def OpenEntry.taking (o : OpenEntry) (m : Nat) (d : EntryData) : OpenEntry :=
  match o.holding with
  | some e => { start := o.start, holding := some { e with count := e.count + 1 } }
  | none => { start := m, holding := some { data := d, count := 1 } }

/-- The records after a change of those with an index. -/
def changeAt (n : Nat) (f : SegmentRecord → SegmentRecord) (table : List SegmentRecord) : List SegmentRecord :=
  table.map (fun x => if x.index = n then f x else x)

/-- A change of a record that leaves its place alone. -/
def keepsIndex (f : SegmentRecord → SegmentRecord) : Prop := ∀ x, (f x).index = x.index

theorem changeAt_changeAt {f : SegmentRecord → SegmentRecord} (hf : keepsIndex f) (n : Nat)
    (h : SegmentRecord → SegmentRecord) (table : List SegmentRecord) :
    changeAt n h (changeAt n f table) = changeAt n (fun x => h (f x)) table := by
  rw [changeAt, changeAt, changeAt, List.map_map]
  refine List.map_congr_left fun x _ => ?_
  rw [Function.comp]
  by_cases at' : x.index = n
  · rw [if_pos at', if_pos ((hf x).trans at'), if_pos at']
  · rw [if_neg at', if_neg at', if_neg at']

theorem changeAt_append (n : Nat) (f : SegmentRecord → SegmentRecord) (l m : List SegmentRecord) :
    changeAt n f (l ++ m) = changeAt n f l ++ changeAt n f m := List.map_append

theorem changeAt_absent {n : Nat} {table : List SegmentRecord} (h : ∀ x ∈ table, x.index ≠ n)
    (f : SegmentRecord → SegmentRecord) : changeAt n f table = table :=
  (List.map_congr_left fun x hx => if_neg (h x hx)).trans (List.map_id table)

theorem changeAt_indices {f : SegmentRecord → SegmentRecord} (hf : keepsIndex f) (n : Nat) {table : List SegmentRecord}
    {x : SegmentRecord} (hx : x ∈ changeAt n f table) : ∃ y ∈ table, y.index = x.index := by
  obtain ⟨y, hy, rfl⟩ := List.mem_map.mp hx
  refine ⟨y, hy, ?_⟩
  split
  · exact (hf y).symm
  · rfl

/-- The records without their LOG_LOST marks. -/
def unmarkedTable (table : List SegmentRecord) : List SegmentRecord := table.map SegmentRecord.unmarked

theorem unmarkedTable_changeAt (n : Nat) (f : SegmentRecord → SegmentRecord) (table : List SegmentRecord) :
    unmarkedTable (changeAt n f table) = table.map (fun x => SegmentRecord.unmarked (if x.index = n then f x else x)) :=
  List.map_map

theorem State.updateOpen_changeAt {s : State} {g : SegmentRecord} (hg : s.openRecord? = some g)
    (f : SegmentRecord → SegmentRecord) :
    s.updateOpen f = { s with run := { s.run with table := changeAt g.index f s.run.table } } := by
  have at' : s.openIndex? = some g.index := State.openIndex_of hg
  rw [State.updateOpen, at']
  exact State.updateRecord_eq s _ f

/-- The open record where the table is changed at its index. -/
theorem State.openRecord_changeAt {s t : State} {g : SegmentRecord} (hg : s.openRecord? = some g)
    (f : SegmentRecord → SegmentRecord) (segment : t.run.state.hasSegment = true)
    (table : t.run.table = changeAt g.index f s.run.table) : t.openRecord? = some (f g) :=
  State.openRecord_of segment (by
    rw [table]
    exact lastChanged (State.openRecord_eq hg).2 f)

/-- R61 steps 2 and 3. -/
theorem State.enterSample_eq {s : State} {g : SegmentRecord} {o : OpenEntry} (hg : s.openRecord? = some g)
    (ho : s.cst.openEntry = some o) (m : Nat) (d : EntryData) : s.enterSample m d = { s with
      cst := { s.cst with openEntry := some (o.taking m d) }
      run := { s.run with
        table := changeAt g.index (fun x => { x with nextSample := m + 1 }) s.run.table } } := by
  have entered := State.updateOpen_changeAt (s := s.setCst { s.cst with openEntry := some (o.taking m d) }) hg
    (fun x => { x with nextSample := m + 1 })
  obtain ⟨start, holding⟩ := o
  rw [State.enterSample, ho]
  cases holding with
  | some e => exact entered
  | none => exact entered

/-! ### The commit (R61, R65, R66, R70) -/

/-- R70: the checkpoints after the commit of an entry that starts at `start`. -/
def SegmentRecord.slotsAfter (g : SegmentRecord) (m : Mem Checkpoint) (start : Nat) : Mem Checkpoint :=
  if g.writePosition % 1024 = 0 then
    Memory.write m (g.writePosition / 1024) { segment := g.index, start := start }
  else m

/-- The state after the commit of an open entry, the records of its segment changed. -/
def State.committing (s : State) (g : SegmentRecord) (start : Nat) (e : Entry) (f : SegmentRecord → SegmentRecord) :
    State := { s with
  cst := { store := Memory.write s.cst.store g.writePosition e
           openEntry := some { start := start + e.count, holding := none }
           checkpoints := g.slotsAfter s.cst.checkpoints start }
  run := { s.run with table := changeAt g.index f s.run.table } }

section
variable {s : State} {g : SegmentRecord} {start : Nat} {e : Entry} (hg : s.openRecord? = some g)
  (ho : s.cst.openEntry = some { start := start, holding := some e })
include hg ho

/-- R65: a commit into a ring with room. -/
theorem State.commitOpen_room (room : g.retained < g.regionSize) :
    s.commitOpen = (s.committing g start e (fun x => { x with retained := x.retained + 1 }), []) := by
  have entry : s.commitOpen = s.commitEntry g start e := by rw [State.commitOpen, hg, ho]
  rw [entry, State.commitEntry, if_pos room, State.updateRecord_eq]
  rfl

/-- R66: a commit into a full ring gives up the oldest entry. -/
theorem State.commitOpen_full (full : g.regionSize ≤ g.retained) :
    let first := g.firstSample + entryCountAt s.cst.store g.firstPosition
    s.commitOpen = (s.committing g start e (fun x =>
        { x with firstPosition := g.positionAfter 1, firstSample := first }),
      [{ segment := g.index, firstSample := first, runState := s.run.state }]) := by
  have entry : s.commitOpen = s.commitEntry g start e := by rw [State.commitOpen, hg, ho]
  dsimp only
  rw [entry, State.commitEntry, if_neg (Nat.not_lt.mpr full)]
  dsimp only
  rw [State.updateRecord_eq]
  rfl

end

/-! ### What the commit causes (R41, R50) -/

/-- R41: PREFILL ends and the sequencer starts. -/
def State.prefilled (s : State) : State :=
  State.postStatus { s with run := { s.run with state := .pretrig }, tsq := s.tsq.startRunning }

section
variable {s : State} {q : SegmentRecord} (hq : s.openRecord? = some q)
include hq

theorem State.enterPretrigIfFilled_fires {f : RunFigures} (hf : s.run.figures = some f) (prefill : s.run.state = .prefill)
    (filled : q.retained = f.depth) : s.enterPretrigIfFilled = s.prefilled := by
  rw [State.enterPretrigIfFilled, hq, hf]
  exact if_pos ⟨prefill, filled⟩

theorem State.enterPretrigIfFilled_rests
    (h : s.run.state = .prefill → ∀ f : RunFigures, s.run.figures = some f → q.retained ≠ f.depth) :
    s.enterPretrigIfFilled = s := by
  rw [State.enterPretrigIfFilled, hq]
  cases hf : s.run.figures with
  | none => rfl
  | some f => exact if_neg fun c => h c.1 f hf c.2

theorem State.closeIfFilled_rests
    (h : s.run.state = .posttrig → ∀ f : RunFigures, s.run.figures = some f → q.retained ≠ q.regionSize) (m : Nat) :
    s.closeIfFilled m = s := by
  rw [State.closeIfFilled, hq]
  cases hf : s.run.figures with
  | none => rfl
  | some f => exact if_neg fun c => h c.1 f hf c.2

theorem State.closeIfFilled_closes {f : RunFigures} (hf : s.run.figures = some f) (posttrig : s.run.state = .posttrig)
    (filled : q.retained = q.regionSize) (m : Nat) : s.closeIfFilled m =
      if q.index + 1 < f.segments then (s.closeSegment .filled).openSegment (q.index + 1) m
      else (s.closeSegment .filled).endRun := by
  rw [State.closeIfFilled, hq, hf]
  exact if_pos ⟨posttrig, filled⟩

/-- R51: the close of a segment whose open entry holds nothing commits nothing. -/
theorem State.closeSegment_empty {start : Nat} (ho : s.cst.openEntry = some { start := start, holding := none })
    (reason : CloseReason) : s.closeSegment reason = { s with
      cst := { s.cst with openEntry := none }
      run := { s.run with
        pendingRemote := false
        table := changeAt q.index (fun x => { x with state := .closed, closeReason := some reason }) s.run.table }
      tsq := { s.tsq with drives := 0 } } := by
  have nothing : s.commitOpen = (s, []) := State.commitOpen_of_empty fun oe h => by
    rw [ho] at h
    rw [← Option.some.inj h]
  rw [State.closeSegment, nothing]
  dsimp only [List.foldl_nil]
  rw [State.updateOpen_changeAt hq]
  rfl

end

theorem State.hasSegment_ended (s : State) : s.endRun.run.state.hasSegment = false := by
  rw [State.endRun_state]
  rfl

/-! ### The sequencer -/

theorem Tsq.evaluate_fired (t : Tsq) (i : SequencerInputs) : (t.evaluate i).fired = t.fired := by
  unfold Tsq.evaluate
  split
  · rfl
  · dsimp only
    split <;> rfl

/-! ### The sample that has arrived -/

/-- What a sample that takes no trigger leaves of the state `a` it arrived in. -/
structure State.Entered (a t : State) (g : SegmentRecord) (o : OpenEntry) (m : Nat) (d : EntryData) (i : SequencerInputs)
    (arrival : List Advance) : Prop where
  state : t.run.state = a.run.state
  tsq : t.tsq = a.tsq.evaluate i
  cst : t.cst = { a.cst with openEntry := some (o.taking m d) }
  table : unmarkedTable t.run.table =
    unmarkedTable (changeAt g.index (fun x => { x with nextSample := m + 1 }) a.run.table)
  starts : ∀ adv, arrival = [adv] → adv.segment = g.index →
    ∀ x ∈ t.log.records, x.content.segment = g.index → adv.firstSample * a.divider ≤ x.content.startTime

/-- What a sample that takes a trigger leaves of it, the state `e` being the one in which the compressor finds the sample. -/
structure State.Triggered (a t : State) (m : Nat) (word glitch : Levels) (i : SequencerInputs) : Prop where
  pretrig : a.run.state = .pretrig
  state : t.run.state = .posttrig
  tsq : t.tsq = { a.tsq.evaluate i with fired := true }
  taken : ∃ (e : State) (source : TriggerSource), e.run = a.run ∧ e.cst = a.cst ∧
    t.cst = (e.takeTrigger m word glitch source).1.cst ∧
    unmarkedTable t.run.table = unmarkedTable (e.takeTrigger m word glitch source).1.run.table

/-- R43, R60, R90: a sample that finds its segment open enters the open entry or takes the trigger. -/
theorem State.takeSample_outcome {s : State} {r : RunTime} (running : s.tau.runTime = some r) {g : SegmentRecord}
    {o : OpenEntry} (hg : (s.arrived r).1.openRecord? = some g) (ho : (s.arrived r).1.cst.openEntry = some o) :
    ∃ i : SequencerInputs,
      State.Entered (s.arrived r).1 s.takeSample g o r.nextSample
        (sampleData (s.arrived r).1.tsq.qualifier s.pfe.currentLevels s.pfe.glitchSeen) i (s.arrived r).2 ∨
      State.Triggered (s.arrived r).1 s.takeSample r.nextSample s.pfe.currentLevels s.pfe.glitchSeen i := by
  have goesOn := State.takeSample_goesOn running (State.openRecord_eq hg).1
  generalize (s.arrived r).1 = a at hg ho goesOn ⊢
  generalize (s.arrived r).2 = arrival at goesOn ⊢
  generalize s.pfe.lastLevels.getD s.pfe.currentLevels = last at goesOn
  generalize s.pfe.currentLevels = word at goesOn ⊢
  generalize s.pfe.glitchSeen = glitch at goesOn ⊢
  generalize r.nextSample = m at goesOn ⊢
  rw [goesOn]
  refine ⟨a.inputsOf word last (sampleContext a m word glitch last), ?_⟩
  by_cases trigger : a.triggersOn (a.inputsOf word last (sampleContext a m word glitch last))
  · rw [State.takeArrived_triggered s.formWord m word glitch last arrival trigger]
    refine .inr ⟨trigger.1, ?_, ?_, a.evaluated word last (sampleContext a m word glitch last), _, rfl, rfl,
      State.sampleLogged_cst _ _ _ _ _ _, State.sampleLogged_unmarked _ _ _ _ _ _⟩
    · rw [State.sampleLogged_state, State.takeTrigger_state]
    · rw [State.sampleLogged_tsq, State.takeTrigger_tsq]
      rfl
  · rw [State.takeArrived_untriggered s.formWord m word glitch last arrival trigger]
    have entered := State.enterSample_eq (s := a.evaluated word last (sampleContext a m word glitch last)) hg ho m
      (sampleData a.tsq.qualifier word glitch)
    rw [entered]
    refine .inl ⟨?_, ?_, ?_, ?_, fun adv one segment => ?_⟩
    · rw [State.sampleLogged_state]; rfl
    · rw [State.sampleLogged_tsq]; rfl
    · rw [State.sampleLogged_cst]; rfl
    · exact State.sampleLogged_unmarked _ _ _ _ _ _
    · subst one
      refine (State.logSample_starts (a.dec.sampleRecords (sampleContext a m word glitch last)) (a := [adv])
        (i := g.index) (F := adv.firstSample) ?_ ?_ ?_ ?_ ?_).1
      · intro x hx
        rw [List.mem_singleton.mp hx, segment]
      · intro x hx
        rw [← Option.some.inj hx]
        rfl
      · intro no
        cases no
      · intro x hx
        rw [Dec.sampleRecords_segment hx]
        show a.openIndex?.getD 0 = g.index
        rw [State.openIndex_of hg]
        rfl
      · exact fun _ _ _ => .inl (by simp)

end Sys2Proof.Machine
end

