-- ==== Sys2Proof/Proofs/Arrivals.lean ====
section
/-! PROOF. The state each kind of sample arrives in, and what the sample leaves of it (R41, R50, R60, R61, R65, R66). -/

namespace Sys2Proof.Machine

/-- R65: a record with one more entry retained. -/
def SegmentRecord.grown (x : SegmentRecord) : SegmentRecord := { x with retained := x.retained + 1 }

/-- R50, R51: that record closed as its region is full. -/
def SegmentRecord.filled (x : SegmentRecord) : SegmentRecord :=
  { x.grown with state := .closed, closeReason := some .filled }

/-- R66: a record moved past the oldest entry of `g`. -/
def SegmentRecord.advanced (g : SegmentRecord) (first : Nat) (x : SegmentRecord) : SegmentRecord :=
  { x with firstPosition := g.positionAfter 1, firstSample := first }

theorem SegmentRecord.grown_keepsIndex : keepsIndex SegmentRecord.grown := fun _ => rfl

theorem SegmentRecord.filled_keepsIndex : keepsIndex SegmentRecord.filled := fun _ => rfl

theorem SegmentRecord.advanced_keepsIndex (g : SegmentRecord) (first : Nat) : keepsIndex (g.advanced first) := fun _ => rfl

/-- The open entry that a sample of this data begins. -/
def beginning (m : Nat) (d : EntryData) : OpenEntry := { start := m, holding := some { data := d, count := 1 } }

/-- The records of a sample that enters an open segment whose record was changed by `f` at the arrival. -/
theorem State.Entered.table_after {a t : State} {g : SegmentRecord} {o : OpenEntry} {m : Nat} {d : EntryData}
    {i : SequencerInputs} {arrival : List Advance} (entered : State.Entered a t g o m d i arrival)
    {f : SegmentRecord → SegmentRecord} (hf : keepsIndex f) {n : Nat} (index : g.index = n) {table : List SegmentRecord}
    (arrived : a.run.table = changeAt n f table) : unmarkedTable t.run.table =
      table.map (fun x => SegmentRecord.unmarked (if x.index = n then { f x with nextSample := m + 1 } else x)) := by
  rw [entered.table, arrived, index, changeAt_changeAt hf, unmarkedTable_changeAt]

section
variable {s : State} {r : RunTime} {g : SegmentRecord} {start : Nat} (running : s.tau.runTime = some r)
  (hg : s.openRecord? = some g)

/-- The data that the sample keeps under the store qualifier that stands (R60). -/
def State.sampled (s : State) : EntryData := sampleData s.tsq.qualifier s.pfe.currentLevels s.pfe.glitchSeen

/-! ### A sample that breaks nothing -/

section
variable {o : OpenEntry} (ho : s.cst.openEntry = some o) (joins : s.sampleBreaks s.sampled = false)
include running hg ho joins

/-- R60: a sample that breaks no entry arrives in the state as it stands. -/
theorem State.takeSample_joining : ∃ i : SequencerInputs,
    State.Entered s.formWord s.takeSample g o r.nextSample s.sampled i [] ∨
      State.Triggered s.formWord s.takeSample r.nextSample s.pfe.currentLevels s.pfe.glitchSeen i := by
  have arrived : s.arrived r = (s.formWord, []) := State.arrive_joins (s := s.formWord) joins r.nextSample
  have outcome := State.takeSample_outcome running (g := g) (o := o) (by rw [arrived]; exact hg) (by rw [arrived]; exact ho)
  rw [arrived] at outcome
  exact outcome

theorem State.takeSample_joining_state (waits : s.run.state ≠ .pretrig) : s.takeSample.run.state = s.run.state := by
  obtain ⟨i, entered | triggered⟩ := State.takeSample_joining running hg ho joins
  · exact entered.state
  · exact absurd triggered.pretrig waits

theorem State.takeSample_joining_store (stays : s.takeSample.run.state = s.run.state) :
    s.takeSample.cst = { s.cst with openEntry := some (o.taking r.nextSample s.sampled) } ∧
      unmarkedTable s.takeSample.run.table = s.run.table.map (fun x =>
        SegmentRecord.unmarked (if x.index = g.index then { x with nextSample := r.nextSample + 1 } else x)) := by
  obtain ⟨i, entered | triggered⟩ := State.takeSample_joining running hg ho joins
  · refine ⟨entered.cst, ?_⟩
    rw [entered.table, unmarkedTable_changeAt]
    rfl
  · have moved := triggered.state.symm.trans stays
    have pretrig : s.run.state = .pretrig := triggered.pretrig
    rw [pretrig] at moved
    cases moved

end

/-! ### A sample that commits the open entry -/

variable {e : Entry} (ho : s.cst.openEntry = some { start := start, holding := some e })
  (breaks : s.sampleBreaks s.sampled = true)

/-- R65: the state after the commit into a ring with room. -/
def State.grown (s : State) (g : SegmentRecord) (start : Nat) (e : Entry) : State :=
  s.formWord.committing g start e SegmentRecord.grown

include hg in
theorem State.grown_openRecord : (s.grown g start e).openRecord? = some g.grown :=
  State.openRecord_changeAt (s := s.formWord) hg SegmentRecord.grown (State.openRecord_eq hg).1 rfl

/-- R41: the commit brings PREFILL to its depth. -/
def State.fillsPre (s : State) (g : SegmentRecord) : Prop :=
  s.run.state = .prefill ∧ ∃ f : RunFigures, s.run.figures = some f ∧ g.retained + 1 = f.depth

/-- R50: the commit fills the region in POSTTRIG. -/
def State.fillsPost (s : State) (g : SegmentRecord) : Prop :=
  s.run.state = .posttrig ∧ (∃ f : RunFigures, s.run.figures = some f) ∧ g.retained + 1 = g.regionSize

section
variable (room : g.retained < g.regionSize)

section
include hg ho breaks room

theorem State.arrived_room : s.arrived r =
    ((s.grown g start e).enterPretrigIfFilled.closeIfFilled r.nextSample, []) := by
  have committed : s.formWord.commitOpen = (s.grown g start e, []) := State.commitOpen_room (s := s.formWord) hg ho room
  exact (State.arrive_breaks (s := s.formWord) breaks r.nextSample).trans (by rw [committed])

theorem State.arrived_room_rests (pre : ¬s.fillsPre g) (post : ¬s.fillsPost g) :
    s.arrived r = (s.grown g start e, []) := by
  have record : (s.grown g start e).openRecord? = some g.grown := State.grown_openRecord hg
  rw [State.arrived_room hg ho breaks room,
    State.enterPretrigIfFilled_rests record fun prefill f hf filled => pre ⟨prefill, f, hf, filled⟩,
    State.closeIfFilled_rests record fun posttrig f hf filled => post ⟨posttrig, ⟨f, hf⟩, filled⟩]

theorem State.arrived_room_prefilled (pre : s.fillsPre g) : s.arrived r = ((s.grown g start e).prefilled, []) := by
  obtain ⟨prefill, f, hf, filled⟩ := pre
  have record : (s.grown g start e).openRecord? = some g.grown := State.grown_openRecord hg
  have state : (s.grown g start e).prefilled.run.state = .pretrig := by rw [State.prefilled, State.postStatus_run]
  have record' : (s.grown g start e).prefilled.openRecord? = some g.grown := by
    refine (State.openRecord?_congr ?_ ?_).trans record
    · rw [state]
      exact (State.openRecord_eq record).1.symm
    · rw [State.prefilled, State.postStatus_run]
  rw [State.arrived_room hg ho breaks room, State.enterPretrigIfFilled_fires record hf prefill filled,
    State.closeIfFilled_rests record' fun posttrig => by rw [state] at posttrig; cases posttrig]

end

/-- The state a sample arrives in where the commit found room and closed no segment: the run state may have become PRETRIG. -/
structure State.ArrivedGrown (s : State) (g : SegmentRecord) (start : Nat) (e : Entry) (a : State) : Prop where
  record : a.openRecord? = some g.grown
  cst : a.cst = (s.grown g start e).cst
  table : a.run.table = changeAt g.index SegmentRecord.grown s.run.table
  qualifier : a.tsq.qualifier = s.tsq.qualifier
  state : a.run.state = s.run.state ∨ s.run.state = .prefill

section
include hg ho breaks room

theorem State.arrived_grown (post : ¬s.fillsPost g) : s.ArrivedGrown g start e (s.arrived r).1 ∧ (s.arrived r).2 = [] := by
  by_cases pre : s.fillsPre g
  · rw [State.arrived_room_prefilled hg ho breaks room pre]
    refine ⟨⟨?_, State.postStatus_cst _, ?_, ?_, .inr pre.1⟩, rfl⟩
    · exact State.openRecord_changeAt (s := s.formWord) hg SegmentRecord.grown
        (by rw [State.prefilled, State.postStatus_run]; rfl) (by rw [State.prefilled, State.postStatus_run]; rfl)
    · rw [State.prefilled, State.postStatus_run]
      rfl
    · rw [State.prefilled, State.postStatus_tsq]
      rfl
  · rw [State.arrived_room_rests hg ho breaks room pre post]
    exact ⟨⟨State.grown_openRecord hg, rfl, rfl, rfl, .inl rfl⟩, rfl⟩

include running

theorem State.takeSample_room (post : ¬s.fillsPost g) : ∃ i : SequencerInputs,
    State.Entered (s.arrived r).1 s.takeSample g.grown { start := start + e.count, holding := none } r.nextSample
      s.sampled i [] ∨
    State.Triggered (s.arrived r).1 s.takeSample r.nextSample s.pfe.currentLevels s.pfe.glitchSeen i := by
  obtain ⟨arrived, nothing⟩ := State.arrived_grown (r := r) hg ho breaks room post
  have outcome := State.takeSample_outcome running arrived.record (by rw [arrived.cst]; rfl)
  rw [nothing, arrived.qualifier] at outcome
  exact outcome

/-- R65: what a sample leaves of the store and the records where its commit found room. -/
theorem State.takeSample_room_store (post : ¬s.fillsPost g)
    (untriggered : s.run.state = .posttrig ∨ s.takeSample.run.state ≠ .posttrig) :
    s.takeSample.cst =
        { store := Memory.write s.cst.store g.writePosition e
          openEntry := some (beginning r.nextSample s.sampled)
          checkpoints := g.slotsAfter s.cst.checkpoints start } ∧
      unmarkedTable s.takeSample.run.table = s.run.table.map (fun x => SegmentRecord.unmarked
        (if x.index = g.index then { x.grown with nextSample := r.nextSample + 1 } else x)) := by
  obtain ⟨arrived, -⟩ := State.arrived_grown (r := r) hg ho breaks room post
  obtain ⟨i, entered | triggered⟩ := State.takeSample_room running hg ho breaks room post
  · refine ⟨?_, entered.table_after SegmentRecord.grown_keepsIndex rfl arrived.table⟩
    rw [entered.cst, arrived.cst]
    rfl
  · have posttrig := untriggered.resolve_right fun c => c triggered.state
    rcases arrived.state with same | prefill
    · rw [triggered.pretrig, posttrig] at same
      cases same
    · rw [posttrig] at prefill
      cases prefill

/-- R41, R50: a run state that the commit does not move stays where it is PREFILL or POSTTRIG. -/
theorem State.takeSample_room_state (pre : ¬s.fillsPre g) (post : ¬s.fillsPost g) (waits : s.run.state ≠ .pretrig) :
    s.takeSample.run.state = s.run.state := by
  have outcome := State.takeSample_room running hg ho breaks room post
  rw [State.arrived_room_rests hg ho breaks room pre post] at outcome
  obtain ⟨i, entered | triggered⟩ := outcome
  · exact entered.state
  · exact absurd triggered.pretrig waits

/-- R41, R91: the commit that ends PREFILL starts the sequencer, and the sample is its first. -/
theorem State.takeSample_prefilled (pre : s.fillsPre g) :
    (s.takeSample.run.state = .pretrig ∨ s.takeSample.run.state = .posttrig) ∧ s.takeSample.tsq.running = true ∧
      (s.arrived r).1.tsq = s.tsq.startRunning ∧
      ∃ i : SequencerInputs, { s.takeSample.tsq with fired := s.tsq.fired } = s.tsq.startRunning.evaluate i := by
  have post : ¬s.fillsPost g := fun c => by
    have both := pre.1.symm.trans c.1
    cases both
  have outcome := State.takeSample_room running hg ho breaks room post
  have arrived := State.arrived_room_prefilled (r := r) hg ho breaks room pre
  have tsq : (s.arrived r).1.tsq = s.tsq.startRunning := by
    rw [arrived, State.prefilled, State.postStatus_tsq]
    rfl
  have state : (s.arrived r).1.run.state = .pretrig := by rw [arrived, State.prefilled, State.postStatus_run]
  have fired (i : SequencerInputs) : { s.tsq.startRunning.evaluate i with fired := s.tsq.fired } =
      s.tsq.startRunning.evaluate i := by
    have keeps := Tsq.evaluate_fired s.tsq.startRunning i
    generalize s.tsq.startRunning.evaluate i = q at keeps
    rw [show s.tsq.fired = q.fired from keeps.symm]
  have runs (i : SequencerInputs) : (s.tsq.startRunning.evaluate i).running = true := Tsq.evaluate_running _ i
  obtain ⟨i, entered | triggered⟩ := outcome
  · refine ⟨.inl (entered.state.trans state), ?_, tsq, i, ?_⟩
    · rw [entered.tsq, tsq]
      exact runs i
    · rw [entered.tsq, tsq]
      exact fired i
  · refine ⟨.inr triggered.state, ?_, tsq, i, ?_⟩
    · rw [triggered.tsq, tsq]
      exact runs i
    · rw [triggered.tsq, tsq]
      exact fired i

end
end

/-! ### A commit into a full ring (R66) -/

/-- The first retained sample once the oldest entry is given up. -/
def SegmentRecord.firstAfter (g : SegmentRecord) (m : Mem Entry) : Nat := g.firstSample + entryCountAt m g.firstPosition

section
variable (full : g.regionSize ≤ g.retained)

section
include hg ho breaks full

theorem State.arrived_full (state : s.run.state = .prefill ∨ s.run.state = .pretrig) :
    let x := s.formWord.committing g start e (g.advanced (g.firstAfter s.cst.store))
    let advances : List Advance :=
      [{ segment := g.index, firstSample := g.firstAfter s.cst.store, runState := s.run.state }]
    x.openRecord? = some (g.advanced (g.firstAfter s.cst.store) g) ∧
      (s.arrived r = (x, advances) ∨ (s.run.state = .prefill ∧ (s.arrived r).1.run.state = .pretrig ∧
        (s.arrived r).1.openRecord? = some (g.advanced (g.firstAfter s.cst.store) g) ∧
        (s.arrived r).1.cst.openEntry = some { start := start + e.count, holding := none })) := by
  intro x advances
  have committed : s.formWord.commitOpen = (x, advances) := State.commitOpen_full (s := s.formWord) hg ho full
  have record : x.openRecord? = some (g.advanced (g.firstAfter s.cst.store) g) :=
    State.openRecord_changeAt (s := s.formWord) hg _ (State.openRecord_eq hg).1 rfl
  have arrived : s.arrived r = (x.enterPretrigIfFilled.closeIfFilled r.nextSample, advances) :=
    (State.arrive_breaks (s := s.formWord) breaks r.nextSample).trans (by rw [committed])
  refine ⟨record, ?_⟩
  by_cases pre : s.run.state = .prefill ∧ ∃ f : RunFigures, s.run.figures = some f ∧ g.retained = f.depth
  · obtain ⟨prefill, f, hf, filled⟩ := pre
    have pretrig : x.prefilled.run.state = .pretrig := by rw [State.prefilled, State.postStatus_run]
    have record' : x.prefilled.openRecord? = some (g.advanced (g.firstAfter s.cst.store) g) := by
      refine (State.openRecord?_congr ?_ ?_).trans record
      · rw [pretrig]
        exact (State.openRecord_eq record).1.symm
      · rw [State.prefilled, State.postStatus_run]
    rw [State.enterPretrigIfFilled_fires record hf prefill filled,
      State.closeIfFilled_rests record' fun posttrig => by rw [pretrig] at posttrig; cases posttrig] at arrived
    rw [arrived]
    refine .inr ⟨prefill, pretrig, record', ?_⟩
    rw [State.prefilled, State.postStatus_cst]
    rfl
  · rw [State.enterPretrigIfFilled_rests record fun prefill f hf filled => pre ⟨prefill, f, hf, filled⟩,
      State.closeIfFilled_rests record fun posttrig => by
        rw [show s.run.state = .posttrig from posttrig] at state
        rcases state with state | state <;> cases state] at arrived
    exact .inl arrived

include running

/-- R66, R126: what a sample leaves of the store, the records and the log where its commit gave up the oldest entry. -/
theorem State.takeSample_full (state : s.run.state = .prefill ∨ s.run.state = .pretrig)
    (stays : s.takeSample.run.state = s.run.state) :
    s.takeSample.cst =
        { store := Memory.write s.cst.store g.writePosition e
          openEntry := some (beginning r.nextSample s.sampled)
          checkpoints := g.slotsAfter s.cst.checkpoints start } ∧
      unmarkedTable s.takeSample.run.table = s.run.table.map (fun x => SegmentRecord.unmarked (if x.index = g.index then
        { g.advanced (g.firstAfter s.cst.store) x with nextSample := r.nextSample + 1 } else x)) ∧
      ∀ x ∈ s.takeSample.log.records, x.content.segment = g.index →
        g.firstAfter s.cst.store * s.divider ≤ x.content.startTime := by
  obtain ⟨record, arrived | ⟨prefill, pretrig, record', entry⟩⟩ := State.arrived_full (r := r) hg ho breaks full state
  · have outcome := State.takeSample_outcome (o := { start := start + e.count, holding := none }) running
      (by rw [arrived]; exact record) (by rw [arrived]; rfl)
    rw [arrived] at outcome
    obtain ⟨i, entered | triggered⟩ := outcome
    · refine ⟨entered.cst, entered.table_after (g.advanced_keepsIndex _) rfl rfl, ?_⟩
      exact entered.starts _ rfl rfl
    · have pretrig : s.run.state = .pretrig := triggered.pretrig
      have moved := triggered.state.symm.trans (stays.trans pretrig)
      cases moved
  · obtain ⟨i, entered | triggered⟩ := State.takeSample_outcome running record' entry
    · have moved := (entered.state.trans pretrig).symm.trans (stays.trans prefill)
      cases moved
    · have moved := triggered.state.symm.trans (stays.trans prefill)
      cases moved

end
end
end

end Sys2Proof.Machine
end

