-- ==== Sys2Proof/Proofs/Fillings.lean ====
section
/-! PROOF. The sample whose commit fills the region in POSTTRIG: the segment it closes, and the one it opens or the run it
ends (R40, R50 to R52, R91, R93). -/

namespace Sys2Proof.Machine

/-! ### A trigger at a segment's first sample -/

theorem State.reportTrigger_length (s : State) (source : TriggerSource) (segment time : Nat) :
    (s.reportTrigger source segment time).run.table.length = s.run.table.length := by
  have posted : s.postStatus.run.table.length = s.run.table.length := by rw [State.postStatus_run]
  match source with
  | .local =>
    have spans : (s.postStatus.postNotice segment time).run.table.map SegmentRecord.span =
        s.postStatus.run.table.map SegmentRecord.span :=
      congrArg (fun v => v.2.2.1) (State.postNotice_view s.postStatus segment time)
    have lengths := congrArg List.length spans
    rw [List.length_map, List.length_map] at lengths
    exact lengths.trans posted
  | .remote => exact posted
  | .none => exact posted

/-- R43, R64: the store after a trigger is that of the commit and the cut, with the trigger entry open. -/
theorem State.takeTrigger_cst (s : State) (t : Nat) (word glitch : Levels) (source : TriggerSource) :
    (s.takeTrigger t word glitch source).1.cst =
      { s.commitOpen.1.preTriggerCut.1.cst with openEntry := some (beginning t (.levels word glitch)) } := by
  have marked : (s.commitOpen.1.preTriggerCut.1.updateOpen (fun r => r.triggered t s.divider source)).cst =
      s.commitOpen.1.preTriggerCut.1.cst := State.updateOpen_cst _ _
  rw [← marked]
  unfold State.takeTrigger
  dsimp only
  split
  · rw [State.postNotice_eq]
    exact State.postStatus_cst _
  all_goals exact State.postStatus_cst _

/-- R43, R45: a trigger that finds nothing retained and nothing held leaves the store as it stands. -/
theorem State.takeTrigger_fresh {s : State} {g : SegmentRecord} {start : Nat} (hg : s.openRecord? = some g)
    (ho : s.cst.openEntry = some { start := start, holding := none }) (fresh : g.retained = 0) (t : Nat)
    (word glitch : Levels) (source : TriggerSource) : (s.takeTrigger t word glitch source).1.cst =
      { s.cst with openEntry := some (beginning t (.levels word glitch)) } := by
  have nothing : s.commitOpen = (s, []) := State.commitOpen_of_empty fun oe h => by
    rw [ho] at h
    rw [← Option.some.inj h]
  have uncut : s.preTriggerCut.1.cst = s.cst := by
    rw [State.preTriggerCut, hg]
    cases s.run.figures with
    | none => rfl
    | some f =>
      dsimp only
      rw [if_neg (by rw [fresh]; exact Nat.not_lt_zero _)]
      split <;> rfl
  rw [State.takeTrigger_cst, nothing, uncut]

theorem State.takeTrigger_length {s : State} {g : SegmentRecord} {f : RunFigures} {o : OpenEntry}
    (hg : s.openRecord? = some g) (hf : s.run.figures = some f) (ho : s.cst.openEntry = some o)
    (hu : ∀ x ∈ s.run.table, x.index = g.index → x = g) (t : Nat) (word glitch : Levels) (source : TriggerSource) :
    (s.takeTrigger t word glitch source).1.run.table.length = s.run.table.length := by
  rw [State.takeTrigger_eq hg hf ho hu, State.reportTrigger_length]
  exact List.length_map _

theorem Tsq.openSegment_qualifier (t : Tsq) (rs : RunState) : (t.openSegment rs).qualifier = true := by
  unfold Tsq.openSegment
  dsimp only
  split <;> rfl

theorem Tsq.openSegment_fired (t : Tsq) (rs : RunState) : (t.openSegment rs).fired = false := by
  unfold Tsq.openSegment
  dsimp only
  split <;> rfl

section
variable {s : State} {r : RunTime} {g : SegmentRecord} {start : Nat} {e : Entry} {f : RunFigures}

/-- R50, R51: the state after the commit that fills the region has closed the segment. -/
def State.filledUp (s : State) (g : SegmentRecord) (start : Nat) (e : Entry) : State := { s.formWord with
  cst := { store := Memory.write s.cst.store g.writePosition e, openEntry := none
           checkpoints := g.slotsAfter s.cst.checkpoints start }
  run := { s.run with pendingRemote := false, table := changeAt g.index SegmentRecord.filled s.run.table }
  tsq := { s.tsq with drives := 0 } }

theorem State.closeSegment_grown (hg : s.openRecord? = some g) :
    (s.grown g start e).closeSegment .filled = s.filledUp g start e := by
  rw [State.closeSegment_empty (State.grown_openRecord hg) rfl, State.filledUp]
  have closed := changeAt_changeAt SegmentRecord.grown_keepsIndex g.index
    (fun x => { x with state := .closed, closeReason := some .filled }) s.run.table
  exact congrArg (fun table => { s.formWord with
    cst := { store := Memory.write s.cst.store g.writePosition e, openEntry := none
             checkpoints := g.slotsAfter s.cst.checkpoints start }
    run := { s.run with pendingRemote := false, table := table }
    tsq := { s.tsq with drives := 0 } }) closed

variable (running : s.tau.runTime = some r) (hg : s.openRecord? = some g)
  (ho : s.cst.openEntry = some { start := start, holding := some e }) (breaks : s.sampleBreaks s.sampled = true)
  (posttrig : s.run.state = .posttrig) (hf : s.run.figures = some f) (fills : g.retained + 1 = g.regionSize)

include hg ho breaks posttrig hf fills in
theorem State.arrived_filled : s.arrived r =
    (if g.index + 1 < f.segments then (s.filledUp g start e).openSegment (g.index + 1) r.nextSample
      else (s.filledUp g start e).endRun, []) := by
  have room : g.retained < g.regionSize := by rw [← fills]; exact Nat.lt_succ_self _
  have record : (s.grown g start e).openRecord? = some g.grown := State.grown_openRecord hg
  have stays : s.run.state ≠ .prefill := by rw [posttrig]; exact fun c => by cases c
  rw [State.arrived_room hg ho breaks room, State.enterPretrigIfFilled_rests record fun prefill => absurd prefill stays,
    State.closeIfFilled_closes record hf posttrig fills, State.closeSegment_grown hg]
  rfl

/-! ### The run ends (R52) -/

include running hg ho breaks posttrig hf fills in
theorem State.takeSample_lastFilled (last : f.segments ≤ g.index + 1) :
    s.takeSample.run.state = .idle ∧ s.takeSample.tau.runTime = none ∧
      s.takeSample.cst = (s.filledUp g start e).cst ∧
      s.takeSample.run.table = changeAt g.index SegmentRecord.filled s.run.table := by
  have arrived := State.arrived_filled (r := r) hg ho breaks posttrig hf fills
  rw [if_neg (Nat.not_lt.mpr last)] at arrived
  have taken : s.takeSample = (s.filledUp g start e).endRun := by
    rw [State.takeSample_ends running (by rw [arrived]; exact State.hasSegment_ended _), arrived]
  have front := State.endRun_front (s.filledUp g start e)
  rw [taken]
  refine ⟨State.endRun_state _, congrArg (fun x => x.1.runTime) front, ?_, ?_⟩
  · rw [State.endRun, State.postStatus_cst, State.flushDecoders_cst]
    rfl
  · rw [State.endRun_run]
    rfl

/-! ### The next segment opens (R40) -/

/-- R40: the record of the segment that opens at the sample. -/
def State.openedRecord (s : State) (r : RunTime) (g : SegmentRecord) (f : RunFigures) : SegmentRecord :=
  newRecord f (g.index + 1) r.nextSample (!s.tau.locked)

/-- The state a sample arrives in where its commit closed a segment and the next opened. -/
structure State.ArrivedOpened (s : State) (r : RunTime) (g : SegmentRecord) (start : Nat) (e : Entry) (f : RunFigures)
    (a : State) : Prop where
  record : a.openRecord? = some (s.openedRecord r g f)
  figures : a.run.figures = some f
  cst : a.cst = { (s.filledUp g start e).cst with openEntry := some { start := r.nextSample, holding := none } }
  table : a.run.table = changeAt g.index SegmentRecord.filled s.run.table ++ [s.openedRecord r g f]
  state : a.run.state = openingState s.run.setup.prefillWait f.depth
  tsq : a.tsq = ({ s.tsq with drives := 0 } : Tsq).openSegment (openingState s.run.setup.prefillWait f.depth)

theorem openingState_hasSegment (prefillWait : Bool) (depth : Nat) : (openingState prefillWait depth).hasSegment = true := by
  rw [openingState_eq]
  split <;> rfl

include hg ho breaks posttrig hf fills in
theorem State.arrived_opened (goesOn : g.index + 1 < f.segments) :
    s.ArrivedOpened r g start e f (s.arrived r).1 ∧ (s.arrived r).2 = [] := by
  have arrived := State.arrived_filled (r := r) hg ho breaks posttrig hf fills
  rw [if_pos goesOn, State.openSegment_eq (s := s.filledUp g start e) hf] at arrived
  rw [arrived]
  refine ⟨⟨?_, ?_, State.postStatus_cst _, ?_, ?_, State.postStatus_tsq _⟩, rfl⟩
  · refine State.openRecord_of ?_ ?_
    · rw [State.postStatus_run]
      exact openingState_hasSegment _ _
    · rw [State.postStatus_run]
      exact List.getLast?_concat
  · rw [State.postStatus_run]
    exact hf
  · rw [State.postStatus_run]
    rfl
  · rw [State.postStatus_run]
    rfl

section
variable (goesOn : g.index + 1 < f.segments) (unused : ∀ x ∈ s.run.table, x.index ≠ g.index + 1)

include unused in
theorem State.filled_unused : ∀ x ∈ changeAt g.index SegmentRecord.filled s.run.table, x.index ≠ g.index + 1 :=
  fun _ hx => by
    obtain ⟨y, hy, same⟩ := changeAt_indices SegmentRecord.filled_keepsIndex g.index hx
    rw [← same]
    exact unused y hy

include running hg ho breaks posttrig hf fills goesOn

theorem State.takeSample_opened_outcome : ∃ i : SequencerInputs,
    State.Entered (s.arrived r).1 s.takeSample (s.openedRecord r g f) { start := r.nextSample, holding := none } r.nextSample
      (.levels s.pfe.currentLevels s.pfe.glitchSeen) i [] ∨
    State.Triggered (s.arrived r).1 s.takeSample r.nextSample s.pfe.currentLevels s.pfe.glitchSeen i := by
  obtain ⟨opened, nothing⟩ := State.arrived_opened (r := r) hg ho breaks posttrig hf fills goesOn
  have outcome := State.takeSample_outcome running opened.record (by rw [opened.cst])
  rw [nothing, opened.tsq, Tsq.openSegment_qualifier] at outcome
  exact outcome

/-- R93, R91: TSQ at the sample that opens a segment: stopped in PREFILL, at level 0 otherwise. -/
theorem State.takeSample_opened_tsq :
    ((openingState s.run.setup.prefillWait f.depth = .prefill) → s.takeSample.run.state = .prefill ∧
      s.takeSample.tsq = (s.arrived r).1.tsq) ∧
    ∃ i : SequencerInputs, { s.takeSample.tsq with fired := false } = (s.arrived r).1.tsq.evaluate i := by
  obtain ⟨opened, -⟩ := State.arrived_opened (r := r) hg ho breaks posttrig hf fills goesOn
  have unfired (i : SequencerInputs) :
      { (s.arrived r).1.tsq.evaluate i with fired := false } = (s.arrived r).1.tsq.evaluate i := by
    have keeps := Tsq.evaluate_fired (s.arrived r).1.tsq i
    rw [opened.tsq, Tsq.openSegment_fired, ← opened.tsq] at keeps
    generalize (s.arrived r).1.tsq.evaluate i = q at keeps
    rw [← keeps]
  obtain ⟨i, entered | triggered⟩ :=
    State.takeSample_opened_outcome running hg ho breaks posttrig hf fills goesOn
  · refine ⟨fun prefill => ⟨entered.state.trans (opened.state.trans prefill), ?_⟩, i, ?_⟩
    · have stopped : (s.arrived r).1.tsq.running = false := by
        rw [opened.tsq, prefill]
        rfl
      rw [entered.tsq, Tsq.evaluate_of_stopped stopped]
    · rw [entered.tsq]
      exact unfired i
  · refine ⟨fun prefill => ?_, i, ?_⟩
    · have both := triggered.pretrig.symm.trans (opened.state.trans prefill)
      cases both
    · rw [triggered.tsq]
      exact unfired i

/-- R40: the run state and the records, unless the sample triggers. -/
theorem State.takeSample_opened_untriggered (unused : ∀ x ∈ s.run.table, x.index ≠ g.index + 1)
    (untriggered : s.takeSample.run.state ≠ .posttrig) :
    s.takeSample.run.state = openingState s.run.setup.prefillWait f.depth ∧
      unmarkedTable s.takeSample.run.table = unmarkedTable (changeAt g.index SegmentRecord.filled s.run.table ++
        [{ s.openedRecord r g f with nextSample := r.nextSample + 1 }]) := by
  obtain ⟨opened, -⟩ := State.arrived_opened (r := r) hg ho breaks posttrig hf fills goesOn
  obtain ⟨i, entered | triggered⟩ :=
    State.takeSample_opened_outcome running hg ho breaks posttrig hf fills goesOn
  · refine ⟨entered.state.trans opened.state, ?_⟩
    rw [entered.table, opened.table, changeAt_append,
      changeAt_absent (n := (s.openedRecord r g f).index) (State.filled_unused unused)]
    exact congrArg (fun x => unmarkedTable (_ ++ [x])) (if_pos rfl)
  · exact absurd triggered.state untriggered

/-- R40, R43: the store with the sample in an entry of its own, whether it triggers or not. -/
theorem State.takeSample_opened_store : s.takeSample.cst = { (s.filledUp g start e).cst with
    openEntry := some (beginning r.nextSample (.levels s.pfe.currentLevels s.pfe.glitchSeen)) } := by
  obtain ⟨opened, -⟩ := State.arrived_opened (r := r) hg ho breaks posttrig hf fills goesOn
  obtain ⟨i, entered | triggered⟩ :=
    State.takeSample_opened_outcome running hg ho breaks posttrig hf fills goesOn
  · rw [entered.cst, opened.cst]
    rfl
  · obtain ⟨x, source, run, cst, store, -⟩ := triggered.taken
    have record : x.openRecord? = some (s.openedRecord r g f) :=
      (State.openRecord?_congr (by rw [run]) (by rw [run])).trans opened.record
    rw [store, State.takeTrigger_fresh record (by rw [cst, opened.cst]) rfl, cst, opened.cst]

include unused

/-- R40, R43: the table grows by the record of the segment that opens. -/
theorem State.takeSample_opened_length : s.takeSample.run.table.length = s.run.table.length + 1 := by
  obtain ⟨opened, -⟩ := State.arrived_opened (r := r) hg ho breaks posttrig hf fills goesOn
  have length : (s.arrived r).1.run.table.length = s.run.table.length + 1 := by
    rw [opened.table, List.length_append, changeAt, List.length_map]
    rfl
  have unmarkedLength (table : List SegmentRecord) : (unmarkedTable table).length = table.length := List.length_map _
  obtain ⟨i, entered | triggered⟩ :=
    State.takeSample_opened_outcome running hg ho breaks posttrig hf fills goesOn
  · have lengths := congrArg List.length entered.table
    rw [unmarkedLength, unmarkedLength, changeAt, List.length_map, length] at lengths
    exact lengths
  · obtain ⟨x, source, run, cst, -, table⟩ := triggered.taken
    have record : x.openRecord? = some (s.openedRecord r g f) :=
      (State.openRecord?_congr (by rw [run]) (by rw [run])).trans opened.record
    have only : ∀ y ∈ x.run.table, y.index = (s.openedRecord r g f).index → y = s.openedRecord r g f := by
      rw [run, opened.table]
      intro y hy same
      rcases List.mem_append.mp hy with hy | hy
      · exact absurd same (State.filled_unused unused y hy)
      · exact List.mem_singleton.mp hy
    have kept := State.takeTrigger_length record (by rw [run]; exact opened.figures) (by rw [cst, opened.cst]) only
      r.nextSample s.pfe.currentLevels s.pfe.glitchSeen source
    have lengths := congrArg List.length table
    rw [unmarkedLength, unmarkedLength, kept, run, length] at lengths
    exact lengths

end
end

end Sys2Proof.Machine
end

