-- ==== Sys2Proof/Proofs/StoreSamples.lean ====
section
/-! PROOF. What a sample does to the store (R41, R50, R60, R61, R65 to R67, R70): its obligation, case by case. -/

namespace Sys2Proof.Machine

theorem State.sampleBreaks_iff {s : State} {start : Nat} {e : Entry}
    (ho : s.cst.openEntry = some { start := start, holding := some e }) : s.sampleBreaks s.sampled = false ↔
      e.count < 16777216 ∧
        (if s.tsq.qualifier then e.data = .levels s.pfe.currentLevels 0 ∧ s.pfe.glitchSeen = 0 else e.data = .gap) := by
  rw [State.sampleBreaks_holding ho, Bool.not_eq_false', State.sampled, sampleJoins_iff]

end Sys2Proof.Machine

namespace Sys2Proof.Proofs
open Sys2Proof Sys2Proof.Machine

/-- Settles O21: each kind of sample by the state it arrives in, with the trigger told apart by the run state it leaves. -/
theorem sampleJoinsOrCommits : Obligations.SampleJoinsOrCommits := by
  refine ⟨fun s r g start e active running due hg ho => ?_, fun s r g start active running due hg ho => ?_⟩
  · intro word glitch joins began store slots unmarked changed next atLevel0 arrived
    have iff : s.sampleBreaks s.sampled = false ↔ joins := State.sampleBreaks_iff ho
    have breaks (no : ¬joins) : s.sampleBreaks s.sampled = true := Bool.of_not_eq_false fun c => no (iff.mp c)
    have fillsPost {f : RunFigures} (posttrig : s.run.state = .posttrig) (hf : s.run.figures = some f)
        (fills : g.retained + 1 = g.regionSize) : s.fillsPost g := ⟨posttrig, ⟨f, hf⟩, fills⟩
    refine ⟨s.takeSample, State.exec_sample active running due, fun yes => ⟨fun waits => ?_, fun stays => ?_⟩,
      fun no room => ⟨fun prefill deep => ?_, fun f prefill hf deep => ?_, fun posttrig open' => ?_,
        fun open' untriggered => ?_⟩,
      fun no full state stays => ?_, fun f no posttrig hf fills => ?_⟩
    · exact State.takeSample_joining_state running hg ho (iff.mpr yes) waits
    · exact State.takeSample_joining_store running hg ho (iff.mpr yes) stays
    · have pre : ¬s.fillsPre g := fun c => by
        obtain ⟨-, f, hf, filled⟩ := c
        exact deep f hf filled
      have post : ¬s.fillsPost g := fun c => by
        have both := prefill.symm.trans c.1
        cases both
      exact (State.takeSample_room_state running hg ho (breaks no) room pre post
        (by rw [prefill]; exact fun c => by cases c)).trans prefill
    · obtain ⟨state, runs, arrives, evaluated⟩ :=
        State.takeSample_prefilled running hg ho (breaks no) room ⟨prefill, f, hf, deep⟩
      exact ⟨state, runs, arrives, evaluated⟩
    · have pre : ¬s.fillsPre g := fun c => by
        have both := posttrig.symm.trans c.1
        cases both
      have post : ¬s.fillsPost g := fun c => by
        obtain ⟨-, ⟨f, hf⟩, filled⟩ := c
        exact open' f hf filled
      exact (State.takeSample_room_state running hg ho (breaks no) room pre post
        (by rw [posttrig]; exact fun c => by cases c)).trans posttrig
    · have post : ¬s.fillsPost g := fun c => by
        obtain ⟨posttrig, ⟨f, hf⟩, filled⟩ := c
        exact open' posttrig f hf filled
      exact State.takeSample_room_store running hg ho (breaks no) room post untriggered
    · exact State.takeSample_full running hg ho (breaks no) full state stays
    · intro closed
      by_cases goesOn : g.index + 1 < f.segments
      · have cst := State.takeSample_opened_store running hg ho (breaks no) posttrig hf fills goesOn
        refine ⟨by rw [cst]; rfl, by rw [cst]; rfl, fun _ unused => ?_, fun last => absurd goesOn (Nat.not_lt.mpr last)⟩
        obtain ⟨stopped, evaluated⟩ := State.takeSample_opened_tsq running hg ho (breaks no) posttrig hf fills goesOn
        obtain ⟨opened, -⟩ := State.arrived_opened (r := r) hg ho (breaks no) posttrig hf fills goesOn
        have tsq := opened.tsq
        refine ⟨by rw [cst]; rfl,
          State.takeSample_opened_length running hg ho (breaks no) posttrig hf fills goesOn unused,
          ⟨fun waits deep => ?_, fun starts => ?_⟩, fun untriggered => ?_⟩
        · have opens : openingState s.run.setup.prefillWait f.depth = .prefill := by
            rw [openingState_eq, if_pos ⟨waits, deep⟩]
          obtain ⟨state, same⟩ := stopped opens
          rw [opens] at tsq
          exact ⟨state, tsq, same.trans tsq⟩
        · have opens : openingState s.run.setup.prefillWait f.depth = .pretrig := by
            rw [openingState_eq, if_neg fun c => ?_]
            rcases starts with waits | deep
            · rw [waits] at c
              exact absurd c.1 (by decide)
            · exact absurd c.2 (by rw [deep]; decide)
          rw [opens] at tsq
          rw [tsq] at evaluated
          exact ⟨tsq, evaluated⟩
        · obtain ⟨state, table⟩ := State.takeSample_opened_untriggered running hg ho (breaks no) posttrig hf fills goesOn
            unused untriggered
          refine ⟨state.trans (openingState_eq _ _), table.trans ?_⟩
          rw [unmarkedTable, List.map_append]
          exact congrArg (· ++ _) (unmarkedTable_changeAt _ _ _)
      · obtain ⟨idle, outside, cst, table⟩ := State.takeSample_lastFilled running hg ho (breaks no) posttrig hf fills
          (Nat.le_of_not_lt goesOn)
        refine ⟨by rw [cst]; rfl, by rw [cst]; rfl, fun more => absurd more goesOn, fun _ => ⟨idle, outside, by rw [cst]; rfl,
          ?_⟩⟩
        rw [table]
        exact unmarkedTable_changeAt _ _ _
  · intro began unmarked
    have joins : s.sampleBreaks s.sampled = false := State.sampleBreaks_empty ho _
    exact ⟨s.takeSample, State.exec_sample active running due, State.takeSample_joining_state running hg ho joins,
      State.takeSample_joining_store running hg ho joins⟩

end Sys2Proof.Proofs
end
